-- ==== Sys2Proof/Word.lean ====
section
/-! DEFINITION. The word types of the Jukasil 9 and the two sparse containers the state is made of. -/

namespace Sys2Proof

/-- A register word (R112). -/
abbrev Word := BitVec 32
/-- A byte of memory, scratch or crown. -/
abbrev Byte := BitVec 8
/-- A generic 64-bit address (R131). -/
abbrev Addr := BitVec 64
/-- A 64-byte block as one little-endian integer (R123). -/
abbrev Block := BitVec 512
/-- A 32-bit block tag (R121). -/
abbrev Tag := BitVec 32

/-- A sparse array: addresses strictly rising, no entry equal to 0, an unlisted address reads 0. -/
abbrev SMap (w : Nat) := List (Nat × BitVec w)
/-- Memory: a sparse array of bytes (a list of `Host.Cell`). -/
abbrev Mem := SMap 8
/-- A keyed collection. -/
abbrev Assoc (α : Type) := List (Nat × α)

end Sys2Proof
end

