-- ==== Sys2Proof/Syntax.lean ====
section
/-! DEFINITION. The instructions and events of spec/opcode_table.json: operands, modifiers, flits, records and the one inductive `Instr`. -/

namespace Sys2Proof

/-- Element types by type code 0x0 to 0xF (R336). -/
inductive Ty where
  | i32 | u32 | f32 | i64 | u64 | f16 | bf16 | e4m3 | e5m2 | e2m1 | i16 | u16 | i8 | u8 | i4 | u4
  deriving DecidableEq, Repr

/-- Types of LD and ST: a type of R336, or `.B128` (R391). -/
inductive LdTy where
  | ty (t : Ty) | b128
  deriving DecidableEq, Repr

/-- Rounding codes of R337. -/
inductive Rnd where
  | ne | tz | up | dn
  deriving DecidableEq, Repr

/-- Ordering kinds of R337. -/
inductive Kind where
  | plain | acq | rel | acqrel
  deriving DecidableEq, Repr

/-- Scopes of R158, codes 0b000 to 0b110. -/
inductive Scope where
  | thread | strand | block | trio | die | pkg | pod
  deriving DecidableEq, Repr

/-- Conditions of CMP (R369) and, with `un` and `ord`, of FCMP (R383). -/
inductive Cond where
  | eq | ne | lt | le | gt | ge | un | ord
  deriving DecidableEq, Repr

/-- Conditions of WAITA (R273). -/
inductive WCond where
  | eq | ne | geu | ltu
  deriving DecidableEq, Repr

/-- Operations of ATOM (R358). -/
inductive AtomOp where
  | add | and | or | xor | min | max | exch | cas | fadd | fmin | fmax | sub
  deriving DecidableEq, Repr

/-- Reduction and scan operations (R192). -/
inductive RedOp where
  | add | minI | maxI | minU | maxU | and | or | xor | fadd | fmul | fmin | fmax
  deriving DecidableEq, Repr

/-- Sources of head flags (R189): none, a predicate, a shape register. -/
inductive Seg where
  | none | pred | shape
  deriving DecidableEq, Repr

/-- Shape modes of loads, stores and copies (R211). -/
inductive ShMode where
  | pack | seq | seqb
  deriving DecidableEq, Repr

/-- Thread-by-thread predicate operations of KOP (R389). -/
inductive KopOp where
  | and | or | xor | andn | not | mov
  deriving DecidableEq, Repr

/-- Modes of BXCH (R366). -/
inductive BxMode where
  | rot1 | rot2 | idx
  deriving DecidableEq, Repr

/-- Modes of SHFL (R413). -/
inductive ShflMode where
  | idx | up | down | xor
  deriving DecidableEq, Repr

/-- Queries of SHQ (R220). -/
inductive ShQuery where
  | s | t | org | win | ent | seq | pos | len | valid
  deriving DecidableEq, Repr

/-- Forms of SHSEG (R221). -/
inductive ShForm where
  | head | last | inT
  deriving DecidableEq, Repr

/-- Forms of VOTE (R430). -/
inductive VoteForm where
  | any | all | bal | cnt
  deriving DecidableEq, Repr

/-- Width classes of matrix instructions (R225). -/
inductive MClass where
  | w16 | w8 | w4
  deriving DecidableEq, Repr

/-- Element sizes of GATH (R387). -/
inductive GSize where
  | b8 | b16 | b32 | b64
  deriving DecidableEq, Repr

/-- Formats of PACK and UNPACK (R402). -/
inductive PFmt where
  | f16 | bf16 | e4m3 | e5m2 | e2m1
  deriving DecidableEq, Repr

/-- Engines of R148, in the order of R289's engine byte. -/
inductive Engine where
  | copy | gather | ring | matrix | coll | fabric
  deriving DecidableEq, Repr

/-- An operand: a code of R328, a literal code holding its literal. -/
inductive Opd where
  | v (n : BitVec 8)
  | s (n : BitVec 6)
  | sp (n : BitVec 8)
  | k (n : BitVec 3)
  | lc (n : BitVec 2)
  | q (n : BitVec 2)
  | acc (n : BitVec 2)
  | g (n : BitVec 3)
  | inl (n : BitVec 8)
  | fpc (n : BitVec 8)
  | lit32 (x : BitVec 32)
  | lit64 (x : BitVec 64)
  | none
  deriving DecidableEq, Repr

/-- What every full-form word carries beside its fields: the hold bit and the predicate (R327, R335). -/
structure Ctl where
  hold : Bool
  neg : Bool
  k : BitVec 3
  deriving DecidableEq, Repr

/-- A pair operand (R339). -/
inductive POpd where
  | v (n : BitVec 8)
  | s (n : BitVec 6)
  | inl (n : BitVec 8)
  | fpc (n : BitVec 8)
  deriving DecidableEq, Repr

/-- The pairable subset (R340). The Bool of an integer slot is modifier [0]. -/
inductive Slot where
  | nop
  | add (u : Bool) (d s : POpd)
  | sub (u : Bool) (d s : POpd)
  | and (u : Bool) (d s : POpd)
  | or (u : Bool) (d s : POpd)
  | xor (u : Bool) (d s : POpd)
  | shl (u : Bool) (d s : POpd)
  | shr (i : Bool) (d s : POpd)
  | min (u : Bool) (d s : POpd)
  | max (u : Bool) (d s : POpd)
  | mov (u : Bool) (d s : POpd)
  | mul (u : Bool) (d s : POpd)
  | fadd (d s : POpd)
  | fsub (d s : POpd)
  | fmul (d s : POpd)
  | fmin (d s : POpd)
  | fmax (d s : POpd)
  | ld (d s : POpd)
  deriving DecidableEq, Repr

/-- A record of a record flit (R257). `hor` goes beside it: the horizon that a release writes at the home, or that a line answered
has there (R167, R168); the layout has no field for it (log entry 43). Neither has it one for `sgn`, whether the type of a MIN or
MAX is signed (R358), which goes beside the record as well (log entry 24). -/
structure Rec where
  line : BitVec 33
  op : BitVec 4
  tag : Tag
  mask : BitVec 16
  aop : BitVec 5
  width : BitVec 2
  data : Block
  hor : Option (BitVec 64) := none
  sgn : Bool := false
  deriving DecidableEq, Repr

/-- The payload of a timing flit (R253). -/
structure Timing where
  frame : BitVec 64
  offset : BitVec 64
  generation : BitVec 64
  sender : BitVec 8
  planeStatus : BitVec 8
  cause : BitVec 8
  detPkg : BitVec 16
  absentSet : BitVec 256
  planeMap : BitVec 24
  detAccord : BitVec 64
  detTick : BitVec 64
  deriving DecidableEq, Repr

/-- Flit payloads by kind (R250): idle, stream units (R261), records (R257), timing (R253). -/
inductive Body where
  | idle
  | stream (units : List (Block × Tag))
  | withheld
  | record (recs : List Rec)
  | timing (t : Timing)
  deriving DecidableEq, Repr

/-- A flit: link-layer field of R250 and payload. -/
structure Flit where
  slot : BitVec 10
  frame : BitVec 12
  replay : Bool
  void : Bool
  ready : Bool
  fault : Bool
  absent : Option (BitVec 8)
  nak : Option (BitVec 10)
  body : Body
  deriving DecidableEq, Repr

/-- A record delivered at its home, with the place that orders it (R260). -/
structure HomeRec where
  frame : Nat
  slot : Nat
  plane : Nat
  sender : Nat
  pos : Nat
  body : Rec
  byteMask : BitVec 64
  deriving DecidableEq, Repr

/-- What the training and self-test steps of boot find (R312, R314): the physical outcome of each, per unit. -/
structure BootFindings where
  rails : Bool
  link : Bool
  gen : Nat
  width : Nat
  hbmSlow : List Nat
  hbmFail : List Nat
  badTrios : List (Nat × Nat)
  badPorts : List Nat
  badPlanes : List Nat
  podTick : Option Nat
  barLog : Nat
  priMax : Nat
  deriving DecidableEq, Repr

/-- Answers to a Page Request (R278). -/
inductive PriAnswer where
  | success | invalid | failure
  deriving DecidableEq, Repr

/-- What the PTP servo has at a frame boundary (R32): the frequency trim it asks for in ppb from nominal, its TAI phase error in
ns, and whether it would step the phase. -/
structure ServoTrim where
  ppb : Int
  phase : Int
  step : Bool
  deriving DecidableEq, Repr

/-- The rows of spec/opcode_table.json, in its order: 124 instructions, then 89 events. -/
inductive Instr where
  | abs (c : Ctl) (ty : Ty) (sat : Bool) (d a : Opd)
  | add (c : Ctl) (ty : Ty) (sat : Bool) (d a b : Opd)
  | and (c : Ctl) (ty : Ty) (nb : Bool) (d a b : Opd)
  | atom (c : Ctl) (op : AtomOp) (ty : Ty) (kind : Kind) (sc : Scope) (d a b : Opd)
  | atomTree (c : Ctl) (op : AtomOp) (ty : Ty) (kind : Kind) (sc : Scope) (d a b : Opd)
  | atomq (c : Ctl) (kind : Kind) (sc : Scope) (d a b : Opd)
  | bfi (c : Ctl) (ty : Ty) (d a b e : Opd)
  | bfx (c : Ctl) (ty : Ty) (d a b : Opd)
  | bra (c : Ctl) (disp : Word)
  | bxch (c : Ctl) (mode : BxMode) (d a b : Opd)
  | call (c : Ctl) (d a : Opd)
  | claspInit (c : Ctl) (a b e : Opd)
  | claspArr (c : Ctl) (a : Opd)
  | claspWait (c : Ctl) (a b : Opd)
  | clz (c : Ctl) (ty : Ty) (d a : Opd)
  | cmp (c : Ctl) (cond : Cond) (ty : Ty) (d a b : Opd)
  | coll (c : Ctl) (d a b e : Opd)
  | cpy1d (c : Ctl) (flag : Bool) (a b e : Opd)
  | cpy2d (c : Ctl) (shape : Option ShMode) (flag : Bool) (a b e : Opd)
  | cpyTm (c : Ctl) (out flag : Bool) (a b e : Opd)
  | cpyb (c : Ctl) (a b : Opd)
  | cvt (c : Ctl) (rnd : Rnd) (dty sty : Ty) (d a : Opd)
  | dot4 (c : Ctl) (bs as : Bool) (u : Bool) (d a b e : Opd)
  | exit (c : Ctl)
  | fadd (c : Ctl) (d a b : Opd)
  | fsub (c : Ctl) (d a b : Opd)
  | fmul (c : Ctl) (d a b : Opd)
  | fma (c : Ctl) (d a b e : Opd)
  | fmin (c : Ctl) (d a b : Opd)
  | fmax (c : Ctl) (d a b : Opd)
  | fcmp (c : Ctl) (cond : Cond) (d a b : Opd)
  | fclass (c : Ctl) (d a b : Opd)
  | fscl (c : Ctl) (d a b : Opd)
  | frnd (c : Ctl) (rnd : Rnd) (d a : Opd)
  | frcp (c : Ctl) (d a : Opd)
  | fsqrt (c : Ctl) (d a : Opd)
  | frsq (c : Ctl) (d a : Opd)
  | fdiv (c : Ctl) (d a b : Opd)
  | fexp2 (c : Ctl) (d a : Opd)
  | flog2 (c : Ctl) (d a : Opd)
  | ftanh (c : Ctl) (d a : Opd)
  | fsin (c : Ctl) (d a : Opd)
  | fcos (c : Ctl) (d a : Opd)
  | fence (c : Ctl) (sc : Scope)
  | gathLd (c : Ctl) (sx : Bool) (sz : GSize) (d a b : Opd)
  | gathSt (c : Ctl) (sz : GSize) (a b e : Opd)
  | jmp (c : Ctl) (a : Opd)
  | kop (c : Ctl) (op : KopOp) (d a b : Opd)
  | kopGet (c : Ctl) (d a b : Opd)
  | kopPut (c : Ctl) (d a b : Opd)
  | launch (c : Ctl) (d a b e : Opd)
  | lbrk (c : Ctl)
  | ld (c : Ctl) (dec : Bool) (kind : Kind) (sc : Scope) (shape : Option ShMode) (ty : LdTy) (d a b : Opd)
  | loop (c : Ctl) (d a : Opd) (disp : Word)
  | lred (c : Ctl) (seg : Seg) (op : RedOp) (d a b : Opd)
  | mad (c : Ctl) (ty : Ty) (wide : Bool) (d a b e : Opd)
  | max (c : Ctl) (ty : Ty) (d a b : Opd)
  | mdrn (c : Ctl) (seq clr t norm stats : Bool) (a b e : Opd)
  | min (c : Ctl) (ty : Ty) (d a b : Opd)
  | mlda (c : Ctl) (d a : Opd)
  | mma (c : Ctl) (cls : MClass) (d a b : Opd)
  | mmaTrio (c : Ctl) (cls : MClass) (d a b e : Opd)
  | mmag (c : Ctl) (cls : MClass) (d a b : Opd)
  | mov (c : Ctl) (ty : Ty) (d a : Opd)
  | mul (c : Ctl) (ty : Ty) (wide hi : Bool) (d a b : Opd)
  | mzero (c : Ctl) (d : Opd)
  | mzeroAll (c : Ctl)
  | neg (c : Ctl) (ty : Ty) (sat : Bool) (d a : Opd)
  | nop (c : Ctl)
  | not (c : Ctl) (ty : Ty) (d a : Opd)
  | or (c : Ctl) (ty : Ty) (nb : Bool) (d a b : Opd)
  | pack (c : Ctl) (fmt : PFmt) (d a b : Opd)
  | packBlk (c : Ctl) (fmt : PFmt) (a b : Opd)
  | popc (c : Ctl) (ty : Ty) (d a : Opd)
  | prem (c : Ctl) (crown acc : Bool) (n : BitVec 3) (a b : Opd)
  | region (c : Ctl)
  | ret (c : Ctl) (a : Opd)
  | rettRegion (c : Ctl)
  | rettNext (c : Ctl)
  | role (c : Ctl)
  | rot (c : Ctl) (ty : Ty) (right : Bool) (d a b : Opd)
  | rrot (c : Ctl) (a b : Opd)
  | scan (c : Ctl) (seg : Seg) (op : RedOp) (d a b e : Opd)
  | scanlr (c : Ctl) (seg : Seg) (d a b e : Opd)
  | sel (c : Ctl) (ty : Ty) (d a b e : Opd)
  | shfl (c : Ctl) (s96 : Bool) (mode : ShflMode) (d a b : Opd)
  | shl (c : Ctl) (ty : Ty) (d a b : Opd)
  | shld (c : Ctl) (d a : Opd)
  | shputEnt (c : Ctl) (d a b : Opd)
  | shputOrg (c : Ctl) (d b : Opd)
  | shputAdv (c : Ctl) (d b : Opd)
  | shq (c : Ctl) (qy : ShQuery) (d a b : Opd)
  | shr (c : Ctl) (ty : Ty) (d a b : Opd)
  | shseg (c : Ctl) (form : ShForm) (d a : Opd)
  | shwin (c : Ctl) (d a : Opd)
  | st (c : Ctl) (kind : Kind) (sc : Scope) (shape : Option ShMode) (ty : LdTy) (d a b : Opd)
  | step (c : Ctl)
  | stacc (c : Ctl) (d a b : Opd)
  | staccw (c : Ctl) (d a b e : Opd)
  | stfin (c : Ctl) (d a b : Opd)
  | stinit (c : Ctl) (d a : Opd)
  | stld (c : Ctl) (d a b : Opd)
  | stmrg (c : Ctl) (d a b : Opd)
  | stnorm (c : Ctl) (g : Option (BitVec 3)) (d a b e : Opd)
  | stred (c : Ctl) (seg : Seg) (d a b : Opd)
  | stst (c : Ctl) (a b e : Opd)
  | sub (c : Ctl) (ty : Ty) (sat : Bool) (d a b : Opd)
  | sysr (c : Ctl) (d a : Opd)
  | sysw (c : Ctl) (d a : Opd)
  | tagr (c : Ctl) (d a b : Opd)
  | tagw (c : Ctl) (a b e : Opd)
  | tnext (c : Ctl) (d a : Opd)
  | trap (c : Ctl) (a : Opd)
  | unpack (c : Ctl) (fmt : PFmt) (d a b : Opd)
  | unpackBlk (c : Ctl) (fmt : PFmt) (d a : Opd)
  | until (c : Ctl) (a : Opd)
  | vnt (c : Ctl) (a : Opd)
  | vote (c : Ctl) (form : VoteForm) (d a : Opd)
  | waita (c : Ctl) (cond : WCond) (acq : Bool) (sc : Scope) (d a b e : Opd)
  | waitt (c : Ctl) (e : Engine) (b : Opd)
  | xferSend (c : Ctl) (a b : Opd)
  | xferRecv (c : Ctl) (a b e : Opd)
  | xor (c : Ctl) (ty : Ty) (nb : Bool) (d a b : Opd)
  | pair (hold : Bool) (x y : Slot)
  | holdRelease (core slot : Nat)
  | resultLanding (core : Nat)
  | accumulatorLanding (core : Nat)
  | partnerFailure (core : Nat)
  | ringLanding (core : Nat)
  | crownFill (core : Nat)
  | drainLanding (core : Nat)
  | gatherStoreLanding (core : Nat)
  | claspWaveRelease (core : Nat)
  | strandDeparture (core slot : Nat)
  | blockExit (core : Nat)
  | launchEntryFire (core : Nat)
  | admissionStage (core : Nat)
  | blockStart (core : Nat)
  | commit
  | refresh (stack : Nat)
  | retryDetected (stack line : Nat) (uncorrectable : Bool)
  | waitaDeadline (core slot : Nat)
  | untilRelease (core slot : Nat)
  | stall (core slot : Nat)
  | flitSlot (plane : Nat)
  | flitDelivery (plane peer : Nat) (flit : Flit) (failed : Bool)
  | nakReceived (plane slot : Nat)
  | timingFlit (plane : Nat)
  | fabricPeriodCommit
  | recordLoad (r : HomeRec)
  | recordStore (r : HomeRec)
  | recordStoreb (r : HomeRec)
  | recordCopyw (r : HomeRec)
  | recordAtom (r : HomeRec)
  | recordAtomtree (r : HomeRec)
  | recordResp (r : HomeRec)
  | recordDiscard (r : HomeRec)
  | streamFlit (plane peer : Nat) (flit : Flit)
  | collectiveRead (tree : Nat)
  | collectiveResult (tree : Nat)
  | sliceCommit
  | readyVote
  | plane (p : Nat)
  | clock
  | servoTrim (trim : ServoTrim)
  | faultDetection
  | abort
  | syncA
  | syncB
  | replay
  | alternate
  | halt
  | sliceStart
  | powerPhase
  | temperatureRead (readings : List Nat)
  | alternateRequest (member : Nat) (idle : Bool)
  | fwload
  | install
  | absent
  | treecreate
  | treefree
  | treeEffective (tree : Nat)
  | stop
  | cutComplete
  | stopLimitExpiry
  | fixedSave
  | resume
  | shootdown
  | xlatereply
  | attest
  | migrate
  | emergcfg
  | mailboxBadop
  | mbevcWrite (x : Word)
  | mblostClear
  | eventPost
  | snapshotRequest
  | readbackSnapshot
  | ringEnable (i : Nat)
  | registerWrite (off size : Nat) (x : BitVec 64)
  | hostMemoryWrite (off : Nat) (bytes : List Byte)
  | hostMemoryRead (off len : Nat)
  | priResponse (group : Nat) (ans : PriAnswer)
  | pageWalkComplete (die asid : Nat) (va : Nat)
  | scaleoutPut (ring : Nat)
  | scaleoutGet (ring : Nat)
  | scaleoutCompletion (id : Nat) (status : Nat) (bytes : List Byte)
  | ethernetFrame (port : Nat) (bytes : List Byte) (ptp : Bool)
  | pageMigration
  | powerOn (f : BootFindings)
  | warmReset (f : BootFindings)
  | coreReservationEnd (core : Nat)
  | scaleoutRetransmission (id : Nat) (giveUp : Bool)
  deriving DecidableEq, Repr

end Sys2Proof
end

