-- ==== Sys2Proof/Decode.lean ====
section
/-! DEFINITION. Decoding and encoding of instruction words (14_encoding.md): operand codes, fields, the acceptance rules of every entry, the pair form, `decode`, `encode` and `decodeTableWord`. -/

namespace Sys2Proof

/-- Why a word is no instruction (R344, steps 1 to 4), by cause name. -/
inductive DecErr where
  | illop | illmod | illpair
  deriving DecidableEq, Repr

/-! ## Codes of the enumerations -/

/-- Type code (R336). -/
def Ty.code : Ty → BitVec 4
  | .i32 => 0 | .u32 => 1 | .f32 => 2 | .i64 => 3 | .u64 => 4 | .f16 => 5 | .bf16 => 6 | .e4m3 => 7
  | .e5m2 => 8 | .e2m1 => 9 | .i16 => 10 | .u16 => 11 | .i8 => 12 | .u8 => 13 | .i4 => 14 | .u4 => 15

/-- The type of a type code (R336). -/
def Ty.ofCode (b : BitVec 4) : Ty :=
  match b.toNat with
  | 0 => .i32 | 1 => .u32 | 2 => .f32 | 3 => .i64 | 4 => .u64 | 5 => .f16 | 6 => .bf16 | 7 => .e4m3
  | 8 => .e5m2 | 9 => .e2m1 | 10 => .i16 | 11 => .u16 | 12 => .i8 | 13 => .u8 | 14 => .i4 | _ => .u4

/-- Type code of LD and ST in C index [4:0] (R391). -/
def LdTy.code : LdTy → BitVec 5
  | .ty t => t.code.setWidth 5
  | .b128 => 16

/-- The LD or ST type of C index [4:0] (R391): 0x10 is B128, a larger code none. -/
def LdTy.ofCode (b : BitVec 5) : Option LdTy :=
  if b.toNat < 16 then some (.ty (Ty.ofCode (b.setWidth 4))) else if b = 16 then some .b128 else none

/-- Rounding code (R337). -/
def Rnd.code : Rnd → BitVec 2
  | .ne => 0 | .tz => 1 | .up => 2 | .dn => 3

/-- The rounding of a code (R337). -/
def Rnd.ofCode (b : BitVec 2) : Rnd :=
  match b.toNat with | 0 => .ne | 1 => .tz | 2 => .up | _ => .dn

/-- Ordering-kind code (R337). -/
def Kind.code : Kind → BitVec 2
  | .plain => 0 | .acq => 1 | .rel => 2 | .acqrel => 3

/-- The ordering kind of a code (R337). -/
def Kind.ofCode (b : BitVec 2) : Kind :=
  match b.toNat with | 0 => .plain | 1 => .acq | 2 => .rel | _ => .acqrel

/-- Scope code (R158). -/
def Scope.code : Scope → BitVec 3
  | .thread => 0 | .strand => 1 | .block => 2 | .trio => 3 | .die => 4 | .pkg => 5 | .pod => 6

/-- The scope of a code; 0b111 is none (R158). -/
def Scope.ofCode (b : BitVec 3) : Option Scope :=
  match b.toNat with
  | 0 => some .thread | 1 => some .strand | 2 => some .block | 3 => some .trio | 4 => some .die
  | 5 => some .pkg | 6 => some .pod | _ => none

/-- Condition code of CMP and FCMP (R369, R383). -/
def Cond.code : Cond → BitVec 3
  | .eq => 0 | .ne => 1 | .lt => 2 | .le => 3 | .gt => 4 | .ge => 5 | .un => 6 | .ord => 7

/-- The condition of a code (R369, R383). -/
def Cond.ofCode (b : BitVec 3) : Cond :=
  match b.toNat with
  | 0 => .eq | 1 => .ne | 2 => .lt | 3 => .le | 4 => .gt | 5 => .ge | 6 => .un | _ => .ord

/-- Condition code of WAITA (R273). -/
def WCond.code : WCond → BitVec 2
  | .eq => 0 | .ne => 1 | .geu => 2 | .ltu => 3

/-- The WAITA condition of a code (R273). -/
def WCond.ofCode (b : BitVec 2) : WCond :=
  match b.toNat with | 0 => .eq | 1 => .ne | 2 => .geu | _ => .ltu

/-- Atomic operation code (R358). -/
def AtomOp.code : AtomOp → BitVec 5
  | .add => 0 | .and => 1 | .or => 2 | .xor => 3 | .min => 4 | .max => 5 | .exch => 6 | .cas => 7
  | .fadd => 8 | .fmin => 9 | .fmax => 10 | .sub => 11

/-- The atomic operation of a code (R358); 0x0C and above are none in ATOM. -/
def AtomOp.ofCode (b : BitVec 5) : Option AtomOp :=
  match b.toNat with
  | 0 => some .add | 1 => some .and | 2 => some .or | 3 => some .xor | 4 => some .min | 5 => some .max
  | 6 => some .exch | 7 => some .cas | 8 => some .fadd | 9 => some .fmin | 10 => some .fmax
  | 11 => some .sub | _ => none

/-- Type code of ATOM in C index [7:5] (R357): the first five codes of R336. -/
def atomTyOf (b : BitVec 3) : Option Ty :=
  match b.toNat with
  | 0 => some .i32 | 1 => some .u32 | 2 => some .f32 | 3 => some .i64 | 4 => some .u64 | _ => none

/-- Reduction operation code (R192). -/
def RedOp.code : RedOp → BitVec 4
  | .add => 0 | .minI => 1 | .maxI => 2 | .minU => 3 | .maxU => 4 | .and => 5 | .or => 6 | .xor => 7
  | .fadd => 8 | .fmul => 9 | .fmin => 10 | .fmax => 11

/-- The reduction operation of a code (R192); 0xC to 0xF are none. -/
def RedOp.ofCode (b : BitVec 4) : Option RedOp :=
  match b.toNat with
  | 0 => some .add | 1 => some .minI | 2 => some .maxI | 3 => some .minU | 4 => some .maxU
  | 5 => some .and | 6 => some .or | 7 => some .xor | 8 => some .fadd | 9 => some .fmul
  | 10 => some .fmin | 11 => some .fmax | _ => none

/-- Segment source code (R395, R409). -/
def Seg.code : Seg → BitVec 2
  | .none => 0 | .pred => 1 | .shape => 2

/-- The segment source of a code; 0b11 is none. -/
def Seg.ofCode (b : BitVec 2) : Option Seg :=
  match b.toNat with | 0 => some .none | 1 => some .pred | 2 => some .shape | _ => Option.none

/-- Shape-mode code (R211). -/
def ShMode.code : ShMode → BitVec 2
  | .pack => 0 | .seq => 1 | .seqb => 2

/-- The shape mode of a code; 0b11 is none. -/
def ShMode.ofCode (b : BitVec 2) : Option ShMode :=
  match b.toNat with | 0 => some .pack | 1 => some .seq | 2 => some .seqb | _ => none

/-- KOP operation code (R389). -/
def KopOp.code : KopOp → BitVec 4
  | .and => 0 | .or => 1 | .xor => 2 | .andn => 3 | .not => 4 | .mov => 5

/-- BXCH mode code (R366). -/
def BxMode.code : BxMode → BitVec 2
  | .rot1 => 0 | .rot2 => 1 | .idx => 2

/-- The BXCH mode of a code; 0b11 is none. -/
def BxMode.ofCode (b : BitVec 2) : Option BxMode :=
  match b.toNat with | 0 => some .rot1 | 1 => some .rot2 | 2 => some .idx | _ => none

/-- SHFL mode code (R413). -/
def ShflMode.code : ShflMode → BitVec 2
  | .idx => 0 | .up => 1 | .down => 2 | .xor => 3

/-- The SHFL mode of a code (R413). -/
def ShflMode.ofCode (b : BitVec 2) : ShflMode :=
  match b.toNat with | 0 => .idx | 1 => .up | 2 => .down | _ => .xor

/-- SHQ query code (R220). -/
def ShQuery.code : ShQuery → BitVec 4
  | .s => 0 | .t => 1 | .org => 2 | .win => 3 | .ent => 4 | .seq => 5 | .pos => 6 | .len => 7 | .valid => 8

/-- The SHQ query of a code; 9 and above are none. -/
def ShQuery.ofCode (b : BitVec 4) : Option ShQuery :=
  match b.toNat with
  | 0 => some .s | 1 => some .t | 2 => some .org | 3 => some .win | 4 => some .ent | 5 => some .seq
  | 6 => some .pos | 7 => some .len | 8 => some .valid | _ => none

/-- SHSEG form code (R221). -/
def ShForm.code : ShForm → BitVec 2
  | .head => 0 | .last => 1 | .inT => 2

/-- The SHSEG form of a code; 0b11 is none. -/
def ShForm.ofCode (b : BitVec 2) : Option ShForm :=
  match b.toNat with | 0 => some .head | 1 => some .last | 2 => some .inT | _ => none

/-- VOTE form code (R430). -/
def VoteForm.code : VoteForm → BitVec 2
  | .any => 0 | .all => 1 | .bal => 2 | .cnt => 3

/-- The VOTE form of a code (R430). -/
def VoteForm.ofCode (b : BitVec 2) : VoteForm :=
  match b.toNat with | 0 => .any | 1 => .all | 2 => .bal | _ => .cnt

/-- Matrix width-class code (R247). -/
def MClass.code : MClass → BitVec 2
  | .w16 => 0 | .w8 => 1 | .w4 => 2

/-- The matrix width class of a code; 0b11 is none. -/
def MClass.ofCode (b : BitVec 2) : Option MClass :=
  match b.toNat with | 0 => some .w16 | 1 => some .w8 | 2 => some .w4 | _ => none

/-- GATH size code (R387). -/
def GSize.code : GSize → BitVec 2
  | .b8 => 0 | .b16 => 1 | .b32 => 2 | .b64 => 3

/-- The GATH size of a code (R387). -/
def GSize.ofCode (b : BitVec 2) : GSize :=
  match b.toNat with | 0 => .b8 | 1 => .b16 | 2 => .b32 | _ => .b64

/-- Format code of PACK and UNPACK, a type code of R336 (R402). -/
def PFmt.code : PFmt → BitVec 4
  | .f16 => 5 | .bf16 => 6 | .e4m3 => 7 | .e5m2 => 8 | .e2m1 => 9

/-- The PACK or UNPACK format of a code (R402). -/
def PFmt.ofCode (b : BitVec 4) : Option PFmt :=
  match b.toNat with
  | 5 => some .f16 | 6 => some .bf16 | 7 => some .e4m3 | 8 => some .e5m2 | 9 => some .e2m1 | _ => none

/-- Elements per register word, e of R402. -/
def PFmt.e : PFmt → Nat
  | .f16 => 2 | .bf16 => 2 | .e4m3 => 4 | .e5m2 => 4 | .e2m1 => 8

/-- Registers per thread of the block form, r of R402. -/
def PFmt.r : PFmt → Nat
  | .f16 => 1 | .bf16 => 1 | .e4m3 => 2 | .e5m2 => 2 | .e2m1 => 4

/-- Engine code of WAITT (R431). -/
def Engine.code : Engine → BitVec 8
  | .copy => 0 | .gather => 1 | .ring => 2 | .matrix => 3 | .coll => 4 | .fabric => 5

/-- The engine of a WAITT code; 6 and above are none (R431). -/
def Engine.ofCode (b : BitVec 8) : Option Engine :=
  match b.toNat with
  | 0 => some .copy | 1 => some .gather | 2 => some .ring | 3 => some .matrix | 4 => some .coll
  | 5 => some .fabric | _ => none

/-! ## Operand codes -/

/-- The assigned special registers of R330, by index. -/
def spAssigned (n : BitVec 8) : Bool :=
  (0x40 ≤ n.toNat && n.toNat ≤ 0x4E) || (0x50 ≤ n.toNat && n.toNat ≤ 0x5D)
    || (0x60 ≤ n.toNat && n.toNat ≤ 0x67)

/-- The low index of a 64-bit special register (R330). -/
def sp64 (n : BitVec 8) : Bool :=
  n == 0x48#8 || (0x50 ≤ n.toNat && n.toNat ≤ 0x5C && n.toNat % 2 == 0)

/-- The operand whose code is in its file (R328). -/
def Opd.valid : Opd → Bool
  | .sp n => spAssigned n
  | .lc n => n.toNat < 3
  | .fpc n => n.toNat ≤ 0x16
  | _ => true

/-- The 11-bit code of an operand (R328). -/
def Opd.code : Opd → BitVec 11
  | .v n => 0b000#3 ++ n
  | .s n => 0b00100#5 ++ n
  | .sp n => 0b001#3 ++ n
  | .k n => 0b01000000#8 ++ n
  | .lc n => 0b010000100#9 ++ n
  | .q n => 0b011000000#9 ++ n
  | .acc n => 0b011000100#9 ++ n
  | .g n => 0b01100100#8 ++ n
  | .inl n => 0b100#3 ++ n
  | .fpc n => 0b101#3 ++ n
  | .lit32 _ => 0x620
  | .lit64 _ => 0x640
  | .none => 0x700

/-- The operand of an 11-bit code, its literal from the 8 bytes after the word; none where R328 gives ILLOP. -/
def opdOf (c : BitVec 11) (lit : BitVec 64) : Option Opd :=
  let n : BitVec 8 := c.setWidth 8
  match (c.extractLsb' 8 3).toNat with
  | 0 => some (.v n)
  | 1 => if n.toNat < 64 then some (.s (c.setWidth 6)) else if spAssigned n then some (.sp n) else none
  | 2 => if n.toNat < 8 then some (.k (c.setWidth 3))
         else if 0x10 ≤ n.toNat && n.toNat ≤ 0x12 then some (.lc (c.setWidth 2)) else none
  | 3 => if n.toNat < 4 then some (.q (c.setWidth 2))
         else if 0x10 ≤ n.toNat && n.toNat < 0x14 then some (.acc (c.setWidth 2))
         else if 0x20 ≤ n.toNat && n.toNat < 0x28 then some (.g (c.setWidth 3)) else none
  | 4 => some (.inl n)
  | 5 => if n.toNat ≤ 0x16 then some (.fpc n) else none
  | 6 => if n.toNat = 0x20 then some (.lit32 (lit.setWidth 32))
         else if n.toNat = 0x40 then some (.lit64 lit) else none
  | _ => if n.toNat = 0 then some .none else none

/-- The literal an operand carries after the word, if any (R325, R333). -/
def Opd.literal : Opd → Option (Nat × BitVec 64)
  | .lit32 x => some (4, x.setWidth 64)
  | .lit64 x => some (8, x)
  | _ => Option.none

/-- Whether an operand is a literal. -/
def Opd.isLit : Opd → Bool
  | .lit32 _ => true
  | .lit64 _ => true
  | _ => false

/-! ## Fields of the full form (R327) -/

/-- The fields of a full-form word (R327), the modifier and opcode as bits, the operands decoded. -/
structure Fields where
  ctl : Ctl
  op : BitVec 8
  m : BitVec 6
  d : Opd
  a : Opd
  b : Opd
  c : Opd
  deriving DecidableEq, Repr

/-! ## Operand acceptance by position -/

/-- Vector register. -/
def Opd.isV : Opd → Bool
  | .v _ => true
  | _ => false
/-- Even vector pair (R112, R329). -/
def Opd.isV2 : Opd → Bool
  | .v n => n.toNat % 2 == 0
  | _ => false
/-- Four vector registers from an index that is a multiple of 4. -/
def Opd.isV4 : Opd → Bool
  | .v n => n.toNat % 4 == 0
  | _ => false
/-- Vector register whose index is a multiple of m. -/
def Opd.isVm (m : Nat) : Opd → Bool
  | .v n => n.toNat % m == 0
  | _ => false
/-- Scalar register. -/
def Opd.isS : Opd → Bool
  | .s _ => true
  | _ => false
/-- Even scalar pair, index at most 58 (R112, R329). -/
def Opd.isS2 : Opd → Bool
  | .s n => n.toNat % 2 == 0 && n.toNat ≤ 58
  | _ => false
/-- Four scalar registers, index a multiple of 4 and at most 56 (R391, R418). -/
def Opd.isS4 : Opd → Bool
  | .s n => n.toNat % 4 == 0 && n.toNat ≤ 56
  | _ => false
/-- Special register. -/
def Opd.isSp : Opd → Bool
  | .sp _ => true
  | _ => false
/-- 64-bit special register by its low index (R329). -/
def Opd.isSp2 : Opd → Bool
  | .sp n => sp64 n
  | _ => false
/-- Predicate register. -/
def Opd.isK : Opd → Bool
  | .k _ => true
  | _ => false
/-- Predicate register other than k0. -/
def Opd.isK1 : Opd → Bool
  | .k n => n != 0#3
  | _ => false
/-- Loop counter. -/
def Opd.isLc : Opd → Bool
  | .lc _ => true
  | _ => false
/-- Statistics register. -/
def Opd.isQ : Opd → Bool
  | .q _ => true
  | _ => false
/-- Accumulator. -/
def Opd.isAcc : Opd → Bool
  | .acc _ => true
  | _ => false
/-- Shape register. -/
def Opd.isG : Opd → Bool
  | .g _ => true
  | _ => false
/-- Inline integer. -/
def Opd.isInl : Opd → Bool
  | .inl _ => true
  | _ => false
/-- Inline FP constant. -/
def Opd.isFpc : Opd → Bool
  | .fpc _ => true
  | _ => false
/-- 32-bit literal. -/
def Opd.isLit32 : Opd → Bool
  | .lit32 _ => true
  | _ => false
/-- 64-bit literal. -/
def Opd.isLit64 : Opd → Bool
  | .lit64 _ => true
  | _ => false
/-- No operand. -/
def Opd.isNone : Opd → Bool
  | .none => true
  | _ => false

/-- A single scalar source: s or a special register, which any instruction may read in a source position (R330). -/
def Opd.isSx (o : Opd) : Bool := o.isS || o.isSp
/-- An even scalar pair source: s pair or a 64-bit special register (R329, R330). -/
def Opd.isSx2 (o : Opd) : Bool := o.isS2 || o.isSp2
/-- s or inline. -/
def Opd.isSi (o : Opd) : Bool := o.isSx || o.isInl
/-- s or literal 32. -/
def Opd.isSL (o : Opd) : Bool := o.isSx || o.isLit32
/-- s, inline or literal 32. -/
def Opd.isSiL (o : Opd) : Bool := o.isSi || o.isLit32
/-- v, s, inline or literal 32. -/
def Opd.isVsiL (o : Opd) : Bool := o.isV || o.isSiL
/-- A 32-bit source of R353 and R380: v, s, special, inline, inline FP constant or literal 32. -/
def Opd.isSrc (o : Opd) : Bool := o.isVsiL || o.isFpc
/-- A 64-bit source of R353: pairs, inline, inline FP constant, either literal. -/
def Opd.isSrc2 (o : Opd) : Bool :=
  o.isV2 || o.isSx2 || o.isInl || o.isFpc || o.isLit32 || o.isLit64
/-- A source of an integer type (R353). -/
def Opd.isSrcT (w : Bool) (o : Opd) : Bool := if w then o.isSrc2 else o.isSrc
/-- A destination register of an integer type: v or s, an even pair for 64-bit types (R353). -/
def Opd.isDstT (w : Bool) (o : Opd) : Bool := if w then o.isV2 || o.isS2 else o.isV || o.isS
/-- v or s. -/
def Opd.isVS (o : Opd) : Bool := o.isV || o.isS
/-- An address: even v pair, even s pair or literal 64 (R391). -/
def Opd.isAddr (o : Opd) : Bool := o.isV2 || o.isSx2 || o.isLit64
/-- A matrix array slot: s, or inline at most 127 (R247). -/
def Opd.isSlot : Opd → Bool
  | .inl n => n.toNat ≤ 127
  | o => o.isSx
/-- The base of a parameter group: s, index a multiple of 8 and at most 48 (R371). -/
def Opd.isGroup : Opd → Bool
  | .s n => n.toNat % 8 == 0 && n.toNat ≤ 48
  | _ => false
/-- The head-flag source that matches segsrc (R395, R409, R420). -/
def Opd.isSeg (g : Seg) (o : Opd) : Bool :=
  match g with
  | .none => o.isNone
  | .pred => o.isK
  | .shape => o.isG

/-- 64-bit types: register pairs (R112). -/
def Ty.wide : Ty → Bool
  | .i64 => true
  | .u64 => true
  | _ => false

/-- The types of ADD, SUB, MIN and MAX (R355, R397, R412). -/
def Ty.isAdd (t : Ty) : Bool :=
  t ∈ [.i32, .u32, .i64, .u64, .i16, .u16, .i8, .u8]
/-- The types of ABS and NEG (R354, R397). -/
def Ty.isAbs (t : Ty) : Bool := t ∈ [.i32, .i64, .i16, .i8]
/-- I32, U32, I64, U64. -/
def Ty.isLog (t : Ty) : Bool := t ∈ [.i32, .u32, .i64, .u64]
/-- I32, U32. -/
def Ty.is32 (t : Ty) : Bool := t ∈ [.i32, .u32]
/-- U32, U64. -/
def Ty.isU (t : Ty) : Bool := t ∈ [.u32, .u64]
/-- The types of LD and ST (R391). -/
def LdTy.ok : LdTy → Bool
  | .ty t => t ∈ [.i32, .u32, .f32, .i64, .u64, .f16, .bf16, .i16, .u16, .i8, .u8]
  | .b128 => true

/-- The data register operand of LD and ST (R391, R415). -/
def LdTy.isData (t : LdTy) (o : Opd) : Bool :=
  match t with
  | .ty t => o.isDstT t.wide
  | .b128 => o.isV4 || o.isS4

/-- The types R358 pairs with an atomic operation. -/
def AtomOp.okTy (op : AtomOp) (t : Ty) : Bool :=
  match op with
  | .exch => t ∈ [.i32, .u32, .f32, .i64, .u64]
  | .cas => t ∈ [.i32, .u32, .f32, .i64, .u64]
  | .fadd => t == .f32
  | .fmin => t == .f32
  | .fmax => t == .f32
  | _ => t.isLog

/-- The operations R358 allows with .TREE. -/
def AtomOp.okTree (op : AtomOp) : Bool := !(op == .exch || op == .cas || op == .sub)

/-- The x operand of ATOM (R357). -/
def AtomOp.isX (op : AtomOp) (t : Ty) (o : Opd) : Bool :=
  match op with
  | .cas => if t.wide then o.isV4 || o.isS4 else o.isV2 || o.isSx2
  | _ => if t.wide then o.isV2 || o.isSx2 || o.isInl || o.isLit32 || o.isLit64 else o.isVsiL

/-- A plain access holds scope THREAD, code 0b000 (R164). -/
def scopeOk (k : Kind) (sc : Scope) : Bool := k != .plain || sc == .thread

/-- The source operand of CVT (R376). -/
def isCvtSrc (t : Ty) (o : Opd) : Bool := o.isSrcT t.wide

/-- Whether the entry of `i` accepts every operand in its position (R329, R344 step 2); false on events. -/
def Instr.opsOk : Instr → Bool
  | .abs _ t _ d a => d.isDstT t.wide && a.isSrcT t.wide
  | .neg _ t _ d a => d.isDstT t.wide && a.isSrcT t.wide
  | .not _ t d a => d.isDstT t.wide && a.isSrcT t.wide
  | .add _ t _ d a b => d.isDstT t.wide && a.isSrcT t.wide && b.isSrcT t.wide
  | .sub _ t _ d a b => d.isDstT t.wide && a.isSrcT t.wide && b.isSrcT t.wide
  | .and _ t _ d a b => d.isDstT t.wide && a.isSrcT t.wide && b.isSrcT t.wide
  | .or _ t _ d a b => d.isDstT t.wide && a.isSrcT t.wide && b.isSrcT t.wide
  | .xor _ t _ d a b => d.isDstT t.wide && a.isSrcT t.wide && b.isSrcT t.wide
  | .min _ t d a b => d.isDstT t.wide && a.isSrcT t.wide && b.isSrcT t.wide
  | .max _ t d a b => d.isDstT t.wide && a.isSrcT t.wide && b.isSrcT t.wide
  | .mul _ _ _ _ d a b => d.isVS && a.isSrc && b.isSrc
  | .mad _ _ _ d a b e => d.isVS && a.isSrc && b.isSrc && e.isSrc
  | .shl _ t d a b => d.isDstT t.wide && a.isSrcT t.wide && b.isSrc
  | .shr _ t d a b => d.isDstT t.wide && a.isSrcT t.wide && b.isSrc
  | .rot _ _ _ d a b => d.isVS && a.isSrc && b.isSrc
  | .bfx _ _ d a b => d.isVS && a.isSrc && b.isSrc
  | .bfi _ _ d a b e => d.isVS && a.isSrc && b.isSrc && e.isSrc
  | .clz _ t d a => d.isVS && a.isSrcT t.wide
  | .popc _ t d a => d.isVS && a.isSrcT t.wide
  | .cmp _ _ t d a b => (d.isVS || d.isK1) && a.isSrcT t.wide && b.isSrcT t.wide
  | .sel _ t d a b e => d.isDstT t.wide && a.isSrcT t.wide && b.isSrcT t.wide && e.isK
  | .mov _ t d a => (d.isDstT t.wide || d.isLc) && a.isSrcT t.wide
  | .kop _ op d a b => d.isK1 && a.isK
      && (match op with | .not => b.isNone | .mov => b.isNone | _ => b.isK)
  | .kopGet _ d a b => d.isS && a.isK && b.isInl
  | .kopPut _ d a b => d.isK1 && a.isSiL && b.isInl
  | .dot4 _ _ _ _ d a b e => d.isVS && a.isVsiL && b.isVsiL && e.isVsiL
  | .fadd _ d a b => d.isVS && a.isSrc && b.isSrc
  | .fsub _ d a b => d.isVS && a.isSrc && b.isSrc
  | .fmul _ d a b => d.isVS && a.isSrc && b.isSrc
  | .fma _ d a b e => d.isVS && a.isSrc && b.isSrc && e.isSrc
  | .fmin _ d a b => d.isVS && a.isSrc && b.isSrc
  | .fmax _ d a b => d.isVS && a.isSrc && b.isSrc
  | .fcmp _ _ d a b => (d.isVS || d.isK1) && a.isSrc && b.isSrc
  | .fclass _ d a b => a.isSrc && ((d.isVS && b.isNone) || (d.isK1 && b.isVsiL))
  | .fscl _ d a b => d.isVS && a.isSrc && b.isVsiL
  | .frnd _ _ d a => d.isVS && a.isSrc
  | .frcp _ d a => d.isVS && a.isSrc
  | .fsqrt _ d a => d.isVS && a.isSrc
  | .frsq _ d a => d.isVS && a.isSrc
  | .fdiv _ d a b => d.isVS && a.isSrc && b.isSrc
  | .fexp2 _ d a => d.isVS && a.isSrc
  | .flog2 _ d a => d.isVS && a.isSrc
  | .ftanh _ d a => d.isVS && a.isSrc
  | .fsin _ d a => d.isVS && a.isSrc
  | .fcos _ d a => d.isVS && a.isSrc
  | .cvt _ _ dt sy d a => d.isDstT dt.wide && isCvtSrc sy a
  | .pack _ f d a b => d.isVS && a.isVm f.e && (b.isVsiL || b.isNone)
  | .packBlk _ f a b => a.isVm f.r && b.isSiL
  | .unpack _ f d a b => d.isVm f.e && a.isVsiL && (b.isVsiL || b.isNone)
  | .unpackBlk _ f d a => d.isVm f.r && a.isSiL
  | .shfl _ _ _ d a b => d.isV && a.isV && b.isVsiL
  | .vote _ form d a => a.isK && (match form with
      | .any => d.isK1 || d.isVS
      | .all => d.isK1 || d.isVS
      | .bal => d.isV || (match d with | .s n => n.toNat ≤ 58 | _ => false)
      | .cnt => d.isVS)
  | .bxch _ mode d a b => d.isV && (a.isV || a.isSx)
      && (match mode with | .idx => b.isV || b.isSi | _ => b.isNone)
  | .scan _ g _ d a b e => d.isV && a.isV && b.isSeg g && (e.isSiL || e.isFpc || e.isNone)
  | .scanlr _ g d a b e => d.isV2 && a.isV2 && b.isSeg g && (e.isSx2 || e.isNone)
  | .lred _ g _ d a b => d.isVS && a.isV && b.isSeg g
  | .stinit _ d a => d.isQ && (a.isSrc || a.isNone)
  | .stacc _ d a b => d.isQ && a.isQ && b.isSrc
  | .staccw _ d a b e => d.isQ && a.isQ && b.isSrc && e.isSrc
  | .stmrg _ d a b => d.isQ && a.isQ && b.isQ
  | .stred _ g d a b => d.isQ && a.isQ && b.isSeg g
  | .stfin _ d a b => (d.isV4 || d.isS4) && a.isQ && b.isSrc
  | .stnorm _ _ d a b e => d.isV && a.isSrc && b.isQ
      && (match e with | .v n => n.toNat ≤ 253 | .s n => n.toNat ≤ 58 | _ => false)
  | .stld _ d a b => d.isQ && a.isVsiL && (b.isSiL || b.isNone)
  | .stst _ a b e => a.isVsiL && (b.isSiL || b.isNone) && e.isQ
  | .tagr _ d a b => d.isVS && a.isVsiL && (b.isSiL || b.isNone)
  | .tagw _ a b e => a.isVsiL && (b.isSiL || b.isNone) && e.isVsiL
  | .shld _ d a => d.isG && a.isSx2
  | .shwin _ d a => d.isG && a.isSiL
  | .shputEnt _ d a b => d.isG && a.isSi && b.isSiL
  | .shputOrg _ d b => d.isG && b.isSiL
  | .shputAdv _ d b => d.isG && b.isSiL
  | .shq _ q d a b => d.isVS && a.isG && (match q with
      | .ent => b.isVsiL
      | .seq => b.isVsiL
      | .pos => b.isVsiL
      | .len => b.isVsiL
      | _ => b.isNone)
  | .shseg _ _ d a => d.isK1 && a.isG
  | .ld _ _ _ _ sh t d a b => t.isData d && a.isAddr
      && (match sh with | some _ => b.isG | none => b.isVsiL || b.isNone)
  | .st _ _ _ sh t d a b => t.isData d && a.isAddr
      && (match sh with | some _ => b.isG | none => b.isVsiL || b.isNone)
  | .atom _ op t _ _ d a b => (d.isDstT t.wide || d.isNone) && (a.isV2 || a.isSx2) && op.isX t b
  | .atomTree _ op t _ _ d a b =>
      ((if t.wide then d.isV2 else d.isV) || d.isNone) && (a.isV2 || a.isSx2) && op.isX t b
  | .atomq _ _ _ d a b => (d.isQ || d.isNone) && (a.isV2 || a.isSx2) && b.isQ
  | .waita _ _ _ _ d a b e => (d.isS || d.isNone) && a.isSx2 && b.isSiL && e.isSiL
  | .cpy1d _ f a b e => (a.isSx2 || a.isLit64) && (b.isSx2 || b.isLit64)
      && (if f then e.isGroup else e.isSiL)
  | .cpy2d _ _ _ a b e => (a.isSx2 || a.isLit64) && (b.isSx2 || b.isLit64) && e.isGroup
  | .cpyTm _ _ _ a b e => (a.isSx2 || a.isLit64) && b.isSL && e.isGroup
  | .cpyb _ a b => a.isSi && (b.isSx2 || b.isLit64)
  | .rrot _ a b => a.isSiL && b.isSiL
  | .gathLd _ _ z d a b => (if z == .b64 then d.isV2 else d.isV) && a.isV && (b.isSiL || b.isNone)
  | .gathSt _ z a b e => a.isV && (b.isSiL || b.isNone) && (if z == .b64 then e.isV2 else e.isV)
  | .xferSend _ a b => a.isSL && b.isSL
  | .xferRecv _ a b e => a.isSL && b.isSL && e.isSiL
  | .coll _ d a b e => d.isS && a.isSi && b.isSiL && e.isSx2
  | .mma _ _ d a b => d.isAcc && a.isSL && b.isSlot
  | .mmaTrio _ _ d a b e => d.isAcc && a.isSL && b.isSlot && e.isSi
  | .mmag _ _ d a b => d.isAcc && a.isSL && b.isG
  | .mlda _ d a => d.isAcc && a.isSL
  | .mzero _ d => d.isAcc
  | .mzeroAll _ => true
  | .mdrn _ _ _ _ _ _ a b e => a.isAcc && b.isSL && (e.isG || e.isNone)
  | .bra _ _ => true
  | .jmp _ a => a.isSx2 || a.isLit64
  | .call _ d a => (d.isS2 || d.isNone) && (a.isSx2 || a.isLit32)
  | .ret _ a => a.isSx2
  | .loop _ d a _ => d.isLc && a.isSi
  | .claspInit _ a b e => a.isSi && b.isSiL && e.isSi
  | .claspArr _ a => a.isSi
  | .claspWait _ a b => a.isSi && b.isSiL
  | .launch _ d a b e => d.isS && a.isSx2 && b.isSx2 && e.isSiL
  | .tnext _ d a => d.isS2 && a.isK1
  | .until _ a => a.isSx2 || a.isLit64
  | .vnt _ a => a.isSiL
  | .trap _ a => a.isSi
  | .prem _ _ _ n a b => a.isSiL && (b.isNone || (n != 0#3 && (b.isSx2 || b.isLit64)))
  | .sysr _ d a => d.isVS && a.isSiL
  | .sysw _ d a => a.isVsiL && (match d with
      | .sp n => n == 0x4E#8 || n == 0x5C#8 || n == 0x5D#8 || (0x60 ≤ n.toNat && n.toNat ≤ 0x67)
      | _ => false)
  | .waitt _ _ b => b.isS || b.isSp2 || b.isInl || b.isLit32 || b.isLit64
  | .fence _ _ => true
  | .nop _ => true
  | .lbrk _ => true
  | .exit _ => true
  | .role _ => true
  | .region _ => true
  | .step _ => true
  | .rettRegion _ => true
  | .rettNext _ => true
  | _ => false

/-- Whether the entry of `i` accepts its modifier, type and ordering kind (R336, R344 step 3). -/
def Instr.modOk : Instr → Bool
  | .abs _ t _ _ _ => t.isAbs
  | .neg _ t _ _ _ => t.isAbs
  | .not _ t _ _ => t.isLog
  | .add _ t _ _ _ _ => t.isAdd
  | .sub _ t _ _ _ _ => t.isAdd
  | .and _ t _ _ _ _ => t.isLog
  | .or _ t _ _ _ _ => t.isLog
  | .xor _ t _ _ _ _ => t.isLog
  | .min _ t _ _ _ => t.isAdd
  | .max _ t _ _ _ => t.isAdd
  | .mul _ t _ _ _ _ _ => t.is32
  | .mad _ t _ _ _ _ _ => t.is32
  | .shl _ t _ _ _ => t.isLog
  | .shr _ t _ _ _ => t.isLog
  | .rot _ t _ _ _ _ => t.is32
  | .bfx _ t _ _ _ => t.is32
  | .bfi _ t _ _ _ _ => t.is32
  | .clz _ t _ _ => t.isU
  | .popc _ t _ _ => t.isU
  | .cmp _ c t _ _ _ => t.isLog && c != .un && c != .ord
  | .sel _ t _ _ _ _ => t.isLog || t == .f32
  | .mov _ t d _ => t.isLog && (t.is32 || !d.isLc)
  | .kopGet _ _ _ b => (match b with | .inl n => n.toNat ≤ 2 | _ => true)
  | .kopPut _ _ _ b => (match b with | .inl n => n.toNat ≤ 2 | _ => true)
  | .cvt _ _ _ sy _ a => (match a with
      | .lit32 x => !(sy == .f16 || sy == .bf16) || x.toNat < 65536
      | _ => true)
  | .lred _ g _ d _ _ => g == .none || d.isV
  | .ld _ _ k sc sh t d _ _ => t.ok && (k == .plain || k == .acq) && scopeOk k sc
      && (sh.isNone || (d.isV && k == .plain))
  | .st _ k sc sh t d _ _ => t.ok && (k == .plain || k == .rel) && scopeOk k sc
      && (sh.isNone || (d.isV && k == .plain))
  | .atom _ op t k sc _ _ _ => op.okTy t && scopeOk k sc
  | .atomTree _ op t k sc _ _ _ => op.okTy t && op.okTree && scopeOk k sc
  | .atomq _ k sc _ _ _ => scopeOk k sc
  | .waita _ _ acq sc _ _ _ _ => acq || sc == .thread
  | .gathLd _ sx z _ _ _ => !sx || z == .b8 || z == .b16
  | .mdrn _ sq _ _ norm stats _ _ e => (stats || norm || e.isNone) && (!sq || !e.isNone)
  | .prem _ _ _ n _ _ => n.toNat ≤ 4
  | _ => true

/-! ## The full form -/

/-- Shape flag and mode, C index [7:5] of LD and ST and modifier [5:3] of CPY.2D (R371, R391). -/
def shCode : Option ShMode → BitVec 3
  | some m => 1#1 ++ m.code
  | none => 0

/-- The shape flag and mode of three bits: none of the values where the entry gives ILLMOD. -/
def shOf (b : BitVec 3) : Option (Option ShMode) :=
  if b.getLsbD 2 then (ShMode.ofCode (b.setWidth 2)).map some
  else if b = 0 then some none else none

/-- A constructor as the fields of a word, a pair of slots, or an event, which no word encodes. -/
inductive Form where
  | full (f : Fields)
  | pair (hold : Bool) (x y : Slot)
  | event
  deriving DecidableEq, Repr

/-- The fields of every word instruction, by the encoding tables of the reference entries (R327, R336, R343). -/
def Instr.form : Instr → Form
  | .abs c t o d a => .full ⟨c, 0x04, 0#1 ++ BitVec.ofBool o ++ t.code, d, a, .none, .none⟩
  | .neg c t o d a => .full ⟨c, 0x03, 0#1 ++ BitVec.ofBool o ++ t.code, d, a, .none, .none⟩
  | .not c t d a => .full ⟨c, 0x0C, 0#2 ++ t.code, d, a, .none, .none⟩
  | .add c t o d a b => .full ⟨c, 0x01, 0#1 ++ BitVec.ofBool o ++ t.code, d, a, b, .none⟩
  | .sub c t o d a b => .full ⟨c, 0x02, 0#1 ++ BitVec.ofBool o ++ t.code, d, a, b, .none⟩
  | .and c t o d a b => .full ⟨c, 0x09, 0#1 ++ BitVec.ofBool o ++ t.code, d, a, b, .none⟩
  | .or c t o d a b => .full ⟨c, 0x0A, 0#1 ++ BitVec.ofBool o ++ t.code, d, a, b, .none⟩
  | .xor c t o d a b => .full ⟨c, 0x0B, 0#1 ++ BitVec.ofBool o ++ t.code, d, a, b, .none⟩
  | .min c t d a b => .full ⟨c, 0x05, 0#2 ++ t.code, d, a, b, .none⟩
  | .max c t d a b => .full ⟨c, 0x06, 0#2 ++ t.code, d, a, b, .none⟩
  | .shl c t d a b => .full ⟨c, 0x0D, 0#2 ++ t.code, d, a, b, .none⟩
  | .shr c t d a b => .full ⟨c, 0x0E, 0#2 ++ t.code, d, a, b, .none⟩
  | .bfx c t d a b => .full ⟨c, 0x10, 0#2 ++ t.code, d, a, b, .none⟩
  | .mul c t w h d a b => .full ⟨c, 0x07, BitVec.ofBool h ++ BitVec.ofBool w ++ t.code, d, a, b, .none⟩
  | .mad c t w d a b e => .full ⟨c, 0x08, 0#1 ++ BitVec.ofBool w ++ t.code, d, a, b, e⟩
  | .rot c t r d a b => .full ⟨c, 0x0F, 0#1 ++ BitVec.ofBool r ++ t.code, d, a, b, .none⟩
  | .bfi c t d a b e => .full ⟨c, 0x11, 0#2 ++ t.code, d, a, b, e⟩
  | .clz c t d a => .full ⟨c, 0x12, 0#2 ++ t.code, d, a, .none, .none⟩
  | .popc c t d a => .full ⟨c, 0x13, 0#2 ++ t.code, d, a, .none, .none⟩
  | .cmp c q t d a b => .full ⟨c, 0x14, q.code ++ t.code.setWidth 3, d, a, b, .none⟩
  | .sel c t d a b e => .full ⟨c, 0x15, 0#2 ++ t.code, d, a, b, e⟩
  | .mov c t d a => .full ⟨c, 0x16, 0#2 ++ t.code, d, a, .none, .none⟩
  | .kop c o d a b => .full ⟨c, 0x17, 0#2 ++ o.code, d, a, b, .none⟩
  | .kopGet c d a b => .full ⟨c, 0x17, 6, d, a, b, .none⟩
  | .kopPut c d a b => .full ⟨c, 0x17, 7, d, a, b, .none⟩
  | .dot4 c bs as u d a b e => .full ⟨c, 0x18, BitVec.ofBool bs ++ BitVec.ofBool as ++ 0#3 ++ BitVec.ofBool u, d, a, b, e⟩
  | .fadd c d a b => .full ⟨c, 0x40, 2, d, a, b, .none⟩
  | .fsub c d a b => .full ⟨c, 0x41, 2, d, a, b, .none⟩
  | .fmul c d a b => .full ⟨c, 0x42, 2, d, a, b, .none⟩
  | .fmin c d a b => .full ⟨c, 0x44, 2, d, a, b, .none⟩
  | .fmax c d a b => .full ⟨c, 0x45, 2, d, a, b, .none⟩
  | .fclass c d a b => .full ⟨c, 0x47, 2, d, a, b, .none⟩
  | .fscl c d a b => .full ⟨c, 0x48, 2, d, a, b, .none⟩
  | .fdiv c d a b => .full ⟨c, 0x53, 2, d, a, b, .none⟩
  | .fma c d a b e => .full ⟨c, 0x43, 2, d, a, b, e⟩
  | .fcmp c q d a b => .full ⟨c, 0x46, q.code ++ 2#3, d, a, b, .none⟩
  | .frnd c r d a => .full ⟨c, 0x49, r.code ++ 2#4, d, a, .none, .none⟩
  | .frcp c d a => .full ⟨c, 0x50, 2, d, a, .none, .none⟩
  | .fsqrt c d a => .full ⟨c, 0x51, 2, d, a, .none, .none⟩
  | .frsq c d a => .full ⟨c, 0x52, 2, d, a, .none, .none⟩
  | .fexp2 c d a => .full ⟨c, 0x54, 2, d, a, .none, .none⟩
  | .flog2 c d a => .full ⟨c, 0x55, 2, d, a, .none, .none⟩
  | .ftanh c d a => .full ⟨c, 0x56, 2, d, a, .none, .none⟩
  | .fsin c d a => .full ⟨c, 0x57, 2, d, a, .none, .none⟩
  | .fcos c d a => .full ⟨c, 0x58, 2, d, a, .none, .none⟩
  | .cvt c r dt sy d a => .full ⟨c, 0x4A, r.code ++ dt.code, d, a, .inl (0#4 ++ sy.code), .none⟩
  | .pack c f d a b => .full ⟨c, 0x4B, 0#2 ++ f.code, d, a, b, .none⟩
  | .packBlk c f a b => .full ⟨c, 0x4B, 2#2 ++ f.code, .none, a, b, .none⟩
  | .unpack c f d a b => .full ⟨c, 0x4C, 0#2 ++ f.code, d, a, b, .none⟩
  | .unpackBlk c f d a => .full ⟨c, 0x4C, 2#2 ++ f.code, d, a, .none, .none⟩
  | .shfl c s m d a b => .full ⟨c, 0x80, 0#3 ++ BitVec.ofBool s ++ m.code, d, a, b, .none⟩
  | .vote c f d a => .full ⟨c, 0x81, 0#4 ++ f.code, d, a, .none, .none⟩
  | .bxch c m d a b => .full ⟨c, 0x82, 0#4 ++ m.code, d, a, b, .none⟩
  | .scan c g o d a b e => .full ⟨c, 0x83, g.code ++ o.code, d, a, b, e⟩
  | .scanlr c g d a b e => .full ⟨c, 0x84, g.code ++ 0#4, d, a, b, e⟩
  | .lred c g o d a b => .full ⟨c, 0x85, g.code ++ o.code, d, a, b, .none⟩
  | .stinit c d a => .full ⟨c, 0x88, 0, d, a, .none, .none⟩
  | .stacc c d a b => .full ⟨c, 0x89, 0, d, a, b, .none⟩
  | .staccw c d a b e => .full ⟨c, 0x8A, 0, d, a, b, e⟩
  | .stmrg c d a b => .full ⟨c, 0x8B, 0, d, a, b, .none⟩
  | .stred c g d a b => .full ⟨c, 0x8C, g.code ++ 0#4, d, a, b, .none⟩
  | .stfin c d a b => .full ⟨c, 0x8D, 0, d, a, b, .none⟩
  | .stnorm c g d a b e => .full ⟨c, 0x8E, (match g with | some n => 1#3 ++ n | none => 0#6), d, a, b, e⟩
  | .shld c d a => .full ⟨c, 0x98, 0, d, a, .none, .none⟩
  | .shwin c d a => .full ⟨c, 0x99, 0, d, a, .none, .none⟩
  | .shputEnt c d a b => .full ⟨c, 0x9A, 0, d, a, b, .none⟩
  | .shputOrg c d b => .full ⟨c, 0x9A, 1, d, .none, b, .none⟩
  | .shputAdv c d b => .full ⟨c, 0x9A, 2, d, .none, b, .none⟩
  | .shq c q d a b => .full ⟨c, 0x9B, 0#2 ++ q.code, d, a, b, .none⟩
  | .shseg c f d a => .full ⟨c, 0x9C, 0#4 ++ f.code, d, a, .none, .none⟩
  | .ld c dec k sc sh t d a b => .full ⟨c, 0xA0, sc.code ++ k.code ++ BitVec.ofBool dec, d, a, b, .inl (shCode sh ++ t.code)⟩
  | .st c k sc sh t d a b => .full ⟨c, 0xA1, sc.code ++ k.code ++ 0#1, d, a, b, .inl (shCode sh ++ t.code)⟩
  | .atom c o t k sc d a b => .full ⟨c, 0xA2, sc.code ++ k.code ++ 0#1, d, a, b, .inl (t.code.setWidth 3 ++ o.code)⟩
  | .atomTree c o t k sc d a b => .full ⟨c, 0xA2, sc.code ++ k.code ++ 1#1, d, a, b, .inl (t.code.setWidth 3 ++ o.code)⟩
  | .atomq c k sc d a b => .full ⟨c, 0xA3, sc.code ++ k.code ++ 0#1, d, a, b, .none⟩
  | .stld c d a b => .full ⟨c, 0xA4, 0, d, a, b, .none⟩
  | .stst c a b e => .full ⟨c, 0xA5, 0, .none, a, b, e⟩
  | .tagr c d a b => .full ⟨c, 0xA6, 0, d, a, b, .none⟩
  | .tagw c a b e => .full ⟨c, 0xA7, 0, .none, a, b, e⟩
  | .waita c q acq sc d a b e => .full ⟨c, 0xBC, sc.code ++ BitVec.ofBool acq ++ q.code, d, a, b, e⟩
  | .cpy1d c f a b e => .full ⟨c, 0xC0, 0#3 ++ BitVec.ofBool f ++ 0#2, .none, a, b, e⟩
  | .cpy2d c sh f a b e => .full ⟨c, 0xC0, shCode sh ++ BitVec.ofBool f ++ 1#2, .none, a, b, e⟩
  | .cpyTm c out f a b e => .full ⟨c, 0xC0, 0#2 ++ BitVec.ofBool out ++ BitVec.ofBool f ++ 2#2, .none, a, b, e⟩
  | .cpyb c a b => .full ⟨c, 0xC1, 0, .none, a, b, .none⟩
  | .rrot c a b => .full ⟨c, 0xC2, 0, .none, a, b, .none⟩
  | .gathLd c sx z d a b => .full ⟨c, 0xC3, 0#2 ++ BitVec.ofBool sx ++ z.code ++ 0#1, d, a, b, .none⟩
  | .gathSt c z a b e => .full ⟨c, 0xC3, 0#3 ++ z.code ++ 1#1, .none, a, b, e⟩
  | .xferSend c a b => .full ⟨c, 0xC8, 0, .none, a, b, .none⟩
  | .xferRecv c a b e => .full ⟨c, 0xC8, 1, .none, a, b, e⟩
  | .coll c d a b e => .full ⟨c, 0xC9, 0, d, a, b, e⟩
  | .mma c k d a b => .full ⟨c, 0xD0, 0#4 ++ k.code, d, a, b, .none⟩
  | .mmaTrio c k d a b e => .full ⟨c, 0xD0, 1#4 ++ k.code, d, a, b, e⟩
  | .mmag c k d a b => .full ⟨c, 0xD1, 0#4 ++ k.code, d, a, b, .none⟩
  | .mlda c d a => .full ⟨c, 0xD2, 0, d, a, .none, .none⟩
  | .mzero c d => .full ⟨c, 0xD3, 0, d, .none, .none, .none⟩
  | .mzeroAll c => .full ⟨c, 0xD3, 1, .none, .none, .none, .none⟩
  | .mdrn c sq clr t norm stats a b e => .full ⟨c, 0xD4, 0#1 ++ BitVec.ofBool sq ++ BitVec.ofBool clr ++ BitVec.ofBool t ++ BitVec.ofBool norm ++ BitVec.ofBool stats, .none, a, b, e⟩
  | .bra c x => .full ⟨c, 0xE1, 0, .none, .lit32 x, .none, .none⟩
  | .jmp c a => .full ⟨c, 0xE2, 0, .none, a, .none, .none⟩
  | .call c d a => .full ⟨c, 0xE3, 0, d, a, .none, .none⟩
  | .fence c sc => .full ⟨c, 0xE4, 0#3 ++ sc.code, .none, .none, .none, .none⟩
  | .waitt c e b => .full ⟨c, 0xE5, 0, .none, .inl e.code, b, .none⟩
  | .claspInit c a b e => .full ⟨c, 0xE6, 0, .none, a, b, e⟩
  | .claspArr c a => .full ⟨c, 0xE6, 1, .none, a, .none, .none⟩
  | .claspWait c a b => .full ⟨c, 0xE6, 2, .none, a, b, .none⟩
  | .ret c a => .full ⟨c, 0xE7, 0, .none, a, .none, .none⟩
  | .loop c d a x => .full ⟨c, 0xE8, 0, d, a, .lit32 x, .none⟩
  | .nop c => .full ⟨c, 0xE0, 0, .none, .none, .none, .none⟩
  | .lbrk c => .full ⟨c, 0xE9, 0, .none, .none, .none, .none⟩
  | .exit c => .full ⟨c, 0xEA, 0, .none, .none, .none, .none⟩
  | .role c => .full ⟨c, 0xEB, 0, .none, .none, .none, .none⟩
  | .region c => .full ⟨c, 0xF2, 0, .none, .none, .none, .none⟩
  | .step c => .full ⟨c, 0xF3, 0, .none, .none, .none, .none⟩
  | .launch c d a b e => .full ⟨c, 0xEC, 0, d, a, b, e⟩
  | .tnext c d a => .full ⟨c, 0xED, 0, d, a, .none, .none⟩
  | .until c a => .full ⟨c, 0xEE, 0, .none, a, .none, .none⟩
  | .vnt c a => .full ⟨c, 0xEF, 0, .none, a, .none, .none⟩
  | .trap c a => .full ⟨c, 0xF0, 0, .none, a, .none, .none⟩
  | .rettRegion c => .full ⟨c, 0xF1, 0, .none, .none, .none, .none⟩
  | .rettNext c => .full ⟨c, 0xF1, 1, .none, .none, .none, .none⟩
  | .prem c cr ac n a b => .full ⟨c, 0xF4, 0#1 ++ BitVec.ofBool cr ++ BitVec.ofBool ac ++ n, .none, a, b, .none⟩
  | .sysr c d a => .full ⟨c, 0xF5, 0, d, a, .none, .none⟩
  | .sysw c d a => .full ⟨c, 0xF6, 0, d, a, .none, .none⟩
  | .pair h x y => .pair h x y
  | _ => .event

/-- Bits [lo + n − 1 : lo] of a modifier. -/
def mf (m : BitVec 6) (lo n : Nat) : BitVec n := m.extractLsb' lo n

/-- The instruction that opcode, modifier and operands name, before its operands are checked; none where the opcode
is unassigned, the modifier has no meaning, or a position that must hold 0x700, a target or a code does not. -/
def candidate (f : Fields) : Option Instr :=
  let c := f.ctl
  let d := f.d
  let a := f.a
  let b := f.b
  let e := f.c
  let m := f.m
  let t := Ty.ofCode (mf m 0 4)
  let o := m.getLsbD 4
  let h := m.getLsbD 5
  let nb := b.isNone
  let ne := e.isNone
  let nbe := nb && ne
  let nda := d.isNone && a.isNone
  match f.op.toNat with
  | 0x01 => if !h && ne then some (.add c t o d a b) else none
  | 0x02 => if !h && ne then some (.sub c t o d a b) else none
  | 0x03 => if !h && nbe then some (.neg c t o d a) else none
  | 0x04 => if !h && nbe then some (.abs c t o d a) else none
  | 0x05 => if !h && !o && ne then some (.min c t d a b) else none
  | 0x06 => if !h && !o && ne then some (.max c t d a b) else none
  | 0x07 => if ne then some (.mul c t o h d a b) else none
  | 0x08 => if !h then some (.mad c t o d a b e) else none
  | 0x09 => if !h && ne then some (.and c t o d a b) else none
  | 0x0A => if !h && ne then some (.or c t o d a b) else none
  | 0x0B => if !h && ne then some (.xor c t o d a b) else none
  | 0x0C => if !h && !o && nbe then some (.not c t d a) else none
  | 0x0D => if !h && !o && ne then some (.shl c t d a b) else none
  | 0x0E => if !h && !o && ne then some (.shr c t d a b) else none
  | 0x0F => if !h && ne then some (.rot c t o d a b) else none
  | 0x10 => if !h && !o && ne then some (.bfx c t d a b) else none
  | 0x11 => if !h && !o then some (.bfi c t d a b e) else none
  | 0x12 => if !h && !o && nbe then some (.clz c t d a) else none
  | 0x13 => if !h && !o && nbe then some (.popc c t d a) else none
  | 0x14 => if ne then some (.cmp c (Cond.ofCode (mf m 3 3)) (Ty.ofCode (0#1 ++ mf m 0 3)) d a b) else none
  | 0x15 => if !h && !o then some (.sel c t d a b e) else none
  | 0x16 => if !h && !o && nbe then some (.mov c t d a) else none
  | 0x17 => if ne then
      match m.toNat with
      | 0 => some (.kop c .and d a b)
      | 1 => some (.kop c .or d a b)
      | 2 => some (.kop c .xor d a b)
      | 3 => some (.kop c .andn d a b)
      | 4 => some (.kop c .not d a b)
      | 5 => some (.kop c .mov d a b)
      | 6 => some (.kopGet c d a b)
      | 7 => some (.kopPut c d a b)
      | _ => none
    else none
  | 0x18 => if mf m 1 3 = 0 then some (.dot4 c h o (m.getLsbD 0) d a b e) else none
  | 0x40 => if m = 2 && ne then some (.fadd c d a b) else none
  | 0x41 => if m = 2 && ne then some (.fsub c d a b) else none
  | 0x42 => if m = 2 && ne then some (.fmul c d a b) else none
  | 0x43 => if m = 2 then some (.fma c d a b e) else none
  | 0x44 => if m = 2 && ne then some (.fmin c d a b) else none
  | 0x45 => if m = 2 && ne then some (.fmax c d a b) else none
  | 0x46 => if mf m 0 3 = 2 && ne then some (.fcmp c (Cond.ofCode (mf m 3 3)) d a b) else none
  | 0x47 => if m = 2 && ne then some (.fclass c d a b) else none
  | 0x48 => if m = 2 && ne then some (.fscl c d a b) else none
  | 0x49 => if mf m 0 4 = 2 && nbe then some (.frnd c (Rnd.ofCode (mf m 4 2)) d a) else none
  | 0x4A => if ne then
      match b with
      | .inl n => if n.toNat < 16 then
          some (.cvt c (Rnd.ofCode (mf m 4 2)) t (Ty.ofCode (n.setWidth 4)) d a) else none
      | _ => none
    else none
  | 0x4B => if !o && ne then
      match PFmt.ofCode (mf m 0 4) with
      | some k => if h then (if d.isNone then some (.packBlk c k a b) else none) else some (.pack c k d a b)
      | none => none
    else none
  | 0x4C => if !o && ne then
      match PFmt.ofCode (mf m 0 4) with
      | some k => if h then (if nb then some (.unpackBlk c k d a) else none) else some (.unpack c k d a b)
      | none => none
    else none
  | 0x50 => if m = 2 && nbe then some (.frcp c d a) else none
  | 0x51 => if m = 2 && nbe then some (.fsqrt c d a) else none
  | 0x52 => if m = 2 && nbe then some (.frsq c d a) else none
  | 0x53 => if m = 2 && ne then some (.fdiv c d a b) else none
  | 0x54 => if m = 2 && nbe then some (.fexp2 c d a) else none
  | 0x55 => if m = 2 && nbe then some (.flog2 c d a) else none
  | 0x56 => if m = 2 && nbe then some (.ftanh c d a) else none
  | 0x57 => if m = 2 && nbe then some (.fsin c d a) else none
  | 0x58 => if m = 2 && nbe then some (.fcos c d a) else none
  | 0x80 => if mf m 3 3 = 0 && ne then
      some (.shfl c (m.getLsbD 2) (ShflMode.ofCode (mf m 0 2)) d a b) else none
  | 0x81 => if mf m 2 4 = 0 && nbe then some (.vote c (VoteForm.ofCode (mf m 0 2)) d a) else none
  | 0x82 => if mf m 2 4 = 0 && ne then (BxMode.ofCode (mf m 0 2)).map (fun k => .bxch c k d a b) else none
  | 0x83 => match Seg.ofCode (mf m 4 2), RedOp.ofCode (mf m 0 4) with
    | some g, some r => some (.scan c g r d a b e)
    | _, _ => none
  | 0x84 => if mf m 0 4 = 0 then (Seg.ofCode (mf m 4 2)).map (fun g => .scanlr c g d a b e) else none
  | 0x85 => if ne then
      match Seg.ofCode (mf m 4 2), RedOp.ofCode (mf m 0 4) with
      | some g, some r => some (.lred c g r d a b)
      | _, _ => none
    else none
  | 0x88 => if m = 0 && nbe then some (.stinit c d a) else none
  | 0x89 => if m = 0 && ne then some (.stacc c d a b) else none
  | 0x8A => if m = 0 then some (.staccw c d a b e) else none
  | 0x8B => if m = 0 && ne then some (.stmrg c d a b) else none
  | 0x8C => if mf m 0 4 = 0 && ne then (Seg.ofCode (mf m 4 2)).map (fun g => .stred c g d a b) else none
  | 0x8D => if m = 0 && ne then some (.stfin c d a b) else none
  | 0x8E => if m = 0 then some (.stnorm c none d a b e)
      else if mf m 3 3 = 1 then some (.stnorm c (some (mf m 0 3)) d a b e) else none
  | 0x98 => if m = 0 && nbe then some (.shld c d a) else none
  | 0x99 => if m = 0 && nbe then some (.shwin c d a) else none
  | 0x9A => if ne then
      match m.toNat with
      | 0 => some (.shputEnt c d a b)
      | 1 => if a.isNone then some (.shputOrg c d b) else none
      | 2 => if a.isNone then some (.shputAdv c d b) else none
      | _ => none
    else none
  | 0x9B => if mf m 4 2 = 0 && ne then (ShQuery.ofCode (mf m 0 4)).map (fun q => .shq c q d a b) else none
  | 0x9C => if mf m 2 4 = 0 && nbe then (ShForm.ofCode (mf m 0 2)).map (fun q => .shseg c q d a) else none
  | 0xA0 => match e, Scope.ofCode (mf m 3 3) with
    | .inl n, some sc =>
      match shOf (n.extractLsb' 5 3), LdTy.ofCode (n.extractLsb' 0 5) with
      | some sh, some ty => some (.ld c (m.getLsbD 0) (Kind.ofCode (mf m 1 2)) sc sh ty d a b)
      | _, _ => none
    | _, _ => none
  | 0xA1 => match e, Scope.ofCode (mf m 3 3) with
    | .inl n, some sc =>
      match shOf (n.extractLsb' 5 3), LdTy.ofCode (n.extractLsb' 0 5) with
      | some sh, some ty => if m.getLsbD 0 then none else some (.st c (Kind.ofCode (mf m 1 2)) sc sh ty d a b)
      | _, _ => none
    | _, _ => none
  | 0xA2 => match e, Scope.ofCode (mf m 3 3) with
    | .inl n, some sc =>
      match atomTyOf (n.extractLsb' 5 3), AtomOp.ofCode (n.extractLsb' 0 5) with
      | some ty, some op =>
        if m.getLsbD 0 then some (.atomTree c op ty (Kind.ofCode (mf m 1 2)) sc d a b)
        else some (.atom c op ty (Kind.ofCode (mf m 1 2)) sc d a b)
      | _, _ => none
    | _, _ => none
  | 0xA3 => if !m.getLsbD 0 && ne then
      (Scope.ofCode (mf m 3 3)).map (fun sc => .atomq c (Kind.ofCode (mf m 1 2)) sc d a b) else none
  | 0xA4 => if m = 0 && ne then some (.stld c d a b) else none
  | 0xA5 => if m = 0 && d.isNone then some (.stst c a b e) else none
  | 0xA6 => if m = 0 && ne then some (.tagr c d a b) else none
  | 0xA7 => if m = 0 && d.isNone then some (.tagw c a b e) else none
  | 0xBC => (Scope.ofCode (mf m 3 3)).map
      (fun sc => .waita c (WCond.ofCode (mf m 0 2)) (m.getLsbD 2) sc d a b e)
  | 0xC0 => if d.isNone then
      match (mf m 0 2).toNat with
      | 0 => if mf m 3 3 = 0 then some (.cpy1d c (m.getLsbD 2) a b e) else none
      | 1 => (shOf (mf m 3 3)).map (fun sh => .cpy2d c sh (m.getLsbD 2) a b e)
      | 2 => if mf m 4 2 = 0 then some (.cpyTm c (m.getLsbD 3) (m.getLsbD 2) a b e) else none
      | _ => none
    else none
  | 0xC1 => if m = 0 && d.isNone && ne then some (.cpyb c a b) else none
  | 0xC2 => if m = 0 && d.isNone && ne then some (.rrot c a b) else none
  | 0xC3 => if mf m 4 2 = 0 then
      if m.getLsbD 0 then
        if d.isNone && !m.getLsbD 3 then some (.gathSt c (GSize.ofCode (mf m 1 2)) a b e) else none
      else if ne then some (.gathLd c (m.getLsbD 3) (GSize.ofCode (mf m 1 2)) d a b) else none
    else none
  | 0xC8 => if d.isNone then
      match m.toNat with
      | 0 => if ne then some (.xferSend c a b) else none
      | 1 => some (.xferRecv c a b e)
      | _ => none
    else none
  | 0xC9 => if m = 0 then some (.coll c d a b e) else none
  | 0xD0 => match MClass.ofCode (mf m 0 2) with
    | some k => if mf m 2 4 = 0 then (if ne then some (.mma c k d a b) else none)
        else if mf m 2 4 = 1 then some (.mmaTrio c k d a b e) else none
    | none => none
  | 0xD1 => if mf m 2 4 = 0 && ne then (MClass.ofCode (mf m 0 2)).map (fun k => .mmag c k d a b) else none
  | 0xD2 => if m = 0 && nbe then some (.mlda c d a) else none
  | 0xD3 => if a.isNone && nbe then
      match m.toNat with
      | 0 => some (.mzero c d)
      | 1 => if d.isNone then some (.mzeroAll c) else none
      | _ => none
    else none
  | 0xD4 => if !h && d.isNone then
      some (.mdrn c o (m.getLsbD 3) (m.getLsbD 2) (m.getLsbD 1) (m.getLsbD 0) a b e) else none
  | 0xE0 => if m = 0 && nda && nbe then some (.nop c) else none
  | 0xE1 => if m = 0 && d.isNone && nbe then
      match a with
      | .lit32 x => some (.bra c x)
      | _ => none
    else none
  | 0xE2 => if m = 0 && d.isNone && nbe then some (.jmp c a) else none
  | 0xE3 => if m = 0 && nbe then some (.call c d a) else none
  | 0xE4 => if mf m 3 3 = 0 && nda && nbe then (Scope.ofCode (mf m 0 3)).map (fun sc => .fence c sc) else none
  | 0xE5 => if m = 0 && d.isNone && ne then
      match a with
      | .inl n => (Engine.ofCode n).map (fun g => .waitt c g b)
      | _ => none
    else none
  | 0xE6 => if d.isNone then
      match m.toNat with
      | 0 => some (.claspInit c a b e)
      | 1 => if nbe then some (.claspArr c a) else none
      | 2 => if ne then some (.claspWait c a b) else none
      | _ => none
    else none
  | 0xE7 => if m = 0 && d.isNone && nbe then some (.ret c a) else none
  | 0xE8 => if m = 0 && ne then
      match b with
      | .lit32 x => some (.loop c d a x)
      | _ => none
    else none
  | 0xE9 => if m = 0 && nda && nbe then some (.lbrk c) else none
  | 0xEA => if m = 0 && nda && nbe then some (.exit c) else none
  | 0xEB => if m = 0 && nda && nbe then some (.role c) else none
  | 0xEC => if m = 0 then some (.launch c d a b e) else none
  | 0xED => if m = 0 && nbe then some (.tnext c d a) else none
  | 0xEE => if m = 0 && d.isNone && nbe then some (.until c a) else none
  | 0xEF => if m = 0 && d.isNone && nbe then some (.vnt c a) else none
  | 0xF0 => if m = 0 && d.isNone && nbe then some (.trap c a) else none
  | 0xF1 => if nda && nbe then
      match m.toNat with
      | 0 => some (.rettRegion c)
      | 1 => some (.rettNext c)
      | _ => none
    else none
  | 0xF2 => if m = 0 && nda && nbe then some (.region c) else none
  | 0xF3 => if m = 0 && nda && nbe then some (.step c) else none
  | 0xF4 => if !h && d.isNone && ne then
      some (.prem c o (m.getLsbD 3) (mf m 0 3) a b) else none
  | 0xF5 => if m = 0 && nbe then some (.sysr c d a) else none
  | 0xF6 => if m = 0 && nbe then some (.sysw c d a) else none
  | _ => none

/-- The opcodes the map of R343 assigns. -/
def opAssigned (op : BitVec 8) : Bool :=
  let n := op.toNat
  (0x01 ≤ n && n ≤ 0x18) || (0x40 ≤ n && n ≤ 0x4C) || (0x50 ≤ n && n ≤ 0x58) || (0x80 ≤ n && n ≤ 0x85)
    || (0x88 ≤ n && n ≤ 0x8E) || (0x98 ≤ n && n ≤ 0x9C) || (0xA0 ≤ n && n ≤ 0xA7) || n == 0xBC
    || (0xC0 ≤ n && n ≤ 0xC3) || n == 0xC8 || n == 0xC9 || (0xD0 ≤ n && n ≤ 0xD4) || (0xE0 ≤ n && n ≤ 0xF6)

/-- Whether every modifier breach that an entry can find in `i` lies in an operand that its form allows: a beat number,
a scalar destination of a segmented or shape-aware word, a literal too wide for its type, an operation that does not go with
its type or with .TREE (R358, R389, R391, R395, R415). -/
def Instr.modInOperand : Instr → Bool
  | .kopGet .. | .kopPut .. | .lred .. | .cvt .. | .atom .. | .atomTree .. => true
  | .ld _ _ _ _ sh t _ _ _ => sh.isSome && t.ok
  | .st _ _ _ sh t _ _ _ => sh.isSome && t.ok
  | _ => false

/-- Whether the fields name an instruction whose entry accepts the operands, and the modifier but for what an operand
of a form it allows breaks. -/
def fits (f : Fields) : Bool :=
  match candidate f with
  | some i => i.opsOk && (i.modOk || i.modInOperand)
  | none => false

/-- The form that a modifier of an opcode selects, where an entry lists operands by form (R344 step 2: a position is
judged in the form the modifier names; log entry 12); none where the modifier names no form. -/
def formOf (op : BitVec 8) (m : BitVec 6) : Option Nat :=
  match op.toNat with
  | 0x17 => if (mf m 0 4).toNat < 8 then some (mf m 0 4).toNat else none
  | 0x4B => some (mf m 5 1).toNat
  | 0x4C => some (mf m 5 1).toNat
  | 0x83 => if (mf m 4 2).toNat < 3 then some (mf m 4 2).toNat else none
  | 0x84 => if (mf m 4 2).toNat < 3 then some (mf m 4 2).toNat else none
  | 0x85 => if (mf m 4 2).toNat < 3 then some (mf m 4 2).toNat else none
  | 0x8C => if (mf m 4 2).toNat < 3 then some (mf m 4 2).toNat else none
  | 0x9A => if (mf m 0 2).toNat < 3 then some (mf m 0 2).toNat else none
  | 0xA2 => some (mf m 0 1).toNat
  | 0xC0 => if (mf m 0 2).toNat < 3 then some (mf m 0 2).toNat else none
  | 0xC3 => some (mf m 0 1).toNat
  | 0xC8 => some (mf m 0 1).toNat
  | 0xD0 => some (mf m 2 1).toNat
  | 0xD3 => some (mf m 0 1).toNat
  | 0xE6 => if (mf m 0 2).toNat < 3 then some (mf m 0 2).toNat else none
  | _ => none

/-- The C codes of an LD or ST in the form that the shape flag of `n` names, with its type where it is one (R391). -/
def altAccess (n : BitVec 8) : List Opd :=
  (if (LdTy.ofCode (n.extractLsb' 0 5)).any LdTy.ok then [n.extractLsb' 0 5] else [0x00#5, 0x03#5, 0x10#5]).map
    fun (t : BitVec 5) => .inl (BitVec.ofBool (n.getLsbD 7) ++ 0#2 ++ t)

/-- Whether a modifier of opcodes 0x01 to 0x16 names a type of register pairs (R336). -/
def pairType (op : BitVec 8) (m : BitVec 6) : Bool :=
  let t := m &&& (if op = 0x14#8 then 0x07 else 0x0F)
  op.toNat ≤ 0x16 && (t == 3 || t == 4)

/-- The fields with every modifier of the same form, of register pairs if the modifier names a type of those, and with every
type, shape and engine that the entry places in an operand. -/
def altFields (f : Fields) : List Fields :=
  let cs : List Opd :=
    match f.op.toNat, f.c with
    | 0xA0, .inl n => altAccess n
    | 0xA1, .inl n => altAccess n
    | 0xA2, .inl n =>
        (if (atomTyOf (n.extractLsb' 5 3)).isSome then [n.extractLsb' 5 3] else [0#3, 3#3]).flatMap fun (t : BitVec 3) =>
          (if (AtomOp.ofCode (n.extractLsb' 0 5)).isSome then [n.extractLsb' 0 5] else [0#5, 7#5]).map
            fun (o : BitVec 5) => .inl (t ++ o)
    | _, e => [e]
  let a : Opd :=
    match f.op.toNat, f.a with
    | 0xE5, .inl _ => .inl 0
    | _, o => o
  let ms := ((List.range 64).map (BitVec.ofNat 6)).filter fun m =>
    (formOf f.op f.m == none || formOf f.op m == formOf f.op f.m) && (!pairType f.op f.m || pairType f.op m)
  cs.flatMap fun e => ms.map fun m => { f with m := m, a := a, c := e }

/-- The bits of an opcode's modifier that settle the shapes of its operands: a type, a form, a segmentation or a size
(R336 and the entries). -/
def shapeMask (op : BitVec 8) : BitVec 6 :=
  match op.toNat with
  | 0x14 => 0x07
  | 0x4A => 0x0F
  | 0x4B => 0x2F
  | 0x4C => 0x2F
  | 0x17 => 0x0F
  | 0x81 => 0x03
  | 0x82 => 0x03
  | 0x83 => 0x30
  | 0x84 => 0x30
  | 0x85 => 0x30
  | 0x8C => 0x30
  | 0x9A => 0x03
  | 0x9B => 0x0F
  | 0x9C => 0x03
  | 0xA0 => 0x07
  | 0xA1 => 0x06
  | 0xA2 => 0x07
  | 0xA3 => 0x06
  | 0xC0 => 0x07
  | 0xC3 => 0x07
  | 0xC8 => 0x01
  | 0xD0 => 0x07
  | 0xD3 => 0x01
  | 0xE6 => 0x03
  | 0xF4 => 0x07
  | n => if n ≤ 0x16 then 0x0F else 0x3F

/-- The cause of a word whose operands or modifier fail (R344 steps 2 and 3; DEDUCED, log entry 12): the operands are
judged in the form and type its modifier gives; where the modifier gives none, ILLMOD is for operands that some modifier
of the form would accept. -/
def refusal (f : Fields) : DecErr :=
  let other : DecErr := if (altFields f).any fits then .illmod else .illop
  match candidate { f with m := f.m &&& shapeMask f.op } with
  | some i => if i.opsOk then .illmod else if i.modOk then .illop else other
  | none => other

/-- Steps 2 and 3 of R344 on the fields of an assigned opcode. -/
def build (f : Fields) : Except DecErr Instr :=
  match candidate f with
  | some i =>
    if i.opsOk then (if i.modOk then .ok i else .error .illmod)
    else if i.modOk then .error .illop else .error (refusal f)
  | none => .error (refusal f)

/-- The length in bytes of the literal after a word, from its first literal code (R325, R333); 0 for a pair. -/
def litLen (w : BitVec 64) : Nat :=
  if w.getLsbD 62 then 0
  else
    let code (o : BitVec 11) (rest : Nat) : Nat :=
      if o = 0x620#11 then 4 else if o = 0x640#11 then 8 else rest
    code (w.extractLsb' 22 11) (code (w.extractLsb' 11 11) (code (w.extractLsb' 0 11) 0))

/-- Decoding a full-form word with the 8 bytes after it (R327, R344 steps 1 to 3). -/
def decodeFull (w lit : BitVec 64) : Except DecErr Instr :=
  let op := w.extractLsb' 54 8
  if !opAssigned op then .error .illop
  else
    let c : Ctl := ⟨w.getLsbD 63, w.getLsbD 47, w.extractLsb' 44 3⟩
    match opdOf (w.extractLsb' 33 11) lit, opdOf (w.extractLsb' 22 11) lit,
      opdOf (w.extractLsb' 11 11) lit, opdOf (w.extractLsb' 0 11) lit with
    | some d, some a, some b, some e =>
      if (c.neg && c.k == 0#3) || d.isLit || (a.isLit && b.isLit) || (a.isLit && e.isLit) || (b.isLit && e.isLit) then
        .error .illop
      else build ⟨c, op, w.extractLsb' 48 6, d, a, b, e⟩
    | _, _, _, _ => .error .illop

/-! ## The pair form (R338 to R341) -/

/-- A slot as bits: opcode, modifier, d, s (R338). -/
structure SlotBits where
  op : BitVec 7
  m : BitVec 4
  d : BitVec 10
  s : BitVec 10
  deriving DecidableEq, Repr

/-- The code of a pair operand (R339). -/
def POpd.code : POpd → BitVec 10
  | .v n => 0#2 ++ n
  | .s n => 0b0100#4 ++ n
  | .inl n => 2#2 ++ n
  | .fpc n => 3#2 ++ n

/-- The pair operand of a code; none for class 01 with [7:6] non-zero, which is ILLPAIR (R339). -/
def POpd.ofCode (c : BitVec 10) : Option POpd :=
  match (c.extractLsb' 8 2).toNat with
  | 0 => some (.v (c.setWidth 8))
  | 1 => if (c.extractLsb' 6 2) = 0 then some (.s (c.setWidth 6)) else none
  | 2 => some (.inl (c.setWidth 8))
  | _ => some (.fpc (c.setWidth 8))

/-- Class 11 with an index above 0x16 (R339). -/
def pcodeBad (c : BitVec 10) : Bool := c.extractLsb' 8 2 == 3#2 && decide (0x16 < (c.extractLsb' 0 8).toNat)

/-- The slot opcodes R340 assigns. -/
def slotAssigned (op : BitVec 7) : Bool :=
  let n := op.toNat
  n ≤ 0x0B || (0x10 ≤ n && n ≤ 0x14) || n == 0x20

/-- The modifiers R340 accepts for a slot. -/
def slotModOk (b : SlotBits) : Bool :=
  b.m = 0 || (b.m = 1 && 1 ≤ b.op.toNat && b.op.toNat ≤ 0x0B)

/-- The bits of a slot (R338, R340). -/
def Slot.bits : Slot → SlotBits
  | .nop => ⟨0, 0, 0, 0⟩
  | .add u d s => ⟨0x01, 0#3 ++ BitVec.ofBool u, d.code, s.code⟩
  | .sub u d s => ⟨0x02, 0#3 ++ BitVec.ofBool u, d.code, s.code⟩
  | .and u d s => ⟨0x03, 0#3 ++ BitVec.ofBool u, d.code, s.code⟩
  | .or u d s => ⟨0x04, 0#3 ++ BitVec.ofBool u, d.code, s.code⟩
  | .xor u d s => ⟨0x05, 0#3 ++ BitVec.ofBool u, d.code, s.code⟩
  | .shl u d s => ⟨0x06, 0#3 ++ BitVec.ofBool u, d.code, s.code⟩
  | .shr i d s => ⟨0x07, 0#3 ++ BitVec.ofBool i, d.code, s.code⟩
  | .min u d s => ⟨0x08, 0#3 ++ BitVec.ofBool u, d.code, s.code⟩
  | .max u d s => ⟨0x09, 0#3 ++ BitVec.ofBool u, d.code, s.code⟩
  | .mov u d s => ⟨0x0A, 0#3 ++ BitVec.ofBool u, d.code, s.code⟩
  | .mul u d s => ⟨0x0B, 0#3 ++ BitVec.ofBool u, d.code, s.code⟩
  | .fadd d s => ⟨0x10, 0, d.code, s.code⟩
  | .fsub d s => ⟨0x11, 0, d.code, s.code⟩
  | .fmul d s => ⟨0x12, 0, d.code, s.code⟩
  | .fmin d s => ⟨0x13, 0, d.code, s.code⟩
  | .fmax d s => ⟨0x14, 0, d.code, s.code⟩
  | .ld d s => ⟨0x20, 0, d.code, s.code⟩

/-- The slot of an assigned opcode with accepted modifier; none where d or s is ILLPAIR by its own (R339 to R341). -/
def Slot.ofBits (b : SlotBits) : Option Slot :=
  if b.op = 0 then (if b.d = 0 && b.s = 0 then some .nop else none)
  else
    let u := b.m.getLsbD 0
    match POpd.ofCode b.d, POpd.ofCode b.s with
    | some d, some s =>
      match d with
      | .inl _ => none
      | .fpc _ => none
      | _ =>
        match b.op.toNat with
        | 0x01 => some (.add u d s)
        | 0x02 => some (.sub u d s)
        | 0x03 => some (.and u d s)
        | 0x04 => some (.or u d s)
        | 0x05 => some (.xor u d s)
        | 0x06 => some (.shl u d s)
        | 0x07 => some (.shr u d s)
        | 0x08 => some (.min u d s)
        | 0x09 => some (.max u d s)
        | 0x0A => some (.mov u d s)
        | 0x0B => some (.mul u d s)
        | 0x10 => some (.fadd d s)
        | 0x11 => some (.fsub d s)
        | 0x12 => some (.fmul d s)
        | 0x13 => some (.fmin d s)
        | 0x14 => some (.fmax d s)
        | _ => some (.ld d s)
    | _, _ => none

/-- Destination, source and whether d is read, of a slot other than NOP (R340). -/
def Slot.parts : Slot → Option (POpd × POpd × Bool)
  | .nop => none
  | .add _ d s => some (d, s, true)
  | .sub _ d s => some (d, s, true)
  | .and _ d s => some (d, s, true)
  | .or _ d s => some (d, s, true)
  | .xor _ d s => some (d, s, true)
  | .shl _ d s => some (d, s, true)
  | .shr _ d s => some (d, s, true)
  | .min _ d s => some (d, s, true)
  | .max _ d s => some (d, s, true)
  | .mov _ d s => some (d, s, false)
  | .mul _ d s => some (d, s, true)
  | .fadd d s => some (d, s, true)
  | .fsub d s => some (d, s, true)
  | .fmul d s => some (d, s, true)
  | .fmin d s => some (d, s, true)
  | .fmax d s => some (d, s, true)
  | .ld d s => some (d, s, false)

/-- Whether a slot is LD. -/
def Slot.isLd : Slot → Bool
  | .ld _ _ => true
  | _ => false

/-- The vector registers a slot reads (R341). -/
def Slot.vreads (x : Slot) : List Nat :=
  match x.parts with
  | none => []
  | some (d, s, r) =>
    (match d with | .v n => if r then [n.toNat] else [] | _ => [])
      ++ (match s with | .v n => [n.toNat] | _ => [])

/-- Whether the registers of a list, each counted once, lie in distinct banks, index mod 4 (R341). -/
def banksDistinct : List Nat → Bool
  | [] => true
  | x :: xs => xs.all (fun y => x == y || x % 4 != y % 4) && banksDistinct xs

/-- The rules of R341 between two slots. -/
def pairOk (x y : Slot) : Bool :=
  !y.isLd && banksDistinct (x.vreads ++ y.vreads)
    && (match x.parts, y.parts with
      | some (.v a, _, _), some (.v b, _, _) => a.toNat % 4 != b.toNat % 4
      | some (.s a, _, _), some (.s b, _, _) => a != b
      | _, _ => true)

/-- A destination of a slot is a register, an FP constant has an index of R332. -/
def Slot.ok (x : Slot) : Bool :=
  match x.parts with
  | none => true
  | some (d, s, _) =>
    (match d with | .v _ => true | .s _ => true | _ => false)
      && (match s with | .fpc n => decide (n.toNat ≤ 0x16) | _ => true)

/-- The slot in 31 bits (R338). -/
def slotBitsOf (w : BitVec 31) : SlotBits :=
  ⟨w.extractLsb' 24 7, w.extractLsb' 20 4, w.extractLsb' 10 10, w.extractLsb' 0 10⟩

/-- Decoding a pair word (R338, R344 steps 1 to 4). -/
def decodePair (w : BitVec 64) : Except DecErr Instr :=
  let x := slotBitsOf (w.extractLsb' 31 31)
  let y := slotBitsOf (w.extractLsb' 0 31)
  if !(slotAssigned x.op && slotAssigned y.op) then .error .illop
  else if pcodeBad x.d || pcodeBad x.s || pcodeBad y.d || pcodeBad y.s then .error .illop
  else if !(slotModOk x && slotModOk y) then .error .illmod
  else
    match Slot.ofBits x, Slot.ofBits y with
    | some p, some q => if pairOk p q then .ok (.pair (w.getLsbD 63) p q) else .error .illpair
    | _, _ => .error .illpair

/-! ## Decoding and encoding -/

/-- Decoding a word with the 8 bytes after it, of which a literal takes the low 4 or all 8 (R325, R344). -/
def decode (w lit : BitVec 64) : Except DecErr Instr :=
  if w.getLsbD 62 then decodePair w else decodeFull w lit

/-- Little-endian value of a byte list (R4). -/
def leBytes : List Byte → Nat
  | [] => 0
  | b :: bs => b.toNat + 256 * leBytes bs

/-- Decoding at the head of a byte list: the instruction and the bytes after it. Bytes that are not there read 0. -/
def decodeBytes (bs : List Byte) : Except DecErr (Instr × List Byte) :=
  let w := BitVec.ofNat 64 (leBytes (bs.take 8))
  match decode w (BitVec.ofNat 64 (leBytes ((bs.drop 8).take 8))) with
  | .ok i => .ok (i, bs.drop (8 + litLen w))
  | .error e => .error e

/-- The word of the fields of a full-form instruction (R327). -/
def Fields.word (f : Fields) : BitVec 64 :=
  BitVec.ofBool f.ctl.hold ++ 0#1 ++ f.op ++ f.m ++ BitVec.ofBool f.ctl.neg ++ f.ctl.k
    ++ f.d.code ++ f.a.code ++ f.b.code ++ f.c.code

/-- The literal of the fields: its length in bytes and its value in 64 bits (R325). -/
def Fields.literal (f : Fields) : Nat × BitVec 64 :=
  match f.a.literal, f.b.literal, f.c.literal with
  | some x, _, _ => x
  | none, some x, _ => x
  | none, none, some x => x
  | none, none, none => (0, 0)

/-- A slot in 31 bits (R338). -/
def Slot.word (x : Slot) : BitVec 31 := x.bits.op ++ x.bits.m ++ x.bits.d ++ x.bits.s

/-- The word of an instruction with the length and value of its literal; an event has none. -/
def encode (i : Instr) : Option (BitVec 64 × Nat × BitVec 64) :=
  match i.form with
  | .full f => some (f.word, f.literal.1, f.literal.2)
  | .pair h x y => some (BitVec.ofBool h ++ 1#1 ++ x.word ++ y.word, 0, 0)
  | .event => none

/-- n little-endian bytes of a number (R4). -/
def toBytes : Nat → Nat → List Byte
  | 0, _ => []
  | n + 1, x => BitVec.ofNat 8 x :: toBytes n (x / 256)

/-- The bytes of an instruction in memory (R325). -/
def encodeBytes (i : Instr) : List Byte :=
  match encode i with
  | some (w, n, x) => toBytes 8 w.toNat ++ toBytes n x.toNat
  | none => []

/-- Whether the operands of the fields are valid in their files, at most one is a literal, and the predicate is
not "never" (R328 to R335). -/
def Fields.ok (f : Fields) : Bool :=
  f.d.valid && f.a.valid && f.b.valid && f.c.valid && !(f.ctl.neg && f.ctl.k == 0#3) && !f.d.isLit
    && !(f.a.isLit && f.b.isLit) && !(f.a.isLit && f.c.isLit) && !(f.b.isLit && f.c.isLit)

/-- The instruction that the decoder reads from the table's numbering of a row's bits. -/
def decodeTableWord (_nbits w : Nat) : Option Instr :=
  match decode (BitVec.ofNat 64 w) (BitVec.ofNat 64 (w / 2 ^ 64)) with
  | .ok i => some i
  | .error _ => none

end Sys2Proof
end

