-- ==== Sys2Proof/Config.lean ====
section
/-! DEFINITION. What the implementation fixes and the spec does not give: free values, and the functions of other standards. None has a body, so every statement holds whatever they are. -/

namespace Sys2Proof.Config
open Sys2Proof

/-- A value the spec leaves open, by the draw counter of State (log entry 13). -/
opaque freeWord : Nat → BitVec 64

/-- FIPS 205 SLH-DSA verification of an image under the fused public key (R311, log entry 10). -/
opaque signatureOk : List Byte → Bool

/-- The attestation signature of 29,792 bytes over a report, by the identity key (R311, R316, log entry 10). -/
opaque sign : List Byte → BitVec (8 * 29792)

/-- The CRC and FEC of a flit's first 242 bytes, as its bytes 242 to 255: those of PCI Express 6.0 flit mode (R248, log entry
11). -/
opaque flitCheck : List Byte → BitVec 112

/-- The bytes a block's code holds in memory of another package (R308, R326, log entry 34), by the tick at which the block
starts and the translated address. -/
opaque farByte : Nat → Nat → Byte

end Sys2Proof.Config
end

