-- ==== Sys2Proof/Machine/Fp.lean ====
section
/-! DEFINITION. Number formats (05_numbers.md): exact dyadic values, rounding with flags, the FP32 operations, the special functions, described blocks and the array's summation. -/

namespace Sys2Proof.Machine
open Sys2Proof

/-- Flags as fstat bits: IV [0], DZ [1], OF [2], UF [3], NX [4], RANGE [5] (R117). -/
abbrev Flags := BitVec 6
def fIV : Flags := 1
def fDZ : Flags := 2
def fOF : Flags := 4
def fUF : Flags := 8
def fNX : Flags := 16
def fRANGE : Flags := 32

/-- A floating-point format (R113): exponent and fraction bits, bias, and whether the top exponent holds infinities and NaNs. -/
structure Fmt where
  eb : Nat
  fb : Nat
  bias : Nat
  ieee : Bool
  deriving DecidableEq, Repr

def fmt32 : Fmt := ⟨8, 23, 127, true⟩
def fmtF16 : Fmt := ⟨5, 10, 15, true⟩
def fmtBF16 : Fmt := ⟨8, 7, 127, true⟩
def fmtE5M2 : Fmt := ⟨5, 2, 15, true⟩
def fmtE4M3 : Fmt := ⟨4, 3, 7, false⟩
def fmtE2M1 : Fmt := ⟨2, 1, 1, false⟩

/-- A value of a format: NaN (signalling or not), an infinity, or ± m · 2^e exactly. -/
inductive FV where
  | nan (sig : Bool)
  | inf (neg : Bool)
  | fin (neg : Bool) (m : Nat) (e : Int)
  deriving DecidableEq, Repr

/-- Bit length of a number. -/
def bitLen (n : Nat) : Nat := if n = 0 then 0 else Nat.log2 n + 1

/-- Width of a format in bits. -/
def Fmt.width (f : Fmt) : Nat := 1 + f.eb + f.fb

/-- Exponent of the smallest subnormal. -/
def Fmt.qmin (f : Fmt) : Int := 1 - f.bias - f.fb

/-- Code of the largest finite magnitude (R113). -/
def Fmt.maxCode (f : Fmt) : Nat :=
  if f.ieee then (2 ^ f.eb - 1) * 2 ^ f.fb - 1
  else if f.eb = 4 then 0x7E else 2 ^ (f.eb + f.fb) - 1

/-- Code of +infinity in a format that has one. -/
def Fmt.infCode (f : Fmt) : Nat := (2 ^ f.eb - 1) * 2 ^ f.fb

/-- Code of the canonical NaN (R113); E2M1 has none. -/
def Fmt.nanCode (f : Fmt) : Nat :=
  if f.ieee then f.infCode + 2 ^ (f.fb - 1) else if f.eb = 4 then 0x7F else 0

/-- The sign bit of a format. -/
def Fmt.signBit (f : Fmt) (neg : Bool) : Nat := if neg then 2 ^ (f.eb + f.fb) else 0

/-- The value of a magnitude code as m · 2^e. -/
def Fmt.magnitude (f : Fmt) (mag : Nat) : Nat × Int :=
  let ex := mag / 2 ^ f.fb
  let fr := mag % 2 ^ f.fb
  if ex = 0 then (fr, f.qmin) else (fr + 2 ^ f.fb, f.qmin + (ex - 1 : Nat))

/-- from_bits of R7: the value of a code (R113, R114). E2M1 code 0b1000 reads as −0 (R377). -/
def Fmt.value (f : Fmt) (code : Nat) : FV :=
  let neg := (code / 2 ^ (f.eb + f.fb)) % 2 == 1
  let mag := code % 2 ^ (f.eb + f.fb)
  if f.ieee && mag / 2 ^ f.fb == 2 ^ f.eb - 1 then
    if mag % 2 ^ f.fb = 0 then .inf neg
    else .nan (f.fb > 2 && (mag / 2 ^ (f.fb - 1)) % 2 == 0)
  else if f.eb = 4 && mag == 0x7F then .nan false
  else
    let me := f.magnitude mag
    .fin neg me.1 me.2

/-- m · 2^e divided by 2^q: the floor, and a comparison of the rest with a half (0 below, 1 equal, 2 above) and
whether the rest is non-zero; `st` says that the exact value lies strictly above m · 2^e by less than one unit of it. -/
def quantum (m : Nat) (e q : Int) (st : Bool) : Nat × Nat × Bool :=
  if q ≤ e then (m * 2 ^ (e - q).toNat, 0, st)
  else
    let k := (q - e).toNat
    let n := m / 2 ^ k
    let r := m % 2 ^ k
    let h := 2 ^ (k - 1)
    (n, if r < h then 0 else if r = h && !st then 1 else 2, st || r != 0)

/-- Whether the magnitude is incremented in a rounding mode (R7). -/
def roundUp (r : Rnd) (neg : Bool) (n half : Nat) (inexact : Bool) : Bool :=
  match r with
  | .ne => half == 2 || (half == 1 && n % 2 == 1)
  | .tz => false
  | .up => inexact && !neg
  | .dn => inexact && neg

/-- Rounding ± m · 2^e (plus a positive rest below one unit of it when `st`) to a format: the code and the flags
(R7, R116, R117, R127). Tininess is detected after rounding. -/
def Fmt.round (f : Fmt) (r : Rnd) (neg : Bool) (m : Nat) (e : Int) (st : Bool) : Nat × Flags :=
  if m = 0 && !st then (if f.eb = 2 then 0 else f.signBit neg, 0)
  else
    let top := e + bitLen m - 1
    let qu := top - f.fb
    let a := quantum m e qu st
    let nu := a.1 + if roundUp r neg a.1 a.2.1 a.2.2 then 1 else 0
    let tiny := qu + bitLen nu - 1 < 1 - f.bias
    let q := if qu < f.qmin then f.qmin else qu
    let b := quantum m e q st
    let n := b.1 + if roundUp r neg b.1 b.2.1 b.2.2 then 1 else 0
    let code := (q - f.qmin).toNat * 2 ^ f.fb + n
    if f.maxCode < code then
      let toInf := f.ieee && (match r with | .ne => true | .tz => false | .up => !neg | .dn => neg)
      (f.signBit neg + (if toInf then f.infCode else f.maxCode), fOF ||| fNX)
    else
      let fl : Flags := if b.2.2 then (if tiny then fUF ||| fNX else fNX) else 0
      (if f.eb = 2 && n = 0 then 0 else f.signBit neg + code, fl)

/-- FP32 bits of an exact value, to nearest (round_ne(x, f32)). -/
def r32 (neg : Bool) (m : Nat) (e : Int) (st : Bool) : Word × Flags :=
  let p := fmt32.round .ne neg m e st
  (BitVec.ofNat 32 p.1, p.2)

/-- The canonical FP32 NaN (R113). -/
def cnan : Word := 0x7FC00000
/-- FP32 infinity. -/
def inf32 (neg : Bool) : Word := if neg then 0xFF800000 else 0x7F800000
/-- FP32 zero. -/
def zero32 (neg : Bool) : Word := if neg then 0x80000000 else 0

/-- The value of FP32 bits. -/
def fv (x : Word) : FV := fmt32.value x.toNat

/-- Whether FP32 bits are a NaN, and a signalling one. -/
def isNaN (x : Word) : Bool := match fv x with | .nan _ => true | _ => false
def isSNaN (x : Word) : Bool := match fv x with | .nan s => s | _ => false

/-- IV for signalling inputs (R114). -/
def ivOf (xs : List Word) : Flags := if xs.any isSNaN then fIV else 0

/-- The exact sum of two finite values as sign, magnitude, exponent; an exact zero is +0 unless both are −0. -/
def sumFin (n1 : Bool) (m1 : Nat) (e1 : Int) (n2 : Bool) (m2 : Nat) (e2 : Int) : Bool × Nat × Int :=
  let e := if e1 ≤ e2 then e1 else e2
  let a : Int := (m1 * 2 ^ (e1 - e).toNat : Nat)
  let b : Int := (m2 * 2 ^ (e2 - e).toNat : Nat)
  let s := (if n1 then -a else a) + (if n2 then -b else b)
  if s = 0 then (n1 && n2 && m1 == 0 && m2 == 0, 0, e) else (s < 0, s.natAbs, e)

/-- add32 (R7, R381). -/
def add32 (a b : Word) : Word × Flags :=
  match fv a, fv b with
  | .nan _, _ => (cnan, ivOf [a, b])
  | _, .nan _ => (cnan, ivOf [a, b])
  | .inf s, .inf t => if s == t then (inf32 s, 0) else (cnan, fIV)
  | .inf s, _ => (inf32 s, 0)
  | _, .inf t => (inf32 t, 0)
  | .fin n1 m1 e1, .fin n2 m2 e2 =>
    let s := sumFin n1 m1 e1 n2 m2 e2
    r32 s.1 s.2.1 s.2.2 false

/-- The sign bit flipped. -/
def neg32 (a : Word) : Word := a ^^^ 0x80000000

/-- sub32 (R7): the sum with the sign of b flipped; a NaN keeps its kind. -/
def sub32 (a b : Word) : Word × Flags := if isNaN b then (cnan, ivOf [a, b]) else add32 a (neg32 b)

/-- mul32 (R7, R381). -/
def mul32 (a b : Word) : Word × Flags :=
  match fv a, fv b with
  | .nan _, _ => (cnan, ivOf [a, b])
  | _, .nan _ => (cnan, ivOf [a, b])
  | .inf s, .inf t => (inf32 (s != t), 0)
  | .inf s, .fin t m _ => if m = 0 then (cnan, fIV) else (inf32 (s != t), 0)
  | .fin t m _, .inf s => if m = 0 then (cnan, fIV) else (inf32 (s != t), 0)
  | .fin n1 m1 e1, .fin n2 m2 e2 => r32 (n1 != n2) (m1 * m2) (e1 + e2) false

/-- fma32 (R7, R381): one rounding; 0 × ∞ raises IV even when c is a quiet NaN. -/
def fma32 (a b c : Word) : Word × Flags :=
  let bad := match fv a, fv b with
    | .inf _, .fin _ m _ => m == 0
    | .fin _ m _, .inf _ => m == 0
    | _, _ => false
  if isNaN a || isNaN b || isNaN c || bad then
    (cnan, ivOf [a, b, c] ||| (if bad then fIV else 0))
  else
    let ps := (a ^^^ b).getLsbD 31
    match fv a, fv b, fv c with
    | .fin _ m1 e1, .fin _ m2 e2, .fin n3 m3 e3 =>
      let s := sumFin ps (m1 * m2) (e1 + e2) n3 m3 e3
      r32 s.1 s.2.1 s.2.2 false
    | .fin _ _ _, .fin _ _ _, .inf t => (inf32 t, 0)
    | _, _, .inf t => if t == ps then (inf32 t, 0) else (cnan, fIV)
    | _, _, _ => (inf32 ps, 0)

/-- div32 (R7, R120): correctly rounded quotient. -/
def div32 (a b : Word) : Word × Flags :=
  match fv a, fv b with
  | .nan _, _ => (cnan, ivOf [a, b])
  | _, .nan _ => (cnan, ivOf [a, b])
  | .inf _, .inf _ => (cnan, fIV)
  | .inf s, .fin t _ _ => (inf32 (s != t), 0)
  | .fin s _ _, .inf t => (zero32 (s != t), 0)
  | .fin n1 m1 e1, .fin n2 m2 e2 =>
    if m2 = 0 then (if m1 = 0 then (cnan, fIV) else (inf32 (n1 != n2), fDZ))
    else if m1 = 0 then (zero32 (n1 != n2), 0)
    else
      let x := m1 * 2 ^ 64
      r32 (n1 != n2) (x / m2) (e1 - e2 - 64) (x % m2 != 0)

/-- Integer square root by bits from 2^k down. -/
def isqrtGo : Nat → Nat → Nat → Nat
  | 0, n, r => if (r + 1) * (r + 1) ≤ n then r + 1 else r
  | k + 1, n, r =>
    let t := r + 2 ^ (k + 1)
    isqrtGo k n (if t * t ≤ n then t else r)

/-- Integer square root. -/
def isqrt (n : Nat) : Nat := isqrtGo (bitLen n / 2) n 0

/-- sqrt32 (R7, R120). -/
def sqrt32 (a : Word) : Word × Flags :=
  match fv a with
  | .nan s => (cnan, if s then fIV else 0)
  | .inf s => if s then (cnan, fIV) else (inf32 false, 0)
  | .fin n m e =>
    if m = 0 then (zero32 n, 0)
    else if n then (cnan, fIV)
    else
      let e' := if e % 2 = 0 then e - 80 else e - 81
      let x := m * 2 ^ (e - e').toNat
      let r := isqrt x
      r32 false r (e' / 2) (r * r != x)

/-- rsqrt32 (R7, R120): 1 / sqrt(a), correctly rounded. -/
def rsqrt32 (a : Word) : Word × Flags :=
  match fv a with
  | .nan s => (cnan, if s then fIV else 0)
  | .inf s => if s then (cnan, fIV) else (0, 0)
  | .fin n m e =>
    if m = 0 then (inf32 n, fDZ)
    else if n then (cnan, fIV)
    else
      let m' := if e % 2 = 0 then m else 2 * m
      let e' := if e % 2 = 0 then e else e - 1
      let x := 2 ^ 200
      let r := isqrt (x / m')
      r32 false r (-(e' / 2) - 100) (r * r * m' != x)

/-- rcp32 (R7, R120). -/
def rcp32 (a : Word) : Word × Flags := div32 0x3F800000 a

/-- Order key of FP32 bits with −0 below +0 (R384). -/
def key32 (a : Word) : Int :=
  let mag : Nat := a.toNat % 2 ^ 31
  if a.getLsbD 31 then -(mag : Int) - 1 else mag

/-- FMIN (R384). -/
def fmin32 (a b : Word) : Word × Flags :=
  let r := if isNaN a && isNaN b then cnan else if isNaN a then b else if isNaN b then a
    else if key32 b < key32 a then b else a
  (r, ivOf [a, b])

/-- FMAX (R384). -/
def fmax32 (a b : Word) : Word × Flags :=
  let r := if isNaN a && isNaN b then cnan else if isNaN a then b else if isNaN b then a
    else if key32 a < key32 b then b else a
  (r, ivOf [a, b])

/-- FCMP (R383): −0 equals +0; with a NaN only NE and UN are true. -/
def fcmp32 (c : Cond) (a b : Word) : Bool × Flags :=
  let un := isNaN a || isNaN b
  let k (x : Word) : Int := let mag : Nat := x.toNat % 2 ^ 31; if x.getLsbD 31 then -(mag : Int) else mag
  let r := match c with
    | .eq => !un && k a == k b
    | .ne => un || k a != k b
    | .lt => !un && k a < k b
    | .le => !un && k a ≤ k b
    | .gt => !un && k b < k a
    | .ge => !un && k b ≤ k a
    | .un => un
    | .ord => !un
  (r, ivOf [a, b])

/-- The class word of FCLASS (R382). -/
def fclass32 (a : Word) : Word :=
  match fv a with
  | .nan s => if s then 1 else 2
  | .inf n => if n then 4 else 0x200
  | .fin n m _ =>
    if m = 0 then (if n then 0x20 else 0x40)
    else if m < 2 ^ 23 then (if n then 0x10 else 0x80)
    else if n then 8 else 0x100

/-- a · 2^k rounded once (R386, R426). -/
def scl32 (a : Word) (k : Int) : Word × Flags :=
  match fv a with
  | .nan s => (cnan, if s then fIV else 0)
  | .inf n => (inf32 n, 0)
  | .fin n m e => if m = 0 then (zero32 n, 0) else
      -- beyond these exponents every magnitude overflows, or rounds to zero, alike
      r32 n m (if 600 < k then e + 600 else if k < -600 then e - 600 else e + k) false

/-- The integral magnitude nearest to m · 2^e in a mode, and whether it differs (R377, R385). -/
def toIntegral (r : Rnd) (neg : Bool) (m : Nat) (e : Int) : Nat × Bool :=
  let a := quantum m e 0 false
  (a.1 + if roundUp r neg a.1 a.2.1 a.2.2 then 1 else 0, a.2.2)

/-- FRND (R385). -/
def frnd32 (r : Rnd) (a : Word) : Word × Flags :=
  match fv a with
  | .nan s => (cnan, if s then fIV else 0)
  | .inf n => (inf32 n, 0)
  | .fin n m e =>
    if m = 0 || 0 ≤ e then (a, 0)
    else
      let t := toIntegral r n m e
      ((r32 n t.1 0 false).1 ||| (if t.1 = 0 then zero32 n else 0), if t.2 then fNX else 0)

/-! ## Special functions (R119, R120) -/

/-- ln 2 · 2^320 and π · 2^400, truncated. -/
def ln2Fix : Nat := 1480553391661173448385607439722553250922680800745876974795605978609098082859138712941075737848984
def piFix : Nat := 8112377246730971238862271351300894519161151600179265203591191037615230905373990498745523360926816815427566779727327576236

/-- Fixed point with 320 fraction bits. -/
abbrev fixBits : Nat := 320
def fixOne : Nat := 2 ^ 320

/-- Sum of x^n / n! from the term `t` of index n, for a non-negative fixed-point x. -/
def expSeries : Nat → Nat → Nat → Nat → Nat
  | 0, _, _, _ => 0
  | k + 1, x, n, t => t + expSeries k x (n + 1) (t * x / 2 ^ fixBits / (n + 1))

/-- e^x for 0 ≤ x < 2 in fixed point, truncated. -/
def expFix (x : Nat) : Nat := expSeries 90 x 0 fixOne

/-- 2^f for 0 ≤ f < 1 in fixed point, truncated. -/
def exp2Fix (f : Nat) : Nat := expFix (f * ln2Fix / 2 ^ fixBits)

/-- Sum of z^(2i+1) / (2i+1). -/
def atanhSeries : Nat → Nat → Nat → Nat → Nat
  | 0, _, _, _ => 0
  | k + 1, z2, n, t => t / n + atanhSeries k z2 (n + 2) (t * z2 / 2 ^ fixBits)

/-- ln x for 1 ≤ x < 2 in fixed point, truncated. -/
def lnFix (x : Nat) : Nat :=
  let z := (x - fixOne) * 2 ^ fixBits / (x + fixOne)
  2 * atanhSeries 110 (z * z / 2 ^ fixBits) 1 z

/-- Alternating series of sine (from n = 1) or cosine (from n = 0). -/
def trigSeries : Nat → Int → Nat → Int → Int
  | 0, _, _, _ => 0
  | k + 1, x2, n, t => t + trigSeries k x2 (n + 2) (-(t * x2 / (fixOne : Int) / ((n + 1) * (n + 2) : Nat)))

/-- sin and cos of 0 ≤ x < 2 in fixed point. -/
def sinFix (x : Nat) : Int := trigSeries 50 ((x * x / fixOne : Nat) : Int) 1 x
def cosFix (x : Nat) : Int := trigSeries 50 ((x * x / fixOne : Nat) : Int) 0 fixOne

/-- m · 2^e as fixed point, truncated. -/
def toFix (m : Nat) (e : Int) : Nat :=
  if 0 ≤ e + fixBits then m * 2 ^ (e + fixBits).toNat else m / 2 ^ (-(e + fixBits)).toNat

/-- Rounding of an irrational fixed-point magnitude. -/
def irr32 (neg : Bool) (x : Nat) (e : Int) : Word × Flags := r32 neg x (e - fixBits) true

/-- Whether 0 < m · 2^e < 2^−40. -/
def isTiny (m : Nat) (e : Int) : Bool := m != 0 && e + bitLen m ≤ -40

/-- FEXP2: round_ne(2^a). -/
def exp2_32 (a : Word) : Word × Flags :=
  match fv a with
  | .nan s => (cnan, if s then fIV else 0)
  | .inf n => if n then (0, 0) else (inf32 false, 0)
  | .fin n m e =>
    if m = 0 then (0x3F800000, 0)
    else if isTiny m e then irr32 false (if n then fixOne - 1 else fixOne) 0
    else if 1024 ≤ toFix m e / fixOne then r32 false 1 (if n then -600 else 600) false
    else
      let x := toFix m e
      let i := x / fixOne
      let f := x % fixOne
      if n then
        if f = 0 then r32 false 1 (-(i : Int)) false else irr32 false (exp2Fix (fixOne - f)) (-(i : Int) - 1)
      else if f = 0 then r32 false 1 i false else irr32 false (exp2Fix f) i

/-- FLOG2: round_ne(log2 a). -/
def log2_32 (a : Word) : Word × Flags :=
  match fv a with
  | .nan s => (cnan, if s then fIV else 0)
  | .inf n => if n then (cnan, fIV) else (inf32 false, 0)
  | .fin n m e =>
    if m = 0 then (inf32 true, fDZ)
    else if n then (cnan, fIV)
    else
      let k : Int := e + bitLen m - 1
      if m = 2 ^ (bitLen m - 1) then r32 (k < 0) k.natAbs 0 false
      else
        let f := lnFix (m * 2 ^ (fixBits + 1 - bitLen m)) * fixOne / ln2Fix
        let v : Int := k * fixOne + f
        irr32 (v < 0) v.natAbs 0

/-- FTANH: round_ne(tanh a). -/
def tanh32 (a : Word) : Word × Flags :=
  match fv a with
  | .nan s => (cnan, if s then fIV else 0)
  | .inf n => (if n then 0xBF800000 else 0x3F800000, 0)
  | .fin n m e =>
    if m = 0 then (zero32 n, 0)
    else if isTiny m e then r32 n (m * 2 ^ 80 - 1) (e - 80) true
    else if 7 < e + bitLen m then irr32 n (fixOne - 1) 0
    else
      -- e^(−2x) = 2^(−2x / ln 2)
      let y := 2 * toFix m e * fixOne / ln2Fix
      let i := y / fixOne
      let t := exp2Fix (fixOne - y % fixOne) / 2 ^ (i + 1)
      irr32 n ((fixOne - t) * fixOne / (fixOne + t)) 0

/-- The quadrant and the remainder below π/2 of m · 2^e, by π to 400 bits. -/
def trigReduce (m : Nat) (e : Int) : Nat × Nat :=
  let x := if 0 ≤ e + 400 then m * 2 ^ (e + 400).toNat else m / 2 ^ (-(e + 400)).toNat
  let h := piFix / 2
  (x / h % 4, x % h / 2 ^ 80)

/-- FSIN (`cos` false) and FCOS: round_ne of the exact value; RANGE alone for |a| ≥ 2^32 (R120). -/
def trig32 (cos : Bool) (a : Word) : Word × Flags :=
  match fv a with
  | .nan s => (cnan, if s then fIV else 0)
  | .inf _ => (cnan, fRANGE)
  | .fin n m e =>
    if m = 0 then (if cos then 0x3F800000 else zero32 n, 0)
    else if 33 ≤ e + bitLen m then (cnan, fRANGE)
    else if isTiny m e then (if cos then irr32 false (fixOne - 1) 0 else r32 n (m * 2 ^ 80 - 1) (e - 80) true)
    else
      let p := trigReduce m e
      let k := (p.1 + if cos then 1 else 0) % 4
      let v : Int := if k % 2 = 0 then sinFix p.2 else cosFix p.2
      irr32 ((2 ≤ k) != (!cos && n)) v.natAbs 0

/-! ## Types, elements and conversion (R111, R112, R127) -/

/-- The floating-point format of a type. -/
def tyFmt : Ty → Option Fmt
  | .f32 => some fmt32
  | .f16 => some fmtF16
  | .bf16 => some fmtBF16
  | .e4m3 => some fmtE4M3
  | .e5m2 => some fmtE5M2
  | .e2m1 => some fmtE2M1
  | _ => none

/-- Width of a type in bits. -/
def tyBits : Ty → Nat
  | .i64 => 64 | .u64 => 64
  | .f16 => 16 | .bf16 => 16 | .i16 => 16 | .u16 => 16
  | .e4m3 => 8 | .e5m2 => 8 | .i8 => 8 | .u8 => 8
  | .e2m1 => 4 | .i4 => 4 | .u4 => 4
  | _ => 32

/-- Whether an integer type is signed. -/
def tySigned (t : Ty) : Bool := t ∈ [.i32, .i64, .i16, .i8, .i4]

/-- The integer value of the low w bits. -/
def intOf (signed : Bool) (w : Nat) (x : Nat) : Int :=
  let v := x % 2 ^ w
  if signed && 2 ^ (w - 1) ≤ v then (v : Int) - (2 ^ w : Nat) else v

/-- The low w bits of an integer (wrapping, R111). -/
def wrapTo (w : Nat) (v : Int) : Nat := (v % (2 ^ w : Nat)).toNat

/-- Range of an integer type. -/
def satLo (signed : Bool) (w : Nat) : Int := if signed then -(2 ^ (w - 1) : Nat) else 0
def satHi (signed : Bool) (w : Nat) : Int := if signed then (2 ^ (w - 1) : Nat) - 1 else (2 ^ w : Nat) - 1

/-- sat of R7 as a value. -/
def satTo (signed : Bool) (w : Nat) (v : Int) : Int :=
  if v < satLo signed w then satLo signed w else if satHi signed w < v then satHi signed w else v

/-- Whether a value is in an integer type's range. -/
def inRange (signed : Bool) (w : Nat) (v : Int) : Bool := satLo signed w ≤ v && v ≤ satHi signed w

/-- Conversion of a value to a floating-point format with the edge results of R127. -/
def toFmt (f : Fmt) (r : Rnd) (x : FV) : Nat × Flags :=
  match x with
  | .nan s =>
    if f.eb = 2 then (0, fIV) else (f.nanCode, if s then fIV else 0)
  | .inf n =>
    if f.ieee then (f.signBit n + f.infCode, 0)
    else if f.eb = 4 then (f.nanCode, fIV)
    else (f.signBit n + f.maxCode, fIV)
  | .fin n m e => f.round r n m e false

/-- Conversion of a value to an integer type (R127, R377). -/
def toInt (signed : Bool) (w : Nat) (r : Rnd) (x : FV) : Nat × Flags :=
  match x with
  | .nan _ => (0, fIV)
  | .inf n => (wrapTo w (if n then satLo signed w else satHi signed w), fIV)
  | .fin n m e =>
    -- a magnitude of 2^70 or more is out of every range; larger exponents change nothing
    let t := toIntegral r n m (if 70 < e then 70 else e)
    let v : Int := if n then -(t.1 : Int) else t.1
    if inRange signed w v then (wrapTo w v, if t.2 then fNX else 0) else (wrapTo w (satTo signed w v), fIV)

/-- CVT of one element (R377): the destination code in the low bits. -/
def cvtElem (r : Rnd) (dt sy : Ty) (x : BitVec 64) : BitVec 64 × Flags :=
  let sw := tyBits sy
  let code := x.toNat % 2 ^ sw
  let dw := tyBits dt
  let p : Nat × Flags :=
    match tyFmt dt, tyFmt sy with
    | some f, some g => toFmt f r (g.value code)
    | some f, none =>
      let v := intOf (tySigned sy) sw code
      f.round r (v < 0) v.natAbs 0 false
    | none, some g => toInt (tySigned dt) dw r (g.value code)
    | none, none =>
      let v := intOf (tySigned sy) sw code
      (wrapTo dw (satTo (tySigned dt) dw v), if inRange (tySigned dt) dw v then 0 else fIV)
  (BitVec.ofNat 64 p.1, p.2)

/-- A value times 2^k, k clamped beyond the reach of every format. -/
def FV.scale (x : FV) (k : Int) : FV :=
  match x with
  | .fin n m e => .fin n m (e + if 2000 < k then 2000 else if k < -2000 then -2000 else k)
  | o => o

/-- The format of PACK and UNPACK. -/
def pfmt : PFmt → Fmt
  | .f16 => fmtF16
  | .bf16 => fmtBF16
  | .e4m3 => fmtE4M3
  | .e5m2 => fmtE5M2
  | .e2m1 => fmtE2M1

/-! ## Described blocks (R121 to R126) -/

/-- A tag from format, scale and special byte, with its check byte (R121, R124). -/
def mkTag (format scale special : Byte) : Tag := (format ^^^ scale ^^^ special) ++ special ++ scale ++ format

/-- Fields of a tag. -/
def tagFormat (t : Tag) : Byte := t.extractLsb' 0 8
def tagScale (t : Tag) : Byte := t.extractLsb' 8 8
def tagSpecial (t : Tag) : Byte := t.extractLsb' 16 8

/-- Whether the check byte matches (R124). -/
def tagOk (t : Tag) : Bool := t.extractLsb' 24 8 == tagFormat t ^^^ tagScale t ^^^ tagSpecial t

/-- The floating-point format of a format code (R122). -/
def codeFmt (c : Byte) : Option Fmt :=
  match c.toNat with
  | 1 => some fmt32 | 2 => some fmtF16 | 3 => some fmtBF16 | 4 => some fmtE4M3 | 5 => some fmtE5M2
  | 6 => some fmtE2M1 | _ => none

/-- The format code of PACK and UNPACK formats (R122). -/
def pfmtCode : PFmt → Byte
  | .f16 => 2 | .bf16 => 3 | .e4m3 => 4 | .e5m2 => 5 | .e2m1 => 6

/-- Element i of width w of a block read as a number (R123). -/
def elemAt (b : Nat) (w i : Nat) : Nat := b / 2 ^ (w * i) % 2 ^ w

/-- decode of R125 for a floating-point format. -/
def decodeElem (t : Tag) (f : Fmt) (code : Nat) : FV :=
  if f.width ≤ 8 then
    if tagScale t == 0xFF then .nan false
    else
      let v := if f.eb = 2 && code == 8 then fmtE4M3.value (tagSpecial t).toNat else f.value code
      v.scale ((tagScale t).toNat - 127 : Int)
  else f.value code

/-- Maximum exponent of a scaled format (R126). -/
def emax (f : Fmt) : Int := if f.eb = 4 then 8 else if f.eb = 5 then 15 else 2

/-- The exponent e that R126 chooses. -/
def blockExp (f : Fmt) (xs : List Word) : Int :=
  let tops := xs.filterMap fun x =>
    match fv x with
    | .fin _ m e => if m = 0 then none else some (e + bitLen m - 1)
    | _ => none
  match tops with
  | [] => 0
  | t :: ts =>
    let top := ts.foldl (fun a b => if a < b then b else a) t
    let k := top - emax f
    if k < -127 then -127 else if 127 < k then 127 else k

/-- quantise of R126: element codes, tag and the flags of PACK per element. In an E2M1 block that holds a NaN or an infinity
every code is 0, and a finite element raises no flag (log entry 47). -/
def quantise (f : Fmt) (fc : Byte) (xs : List Word) : List (Nat × Flags) × Tag :=
  if 8 < f.width then (xs.map fun x => toFmt f .ne (fv x), mkTag fc 0x7F 0x80)
  else
    let special := xs.any fun x => match fv x with | .fin _ _ _ => false | _ => true
    if f.eb = 2 && special then
      (xs.map fun x => (0, match fv x with | .fin _ _ _ => 0 | _ => fIV), mkTag fc 0xFF 0x80)
    else
      let e := blockExp f xs
      (xs.map fun x =>
        match fv x with
        | .nan s => (f.nanCode, if s then fIV else 0)
        | .inf n => if f.eb = 5 then (f.signBit n + f.infCode, 0) else (0x7F, fIV)
        | .fin n m k =>
          let p := f.round .ne n m (k - e) false
          if p.2 &&& fOF != 0 then (f.signBit n + f.maxCode, p.2) else p,
       mkTag fc (BitVec.ofInt 8 (e + 127)) 0x80)

/-- Elements of width w put together, element 0 lowest. -/
def concatElems (w : Nat) : List Nat → Nat
  | [] => 0
  | x :: xs => x + 2 ^ w * concatElems w xs

/-- Element codes put into a block, element 0 lowest (R123). -/
def blockOf (w : Nat) (xs : List Nat) : Nat := concatElems w xs

/-! ## Summation in the array (R128) -/

/-- The exact product of two decoded values. -/
def mulFV (a b : FV) : FV :=
  match a, b with
  | .nan _, _ => .nan false
  | _, .nan _ => .nan false
  | .inf s, .inf t => .inf (s != t)
  | .inf s, .fin t m _ => if m = 0 then .nan false else .inf (s != t)
  | .fin t m _, .inf s => if m = 0 then .nan false else .inf (s != t)
  | .fin s m e, .fin t n g => .fin (s != t) (m * n) (e + g)

/-- mac of R128: one rounding of the truncated terms' exact sum. -/
def macTerms (ts : List FV) : Word :=
  let nan := ts.any fun t => match t with | .nan _ => true | _ => false
  let pinf := ts.any fun t => t == .inf false
  let ninf := ts.any fun t => t == .inf true
  if nan || (pinf && ninf) then cnan
  else if pinf then inf32 false
  else if ninf then inf32 true
  else
    let fins : List (Bool × Nat × Int) := ts.filterMap fun t => match t with | .fin n m e => some (n, m, e) | _ => none
    let tops : List Int := fins.filterMap fun t => if t.2.1 = 0 then none else some (t.2.2 + (bitLen t.2.1 : Int) - 1)
    match tops with
    | [] => zero32 (fins.all fun t => t.1)
    | t :: rest =>
      let top := rest.foldl (fun a b => if a < b then b else a) t
      let g := top - 64
      let s : Int := fins.foldl (fun (acc : Int) (t : Bool × Nat × Int) =>
        let m : Nat := (quantum t.2.1 t.2.2 g false).1
        if t.1 then acc - m else acc + m) 0
      if s = 0 then 0 else (r32 (s < 0) s.natAbs g false).1

/-- The FP32 bits of an inline FP constant (R332). -/
def fpConst (n : BitVec 8) : Word :=
  match n.toNat with
  | 0 => 0x00000000
  | 1 => 0x80000000
  | 2 => 0x3F000000
  | 3 => 0x3F800000
  | 4 => 0x40000000
  | 5 => 0x40800000
  | 6 => 0x3E800000
  | 7 => 0xBF000000
  | 8 => 0xBF800000
  | 9 => 0xC0000000
  | 10 => 0xC0800000
  | 11 => 0x7F800000
  | 12 => 0xFF800000
  | 13 => 0x7FC00000
  | 14 => 0x7F7FFFFF
  | 15 => 0x00800000
  | 16 => 0x40490FDB
  | 17 => 0x3EA2F983
  | 18 => 0x3F317218
  | 19 => 0x3FB8AA3B
  | 20 => 0x3FB504F3
  | 21 => 0x3F3504F3
  | 22 => 0x3EAAAAAB
  | _ => 0

end Sys2Proof.Machine
end

