-- ==== Sys2Proof/Machine/State.lean ====
section
/-! DEFINITION. The state of one JK9-A1536 package as plain data, its fault and refusal reasons, and its state at reset. -/

namespace Sys2Proof.Machine
open Sys2Proof

/-- Why the model stops. Each is safe: the model stops where no rule of the spec gives a next state. -/
inductive Fault where
  /-- `exec` was asked for a word instruction with no resident strand selected. Raised by every word meaning; safe. -/
  | noStrand
  deriving DecidableEq, Repr

/-- Why an instruction has no meaning. -/
inductive Refusal where
  /-- The instruction of this mnemonic is not modelled. Raised by an arm of `exec` that has no meaning yet; safe. -/
  | notModelled (mnemonic : String)
  deriving DecidableEq, Repr

/-! ## Strand faults -/

/-- Strand fault causes (R285). -/
inductive Cause where
  | illop | illmod | illpair | illconv | apert | misalign | bound | shwin | confl | perm | xlate | memunc
  | partner | trapsw
  deriving DecidableEq, Repr

/-- A fault that an instruction raises: the cause, the threads that raised it, the fault address of the lowest of
them, the 64 KiB pages that an XLATE needs (R278), the TRAP code, the slot Y mark, the engine of an R150 fault, and whether an
XLATE was already serviced. -/
structure Trap where
  cause : Cause
  threads : List Nat
  addr : BitVec 64 := 0
  pages : List Nat := []
  code : Word := 0
  slotY : Bool := false
  engine : Option Engine := none
  serviced : Bool := false
  deriving DecidableEq, Repr

/-- A fault found while an instruction runs that is raised in a later cycle (R287). -/
structure Late where
  at_ : Nat
  word : Addr
  len : Nat
  trap : Trap
  deriving DecidableEq, Repr

/-- Schedule-fault causes (R57). -/
inductive SCause where
  | slack | fslack | stall | vote | plane | clock
  deriving DecidableEq, Repr

/-! ## Registers -/

/-- A statistics triple with its status word (R178). -/
structure Tri where
  w : Word
  mean : Word
  m2 : Word
  st : Word
  deriving DecidableEq, Repr

/-- The empty triple: status E = 1 (R180). -/
def Tri.empty : Tri := ⟨0, 0, 0, 8⟩

/-- The registers of one allotment (R65, R66, R85): vector registers keyed 96·index + thread, scalar registers by
index, the activity bits am2:am1:am0 by thread, triples keyed 96·index + thread with the empty triple unlisted. -/
structure Regs where
  nv : Nat
  ns : Nat
  nq : Nat
  v : SMap 32
  s : SMap 32
  am : BitVec 96
  q : List (Nat × Tri)
  resume : Addr
  cls : Nat
  deriving DecidableEq, Repr

/-- A shape register (R204); `fresh` marks an empty one (R206). -/
structure ShapeReg where
  valid : Bool
  fresh : Bool
  magicOk : Bool
  seqs : Word
  total : Word
  pitch : Word
  width : BitVec 16
  format : Byte
  flags : BitVec 16
  btab : Addr
  gtab : Addr
  w : Word
  o : Word
  win : SMap 32
  deriving DecidableEq, Repr

/-- The empty shape register (R206): valid, every field 0. -/
def ShapeReg.empty : ShapeReg := ⟨true, true, true, 0, 0, 0, 0, 0, 0, 0, 0, 0, 0, []⟩

/-- An active loop: its counter and the addresses of its first and last body word (R81). -/
structure LoopSt where
  ctr : Nat
  first : Addr
  last : Addr
  deriving DecidableEq, Repr

/-- What REGION records beside the region entry (R293). -/
structure Snapshot where
  lc : SMap 32
  loops : List LoopSt
  tl : SMap 64
  deriving DecidableEq, Repr

/-- One register write that lands later. -/
inductive RegW where
  | v (r t : Nat) (x : Word)
  | s (r : Nat) (x : Word)
  | am (b : Nat) (x : Word)
  | k (r t : Nat) (x : Bool)
  | lc (r : Nat) (x : Word)
  | q (r t : Nat) (x : Tri)
  | fstatOr (t : Nat) (x : BitVec 6)
  | fstatSet (t : Nat) (x : BitVec 6)
  | tvecLo (x : Word)
  | tvecHi (x : Word)
  | regionInc
  | stepInc
  | shEnt (g i : Nat) (x : Word)
  | shOrg (g : Nat) (x : Word)
  | shAll (g : Nat) (r : ShapeReg)
  | shWin (g : Nat) (w : Word) (win : SMap 32)
  deriving DecidableEq, Repr

/-- Register results in flight: issue order, landing tick (none while it is not known), whether they are register
results of R74. -/
structure Pend where
  seq : Nat
  land : Option Nat
  reg : Bool
  writes : List RegW
  deriving DecidableEq, Repr

/-- A memory access of a strand in flight, for fences (R165): its landing if known, and whether it goes to another package. -/
structure Acc where
  seq : Nat
  land : Option Nat
  remote : Bool
  deriving DecidableEq, Repr

/-- An engine operation of a context, in flight or not yet acquired (R148, R150). -/
structure EngOp where
  eng : Engine
  num : Nat
  seq : Nat
  land : Option Nat
  fail : Option (Cause × BitVec 64)
  deriving DecidableEq, Repr

/-- Why a strand is parked. It issues again when the list of its reasons is empty. -/
inductive Wait where
  /-- Register results outstanding (R74). -/
  | hold
  /-- Accesses issued before `seq` (R165); `pod` includes remote ones. -/
  | fence (seq : Nat) (pod : Bool)
  /-- The access of issue `seq`, and with it, as under the hold bit, every register result outstanding (R168). -/
  | acq (seq : Nat)
  /-- A pod tick: a horizon (R168) or a wave release (R106). -/
  | tick (n : Nat)
  /-- The tick from which a handler's first word may issue, after a trap entered outside an issue (R291). -/
  | handler (n : Nat)
  /-- The landing of the accesses to other packages that a strand issued before `seq`, where a horizon rests on them (R168). -/
  | far (c i seq : Nat)
  /-- An Accord time (R428). -/
  | until (t : Nat)
  /-- Engine operations up to `num` (R149); the WAITT word and its leader, for its faults. -/
  | waitt (e : Engine) (num : Nat) (word : Addr) (len leader : Nat)
  /-- The opening of a clasp (R105), with the deadline of R107 in fixed discipline; the word and its leader for R237. -/
  | clasp (c : Nat) (deadline : Option Nat) (word : Addr) (len leader : Nat)
  /-- A global word (R272): physical address, value, condition, destination, deadline in fixed discipline, first
  commit tested, acquire scope. -/
  | waita (pa : Nat) (x : Word) (c : WCond) (d : Option Nat) (deadline : Option Nat) (from_ : Nat) (pod : Bool) (seq : Nat)
  /-- Resumption at the region entry (R294). -/
  | region
  /-- A serviced XLATE: the sequence of its event once posted, and its fault (R307). -/
  | xlate (event : Option Nat) (word : Addr) (len : Nat) (trap : Trap)
  /-- A page walk or a page on the move, which holds the word before it issues (R305, R308). -/
  | walk (asid va : Nat)
  /-- PREM under a cut or at the end of a fixed slice, with what it names as live (R299 to R301): the strand stands
  before the word, whose length is kept for a release. -/
  | prem (len : Nat) (hold : Bool) (vmask : Word) (ranges : List (BitVec 16)) (acc crown fixed : Bool)
  deriving DecidableEq, Repr

/-- How a strand ended (R296, R109): tick, regioncnt, cause code, beat mask, whether EXIT waits for engine faults (R150). -/
structure Ending where
  at_ : Nat
  region : Word
  code : Byte
  beats : BitVec 3
  byExit : Bool
  word : Addr
  departed : Bool
  stored : Bool
  deriving DecidableEq, Repr

/-- One strand slot of a resident block; `passPrem` marks one that RESUME has restored and that has not reissued its PREM
(R302). -/
structure Strand where
  threads : Nat
  pc : Addr
  cur : Regs
  alt : Option Regs
  curIx : Bool
  k : SMap 96
  lc : SMap 32
  loops : List LoopSt
  fstat : SMap 32
  regioncnt : Word
  stepcnt : Word
  tl : SMap 64
  tvec : Addr
  inHandler : Bool
  fword : Addr
  flen : Nat
  /-- The word a parked strand is parked at (R439): the one it issued last. -/
  lastWord : Addr
  frec : BitVec 256
  g : List (Nat × ShapeReg)
  pend : List Pend
  accs : List Acc
  eops : List EngOp
  waits : List Wait
  late : List Late
  entry : Addr
  snap : Snapshot
  passPrem : Bool
  ended : Option Ending
  deriving DecidableEq, Repr

/-! ## Pages -/

/-- A page of the page tables (R305, R306): address space, virtual and physical base, size, home package, permissions. -/
structure Page where
  asid : Nat
  va : Nat
  pa : Nat
  size : Nat
  home : Option Nat
  host : Bool
  w : Bool
  x : Bool
  a : Bool
  deriving DecidableEq, Repr

/-! ## Cores and blocks -/

/-- A clasp (R104). -/
structure Clasp where
  m : BitVec 8
  a : BitVec 8
  e : Nat
  h : Nat
  gen : Word
  deriving DecidableEq, Repr

/-- A clasp effect in flight (R105): INIT, an arrival of a slot, or a hardware arrival; `bad` is the failure of R237. -/
inductive ClaspEff where
  | init (m : BitVec 8) (e : Nat)
  | arrive (slot : Nat)
  | hardware (bad : Bool)
  deriving DecidableEq, Repr

/-- A clasp effect with its landing tick and clasp. -/
structure ClaspLand where
  seq : Nat
  land : Nat
  c : Nat
  eff : ClaspEff
  deriving DecidableEq, Repr

/-- A write to scratch in flight (R142): the row of the table, bytes in order, tags by block. -/
structure SWrite where
  seq : Nat
  land : Nat
  row : Nat
  bytes : List (Nat × Byte)
  tags : List (Nat × Tag)
  deriving DecidableEq, Repr

/-- A scratch-source read still to be made at acceptance (R152, R145, R262). -/
inductive Accept where
  | copy (opSeq : Nat)
  | fill (slot num : Nat) (off cslot land : Nat)
  | send (opSeq : Nat)
  deriving DecidableEq, Repr

/-- A crown fill in flight (R144, R145). -/
structure Fill where
  seq : Nat
  slot : Nat
  num : Nat
  land : Nat
  cslot : Nat
  bytes : SMap 8
  tags : SMap 32
  bad : Bool
  deriving DecidableEq, Repr

/-- A RROT of this core: its index k, issue tick, strand, number and dst; `mute` where its own source was uncorrectable, and it
writes nothing (R146, R408); `alone` where its predecessor counted as exited in its issue cycle (R147). -/
structure RingOp where
  seq : Nat
  k : Nat
  issue : Nat
  slot : Nat
  num : Nat
  dst : Nat
  fixed : Bool
  mute : Bool
  alone : Bool
  deriving DecidableEq, Repr

/-- A tile sent to this core by its predecessor's k-th RROT (R146). -/
structure Tile where
  k : Nat
  issue : Nat
  bad : Bool
  bytes : SMap 8
  tags : SMap 32
  deriving DecidableEq, Repr

/-- A matrix product running on this core's array until its landing (R228, R231, R237): tags and B data as read at issue,
the row still to be read, the value before it for a failure, the cycle of a failure and whether it was delivered. -/
structure MRun where
  seq : Nat
  issue : Nat
  land : Nat
  acc : Nat
  a : Nat
  trio : Option Nat
  issuer : Nat
  slot : Nat
  num : Nat
  word : Addr
  cls : MClass
  rowTags : SMap 32
  rowSlot : List (Nat × Nat)
  bData : SMap 8
  bTags : SMap 32
  before : SMap 32
  next : Nat
  failed : Option Nat
  /-- The generic address of the A block whose error failed the run (R439); 0 where there is none. -/
  badAt : Addr
  delivered : Bool
  deriving DecidableEq, Repr

/-- The landing of an accumulator value (R228): element values of accumulator `acc`; `clears` where the instruction clears its
incomplete mark (R229, R230). -/
structure AccLand where
  seq : Nat
  land : Nat
  acc : Nat
  slot : Nat
  value : SMap 32
  clears : Bool
  deriving DecidableEq, Repr

/-- A resident block (R96): the entry that admitted it, its record's fields and what it holds; `fresh` until its start
cycle gives its storage the state of R96; `code` and `pages` are memory and its address space as its start found them (R326). -/
structure Blk where
  entryIx : Nat
  asid : Nat
  loose : Bool
  fresh : Bool
  rot : Nat
  fire : Nat
  hold : Nat
  start : Nat
  record : SMap 8
  arena : Nat
  stack : Nat
  table : SMap 8
  tableN : Nat
  cursor : Nat
  coords : Option (BitVec 16 × BitVec 16)
  slots : List Strand
  clasps : List (Nat × Clasp)
  code : Mem
  pages : List Page
  exitAt : Option Nat
  deriving DecidableEq, Repr

/-- The schedule in force (R48, R49). -/
inductive InForce where
  | main
  | alt (n : Nat)
  | idle
  deriving DecidableEq, Repr

/-- A launch entry of a core, for as long as the model knows it: the number of its Accord, the schedule of it (the main part or an
alternate) and its index there (R41, R48). -/
structure EntryKey where
  part : Nat
  sched : InForce
  ix : Nat
  deriving DecidableEq, Repr

/-- A launch entry whose stages are running or that waits to be admitted (R93, R94), with its fields (R41). `stage` is
the last stage accepted, 9 once the record is consumed; `landed` when it landed; `slow` marks a stage that landed too late for fixed discipline, and
`late` a STALL already raised; `result` is a rejection already known. -/
structure Adm where
  key : EntryKey
  fire : Nat
  asid : Nat
  cls : Nat
  hold : Nat
  recAt : Addr
  stage : Nat
  landed : Nat
  busy : Bool
  record : SMap 8
  preload : SMap 64
  headers : List (Nat × ShapeReg)
  table : SMap 8
  arena : Nat
  result : Option Nat
  known : Bool
  slow : Bool
  late : Bool
  deriving DecidableEq, Repr

/-- Its index among its core's entries. -/
def Adm.ix (a : Adm) : Nat := a.key.ix

/-- A register-file word with an uncorrectable error: strand slot, allotment, file (0 v, 1 s, 2 q), index, thread. -/
structure BadReg where
  slot : Nat
  allot : Bool
  file : Nat
  index : Nat
  thread : Nat
  deriving DecidableEq, Repr

/-- One core (R19): storage, the array, unit occupancy, and its resident block, or with none resident the block that has `left` it
last, whose strands still depart (R109) and which readback shows; `resFixed` is the fire time of the
fixed-discipline block whose reservation `resEnd` ends (R94); `inc` are the incomplete marks in array order, `marks` as landed. Scratch, crown and accumulators are
indexed by byte offset, 2,048·slot + byte and 1,024·acc + 32·row + column. -/
structure Core where
  islands : BitVec 4
  scratch : SMap 8
  stags : SMap 32
  crown : SMap 8
  ctags : SMap 32
  badScratch : List Nat
  badTags : List Nat
  badCrown : List Nat
  badCTags : List Nat
  badRegs : List BadReg
  acc : SMap 32
  accArr : SMap 32
  inc : BitVec 4
  marks : BitVec 4
  runs : List MRun
  accLands : List AccLand
  busy : List (Nat × Nat)
  swr : List SWrite
  accepts : List (Nat × Accept)
  fills : List Fill
  lastFill : Nat
  ringK : Nat
  rings : List RingOp
  tiles : List Tile
  claspQ : List ClaspLand
  blk : Option Blk
  left : Option Blk
  cursor : Nat
  adms : List Adm
  freeAt : Nat
  resEnd : Nat
  resFixed : Option Nat
  vnt : List (Nat × BitVec 4 × BitVec 4)
  deriving DecidableEq, Repr

/-! ## Memory operations -/

/-- One atomic of an operation, in thread order (R359, R177): the operand, the comparand of CAS, and for a merge the triple. -/
structure AtomReq where
  thread : Nat
  pa : Nat
  op : AtomOp
  ty : Ty
  x : BitVec 64
  y : BitVec 64
  tri : Option Tri
  va : Addr
  deriving DecidableEq, Repr

/-- What an operation does when it lands. -/
inductive Done where
  | nothing
  /-- A load: destination scalar or vector, register, type, .DEC, and per thread the translated and the generic address
  (none for a zero row). -/
  | load (toS : Bool) (d : Nat) (t : LdTy) (dec : Bool) (lanes : List (Nat × Option (Nat × Addr))) (word : Addr) (len : Nat)
  /-- Fetched values of an atomic: destination, 64-bit, and for .TREE the exclusive prefixes by thread. -/
  | fetched (toS : Bool) (d : Option Nat) (wide : Bool) (tree : Option (AtomOp × Ty × List (Nat × BitVec 64))) (word : Addr) (len : Nat)
  /-- Fetched triples of ATOMQ. -/
  | fetchedQ (d : Option Nat) (word : Addr) (len : Nat)
  /-- A copy into scratch (R152): blocks from lines or filled, in window mode bytes from addresses, then the flag. -/
  | copyIn (num : Nat) (blocks : List (Nat × Option (Nat × Addr))) (fillTag : Tag) (bytes : List (Nat × Nat × Addr))
      (winFmt : Option Byte) (flag : Option (Nat × Word))
  /-- A copy out of scratch (R152): translated addresses with the scratch offsets read at acceptance. -/
  | copyOut (num : Nat) (blocks : List (Nat × Nat))
  /-- A crown fill from memory (R145): its lines with their generic addresses, in block order. -/
  | crown (num : Nat) (cslot : Nat) (lines : List (Nat × Addr))
  /-- The two steps of SHLD (R217) and SHWIN (R218): the register, the addresses of the lines, the leader and the word. -/
  | shHeader (g : Nat) (at_ : Nat × Addr) (leader : Nat) (word : Addr) (len : Nat)
  | shWindow (g : Nat) (r : ShapeReg) (pas : List (Nat × Addr)) (leader : Nat) (word : Addr) (len : Nat)
  | shReload (g : Nat) (r : ShapeReg) (w : Word) (pas : List (Nat × Addr)) (leader : Nat) (word : Addr) (len : Nat)
  /-- A stage of admission (R93): entry, the line that spends its share before the others, and the addresses read, in the order of
  the stage. -/
  | stage (key : EntryKey) (first : Option Nat) (pas : List (Option Nat))
  /-- The lines of a context save and its reading back (R300 to R303). -/
  | save (fixed : Bool)
  | restore (ix : Nat)
  /-- A host read through BAR2 (R277). -/
  | hostRead (off len : Nat)
  /-- The local data of a put, read before it is sent (R275). -/
  | putRead (id : Nat)
  /-- The data of a get, stored before its completion (R275): descriptor and status. -/
  | complete (id status : Nat)
  /-- The lines of a page on the move (R308): address space, virtual base, the package it moves to. -/
  | migrate (asid va pkg : Nat)
  /-- The lines of a page that moves to this package (R308): address space, virtual base, its physical base here. -/
  | pageIn (asid va base : Nat)
  deriving DecidableEq, Repr

/-- A remote line of an operation (R134, R259): its record's place in the queue and the answer it awaits. -/
structure RemLine where
  pkg : Nat
  line : Nat
  thread : Nat
  resp : Bool
  sent : Option Nat
  data : Option (Block × Tag)
  deriving DecidableEq, Repr

/-- A line as an operation read it (R161), with its horizon. -/
structure Got where
  line : Nat
  data : Block
  tag : Tag
  horizon : Nat
  far : Option (Nat × Nat × Nat)
  deriving DecidableEq, Repr

/-- A memory operation between acceptance and landing (R36, R54). `col` is the share column, `key` orders operations
of one column and acceptance tick (0 admission stages, 1 + slot for strands, 16 status stores); `floor` is the tick before
which it does not land, where a schedule fault has held the package up (R52); `narrow` marks a release of a scope narrower than
pod, whose horizon covers the strand's earlier accesses to other packages (R167); `loose` marks one that a loose block has under
way, or its exit (R52, R97). -/
structure MemOp where
  seq : Nat
  col : Nat
  key : Nat
  acc : Nat
  todo : List Nat
  carry : List Nat
  carried : Bool
  flag : Option (Nat × Word)
  carryFlag : Bool
  acqPod : Bool
  reads : Bool
  atEnd : Bool
  got : List Got
  writes : List (Nat × Byte)
  wtags : List (Nat × Tag)
  horizon : Option Nat
  keepHor : Bool
  narrow : Bool
  atoms : List AtomReq
  olds : List (Nat × BitVec 128)
  remote : List RemLine
  rland : Option Nat
  bad : List Nat
  floor : Nat
  loose : Bool
  done : Done
  deriving DecidableEq, Repr

/-! ## Pod time and the Accord -/

/-- A part of the Accord as taken at installation: its device address and its image by offset (R39). -/
structure Part where
  base : Nat
  img : Mem
  deriving DecidableEq, Repr

/-- The states of R59. -/
inductive Phase where
  | run | fault | abort | syncA | syncB | halt
  deriving DecidableEq, Repr

/-- A schedule fault of this or another member (R57, R58, R61). -/
structure SFault where
  cause : SCause
  pkg : Nat
  unit : Nat
  frame : Nat
  time : Nat
  tick : Nat
  deriving DecidableEq, Repr

/-- A launch entry filled by LAUNCH (R100). -/
structure Filled where
  key : EntryKey
  core : Nat
  fire : Nat
  record : Addr
  asid : Nat
  cls : Nat
  byFixed : Bool
  at_ : Nat
  deriving DecidableEq, Repr

/-- A saved block waiting for its Accord time or being read back (R302); one of fixed discipline stays listed until its slice
commits, since a replay reads it again (R28). -/
structure Resume where
  core : Nat
  area : Nat
  time : Nat
  started : Bool
  fixed : Bool
  deriving DecidableEq, Repr

/-- A chunk of a collective tree (R266 to R270), with what its entry says: frame, operation byte, rank and bytes. `firedBy` is
the strand of its COLL and `loose` the discipline it was fired in; `ranks` are the tree's in the chunk's frame, none where the
tree is not live in it. -/
structure Chunk where
  tree : Nat
  c : Nat
  entry : Nat
  frame : Nat
  op : Nat
  rank : Nat
  bytes : Nat
  asid : Nat
  addr : Option Nat
  firedBy : Option (Nat × Nat × Nat)
  loose : Bool
  read : Bool
  mine : List (Block × Tag)
  void : Bool
  ranks : List Nat
  status : Option Nat
  deriving DecidableEq, Repr

/-- A slice as it stood when it committed here, for a fault of its last frame that another member reports in the frame after
(R38, R58, R59): the Accord frame of the commit, the schedule, the attempt, the islands and slope limits at its start, and what the
commit moves on: the alerts to post (die and count), the error counts, the resumed fixed blocks, and the slice's chunks (R28, R268, R323). -/
structure SliceMark where
  frame : Nat
  main : Option Part
  alts : List (Nat × Part)
  pending : Option (Part × List (Nat × Part) × Nat)
  partNo : Nat
  inForce : InForce
  slice : Nat
  sliceTick : Nat
  attempts : Nat
  recorded : Option SFault
  absent : BitVec 256
  absentNew : List Nat
  altReq : Option (Bool × Nat)
  downed : Option Nat
  cool : Bool
  alerts : List (Nat × Nat)
  counts : SMap 32
  lastCounts : SMap 32
  resumes : List Resume
  islands : List (Nat × BitVec 4)
  slopes : List (Nat × BitVec 16)
  chunks : List Chunk
  deriving DecidableEq, Repr

/-- Pod time, the schedule in force and the resynchronisation (02_accord.md). `partNo` numbers the Accords taken up, `consumed` lists
the entries, by core, that have admitted loose blocks (R101), `growth` is added to the offset when the
running frame ends, `voted` says that the ready vote of the next slice is complete, `trim` is the servo's in ppb, `altReq`
the alternate asked for and `request` this member's own with the frame that carries it (R321), `faultBit`
names the planes whose next flit carries the fault bit (R58) of a fault detected at tick `bitAt`, `lastFrame` and `lastPhase` are
the Accord frame and the state of R59 that ended last, `synced` is the fault that the last resynchronisation was about, with the
attempt it ended, `prior` is the slice before, and `islands` and `slopes` stand as
they did when the attempt under way began (R28). -/
structure Sched where
  tick : Nat
  offset : Nat
  pkgid : Nat
  source : Bool
  locked : Bool
  main : Option Part
  alts : List (Nat × Part)
  pending : Option (Part × List (Nat × Part) × Nat)
  partNo : Nat
  inForce : InForce
  slice : Nat
  sliceTick : Nat
  attempts : Nat
  active : Bool
  ended : Bool
  phase : Phase
  faults : List SFault
  raised : List SFault
  recorded : Option SFault
  next : Option InForce
  haltPath : Option Nat
  synced : Option (SFault × Nat)
  haltRec : BitVec 256
  heard : List SFault
  idleVotes : Nat
  votes : List (Nat × Nat × Bool)
  filled : List Filled
  consumed : List (Nat × EntryKey)
  altReq : Option (Bool × Nat)
  request : Option (Bool × Nat)
  absent : BitVec 256
  absentNew : List Nat
  absentDue : List (Nat × Nat)
  planeMap : BitVec 24
  planes : BitVec 8
  downed : Option Nat
  growth : Nat
  voted : Bool
  trim : Int
  faultBit : BitVec 8
  bitAt : Nat
  lastFrame : Nat
  lastPhase : Phase
  prior : Option SliceMark
  islands : List (Nat × BitVec 4)
  slopes : List (Nat × BitVec 16)
  deriving DecidableEq, Repr

/-! ## Fabric -/

/-- A record waiting for a position (R259), with the MASK of a STOREB. -/
structure OutRec where
  plane : Nat
  peer : Nat
  resp : Bool
  acc : Nat
  core : Nat
  key : Nat
  seq : Nat
  thread : Nat
  body : Rec
  mask : Option (BitVec 64)
  floor : Nat
  deriving DecidableEq, Repr

/-- An XFER.SEND in progress (R262). -/
structure XSend where
  seq : Nat
  core : Nat
  slot : Nat
  num : Nat
  acc : Nat
  chan : Nat
  peer : Nat
  off : Nat
  n : Nat
  units : List (Block × Tag)
  left : Nat
  bad : Bool
  read : Bool
  land : Option Nat
  floors : List Nat
  deriving DecidableEq, Repr

/-- A flit bound to an XFER.RECV (R262): its place in its stream, whether it is withheld, and its units. -/
structure StreamUnit where
  frame : Nat
  slot : Nat
  plane : Nat
  held : Bool
  units : List (Block × Tag)
  deriving DecidableEq, Repr

/-- An XFER.RECV in progress (R262): the flits bound to it, in stream order, its landing, and in fixed discipline the last
frame they may come from. -/
structure XRecv where
  seq : Nat
  core : Nat
  slot : Nat
  num : Nat
  chan : Nat
  peer : Nat
  off : Nat
  n : Nat
  flits : List StreamUnit
  land : Option Nat
  limit : Option Nat
  deriving DecidableEq, Repr

/-- A contribution flit delivered for a chunk (R269). -/
structure Contrib where
  tree : Nat
  c : Nat
  frame : Nat
  rank : Nat
  slot : Nat
  plane : Nat
  units : List (Block × Tag)
  void : Bool
  deriving DecidableEq, Repr

/-- A collective tree (R265, R324): its effective frame F_e, and that of its freeing once it has been asked for. -/
structure Tree where
  id : Nat
  ranks : List Nat
  live : Bool
  frame : Nat
  freed : Option Nat
  deriving DecidableEq, Repr

/-- The fabric edge die (11_fabric.md); `flown` holds the requests sent whose landing is to come, `owed` the RESPs of the frame
before by plane and peer, which the running frame's slots are to carry (R260), `lastMap` the part whose slot maps the frame before
used, the built-in idle alternate's if none (R251). -/
structure Fabric where
  recq : List OutRec
  flown : List OutRec
  sent : List (Nat × Flit)
  naks : List (Nat × Nat × Nat)
  replays : List (Nat × Nat × Flit)
  home : List HomeRec
  sends : List XSend
  recvs : List XRecv
  trees : List Tree
  chunks : List Chunk
  contribs : List Contrib
  discarded : Nat
  ingress : List (Nat × Nat)
  owed : List (Nat × Nat × Nat)
  lastMap : Option Part
  deriving DecidableEq, Repr

/-! ## Host link, translation and platform -/

/-- An entry of a die's last-level TLB (R305): the die, the page, whether it is pinned. -/
structure TlbEntry where
  die : Nat
  page : Page
  pinned : Bool
  deriving DecidableEq, Repr

/-- A cut in progress (R300, R301). -/
structure Cut where
  cores : List Nat
  target : Nat
  base : Nat
  stride : Nat
  limit : Nat
  mailbox : Bool
  saving : Bool
  deriving DecidableEq, Repr

/-- A scale-out ring's descriptor in progress (R275). -/
structure Desc where
  id : Nat
  ring : Nat
  bytes : SMap 8
  asid : Nat
  tries : Nat
  deriving DecidableEq, Repr

/-- The Rimet controller, the host link registers and the scale-out engine. `pri` holds Page Request groups with the
core and slot they serve and their number of requests, `priMax` the host's allocation, `priWait` what waits for it (core, slot,
PASID, pages), `rbreq` the tick of a snapshot request, `migMoved` pages with the migration window of their move, `inWindow` whether the
running slice is a migration window, `pageCounts` the accesses in it by page and package (R308), `windows` the windows so far,
`stamps` the receive times of PTP event messages by port. -/
structure HostIf where
  stat : BitVec 64
  req : SMap 8
  rsp : SMap 8
  payload : SMap 8
  busy : Bool
  evp : Word
  evc : Word
  lost : BitVec 64
  evq : SMap 8
  evseq : Word
  waiting : List (Nat × SMap 8 × Nat × Nat)
  hbwin : BitVec 64
  hlstat : BitVec 64
  barLog : Nat
  pasid : SMap 64
  rings : SMap 8
  ringIx : List (Nat × Nat)
  descs : List Desc
  descId : Nat
  rbsel : BitVec 64
  rbreq : Option Nat
  emerg : Option (Nat × Nat × Nat)
  cut : Option Cut
  resumes : List Resume
  pri : List (Nat × Nat × Nat × Nat)
  priMax : Nat
  priWait : List (Nat × Nat × Nat × List Nat)
  migThreshold : Nat
  migMoved : List ((Nat × Nat) × Nat)
  inWindow : Bool
  pageCounts : List ((Nat × Nat) × List (Nat × Nat))
  windows : Nat
  stamps : List (Nat × Nat)
  deriving DecidableEq, Repr

/-- The always-on domain: boot-step record fields (R315), firmware (R311), thermal record (R324), error counts. `coolSlice` says that
every temperature has been below 90 degrees since the slice began, `coolFrame` that the last reading was (R321). -/
structure Platform where
  powered : Bool
  step : Nat
  warm : Nat
  status : List (Nat × Nat)
  stackAlt : BitVec 8
  planeDown : BitVec 8
  portDown : BitVec 16
  fenced : List (Nat × Nat)
  cutT : Word
  cutTime : BitVec 64
  saveIncomplete : Bool
  findings : Option BootFindings
  image : SMap 8
  imageLen : Nat
  running : SMap 8
  runLen : Nat
  version : Nat
  minVersion : Nat
  sensors : SMap 16
  level : Nat
  tempFrame : Nat
  levelFrame : Nat
  warmFrames : Nat
  coolSlice : Bool
  coolFrame : Bool
  counts : SMap 32
  lastCounts : SMap 32
  deriving DecidableEq, Repr

/-- What readback shows of the package as it stood at the first cycle of a frame (R318). -/
structure Frozen where
  frame : Nat
  cores : List (Nat × Core)
  tlb : List TlbEntry
  sch : Sched
  plat : Platform
  trees : List Tree
  chunks : List Chunk
  counts : List ((Nat × Nat) × List (Nat × Nat))
  deriving DecidableEq, Repr

/-- What the package sent in the running cycle. -/
inductive Out where
  /-- The 256 bytes of a flit (R248). -/
  | flit (plane : Nat) (bytes : List Byte)
  /-- A request for an alternate, with the timing flit of a plane (R321, log entry 33). -/
  | request (plane : Nat) (idle : Bool)
  /-- The answer to a host read (R277). -/
  | host (bytes : List Byte)
  /-- What leaves by an Ethernet port (R274). -/
  | port (port : Nat) (bytes : List Byte)
  /-- An MSI-X vector (R280). -/
  | msix (vector : Nat)
  /-- A Page Request: group, PASID, 64 KiB page, last of its group (R278). -/
  | pageRequest (group pasid page : Nat) (last : Bool)
  /-- The lines of a page that moves to another package (R308). -/
  | page (pkg asid va : Nat) (lines : List (Block × Tag))
  /-- Bytes that the Rimet controller writes straight into memory at home in another package (R297). -/
  | direct (pkg : Nat) (bytes : List (Nat × Byte))
  deriving DecidableEq, Repr

/-- A soft error of storage (R323): an error corrected on a read, of a die and of a kind (0 scratch, 1 crown, 2 register files,
3 tags, 4 HBM); or a double error in a protected word of a core: an 8-byte unit of scratch or crown, a tag, a register word. -/
inductive Upset where
  | corrected (die kind : Nat)
  | scratch (core unit : Nat)
  | crown (core unit : Nat)
  | tag (core block : Nat)
  | crownTag (core block : Nat)
  | reg (core : Nat) (word : BadReg)
  deriving DecidableEq, Repr

/-- What another package does to this one outside the fabric's slots, the counterpart of `Out.page` and `Out.direct`. -/
inductive Arrival where
  /-- A page moves to this package (R308): address space, virtual base, its physical base here, its lines. -/
  | page (asid va base : Nat) (lines : List (Block × Tag))
  /-- A page of two other packages has moved: its new home and its physical base there (R308). -/
  | moved (asid va pkg base : Nat)
  /-- Status words that another package's Rimet controller writes into memory here (R297). -/
  | direct (bytes : List (Nat × Byte))
  deriving DecidableEq, Repr

/-- The whole package. Memory bytes, tags and horizons are keyed by physical address, line and line; `horFar` lists the lines whose
horizon also covers accesses of a strand (core, slot, issues before) that have no landing yet (R167). `sel` names the
strand whose word `exec` runs; `inputs` what the outside world does, with its pod tick; `served` the cores that have
used the running cycle's issue frame; `seq` counts issues; `draws` counts free values; `upsets` are soft errors to come, with
their ticks, `arrivals` what other packages do outside the fabric's slots (log entry 7); `snap` is the snapshot held for readback. -/
structure State where
  mem : Mem
  tags : SMap 32
  horizons : SMap 64
  horFar : List (Nat × Nat × Nat × Nat)
  badLines : List Nat
  retried : List (Nat × Nat)
  refreshed : SMap 16
  ops : List MemOp
  cores : List (Nat × Core)
  slope : List (Nat × BitVec 16)
  sch : Sched
  fab : Fabric
  host : HostIf
  plat : Platform
  pages : List Page
  tlb : List TlbEntry
  walks : List (Nat × Nat × Nat)
  held : List (Nat × Nat)
  sel : Option (Nat × Nat)
  inputs : List (Nat × Instr)
  out : List Out
  served : List Nat
  swept : List Nat
  seq : Nat
  draws : Nat
  upsets : List (Nat × Upset)
  arrivals : List (Nat × Arrival)
  snap : Option Frozen
  deriving DecidableEq, Repr

/-- A core at reset: nothing resident, islands at 0.60 V, storage and array 0 (DESIGN CHOICE, log entry 3). -/
def Core.idle : Core where
  islands := 0
  scratch := []
  stags := []
  crown := []
  ctags := []
  badScratch := []
  badTags := []
  badCrown := []
  badCTags := []
  badRegs := []
  acc := []
  accArr := []
  inc := 0
  marks := 0
  runs := []
  accLands := []
  busy := []
  swr := []
  accepts := []
  fills := []
  lastFill := 0
  ringK := 0
  rings := []
  tiles := []
  claspQ := []
  blk := none
  left := none
  cursor := 0
  adms := []
  freeAt := 0
  resEnd := 0
  resFixed := none
  vnt := []

/-- The schedule at reset: tick 0 (DESIGN CHOICE, log entry 2), offset 0 (R33), the built-in idle alternate (R49),
plane map 0xFA_C688 (R255), no plane live before boot step 7 (R312, log entry 3). -/
def Sched.reset : Sched where
  tick := 0
  offset := 0
  pkgid := 0
  source := true
  locked := false
  main := none
  alts := []
  pending := none
  partNo := 0
  inForce := .idle
  slice := 0
  sliceTick := 0
  attempts := 1
  active := false
  ended := true
  phase := .run
  faults := []
  raised := []
  recorded := none
  next := none
  haltPath := none
  synced := none
  haltRec := 0
  heard := []
  idleVotes := 0
  votes := []
  filled := []
  consumed := []
  altReq := none
  request := none
  absent := 0
  absentNew := []
  absentDue := []
  planeMap := 0xFAC688
  planes := 0
  downed := none
  growth := 0
  voted := false
  trim := 0
  faultBit := 0
  bitAt := 0
  lastFrame := 0
  lastPhase := .run
  prior := none
  islands := []
  slopes := []

/-- The fabric at reset: every queue empty. -/
def Fabric.reset : Fabric := ⟨[], [], [], [], [], [], [], [], [], [], [], 0, [], [], none⟩

/-- The host interface at reset: MBEVC and HBWIN 0 (R280, R283), the rest as log entry 3 names. -/
def HostIf.reset : HostIf where
  stat := 0
  req := []
  rsp := []
  payload := []
  busy := false
  evp := 0
  evc := 0
  lost := 0
  evq := []
  evseq := 0
  waiting := []
  hbwin := 0
  hlstat := 0x307
  barLog := 30
  pasid := []
  rings := []
  ringIx := []
  descs := []
  descId := 0
  rbsel := 0
  rbreq := none
  emerg := none
  cut := none
  resumes := []
  pri := []
  priMax := 512
  priWait := []
  migThreshold := 0
  migMoved := []
  inWindow := false
  pageCounts := []
  windows := 0
  stamps := []

/-- The always-on domain at reset: powered, boot step 1 next, the boot-step record clear (R313, log entry 2). -/
def Platform.reset : Platform where
  powered := true
  step := 1
  warm := 0
  status := []
  stackAlt := 0
  planeDown := 0
  portDown := 0
  fenced := []
  cutT := 0
  cutTime := 0
  saveIncomplete := false
  findings := none
  image := []
  imageLen := 0
  running := []
  runLen := 0
  version := 0
  minVersion := 0
  sensors := []
  level := 0
  tempFrame := 0
  levelFrame := 0
  warmFrames := 0
  coolSlice := false
  coolFrame := false
  counts := []
  lastCounts := []

/-- The package right after reset (log entries 2 and 3): no block resident, memory with nothing listed (log entry 4). -/
def State.reset : State where
  mem := []
  tags := []
  horizons := []
  horFar := []
  badLines := []
  retried := []
  refreshed := []
  ops := []
  cores := []
  slope := []
  sch := Sched.reset
  fab := Fabric.reset
  host := HostIf.reset
  plat := Platform.reset
  pages := []
  tlb := []
  walks := []
  held := []
  sel := none
  inputs := []
  out := []
  served := []
  swept := []
  seq := 0
  draws := 0
  upsets := []
  arrivals := []
  snap := none

end Sys2Proof.Machine
end

