-- ==== Sys2Proof/Machine/Ops.lean ====
section
/-! DEFINITION. The named operations over sparse storage, cores, blocks and strands; issuing a word; taking an exception and returning from one. -/

namespace Sys2Proof.Machine
open Sys2Proof

/-! ## Sparse arrays -/

/-- The entry of an address; an unlisted address reads 0. -/
def smGet {w : Nat} : SMap w → Nat → BitVec w
  | [], _ => 0#w
  | (k, x) :: m, a => if a < k then 0#w else if k = a then x else smGet m a

/-- Writing one entry, in canonical form: writing 0 removes it. -/
def smSet {w : Nat} : SMap w → Nat → BitVec w → SMap w
  | [], a, y => if y = 0#w then [] else [(a, y)]
  | (k, x) :: m, a, y =>
    if a < k then (if y = 0#w then (k, x) :: m else (a, y) :: (k, x) :: m)
    else if k = a then (if y = 0#w then m else (a, y) :: m)
    else (k, x) :: smSet m a y

/-- Every address is above `lo`. -/
def smAbove {w : Nat} (lo : Nat) : SMap w → Bool
  | [] => true
  | (k, _) :: _ => decide (lo < k)

/-- The canonical form: addresses strictly rising, no entry 0. -/
def smWf {w : Nat} : SMap w → Bool
  | [] => true
  | (k, x) :: m => x != 0#w && smAbove k m && smWf m

/-- The canonical form of package memory. -/
def Memory.wf (m : Mem) : Bool := smWf m

/-- Writing 0 to n addresses from `lo`. -/
def smClear {w : Nat} (m : SMap w) (lo n : Nat) : SMap w :=
  m.filter fun p => p.1 < lo || lo + n ≤ p.1

/-- Bytes as a little-endian number (R4). -/
def leOf : List Byte → Nat
  | [] => 0
  | b :: bs => b.toNat + 256 * leOf bs

/-- The low n bytes of a number, little-endian (R4). -/
def bytesOf : Nat → Nat → List Byte
  | 0, _ => []
  | n + 1, x => BitVec.ofNat 8 x :: bytesOf n (x / 256)

/-- n bytes from an address. -/
def smBytes (m : SMap 8) (a n : Nat) : List Byte := (List.range n).map fun i => smGet m (a + i)

/-- n bytes from an address as a little-endian number. -/
def smNat (m : SMap 8) (a n : Nat) : Nat := leOf (smBytes m a n)

/-- Writing bytes from an address on. -/
def smWrite (m : SMap 8) (a : Nat) : List Byte → SMap 8
  | [] => m
  | b :: bs => smWrite (smSet m a b) (a + 1) bs

/-- Writing single bytes in order. -/
def smWrites {w : Nat} (m : SMap w) (xs : List (Nat × BitVec w)) : SMap w :=
  xs.foldl (fun m p => smSet m p.1 p.2) m

/-- The 64-byte block at an address as one number (R123). -/
def smBlock (m : SMap 8) (a : Nat) : Block := BitVec.ofNat 512 (smNat m a 64)

/-- Entry k of a keyed list. -/
def aGet {α : Type} : List (Nat × α) → Nat → Option α
  | [], _ => none
  | (k, x) :: l, a => if k = a then some x else aGet l a

/-- Writing entry k of a keyed list, kept in rising order of keys. -/
def aSet {α : Type} : List (Nat × α) → Nat → α → List (Nat × α)
  | [], a, y => [(a, y)]
  | (k, x) :: l, a, y =>
    if k = a then (a, y) :: l else if a < k then (a, y) :: (k, x) :: l else (k, x) :: aSet l a y

/-- Removing entry k. -/
def aDel {α : Type} (l : List (Nat × α)) (a : Nat) : List (Nat × α) := l.filter fun p => p.1 != a

/-- Insertion by a key, after the entries of an equal key. -/
def insBy {α : Type} (key : α → Nat) (x : α) : List α → List α
  | [] => [x]
  | y :: l => if key x < key y then x :: y :: l else y :: insBy key x l

/-- Stable sorting by a key. -/
def sortBy {α : Type} (key : α → Nat) : List α → List α
  | [] => []
  | x :: l =>
    let r := sortBy key l
    match r with
    | [] => [x]
    | y :: _ => if key x ≤ key y then x :: r else insertBefore key x r
where
  /-- Insertion before the entries of an equal key. -/
  insertBefore (key : α → Nat) (x : α) : List α → List α
    | [] => [x]
    | y :: l => if key x ≤ key y then x :: y :: l else y :: insertBefore key x l

/-- Rising numbers without repeats. -/
def dedupSorted (l : List Nat) : List Nat :=
  (sortBy (fun n => n) l).foldr (fun x acc => match acc with | y :: _ => if x = y then acc else x :: acc | [] => [x]) []

/-! ## Time, cores, blocks, strands -/

/-- Accord time of a pod tick (R33). -/
def State.accordOf (s : State) (t : Nat) : Nat := t - s.sch.offset

/-- The running cycle's pod tick. -/
def State.now (s : State) : Nat := s.sch.tick

/-- The running cycle's Accord time (R33). -/
def State.accord (s : State) : Nat := s.accordOf s.now

/-- Whether the other dies have left reset: the firmware has been verified (R311). -/
def State.released (s : State) : Bool := 3 < s.plat.step

/-- The pod tick of an Accord time under the offset in force. -/
def State.tickOf (s : State) (t : Nat) : Nat := t + s.sch.offset

/-- A core; one that is not listed is idle. -/
def State.core (s : State) (c : Nat) : Core := (aGet s.cores c).getD Core.idle

/-- Writing a core. -/
def State.setCore (s : State) (c : Nat) (k : Core) : State := { s with cores := aSet s.cores c k }

/-- Changing a core. -/
def State.modCore (s : State) (c : Nat) (f : Core → Core) : State := s.setCore c (f (s.core c))

/-- The block resident on a core. -/
def State.blk (s : State) (c : Nat) : Option Blk := (s.core c).blk

/-- The block a core shows: the resident one, else the one that has left it last (R109). -/
def Core.shown (k : Core) : Option Blk := if k.blk.isSome then k.blk else k.left

/-- Changing the block a core shows. -/
def Core.modShown (k : Core) (f : Blk → Blk) : Core :=
  if k.blk.isSome then { k with blk := k.blk.map f } else { k with left := k.left.map f }

/-- Changing the resident block of a core. -/
def State.modBlk (s : State) (c : Nat) (f : Blk → Blk) : State :=
  s.modCore c fun k => { k with blk := k.blk.map f }

/-- A strand of a block. -/
def State.strand (s : State) (c i : Nat) : Option Strand := (s.blk c).bind fun b => b.slots[i]?

/-- Changing a strand. -/
def State.modStrand (s : State) (c i : Nat) (f : Strand → Strand) : State :=
  s.modBlk c fun b => { b with slots := b.slots.modify i f }

/-- The die of a core (R13, R18). -/
def dieOf (c : Nat) : Nat := c / 192

/-- The trio of a core and its place in it (R18). -/
def trioOf (c : Nat) : Nat := c / 3

/-- The core at ring position p of a core's trio (R18). -/
def trioCore (c p : Nat) : Nat := 3 * (c / 3) + p % 3

/-- A field of the launch record (R89), n bytes at an offset. -/
def Blk.field (b : Blk) (off n : Nat) : Nat := smNat b.record off n

/-- The rotation length L (R70). -/
def Blk.rotation (b : Blk) : Nat := b.rot

/-- A present scratch segment (R90): base and size in bytes, swizzle code. -/
structure Segment where
  base : Nat
  size : Nat
  swz : Nat
  deriving DecidableEq, Repr

/-- Segment j of a record, none when it is absent (R90). -/
def segmentOf (record : SMap 8) (j : Nat) : Option Segment :=
  let d := smNat record (0x10 + 4 * j) 4
  let size := d / 2 ^ 16 % 2 ^ 13
  if size = 0 then none else some ⟨64 * (d % 2 ^ 12), 64 * size, d / 2 ^ 29⟩

/-- The present segments of a block. -/
def Blk.segments (b : Blk) : List Segment := (List.range 4).filterMap (segmentOf b.record)

/-- The held segment that holds n bytes from an offset, all of them. -/
def Blk.segAt (b : Blk) (off n : Nat) : Option Segment :=
  b.segments.find? fun g => g.base ≤ off && off + n ≤ g.base + g.size

/-- Whether a byte offset lies in a held segment. -/
def Blk.heldByte (b : Blk) (off : Nat) : Bool := (b.segAt off 1).isSome

/-- Whether every 64-byte block of a range lies in held segments (segments are whole blocks). -/
def Blk.heldRange (b : Blk) (off n : Nat) : Bool :=
  (List.range ((off % 64 + n + 63) / 64)).all fun i => b.heldByte (64 * (off / 64 + i))

/-- Whether a crown slot is in the block's held range (R143). -/
def Blk.heldSlot (b : Blk) (n : Nat) : Bool :=
  let first := b.field 0x20 1
  first ≤ n && n < first + b.field 0x21 1

/-! ## Registers of a strand -/

/-- A scalar register; s61 to s63 are the activity words (R65). -/
def Regs.getS (r : Regs) (n : Nat) : Word :=
  if 61 ≤ n then r.am.extractLsb' (32 * (n - 61)) 32 else smGet r.s n

/-- The activity bits of the threads below a count (R65). -/
def threadMask (n : Nat) : BitVec 96 := BitVec.ofNat 96 (2 ^ n - 1)

/-- Writing a scalar register; activity bits of threads not launched stay 0 (R65). -/
def Regs.setS (r : Regs) (threads n : Nat) (x : Word) : Regs :=
  if 61 ≤ n then
    let b := 32 * (n - 61)
    let cleared := r.am &&& ~~~(BitVec.ofNat 96 ((2 ^ 32 - 1) * 2 ^ b))
    { r with am := (cleared ||| (x.setWidth 96 <<< b)) &&& threadMask threads }
  else { r with s := smSet r.s n x }

/-- A vector register of a thread. -/
def Regs.getV (r : Regs) (n t : Nat) : Word := smGet r.v (96 * n + t)

/-- Writing a vector register of a thread. -/
def Regs.setV (r : Regs) (n t : Nat) (x : Word) : Regs := { r with v := smSet r.v (96 * n + t) x }

/-- A statistics register of a thread as read: E = 1 reads as the empty triple (R180). -/
def Regs.getQ (r : Regs) (n t : Nat) : Tri := (aGet r.q (96 * n + t)).getD Tri.empty

/-- Writing a statistics register of a thread; the status word's reserved bits are written 0 (R179). -/
def Regs.setQ (r : Regs) (n t : Nat) (x : Tri) : Regs :=
  { r with q := aSet r.q (96 * n + t) { x with st := x.st &&& 0xF } }

/-- A bit of a predicate; k0 reads as true (R65). -/
def Strand.getK (st : Strand) (r t : Nat) : Bool := r == 0 || (smGet st.k r).getLsbD t

/-- Writing a bit of a predicate; writes to k0 are discarded (R65). -/
def Strand.setK (st : Strand) (r t : Nat) (x : Bool) : Strand :=
  if r = 0 then st
  else
    let bit := BitVec.ofNat 96 (2 ^ t)
    let m := smGet st.k r
    { st with k := smSet st.k r (if x then m ||| bit else m &&& ~~~bit) }

/-- A shape register; one never written is empty (R206). -/
def Strand.getG (st : Strand) (n : Nat) : ShapeReg := (aGet st.g n).getD ShapeReg.empty

/-- A window entry of a shape register by its place in the window. -/
def ShapeReg.entry (g : ShapeReg) (k : Nat) : Nat := (smGet g.win k).toNat

/-- Whether every header field meets R202; the header of an empty register counts as meeting it (R205, R206). Reserved bits
are ignored as R5 has it (DEDUCED, log entry 30). -/
def ShapeReg.headerOk (g : ShapeReg) : Bool :=
  g.fresh ||
  (g.magicOk && g.seqs.toNat ≤ 16777215 && g.total.toNat ≤ 2147483647
    && g.pitch.toNat % 64 == 0 && g.pitch != 0 && g.pitch.toNat < 2 ^ 24 && g.width != 0
    && g.format.toNat ≤ 0x0A
    && g.btab.toNat < 2 ^ 57 && g.btab.toNat % 64 == 0
    && (!g.flags.getLsbD 0 || (g.gtab.toNat / 2 ^ 56 == 0xFE && g.gtab.toNat % 64 == 0)))

/-- The consistency check (R205). -/
def ShapeReg.consistent (g : ShapeReg) : Bool :=
  let w := g.w.toNat
  let n := g.seqs.toNat
  let last := if n < w + 63 then n - w else 63
  g.headerOk
    && (List.range (last + 1)).all (fun k => decide (g.entry k ≤ g.total.toNat))
    && (List.range last).all (fun k => decide (g.entry k ≤ g.entry (k + 1)))
    && (w != 0 || g.entry 0 == 0)
    && (!decide (n ≤ w + 63) || g.entry (n - w) == g.total.toNat)

/-- The register with its consistency check made (R205). -/
def ShapeReg.recheck (g : ShapeReg) : ShapeReg := { g with valid := g.consistent }

/-- The register after an SHPUT has written a field of it: checked, but an empty one stays empty and is left valid (R205, R206; DEDUCED,
log entry 58). -/
def ShapeReg.put (g : ShapeReg) : ShapeReg := if g.fresh then g else g.recheck

/-- Applying one landed write (R73). An empty shape register that SHWIN reloads stays empty, its window checked (DESIGN CHOICE, log entry
58). -/
def Strand.apply (st : Strand) (w : RegW) : Strand :=
  match w with
  | .v r t x => { st with cur := st.cur.setV r t x }
  | .s r x => { st with cur := st.cur.setS st.threads r x }
  | .am b x => { st with cur := st.cur.setS st.threads (61 + b) x }
  | .k r t x => st.setK r t x
  | .lc r x => { st with lc := smSet st.lc r x }
  | .q r t x => { st with cur := st.cur.setQ r t x }
  | .fstatOr t x => { st with fstat := smSet st.fstat t (smGet st.fstat t ||| x.setWidth 32) }
  | .fstatSet t x => { st with fstat := smSet st.fstat t (x.setWidth 32) }
  | .tvecLo x => { st with tvec := st.tvec.extractLsb' 32 32 ++ x }
  | .tvecHi x => { st with tvec := x ++ st.tvec.extractLsb' 0 32 }
  | .regionInc => { st with regioncnt := st.regioncnt + 1 }
  | .stepInc => { st with stepcnt := st.stepcnt + 1 }
  | .shEnt g i x => { st with g := aSet st.g g ({ st.getG g with win := smSet (st.getG g).win i x }).put }
  | .shOrg g x => { st with g := aSet st.g g ({ st.getG g with o := x }).put }
  | .shAll g r => { st with g := aSet st.g g r.recheck }
  | .shWin g w win => { st with g := aSet st.g g ({ st.getG g with w := w, win := win }).recheck }

/-- Landing the writes of a list of results in issue order. -/
def Strand.landAll (st : Strand) (ps : List Pend) : Strand :=
  ps.foldl (fun st p => p.writes.foldl Strand.apply st) st

/-! ## Faults, trap entry and return -/

/-- Cause codes (R285). -/
def Cause.code : Cause → Nat
  | .illop => 1 | .illmod => 2 | .illpair => 3 | .illconv => 4 | .apert => 5 | .misalign => 6
  | .bound => 7 | .shwin => 8 | .confl => 9 | .perm => 10 | .xlate => 11 | .memunc => 12
  | .partner => 13 | .trapsw => 14

/-- Priorities (R285); TRAPSW, which has none, ranks last. -/
def Cause.priority (c : Cause) : Nat := c.code

/-- Engine codes of the fault record (R289). -/
def Engine.index (e : Engine) : Nat := e.code.toNat

/-- All threads of a strand's width: a fault of the word itself names every lane and beat (R286). -/
def allThreads : List Nat := List.range 96

/-- The lane mask and the beat mask of the threads that raised a cause (R286). -/
def laneMask (ts : List Nat) : Nat := ts.foldl (fun m t => m ||| 2 ^ (t % 32)) 0
def beatMask (ts : List Nat) : Nat := ts.foldl (fun m t => m ||| 2 ^ (t / 32)) 0

/-- Whether the record holds a fault address for the cause (R289). -/
def Cause.hasAddr (c : Cause) : Bool := c ∈ [.apert, .misalign, .perm, .xlate, .memunc]

/-- The fault record of 32 bytes (R289). -/
def faultRecord (st : Strand) (word : Addr) (f : Trap) : BitVec 256 :=
  let flags := (if f.slotY then 4 else 0) + (if st.inHandler then 2 else 0) + (if f.engine.isSome then 1 else 0)
  let eng := match f.engine with | some e => Engine.index e | none => 0xFF
  let addr : Addr := if f.cause.hasAddr then f.addr else 0
  addr ++ word ++ f.code ++ st.regioncnt ++ BitVec.ofNat 32 (laneMask f.threads)
    ++ BitVec.ofNat 8 eng ++ BitVec.ofNat 8 (beatMask f.threads) ++ BitVec.ofNat 8 flags
    ++ BitVec.ofNat 8 f.cause.code

/-- Ending a strand (R296, R109): the record is kept, every park ends, results in flight still land. -/
def Strand.finish (st : Strand) (now : Nat) (code beats : Nat) (byExit : Bool) (word : Addr) (frec : BitVec 256) : Strand :=
  { st with
    frec := frec
    waits := []
    late := []
    ended := some { at_ := now, region := st.regioncnt, code := BitVec.ofNat 8 code, beats := BitVec.ofNat 3 beats, byExit := byExit,
                    word := word, departed := false, stored := false } }

/-- TAKING AN EXCEPTION (R291): the strand is ended by MEMUNC, inside a handler or without a trap vector; a loose
strand's XLATE parks it for service (R307); otherwise the record is kept, the in-handler bit set, the faulting word
remembered, and the next word is the trap vector's. -/
def Strand.trap (st : Strand) (now : Nat) (loose : Bool) (word : Addr) (len : Nat) (f : Trap) : Strand :=
  let r := faultRecord st word f
  if f.cause = .memunc ∨ st.inHandler ∨ st.tvec = 0 then
    st.finish now f.cause.code (beatMask f.threads) false word r
  else if f.cause = .xlate ∧ loose ∧ ¬ f.serviced then
    { st with waits := [.xlate none word len f], lastWord := word }
  else
    { st with frec := r, inHandler := true, fword := word, flen := len, waits := [], pc := st.tvec }

/-- Event kinds (R282). -/
def evXlate : Nat := 1
def evAlert : Nat := 2
def evHalt : Nat := 3
def evBoot : Nat := 4
def evLaunch : Nat := 5
def evReady : Nat := 6

/-- Handing an event to the Rimet controller, which posts it (R282): its kind, its payload, and the core and slot of
an XLATE. -/
def State.event (s : State) (kind : Nat) (payload : SMap 8) (c i : Nat) : State :=
  { s with host := { s.host with waiting := s.host.waiting ++ [(kind, payload, c, i)] } }

/-- The payload of an XLATE event (R282). -/
def xlatePayload (c i asid : Nat) (pasid : Nat) (r : BitVec 256) : SMap 8 :=
  smWrite (smWrite [] 0 (bytesOf 16 (c + 2 ^ 16 * i + 2 ^ 32 * asid + 2 ^ 64 * pasid))) 16 (bytesOf 32 r.toNat)

/-- Whether an address lies in a page of host memory of an address space without a PASID: its XLATE is not requested, and counts
as a service that has failed (R283). -/
def State.unserved (s : State) (asid : Nat) (a : Addr) : Bool :=
  !(smGet s.host.pasid asid).getLsbD 31
    && s.pages.any fun p => p.host && p.asid == asid && p.va ≤ a.toNat && a.toNat < p.va + p.size

/-- The lowest Page Request group index not in use (R278). -/
def HostIf.freeGroup (h : HostIf) : Option Nat := (List.range 512).find? fun g => !h.pri.any fun p => p.1 == g

/-- Page Requests outstanding (R278). -/
def HostIf.priOut (h : HostIf) : Nat := h.pri.foldl (fun n p => n + p.2.2.2) 0

/-- Sending the Page Requests that wait, in issue order, while the host's allocation has room (R278): those of one fault share a group,
and its last is marked. -/
def State.sendPages (s : State) : List (Nat × Nat × Nat × List Nat) → State
  | [] => { s with host := { s.host with priWait := [] } }
  | w :: ws =>
    let c := w.1
    let i := w.2.1
    let mine := s.host.pri.find? fun p => p.2.1 == c && p.2.2.1 == i
    match (match mine with | some p => some p.1 | none => s.host.freeGroup) with
    | none => { s with host := { s.host with priWait := w :: ws } }
    | some g =>
      let ready := w.2.2.2.take (s.host.priMax - s.host.priOut)
      let rest := w.2.2.2.drop ready.length
      let n := (match mine with | some p => p.2.2.2 | none => 0) + ready.length
      let reqs := ready.zipIdx.map fun p => Out.pageRequest g w.2.2.1 p.1 (rest.isEmpty && p.2 + 1 == ready.length)
      let s := { s with
        out := s.out ++ reqs
        host := { s.host with pri := (s.host.pri.filter fun (p : Nat × Nat × Nat × Nat) => p.1 != g) ++ [(g, c, i, n)] } }
      if rest.isEmpty then s.sendPages ws
      else { s with host := { s.host with priWait := (c, i, w.2.2.1, rest) :: ws } }

/-- The Page Requests of an XLATE of an address space that is bound to a PASID, one for each page the word needs (R278). -/
def State.requestPages (s : State) (c i asid : Nat) (f : Trap) : State :=
  let entry := smGet s.host.pasid asid
  if !entry.getLsbD 31 then s
  else
    let pages := if f.pages.isEmpty then [f.addr.toNat % 2 ^ 57 / 65536] else f.pages
    s.sendPages (s.host.priWait ++ [(c, i, (entry.extractLsb' 0 20).toNat, pages)])

/-- What a fault in a strand is taken as: one of an address space without a PASID counts as a failed service (R283). -/
def State.takenAs (s : State) (b : Blk) (f : Trap) : Trap := if s.unserved b.asid f.addr then { f with serviced := true } else f

/-- Taking an exception in a strand of a core, with the event of an XLATE to be serviced. -/
def State.trap (s : State) (c i : Nat) (word : Addr) (len : Nat) (f : Trap) : State :=
  match s.blk c, s.strand c i with
  | some b, some st =>
    let f := s.takenAs b f
    let s' := s.modStrand c i fun st => st.trap s.now b.loose word len f
    if f.cause = .xlate ∧ b.loose ∧ ¬ f.serviced ∧ ¬ st.inHandler ∧ st.tvec ≠ 0 then
      let entry := smGet s.host.pasid b.asid
      let pasid := if entry.getLsbD 31 then (entry.extractLsb' 0 20).toNat else 0xFFFFFFFF
      (s'.event evXlate (xlatePayload c i b.asid pasid (faultRecord st word f)) c i).requestPages c i b.asid f
    else s'
  | _, _ => s

/-- RETURN FROM AN EXCEPTION at the next word (R292): the handler is left, and an engine fault of the faulting
WAITT counts as acquired already (its operation left the contexts when the fault was raised). Where the faulting word is the last
of an active body, the loop unit neither counts nor loops back, and the next word ends the loop as one passed in straight line
does: the spec does not say (DESIGN CHOICE, log entry 37). -/
def Strand.returnNext (st : Strand) : Strand :=
  { st with inHandler := false, pc := st.fword + BitVec.ofNat 64 st.flen }

/-- RETURN FROM AN EXCEPTION at the region entry (R292): the wait and the restore of R294 follow. -/
def Strand.returnRegion (st : Strand) : Strand :=
  { st with inHandler := false, waits := st.waits ++ [.region] }

/-- The restore of R294 once everything has landed: loop state and timelines from the snapshot, commands of the
region forgotten, the region entry next. -/
def Strand.restart (st : Strand) : Strand :=
  { st with
    lc := st.snap.lc
    loops := st.snap.loops
    tl := st.snap.tl
    eops := st.eops.filter fun e => e.num ≤ (smGet st.snap.tl (Engine.index e.eng)).toNat
    pc := st.entry }

/-! ## Units (R76, R79) -/

def uLane : Nat := 0
def uSfu : Nat := 1
def uCross : Nat := 2
def uStat : Nat := 3
def uScratch : Nat := 4
def uGather : Nat := 5
def uMemory : Nat := 6
def uMatrix : Nat := 7
def uRing : Nat := 8
def uCopyQ : Nat := 9
def uCollQ : Nat := 10
def uFabricQ : Nat := 11

/-- The cycle from which a unit is free. -/
def Core.freeFrom (k : Core) (u : Nat) : Nat := (aGet k.busy u).getD 0

/-- A unit taken until a cycle. -/
def Core.occupy (k : Core) (u till : Nat) : Core :=
  { k with busy := aSet k.busy u (if k.freeFrom u < till then till else k.freeFrom u) }

/-! ## Issuing a word -/

/-- What the meaning of a word sees: the state before it, its core, slot, block and strand, its control bits; `skip` are threads
whose checks are left out, as their operands are uncorrectable (R287). -/
structure View where
  s : State
  c : Nat
  i : Nat
  core : Core
  b : Blk
  st : Strand
  ctl : Ctl
  skip : List Nat := []
  deriving DecidableEq, Repr

/-- The view of the selected strand; none where no running strand is selected. -/
def State.view (s : State) (ctl : Ctl) : Option View :=
  match s.sel with
  | none => none
  | some (c, i) =>
    match s.blk c, s.strand c i with
    | some b, some st => if st.ended.isSome then none else some { s := s, c := c, i := i, core := s.core c, b := b, st := st, ctl := ctl }
    | _, _ => none

/-- The issue cycle. -/
def View.now (v : View) : Nat := v.s.now

/-- The issue number of the word, by which results of one landing cycle are ordered. -/
def View.seq (v : View) : Nat := v.s.seq

/-- The activity bit of a thread (R65). -/
def View.active (v : View) (t : Nat) : Bool := v.st.cur.am.getLsbD t

/-- The predicate of a thread (R9, R335). -/
def View.pred (v : View) (t : Nat) : Bool := v.st.getK v.ctl.k.toNat t != v.ctl.neg

/-- Active and predicated on: the thread takes part in the instruction (R9). -/
def View.on (v : View) (t : Nat) : Bool := v.active t && v.pred t && !v.skip.contains t

/-- The threads that take part, lowest first. -/
def View.threads (v : View) : List Nat := (List.range v.st.threads).filter v.on

/-- The leader (R68): the lowest such thread, thread 0 without one. -/
def View.leader (v : View) : Nat := v.threads.headD 0

/-- The rule of R67: k0 always executes; another predicate needs one thread. -/
def View.runs (v : View) : Bool := (v.ctl.k == 0 && !v.ctl.neg) || !v.threads.isEmpty

/-- Whether every launched thread is active and predicated on (R87), and those that are not. -/
def View.missing (v : View) : List Nat := (List.range v.st.threads).filter fun t => !v.on t && !v.skip.contains t

/-- A use of registers by a word: the operand, how many registers from it, and whether it is read. -/
structure Use where
  o : Opd
  n : Nat := 1
  rd : Bool := true
  deriving DecidableEq, Repr

/-- Whether the strand's allotment holds the registers (R66). -/
def Regs.holds (r : Regs) (u : Use) : Bool :=
  match u.o with
  | .v n => n.toNat + u.n ≤ r.nv
  | .s n => 61 ≤ n.toNat || n.toNat + u.n + 3 ≤ r.ns
  | .q n => n.toNat < r.nq
  | _ => true

/-- The length in bytes of a word with these operands (R325). -/
def wordLen (us : List Use) : Nat :=
  us.foldl (fun n u => match u.o with | .lit32 _ => n + 4 | .lit64 _ => n + 8 | _ => n) 8

/-- The threads whose read registers hold an uncorrectable word (R287, R323); a uniform word reads its leader. -/
def View.badThreads (v : View) (uni : Bool) (us : List Use) : List Nat :=
  let mine := v.core.badRegs.filter fun b => b.slot == v.i && b.allot == v.st.curIx
  if mine.isEmpty then []
  else
    let ts := if uni then [v.leader] else v.threads
    ts.filter fun t => us.any fun u => u.rd && mine.any fun b =>
      match u.o with
      | .v n => b.file == 0 && n.toNat ≤ b.index && b.index < n.toNat + u.n && b.thread == t
      | .s n => b.file == 1 && n.toNat ≤ b.index && b.index < n.toNat + u.n
      | .q n => b.file == 2 && n.toNat == b.index && b.thread == t
      | _ => false

/-- Whether operands that a check rests on are readable: none of their registers is uncorrectable (R287; log entry 49). -/
def View.knows (v : View) (uni : Bool) (us : List Use) : Bool := (v.badThreads uni us).isEmpty

/-- What a meaning adds to the state that has issued its word: a transfer of control, and its effects; or the page (ASID
and address) whose walk holds the word before it issues (R305). `unc` are threads, with addresses, that read uncorrectable
storage in the issue cycle: their MEMUNC, which `post` raises, joins that of uncorrectable registers (R286, R287). -/
structure Act where
  jump : Option Addr := none
  walk : Option (Nat × Nat) := none
  post : State → State := fun s => s
  unc : List (Nat × Addr) := []

/-- The loop unit at a word that does not transfer control (R82, R83): the next address, the loops left, the counter
writes that land at issue + 1. Loops are innermost first; passing an enclosing body straight ends it. -/
def loopUnit (lc : SMap 32) (word next : Addr) : List LoopSt → Addr × List LoopSt × List RegW
  | [] => (next, [], [])
  | l :: ls =>
    if l.last = word then
      let n := smGet lc l.ctr
      if 1 < n.toNat then (l.first, l :: ls, [.lc l.ctr (n - 1)])
      else
        let r := loopUnit lc word next ls
        (r.1, r.2.1, .lc l.ctr 0 :: r.2.2)
    else (next, (l :: ls).dropWhile fun l => l.last.toNat < next.toNat, [])

/-- The loops that are still active at the word to issue (R82, R394): straight-line issue beyond a body's last word, as after RETT.NEXT
past it, ends its loop; in a handler no loop ends (R84). -/
def Strand.enclosing (st : Strand) : List LoopSt :=
  if st.inHandler then st.loops else st.loops.dropWhile fun l => l.last.toNat < st.pc.toNat

/-- The loops that a transfer to `dest` leaves active (R84): not the outermost whose body does not hold the target, nor any loop
inside it. The word after an LBRK, or after a LOOP of count 0, is such a target: where an inner body shares its last word with the
outer, the outer ends too and keeps its counter (DEDUCED from R84 and R394, log entry 76). -/
def loopsAfterJump (dest : Addr) (ls : List LoopSt) : List LoopSt :=
  let inside (l : LoopSt) : Bool := l.first.toNat ≤ dest.toNat && dest.toNat ≤ l.last.toNat
  (ls.reverse.takeWhile inside).reverse

/-- Results put in flight. -/
def Strand.put (st : Strand) (p : Pend) : Strand := { st with pend := st.pend ++ [p] }

/-- The strand after its word has issued: the next address, the loop unit, the hold bit (R69, R74, R82, R84). A word that
transfers control and is itself the last of an active body takes its transfer, and the loop unit neither counts nor loops back:
the spec settles this for LBRK only (R390; DESIGN CHOICE, log entry 37). -/
def Strand.advance (st : Strand) (now seq : Nat) (hold : Bool) (len : Nat) (jump : Option Addr) : Strand :=
  let next := st.pc + BitVec.ofNat 64 len
  let st := { st with lastWord := st.pc }
  let st :=
    match jump with
    | some a => { st with pc := a, loops := if st.inHandler then st.loops else loopsAfterJump a st.enclosing }
    | none =>
      if st.inHandler then { st with pc := next }
      else
        let r := loopUnit st.lc st.pc next st.enclosing
        let st := { st with pc := r.1, loops := r.2.1 }
        if r.2.2.isEmpty then st else st.put ⟨seq, some (now + 1), true, r.2.2⟩
  if hold then { st with waits := st.waits ++ [.hold] } else st

/-- A word held before issue while its page is walked or on the move (R305, R308): the strand waits, its frame is not
used, and the walk of the die is under way. -/
def State.holdForWalk (s : State) (c i asid va : Nat) : State :=
  let s := s.modStrand c i fun st => { st with waits := st.waits ++ [.walk asid va] }
  { s with
    served := s.served.filter fun x => x != c
    walks := if s.walks.contains (dieOf c, asid, va) then s.walks else s.walks ++ [(dieOf c, asid, va)] }

/-- MEMUNC of some threads, with their addresses, in the cycle after the word's issue (R287); the address is the lowest thread's. -/
def Strand.lateMemunc (st : Strand) (now : Nat) (word : Addr) (len : Nat) (ts : List (Nat × Addr)) (slotY : Bool) : Strand :=
  let l := sortBy (·.1) ts
  let f : Trap := { cause := .memunc, threads := l.map (·.1), addr := (l.head?.map (·.2)).getD 0, slotY := slotY }
  { st with late := st.late ++ [⟨now + 1, word, len, f⟩] }

/-- Threads whose fault has no address. -/
def noAddr (ts : List Nat) : List (Nat × Addr) := ts.map fun t => (t, 0)

/-- The issue of a word by the selected strand: the allotment check (R66), the predicate rule of uniform and control
words (R67), then the word's own checks and effects. A fault takes the exception of R291 in the issue cycle. Threads whose
registers are uncorrectable raise MEMUNC in the next cycle, unless a check faults at issue (R286, R287): `chk` are the operands
that the checks of a thread rest on as a whole, and a check that rests on others leaves out what it does not know (`View.knows`;
R344 step 5, log entry 49). `slotY` says of an allotment whether the registers outside it are slot Y's alone (R289). The hold bit of a word that
does not execute parks the strand too: R67 gives the word no effect, R74 speaks of every word with the bit (DESIGN CHOICE, log entry 76). -/
def issue (s : State) (ctl : Ctl) (uni : Bool) (us : List Use) (body : View → Except Trap Act)
    (slotY : Regs → Bool := fun _ => false) (chk : List Use := us) : Host.Outcome State Fault Refusal :=
  match s.view ctl with
  | none => .fault .noStrand
  | some v =>
    let len := wordLen us
    let s1 := { s with seq := s.seq + 1 }
    let go (j : Option Addr) := s1.modStrand v.c v.i fun st => st.advance s.now s.seq ctl.hold len j
    if !us.all v.st.cur.holds then .next (s1.trap v.c v.i v.st.pc len { cause := .illop, threads := allThreads, slotY := slotY v.st.cur })
    else if uni && !v.runs then .next (go none)
    else
      match v.badThreads uni us with
      | t :: ts =>
        let late (more : List (Nat × Addr)) :=
          (go none).modStrand v.c v.i fun st => st.lateMemunc s.now v.st.pc len (noAddr (t :: ts) ++ more) false
        let dark := v.badThreads uni chk
        if uni && !dark.isEmpty then .next (late [])
        else
          match body { v with skip := dark } with
          | .error f => .next (s1.trap v.c v.i v.st.pc len f)
          | .ok a =>
            match a.walk with
            | some p => .next (s.holdForWalk v.c v.i p.1 p.2)
            | none => .next (late (a.unc.filter fun p => !(t :: ts).contains p.1))
      | [] =>
        match body v with
        | .error f => .next (s1.trap v.c v.i v.st.pc len f)
        | .ok a =>
          match a.walk with
          | some p => .next (s.holdForWalk v.c v.i p.1 p.2)
          | none => .next (a.post (go a.jump))

/-! ## Effects shared by many words -/

/-- Results of the word that land at a cycle. -/
def View.land (v : View) (at_ : Nat) (ws : List RegW) (s : State) : State :=
  if ws.isEmpty then s else s.modStrand v.c v.i fun st => st.put ⟨v.seq, some at_, true, ws⟩

/-- A unit of the core taken for some cycles from issue. -/
def View.occupy (v : View) (u n : Nat) (s : State) : State :=
  s.modCore v.c fun k => k.occupy u (v.now + n)

/-- The strand parked for a further reason. -/
def View.park (v : View) (w : Wait) (s : State) : State :=
  s.modStrand v.c v.i fun st => { st with waits := st.waits ++ [w] }

/-- A change of the issuing strand. -/
def View.onStrand (v : View) (f : Strand → Strand) (s : State) : State := s.modStrand v.c v.i f

/-- A change of the issuing core. -/
def View.onCore (v : View) (f : Core → Core) (s : State) : State := s.modCore v.c f

/-- A change of the issuing block. -/
def View.onBlk (v : View) (f : Blk → Blk) (s : State) : State := s.modBlk v.c f

/-- The fault of a word for some of its threads. -/
def raise {α : Type} (c : Cause) (ts : List Nat) (addr : Addr := 0) : Except Trap α :=
  .error { cause := c, threads := ts, addr := addr }

/-- The fault of a uniform word names its leader (R286). -/
def View.raise1 {α : Type} (v : View) (c : Cause) (addr : Addr := 0) : Except Trap α := raise c [v.leader] addr

/-- Requires the whole strand (R87). -/
def View.whole (v : View) : Except Trap Unit :=
  if v.missing.isEmpty then .ok () else raise .illconv v.missing

/-- The faults of single threads, each a cause and an address: the highest priority is recorded, with its threads and
the address of the lowest (R286, R289). -/
def worst (fs : List (Nat × Cause × Addr)) : Except Trap Unit :=
  match fs with
  | [] => .ok ()
  | f :: rest =>
    let c := rest.foldl (fun c g => if g.2.1.priority < c.priority then g.2.1 else c) f.2.1
    let mine := fs.filter fun g => g.2.1 = c
    .error { cause := c, threads := mine.map (·.1), addr := (mine.head?.map (·.2.2)).getD 0
             pages := if c = .xlate then dedupSorted (mine.map fun g => g.2.2.toNat % 2 ^ 57 / 65536) else [] }

/-- A schedule fault raised in this cycle (R57), for the Accord controller to take. -/
def State.raiseSched (s : State) (cause : SCause) (unit : Nat) : State :=
  { s with sch := { s.sch with raised := s.sch.raised ++
    [⟨cause, s.sch.pkgid, unit, s.accord / 2048, s.accord, s.now⟩] } }

/-- STALL at a cycle's wait of a fixed strand (R50). -/
def State.stall (s : State) (c : Nat) : State := s.raiseSched .stall c

/-- A free value: the opaque constant at the draw counter, which advances (log entry 13). -/
def State.draw (s : State) : BitVec 64 × State := (Config.freeWord s.draws, { s with draws := s.draws + 1 })

end Sys2Proof.Machine
end

