-- ==== Sys2Proof/Machine/Operands.lean ====
section
/-! DEFINITION. Every operand form: special registers, 32-bit and 64-bit sources, addresses, parameter groups, and the register writes of a result. -/

namespace Sys2Proof.Machine
open Sys2Proof

/-- A half of a 64-bit special register: the low word at an even index, the high word at the next. -/
def half (n : Nat) (x : Nat) : Word := BitVec.ofNat 32 (if n % 2 = 0 then x else x / 2 ^ 32)

/-- The special register of an index for a thread (R330, R422); an index with none reads 0. -/
def View.special (v : View) (n t : Nat) : Word :=
  if n = 0x40 then BitVec.ofNat 32 t
  else if n = 0x41 then BitVec.ofNat 32 v.i
  else if n = 0x42 then BitVec.ofNat 32 v.b.entryIx
  else if n = 0x43 then BitVec.ofNat 32 v.c
  else if n = 0x44 then BitVec.ofNat 32 (v.c % 192 / 3)
  else if n = 0x45 then BitVec.ofNat 32 (dieOf v.c)
  else if n = 0x46 then BitVec.ofNat 32 v.s.sch.pkgid
  else if n = 0x47 then BitVec.ofNat 32 (t / 32)
  else if n = 0x48 ∨ n = 0x49 then half n v.s.accord
  else if n = 0x4A then BitVec.ofNat 32 (v.s.accord / 2048)
  else if n = 0x4B then BitVec.ofNat 32 (v.s.accord / 1024)
  else if n = 0x4C then v.st.regioncnt
  else if n = 0x4D then v.st.stepcnt
  else if n = 0x4E then smGet v.st.fstat t
  else if 0x50 ≤ n ∧ n ≤ 0x5B then half n (smGet v.st.tl ((n - 0x50) / 2)).toNat
  else if n = 0x5C ∨ n = 0x5D then half n v.st.tvec.toNat
  else if 0x60 ≤ n ∧ n ≤ 0x67 then v.st.frec.extractLsb' (32 * (n - 0x60)) 32
  else 0

/-- A 32-bit source for a thread (R328 to R333): registers, special registers, an inline integer zero-extended, an
inline FP constant as its bits, a 32-bit literal. No operand reads 0. -/
def View.word (v : View) (o : Opd) (t : Nat) : Word :=
  match o with
  | .v n => v.st.cur.getV n.toNat t
  | .s n => v.st.cur.getS n.toNat
  | .sp n => v.special n.toNat t
  | .k n => if v.st.getK n.toNat t then 1 else 0
  | .lc n => smGet v.st.lc n.toNat
  | .inl n => n.setWidth 32
  | .fpc n => fpConst n
  | .lit32 x => x
  | .lit64 x => x.setWidth 32
  | _ => 0

/-- An F32 source: an inline integer supplies the value n (R331). -/
def View.float (v : View) (o : Opd) (t : Nat) : Word :=
  match o with
  | .inl n => (r32 false n.toNat 0 false).1
  | o => v.word o t

/-- A 64-bit source (R112, R330, R333): a register pair, an inline integer, the 32 bits of an FP constant
zero-extended, a 32-bit literal extended by the operand's sign, a 64-bit literal. -/
def View.quad (v : View) (signed : Bool) (o : Opd) (t : Nat) : BitVec 64 :=
  match o with
  | .v n => v.st.cur.getV (n.toNat + 1) t ++ v.st.cur.getV n.toNat t
  | .s n => v.st.cur.getS (n.toNat + 1) ++ v.st.cur.getS n.toNat
  | .sp n => v.special (n.toNat + 1) t ++ v.special n.toNat t
  | .lit32 x => if signed then x.signExtend 64 else x.setWidth 64
  | .lit64 x => x
  | o => (v.word o t).setWidth 64

/-- A source of an instruction's type (R353): a pair for a 64-bit type, else a word zero-extended. -/
def View.src (v : View) (ty : Ty) (o : Opd) (t : Nat) : BitVec 64 :=
  if ty.wide then v.quad (tySigned ty) o t
  else if ty = .f32 then (v.float o t).setWidth 64
  else (v.word o t).setWidth 64

/-- The triple of a statistics register (R180). -/
def View.triple (v : View) (o : Opd) (t : Nat) : Tri :=
  match o with
  | .q n =>
    let q := v.st.cur.getQ n.toNat t
    if q.st.getLsbD 3 then Tri.empty else q
  | _ => Tri.empty

/-- A predicate operand of a thread; no operand reads true. -/
def View.kbit (v : View) (o : Opd) (t : Nat) : Bool :=
  match o with
  | .k n => v.st.getK n.toNat t
  | _ => true

/-- The shape register an operand names, and its index. -/
def gIx : Opd → Nat
  | .g n => n.toNat
  | _ => 0

/-- The index of an accumulator operand. -/
def accIx : Opd → Nat
  | .acc n => n.toNat
  | _ => 0

/-- Register j of a parameter group (R372). -/
def View.group (v : View) (p : Opd) (j : Nat) : Word :=
  match p with
  | .s n => v.st.cur.getS (n.toNat + j)
  | _ => 0

/-- Whether the destination makes the word run once (R67, R329). -/
def runsOnce : Opd → Bool
  | .s _ => true
  | .lc _ => true
  | _ => false

/-- The register writes of a value for thread t: a pair takes two words (R112); a predicate takes bit 0; no operand
takes none. -/
def writeTo (d : Opd) (wide : Bool) (t : Nat) (x : BitVec 64) : List RegW :=
  match d with
  | .v n => .v n.toNat t (x.setWidth 32) :: if wide then [.v (n.toNat + 1) t (x.extractLsb' 32 32)] else []
  | .s n => .s n.toNat (x.setWidth 32) :: if wide then [.s (n.toNat + 1) (x.extractLsb' 32 32)] else []
  | .k n => [.k n.toNat t (x.getLsbD 0)]
  | .lc n => [.lc n.toNat (x.setWidth 32)]
  | _ => []

/-- Consecutive 32-bit registers from d for thread t. -/
def writeRun (d : Opd) (t : Nat) (xs : List Word) : List RegW :=
  match d with
  | .v n => xs.zipIdx.map fun p => .v (n.toNat + p.2) t p.1
  | .s n => xs.zipIdx.map fun p => .s (n.toNat + p.2) p.1
  | _ => []

/-- The threads whose results a word forms: the leader alone where it runs once. -/
def View.doers (v : View) (d : Opd) : List Nat := if runsOnce d then [v.leader] else v.threads

/-- Uses of registers as sources: single words, pairs, runs; destinations. -/
def rd (o : Opd) : Use := ⟨o, 1, true⟩
def rd2 (o : Opd) : Use := ⟨o, 2, true⟩
def rdN (o : Opd) (n : Nat) : Use := ⟨o, n, true⟩
def rdT (wide : Bool) (o : Opd) : Use := ⟨o, if wide then 2 else 1, true⟩
def wr (o : Opd) : Use := ⟨o, 1, false⟩
def wrN (o : Opd) (n : Nat) : Use := ⟨o, n, false⟩
def wrT (wide : Bool) (o : Opd) : Use := ⟨o, if wide then 2 else 1, false⟩

end Sys2Proof.Machine
end

