-- ==== Sys2Proof/Machine/Flags.lean ====
section
/-! DEFINITION. Sticky flags, and the lane operation: results and flags of a lane-executed word with the latency and occupancy of its class. -/

namespace Sys2Proof.Machine
open Sys2Proof

/-- A class of R76: its unit, latency and occupancy, and the latency and occupancy of the uniform form (R77). -/
structure Lane where
  unit : Nat
  lat : Nat
  occ : Nat
  uLat : Nat
  uOcc : Nat
  deriving DecidableEq, Repr

def lnAlu : Lane := ⟨uLane, 6, 3, 4, 0⟩
def lnMul32 : Lane := ⟨uLane, 15, 12, 4, 0⟩
def lnFp : Lane := ⟨uLane, 9, 3, 4, 0⟩
def lnSfu : Lane := ⟨uSfu, 24, 12, 24, 4⟩
def lnTrig : Lane := ⟨uSfu, 30, 12, 30, 4⟩
def lnCross : Lane := ⟨uCross, 10, 3, 10, 3⟩
def lnScan : Lane := ⟨uCross, 22, 6, 22, 6⟩
def lnScanlr : Lane := ⟨uCross, 26, 6, 26, 6⟩
def lnStat : Lane := ⟨uStat, 18, 6, 18, 6⟩
def lnStred : Lane := ⟨uStat, 40, 12, 40, 12⟩
def lnStfin : Lane := ⟨uStat, 30, 12, 30, 12⟩
def lnScratch : Lane := ⟨uScratch, 14, 3, 14, 3⟩
def lnGather : Lane := ⟨uGather, 48, 12, 48, 12⟩

/-- The flag write of a thread: an OR into its fstat (R118). -/
def flagW (t : Nat) (f : Flags) : List RegW := if f = 0 then [] else [.fstatOr t f]

/-- Whether a vector word runs slowly: an active thread lies in an island at 0.42 V (R80). -/
def View.slow (v : View) : Bool :=
  v.core.islands != 0 && v.threads.any fun t => v.core.islands.getLsbD (t % 32 / 8)

/-- The factor of R80. -/
def View.scale (v : View) (once : Bool) : Nat := if !once && v.slow then 4 else 1

/-- The latency and the occupancy of a word of a class. -/
def View.latency (v : View) (ln : Lane) (once : Bool) : Nat := if once then ln.uLat else ln.lat * v.scale once
def View.occupancy (v : View) (ln : Lane) (once : Bool) : Nat := if once then ln.uOcc else ln.occ * v.scale once

/-- The effect of a lane-executed word: its results land after the latency, its unit is taken for the occupancy. -/
def View.lane (v : View) (ln : Lane) (once : Bool) (ws : List RegW) : Act :=
  { post := fun s =>
      let s := v.land (v.now + v.latency ln once) ws s
      if v.occupancy ln once = 0 then s else v.occupy ln.unit (v.occupancy ln once) s }

/-- A thread-local operation: each thread that takes part (the leader alone where the word runs once) gets a value and
flags. -/
def View.perThread (v : View) (ln : Lane) (d : Opd) (wide : Bool) (f : Nat → BitVec 64 × Flags) : Act :=
  v.lane ln (runsOnce d) ((v.doers d).flatMap fun t => writeTo d wide t (f t).1 ++ flagW t (f t).2)

end Sys2Proof.Machine
end

