-- ==== Sys2Proof/Machine/Integer.lean ====
section
/-! DEFINITION. The integer instructions (R353 to R356, R363, R364, R368, R369, R378, R389, R396 to R401, R412): values, then one meaning each. -/

namespace Sys2Proof.Machine
open Sys2Proof

/-! ## Values -/

/-- Elements per operand word (R112): 2 or 4 for the packed types, 1 otherwise. -/
def elemCount (ty : Ty) : Nat := if tyBits ty < 32 then 32 / tyBits ty else 1

/-- The low w bits of an exact result, saturated to the type first where asked (R111, sat of R7). -/
def fit (ty : Ty) (sat : Bool) (x : Int) : Nat :=
  wrapTo (tyBits ty) (if sat then satTo (tySigned ty) (tyBits ty) x else x)

/-- Element i of an operand as an integer of the type. -/
def elemInt (ty : Ty) (x : BitVec 64) (i : Nat) : Int :=
  intOf (tySigned ty) (tyBits ty) (elemAt x.toNat (tyBits ty) i)

/-- An operation on every element of two operands. -/
def onElems (ty : Ty) (sat : Bool) (f : Int → Int → Int) (x y : BitVec 64) : BitVec 64 :=
  BitVec.ofNat 64 (concatElems (tyBits ty)
    ((List.range (elemCount ty)).map fun i => fit ty sat (f (elemInt ty x i) (elemInt ty y i))))

def vAdd (ty : Ty) (sat : Bool) (x y : BitVec 64) : BitVec 64 := onElems ty sat (fun a b => a + b) x y
def vSub (ty : Ty) (sat : Bool) (x y : BitVec 64) : BitVec 64 := onElems ty sat (fun a b => a - b) x y
def vMin (ty : Ty) (x y : BitVec 64) : BitVec 64 := onElems ty false (fun a b => if b < a then b else a) x y
def vMax (ty : Ty) (x y : BitVec 64) : BitVec 64 := onElems ty false (fun a b => if a < b then b else a) x y
def vAbs (ty : Ty) (sat : Bool) (x : BitVec 64) : BitVec 64 := onElems ty sat (fun a _ => (a.natAbs : Int)) x 0
def vNeg (ty : Ty) (sat : Bool) (x : BitVec 64) : BitVec 64 := onElems ty sat (fun a _ => -a) x 0
def vAnd (nb : Bool) (x y : BitVec 64) : BitVec 64 := x &&& (if nb then ~~~y else y)
def vOr (nb : Bool) (x y : BitVec 64) : BitVec 64 := x ||| (if nb then ~~~y else y)
def vXor (nb : Bool) (x y : BitVec 64) : BitVec 64 := x ^^^ (if nb then ~~~y else y)

/-- SHL (R412): a count of the width or more gives 0. -/
def vShl (ty : Ty) (x : BitVec 64) (n : Nat) : BitVec 64 :=
  if tyBits ty ≤ n then 0 else BitVec.ofNat 64 (x.toNat * 2 ^ n % 2 ^ tyBits ty)

/-- SHR (R412): logical for U, arithmetic for I; a count of the width or more gives 0 or all sign bits. -/
def vShr (ty : Ty) (x : BitVec 64) (n : Nat) : BitVec 64 :=
  let v := elemInt ty x 0
  let k := if tyBits ty ≤ n then tyBits ty else n
  BitVec.ofNat 64 (wrapTo (tyBits ty) (v / (2 ^ k : Nat)))

/-- ROT (R397): by the low five bits of the count. -/
def vRot (right : Bool) (x : Word) (n : Nat) : Word :=
  if right then x.rotateRight (n % 32) else x.rotateLeft (n % 32)

/-- BFX (R364). -/
def vBfx (ty : Ty) (x b : Word) : Word :=
  let pos := b.toNat % 256
  let len := b.toNat / 256 % 256
  let m := if 32 ≤ pos then 0 else if len < 32 - pos then len else 32 - pos
  if m = 0 then 0
  else BitVec.ofNat 32 (wrapTo 32 (intOf (tySigned ty) m (x.toNat / 2 ^ pos)))

/-- BFI (R363). -/
def vBfi (x y b : Word) : Word :=
  let pos := b.toNat % 256
  let len := b.toNat / 256 % 256
  if len = 0 ∨ 32 ≤ pos then y
  else
    let m : Word := BitVec.ofNat 32 ((2 ^ (if len < 32 - pos then len else 32 - pos) - 1) * 2 ^ pos)
    (y &&& ~~~m) ||| ((x <<< pos) &&& m)

/-- CLZ (R368). -/
def vClz (ty : Ty) (x : BitVec 64) : Nat := tyBits ty - bitLen (x.toNat % 2 ^ tyBits ty)

/-- Number of 1 bits among the low k. -/
def popCount : Nat → Nat → Nat
  | 0, _ => 0
  | k + 1, n => n % 2 + popCount k (n / 2)

/-- A comparison (R369). -/
def vCmp (q : Cond) (ty : Ty) (x y : BitVec 64) : Bool :=
  let a := elemInt ty x 0
  let b := elemInt ty y 0
  match q with
  | .eq => a == b
  | .ne => a != b
  | .lt => decide (a < b)
  | .le => decide (a ≤ b)
  | .gt => decide (b < a)
  | .ge => decide (b ≤ a)
  | _ => false

/-- The exact product of MUL (R401): 24-bit or 32-bit factors. -/
def vProd (ty : Ty) (wide : Bool) (x y : Word) : Int :=
  let w := if wide then 32 else 24
  intOf (tySigned ty) w x.toNat * intOf (tySigned ty) w y.toNat

/-- MUL (R401). -/
def vMul (ty : Ty) (wide hi : Bool) (x y : Word) : Word :=
  BitVec.ofNat 32 (wrapTo 32 (vProd ty wide x y / (if hi then (if wide then 2 ^ 32 else 2 ^ 16 : Nat) else (1 : Nat))))

/-- MAD (R398). -/
def vMad (ty : Ty) (wide : Bool) (x y z : Word) : Word := vMul ty wide false x y + z

/-- DOT4 (R130, R378): one saturation of the exact sum. -/
def vDot4 (bs as u : Bool) (x y z : Word) : Word :=
  let el (sg : Bool) (w : Word) (i : Nat) : Int := intOf sg 8 (elemAt w.toNat 8 i)
  let sum := (List.range 4).foldl (fun acc i => acc + el as x i * el bs y i) (intOf (!u) 32 z.toNat)
  BitVec.ofNat 32 (wrapTo 32 (satTo (!u) 32 sum))

/-- KOP on one thread's bits (R389). -/
def kopBit (op : KopOp) (x y : Bool) : Bool :=
  match op with
  | .and => x && y
  | .or => x || y
  | .xor => x != y
  | .andn => x && !y
  | .not => !x
  | .mov => x

/-! ## Meanings -/

/-- A thread-local word without faults of its own (R353): uses, then a value and flags per thread. -/
def laneWord (s : State) (c : Ctl) (ln : Lane) (d : Opd) (wide : Bool) (us : List Use)
    (f : View → Nat → BitVec 64 × Flags) : Host.Outcome State Fault Refusal :=
  issue s c (runsOnce d) (wrT wide d :: us) fun v => .ok (v.perThread ln d wide (f v))

/-- A one-operand integer word. -/
def alu1 (s : State) (c : Ctl) (ty : Ty) (d a : Opd) (f : BitVec 64 → BitVec 64) :
    Host.Outcome State Fault Refusal :=
  laneWord s c lnAlu d ty.wide [rdT ty.wide a] fun v t => (f (v.src ty a t), 0)

/-- A two-operand integer word. -/
def alu2 (s : State) (c : Ctl) (ty : Ty) (d a b : Opd) (f : BitVec 64 → BitVec 64 → BitVec 64) :
    Host.Outcome State Fault Refusal :=
  laneWord s c lnAlu d ty.wide [rdT ty.wide a, rdT ty.wide b] fun v t => (f (v.src ty a t) (v.src ty b t), 0)

/-- A shift: the count is one 32-bit operand in every type (R412). -/
def aluShift (s : State) (c : Ctl) (ty : Ty) (d a b : Opd) (f : BitVec 64 → Nat → BitVec 64) :
    Host.Outcome State Fault Refusal :=
  laneWord s c lnAlu d ty.wide [rdT ty.wide a, rd b] fun v t => (f (v.src ty a t) (v.word b t).toNat, 0)

/-- ABS (R354). -/
def execAbs (c : Ctl) (ty : Ty) (sat : Bool) (d a : Opd) (s : State) := alu1 s c ty d a (vAbs ty sat)
/-- ADD (R355). -/
def execAdd (c : Ctl) (ty : Ty) (sat : Bool) (d a b : Opd) (s : State) := alu2 s c ty d a b (vAdd ty sat)
/-- AND (R356). -/
def execAnd (c : Ctl) (ty : Ty) (nb : Bool) (d a b : Opd) (s : State) := alu2 s c ty d a b (vAnd nb)
/-- BFI (R363). -/
def execBfi (c : Ctl) (_ty : Ty) (d a b e : Opd) (s : State) :=
  laneWord s c lnAlu d false [rd a, rd b, rd e] fun v t =>
    ((vBfi (v.word a t) (v.word b t) (v.word e t)).setWidth 64, 0)
/-- BFX (R364). -/
def execBfx (c : Ctl) (ty : Ty) (d a b : Opd) (s : State) :=
  laneWord s c lnAlu d false [rd a, rd b] fun v t => ((vBfx ty (v.word a t) (v.word b t)).setWidth 64, 0)
/-- CLZ (R368): one 32-bit register in both types. -/
def execClz (c : Ctl) (ty : Ty) (d a : Opd) (s : State) :=
  laneWord s c lnAlu d false [rdT ty.wide a] fun v t => (BitVec.ofNat 64 (vClz ty (v.src ty a t)), 0)
/-- CMP (R369): a predicate, or 1 or 0 in a register. -/
def execCmp (c : Ctl) (q : Cond) (ty : Ty) (d a b : Opd) (s : State) :=
  laneWord s c lnAlu d false [rdT ty.wide a, rdT ty.wide b] fun v t =>
    (if vCmp q ty (v.src ty a t) (v.src ty b t) then 1 else 0, 0)
/-- DOT4 (R378). -/
def execDot4 (c : Ctl) (bs as u : Bool) (d a b e : Opd) (s : State) :=
  laneWord s c lnFp d false [rd a, rd b, rd e] fun v t =>
    ((vDot4 bs as u (v.word a t) (v.word b t) (v.word e t)).setWidth 64, 0)
/-- KOP (R389), the thread-by-thread forms. -/
def execKop (c : Ctl) (op : KopOp) (d a b : Opd) (s : State) :=
  laneWord s c lnAlu d false [rd a, rd b] fun v t => (if kopBit op (v.kbit a t) (v.kbit b t) then 1 else 0, 0)
/-- KOP.GET (R389): the 32 bits of one beat, active or not. -/
def execKopGet (c : Ctl) (d a b : Opd) (s : State) :=
  laneWord s c lnAlu d false [rd a] fun v _ =>
    (BitVec.ofNat 64 ((List.range 32).foldl (fun m l =>
      if v.kbit a (32 * (v.word b 0).toNat + l) then m + 2 ^ l else m) 0), 0)
/-- KOP.PUT (R389): the active threads of one beat. -/
def execKopPut (c : Ctl) (d a b : Opd) (s : State) :=
  issue s c false [wr d, rd a, rd b] fun v =>
    let ts := v.threads.filter fun t => t / 32 == (v.word b 0).toNat
    .ok (v.lane lnAlu false (ts.flatMap fun t =>
      writeTo d false t (if (v.word a t).getLsbD (t % 32) then 1 else 0)))
/-- MAD (R398). -/
def execMad (c : Ctl) (ty : Ty) (wide : Bool) (d a b e : Opd) (s : State) :=
  laneWord s c (if wide then lnMul32 else lnAlu) d false [rd a, rd b, rd e] fun v t =>
    ((vMad ty wide (v.word a t) (v.word b t) (v.word e t)).setWidth 64, 0)
/-- MAX (R397). -/
def execMax (c : Ctl) (ty : Ty) (d a b : Opd) (s : State) := alu2 s c ty d a b (vMax ty)
/-- MIN (R397). -/
def execMin (c : Ctl) (ty : Ty) (d a b : Opd) (s : State) := alu2 s c ty d a b (vMin ty)
/-- MOV (R400): a vector, scalar or loop-counter destination. -/
def execMov (c : Ctl) (ty : Ty) (d a : Opd) (s : State) := alu1 s c ty d a (fun x => x)
/-- MUL (R401). -/
def execMul (c : Ctl) (ty : Ty) (wide hi : Bool) (d a b : Opd) (s : State) :=
  laneWord s c (if wide then lnMul32 else lnAlu) d false [rd a, rd b] fun v t =>
    ((vMul ty wide hi (v.word a t) (v.word b t)).setWidth 64, 0)
/-- NEG (R397). -/
def execNeg (c : Ctl) (ty : Ty) (sat : Bool) (d a : Opd) (s : State) := alu1 s c ty d a (vNeg ty sat)
/-- NOT (R397). -/
def execNot (c : Ctl) (ty : Ty) (d a : Opd) (s : State) := alu1 s c ty d a (fun x => ~~~x)
/-- OR (R397). -/
def execOr (c : Ctl) (ty : Ty) (nb : Bool) (d a b : Opd) (s : State) := alu2 s c ty d a b (vOr nb)
/-- POPC (R397): one 32-bit register in both types. -/
def execPopc (c : Ctl) (ty : Ty) (d a : Opd) (s : State) :=
  laneWord s c lnAlu d false [rdT ty.wide a] fun v t => (BitVec.ofNat 64 (popCount 64 (v.src ty a t).toNat), 0)
/-- ROT (R397). -/
def execRot (c : Ctl) (_ty : Ty) (right : Bool) (d a b : Opd) (s : State) :=
  laneWord s c lnAlu d false [rd a, rd b] fun v t =>
    ((vRot right (v.word a t) (v.word b t).toNat).setWidth 64, 0)
/-- SEL (R412): the predicate of each thread, or of the leader. -/
def execSel (c : Ctl) (ty : Ty) (d a b e : Opd) (s : State) :=
  laneWord s c lnAlu d ty.wide [rdT ty.wide a, rdT ty.wide b, rd e] fun v t =>
    (if v.kbit e t then v.src ty a t else v.src ty b t, 0)
/-- SHL (R412). -/
def execShl (c : Ctl) (ty : Ty) (d a b : Opd) (s : State) := aluShift s c ty d a b (vShl ty)
/-- SHR (R412). -/
def execShr (c : Ctl) (ty : Ty) (d a b : Opd) (s : State) := aluShift s c ty d a b (vShr ty)
/-- SUB (R412). -/
def execSub (c : Ctl) (ty : Ty) (sat : Bool) (d a b : Opd) (s : State) := alu2 s c ty d a b (vSub ty sat)
/-- XOR (R412). -/
def execXor (c : Ctl) (ty : Ty) (nb : Bool) (d a b : Opd) (s : State) := alu2 s c ty d a b (vXor nb)

end Sys2Proof.Machine
end

