-- ==== Sys2Proof/Machine/Float.lean ====
section
/-! DEFINITION. The floating-point instructions and CVT (R380 to R386, R376, R377): one meaning each. -/

namespace Sys2Proof.Machine
open Sys2Proof

/-- An FP32 result with its flags as a register value. -/
def fres (x : Word × Flags) : BitVec 64 × Flags := (x.1.setWidth 64, x.2)

/-- A floating-point word of one, two or three operands (R380). -/
def fp1 (s : State) (c : Ctl) (ln : Lane) (d a : Opd) (f : Word → Word × Flags) : Host.Outcome State Fault Refusal :=
  laneWord s c ln d false [rd a] fun v t => fres (f (v.float a t))
def fp2 (s : State) (c : Ctl) (ln : Lane) (d a b : Opd) (f : Word → Word → Word × Flags) :
    Host.Outcome State Fault Refusal :=
  laneWord s c ln d false [rd a, rd b] fun v t => fres (f (v.float a t) (v.float b t))

/-- FADD (R381). -/
def execFadd (c : Ctl) (d a b : Opd) (s : State) := fp2 s c lnFp d a b add32
/-- FSUB (R381). -/
def execFsub (c : Ctl) (d a b : Opd) (s : State) := fp2 s c lnFp d a b sub32
/-- FMUL (R381). -/
def execFmul (c : Ctl) (d a b : Opd) (s : State) := fp2 s c lnFp d a b mul32
/-- FMA (R381). -/
def execFma (c : Ctl) (d a b e : Opd) (s : State) :=
  laneWord s c lnFp d false [rd a, rd b, rd e] fun v t => fres (fma32 (v.float a t) (v.float b t) (v.float e t))
/-- FMIN (R384). -/
def execFmin (c : Ctl) (d a b : Opd) (s : State) := fp2 s c lnAlu d a b fmin32
/-- FMAX (R384). -/
def execFmax (c : Ctl) (d a b : Opd) (s : State) := fp2 s c lnAlu d a b fmax32
/-- FCMP (R383): a predicate, or 1 or 0 in a register. -/
def execFcmp (c : Ctl) (q : Cond) (d a b : Opd) (s : State) :=
  laneWord s c lnAlu d false [rd a, rd b] fun v t =>
    let r := fcmp32 q (v.float a t) (v.float b t)
    (if r.1 then 1 else 0, r.2)
/-- FCLASS (R382): the class word, or a test of it against a mask. -/
def execFclass (c : Ctl) (d a b : Opd) (s : State) :=
  laneWord s c lnAlu d false [rd a, rd b] fun v t =>
    let w := fclass32 (v.float a t)
    (if d.isK then (if w &&& v.word b t = 0 then 0 else 1) else w.setWidth 64, 0)
/-- FSCL (R386). -/
def execFscl (c : Ctl) (d a b : Opd) (s : State) :=
  laneWord s c lnAlu d false [rd a, rd b] fun v t => fres (scl32 (v.float a t) (v.word b t).toInt)
/-- FRND (R385). -/
def execFrnd (c : Ctl) (r : Rnd) (d a : Opd) (s : State) := fp1 s c lnFp d a (frnd32 r)
/-- FRCP (R381). -/
def execFrcp (c : Ctl) (d a : Opd) (s : State) := fp1 s c lnSfu d a rcp32
/-- FSQRT (R381). -/
def execFsqrt (c : Ctl) (d a : Opd) (s : State) := fp1 s c lnSfu d a sqrt32
/-- FRSQ (R381). -/
def execFrsq (c : Ctl) (d a : Opd) (s : State) := fp1 s c lnSfu d a rsqrt32
/-- FDIV (R381). -/
def execFdiv (c : Ctl) (d a b : Opd) (s : State) := fp2 s c lnSfu d a b div32
/-- FEXP2 (R381). -/
def execFexp2 (c : Ctl) (d a : Opd) (s : State) := fp1 s c lnSfu d a exp2_32
/-- FLOG2 (R381). -/
def execFlog2 (c : Ctl) (d a : Opd) (s : State) := fp1 s c lnSfu d a log2_32
/-- FTANH (R381). -/
def execFtanh (c : Ctl) (d a : Opd) (s : State) := fp1 s c lnSfu d a tanh32
/-- FSIN (R381). -/
def execFsin (c : Ctl) (d a : Opd) (s : State) := fp1 s c lnTrig d a (trig32 false)
/-- FCOS (R381). -/
def execFcos (c : Ctl) (d a : Opd) (s : State) := fp1 s c lnTrig d a (trig32 true)

/-- The source of CVT (R376, R331, R332): an inline integer is its value in F32, F16 and BF16 and its low bits in the
narrower formats; an inline FP constant is converted for F16 and BF16. -/
def View.cvtSrc (v : View) (ty : Ty) (o : Opd) (t : Nat) : BitVec 64 :=
  if ty.wide then v.quad (tySigned ty) o t
  else
    let w :=
      match o with
      | .inl n =>
        match ty with
        | .f32 => (r32 false n.toNat 0 false).1
        | .f16 => BitVec.ofNat 32 (fmtF16.round .ne false n.toNat 0 false).1
        | .bf16 => BitVec.ofNat 32 (fmtBF16.round .ne false n.toNat 0 false).1
        | _ => n.setWidth 32
      | .fpc n =>
        match ty with
        | .f16 => BitVec.ofNat 32 (toFmt fmtF16 .ne (fv (fpConst n))).1
        | .bf16 => BitVec.ofNat 32 (toFmt fmtBF16 .ne (fv (fpConst n))).1
        | _ => fpConst n
      | o => v.word o t
    w.setWidth 64

/-- CVT (R376, R377). -/
def execCvt (c : Ctl) (r : Rnd) (dty sty : Ty) (d a : Opd) (s : State) :=
  laneWord s c lnFp d dty.wide [rdT sty.wide a] fun v t => cvtElem r dty sty (v.cvtSrc sty a t)

end Sys2Proof.Machine
end

