-- ==== Sys2Proof/Machine/Shape.lean ====
section
/-! DEFINITION. Shape registers as instructions use them (R208 to R215), segments (R189, R190), SHPUT, SHQ and SHSEG (R219 to R222). -/

namespace Sys2Proof.Machine
open Sys2Proof

/-- What R209 finds for a row: beyond T; in sequence j, whose first and next boundary are given; or not decidable. -/
inductive RowKind where
  | beyond
  | inSeq (j first next : Nat) (r : Nat)
  | lost
  deriving DecidableEq, Repr

/-- rowinfo of R209 for packed row r. -/
def ShapeReg.packed (g : ShapeReg) (r : Nat) : RowKind :=
  if g.total.toNat ≤ r then .beyond
  else
    let ks := (List.range 63).filter fun k =>
      g.w.toNat + k < g.seqs.toNat && g.entry k ≤ r && r < g.entry (k + 1)
    match ks with
    | [] => .lost
    | k :: _ => .inSeq (g.w.toNat + k) (g.entry k) (g.entry (k + 1)) r

/-- rowinfo of R209 for row i of an access. -/
def ShapeReg.row (g : ShapeReg) (i : Nat) : RowKind := g.packed (g.o.toNat + i)

/-- Whether a row is the first, and the last, of its sequence. -/
def RowKind.isFirst : RowKind → Bool
  | .inSeq _ f _ r => r == f
  | _ => false
def RowKind.isLast : RowKind → Bool
  | .inSeq _ _ n r => r + 1 == n
  | _ => false

/-- The fill tag of a zero row (R212). -/
def ShapeReg.fillTag (g : ShapeReg) : Tag := mkTag g.format 0x7F 0x80

/-- What a shape mode makes of row i (R211). -/
inductive RowUse where
  | packed (r : Nat)
  | zero
  | fault (c : Cause)
  deriving DecidableEq, Repr

/-- The use of row i under a mode (R211). -/
def ShapeReg.use (g : ShapeReg) (m : ShMode) (i : Nat) : RowUse :=
  let r := g.o.toNat + i
  match m with
  | .pack =>
    match g.row i with
    | .beyond => .zero
    | .inSeq _ _ _ _ => .packed r
    | .lost => .fault .shwin
  | m =>
    match g.row 0 with
    | .lost => .fault .shwin
    | .inSeq _ _ next _ => if r < next then .packed r else if m = .seqb then .fault .bound else .zero
    | .beyond => if m = .seqb then .fault .bound else .zero

/-! ## Segments -/

/-- How a segmented instruction divides the threads (R189, R214): head flags, threads treated as inactive, and whether
thread 0 continues a sequence (R198). -/
structure Segs where
  head : Nat → Bool
  off : Nat → Bool
  cont : Bool

/-- The segments of an instruction; `carry` says that a carry is given (R443). -/
def View.segs (v : View) (g : Seg) (o : Opd) (carry : Bool) : Except Trap Segs :=
  match g with
  | .none => .ok ⟨fun _ => false, fun _ => false, true⟩
  | .pred => .ok ⟨v.kbit o, fun _ => false, !v.kbit o 0⟩
  | .shape =>
    let r := v.st.getG (gIx o)
    if !r.valid && !v.threads.isEmpty then raise .illconv v.threads
    else
      let lost := v.threads.filter fun t => r.row t == .lost
      if carry && r.row 0 == .lost && !v.threads.isEmpty then raise .shwin v.threads
      else if !lost.isEmpty then raise .shwin lost
      else .ok ⟨fun t => (r.row t).isFirst, fun t => r.row t == .beyond, !(r.row 0).isFirst && r.row 0 != .beyond⟩

/-- The thread at which the segment of t begins (R189). -/
def segStart (head : Nat → Bool) : Nat → Nat
  | 0 => 0
  | t + 1 => if head (t + 1) then t + 1 else segStart head t

/-- The threads of an instruction that its segments leave active. -/
def View.segThreads (v : View) (g : Segs) : List Nat := v.threads.filter fun t => !g.off t

/-- For each of some threads, a function of the input vector of its segment (R190): 96 positions, ε for a thread that
is inactive or in another segment. -/
def bySegment {α β : Type} (head : Nat → Bool) (ts : List Nat) (x : Nat → α) (f : List (Option α) → β) : List (Nat × β) :=
  let starts := dedupSorted (ts.map (segStart head))
  let out := starts.map fun b =>
    (b, f ((List.range 96).map fun u => if ts.contains u && segStart head u == b then some (x u) else none))
  ts.filterMap fun t => (aGet out (segStart head t)).map fun y => (t, y)

/-! ## Meanings -/

/-- SHPUT.ENT (R219). Whether k is above S, and the write dropped with no result in flight, is judged on w and S as they stand at issue
(DESIGN CHOICE, log entry 68). -/
def execShputEnt (c : Ctl) (d a b : Opd) (s : State) :=
  issue s c true [rd a, rd b] (chk := [rd a]) fun v =>
    let g := v.st.getG (gIx d)
    let k := (v.word a v.leader).toNat
    if 63 < k then v.raise1 .bound
    else .ok { post := if g.seqs.toNat < g.w.toNat + k then fun s => s
                       else v.land (v.now + 4) [.shEnt (gIx d) k (v.word b v.leader)] }

/-- SHPUT.ORG (R219). -/
def execShputOrg (c : Ctl) (d b : Opd) (s : State) :=
  issue s c true [rd b] fun v => .ok { post := v.land (v.now + 4) [.shOrg (gIx d) (v.word b v.leader)] }

/-- SHPUT.ADV (R219): the origin is read in the issue cycle (R73). -/
def execShputAdv (c : Ctl) (d b : Opd) (s : State) :=
  issue s c true [rd b] fun v =>
    .ok { post := v.land (v.now + 4) [.shOrg (gIx d) ((v.st.getG (gIx d)).o + v.word b v.leader)] }

/-- The value of a query for one thread (R220). -/
def ShapeReg.query (g : ShapeReg) (q : ShQuery) (x : Word) : Except Cause Word :=
  let byRow (f : Nat → Nat → Nat → Nat → Nat) : Except Cause Word :=
    match g.row x.toNat with
    | .beyond => .ok 0xFFFFFFFF
    | .lost => .error .shwin
    | .inSeq j first next r => .ok (BitVec.ofNat 32 (f j first next r))
  if q = .valid then .ok (if g.valid then 1 else 0)
  else if !g.valid then .error .illconv
  else
    match q with
    | .s => .ok g.seqs
    | .t => .ok g.total
    | .org => .ok g.o
    | .win => .ok g.w
    | .ent => if 63 < x.toNat then .error .bound else .ok (smGet g.win x.toNat)
    | .seq => byRow fun j _ _ _ => j
    | .pos => byRow fun _ first _ r => r - first
    | .len => byRow fun _ first next _ => next - first
    | .valid => .ok 0

/-- The latency class of SHQ (R222). -/
def lnShq : Lane := ⟨uLane, 6, 3, 4, 0⟩

/-- SHQ (R220). -/
def execShq (c : Ctl) (q : ShQuery) (d a b : Opd) (s : State) :=
  issue s c (runsOnce d) [wr d, rd b] (chk := []) fun v => do
    let g := v.st.getG (gIx a)
    let dark := v.badThreads (runsOnce d) [rd b]
    let rs := (v.doers d).map fun t => (t, g.query q (v.word b t))
    worst (rs.filterMap fun p =>
      match p.2 with
      | .error e => if dark.contains p.1 && e != .illconv then none else some (p.1, e, 0)
      | .ok _ => none)
    .ok (v.lane lnShq (runsOnce d) (rs.flatMap fun p =>
      match p.2 with | .ok x => writeTo d false p.1 (x.setWidth 64) | .error _ => []))

/-- SHSEG (R221): a row below T outside the window faults SHWIN in every form (R209). -/
def execShseg (c : Ctl) (form : ShForm) (d a : Opd) (s : State) :=
  issue s c false [wr d] fun v => do
    let g := v.st.getG (gIx a)
    if !g.valid && !v.threads.isEmpty then raise .illconv v.threads
    let lost := v.threads.filter fun t => g.row t == .lost
    if !lost.isEmpty then raise .shwin lost
    .ok (v.lane lnCross false (v.threads.flatMap fun t =>
      let r := g.row t
      let x : Bool := match form with
        | .head => r.isFirst
        | .last => r.isLast
        | .inT => r != .beyond
      writeTo d false t (if x then 1 else 0)))

end Sys2Proof.Machine
end

