-- ==== Sys2Proof/Machine/CrossLane.lean ====
section
/-! DEFINITION. The cross-lane instructions (R366, R395, R409 to R414, R430) and the fixed orders of reductions and scans (R188, R192, R197, R199). -/

namespace Sys2Proof.Machine
open Sys2Proof

/-! ## Fixed orders -/

/-- comb extended over ε (R188). -/
def ext {α : Type} (comb : α → α → α) : Option α → Option α → Option α
  | none, b => b
  | a, none => a
  | some a, some b => some (comb a b)

/-- One level of the pairwise tree: an odd last value is carried up (R188). -/
def treeLevel {α : Type} (comb : α → α → α) : List (Option α) → List (Option α)
  | x :: y :: l => ext comb x y :: treeLevel comb l
  | l => l

/-- The pairwise tree of up to 2^k values (R188). -/
def treeGo {α : Type} (comb : α → α → α) : Nat → List (Option α) → Option α
  | 0, l => l.headD none
  | k + 1, l => treeGo comb k (treeLevel comb l)

/-- tree of R188 over at most 4,096 values. -/
def tree {α : Type} (comb : α → α → α) (xs : List (Option α)) : Option α := treeGo comb 12 xs

/-- One step of the Kogge–Stone scan at distance d (R197). -/
def ksStep {α : Type} (comb : α → α → α) (d : Nat) (y : List (Option α)) : List (Option α) :=
  List.zipWith (ext comb) (List.replicate d none ++ y) y

/-- scan of R197. -/
def ksScan {α : Type} (comb : α → α → α) (xs : List (Option α)) : List (Option α) :=
  [1, 2, 4, 8, 16, 32, 64].foldl (fun y d => ksStep comb d y) xs

/-- comb of an operation (R192). -/
def redComb (op : RedOp) (a b : Word) : Word :=
  match op with
  | .add => a + b
  | .minI => if b.slt a then b else a
  | .maxI => if a.slt b then b else a
  | .minU => if b < a then b else a
  | .maxU => if a < b then b else a
  | .and => a &&& b
  | .or => a ||| b
  | .xor => a ^^^ b
  | .fadd => (add32 a b).1
  | .fmul => (mul32 a b).1
  | .fmin => (fmin32 a b).1
  | .fmax => (fmax32 a b).1

/-- The identity written when only ε remain (R192). -/
def redIdentity (op : RedOp) : Word :=
  match op with
  | .add => 0
  | .minI => 0x7FFFFFFF
  | .maxI => 0x80000000
  | .minU => 0xFFFFFFFF
  | .maxU => 0
  | .and => 0xFFFFFFFF
  | .or => 0
  | .xor => 0
  | .fadd => 0x80000000
  | .fmul => 0x3F800000
  | .fmin => 0x7F800000
  | .fmax => 0xFF800000

/-- The combination of SCANLR (R199). -/
def lrComb (p q : Word × Word) : Word × Word := ((mul32 p.1 q.1).1, (fma32 q.1 p.2 q.2).1)

/-! ## Meanings -/

/-- The source thread of SHFL for thread t, its own where the named one lies outside the span (R414). -/
def shflSource (s96 : Bool) (mode : ShflMode) (n t : Nat) : Nat :=
  let base := if s96 then 0 else 32 * (t / 32)
  let span := if s96 then 96 else 32
  let i := t - base
  let j : Int := match mode with
    | .idx => n
    | .up => (i : Int) - n
    | .down => (i : Int) + n
    | .xor => ((i ^^^ n : Nat) : Int)
  if 0 ≤ j ∧ j < span then base + j.toNat else t

/-- SHFL (R413, R414). -/
def execShfl (c : Ctl) (s96 : Bool) (mode : ShflMode) (d a b : Opd) (s : State) :=
  laneWord s c lnCross d false [rd a, rd b] fun v t =>
    ((v.word a (shflSource s96 mode (v.word b t).toNat t)).setWidth 64, 0)

/-- BXCH (R366): among the three threads of a temporal column. -/
def execBxch (c : Ctl) (mode : BxMode) (d a b : Opd) (s : State) :=
  laneWord s c lnCross d false [rd a, rd b] fun v t =>
    let beat := t / 32
    let src := match mode with
      | .rot1 => (beat + 1) % 3
      | .rot2 => (beat + 2) % 3
      | .idx => if (v.word b t).toNat ≤ 2 then (v.word b t).toNat else beat
    ((v.word a (32 * src + t % 32)).setWidth 64, 0)

/-- The ballot of one beat: bit l is thread 32·beat + l (R430). -/
def ballot (ps : List Nat) (beat : Nat) : Word :=
  BitVec.ofNat 32 (ps.foldl (fun m t => if t / 32 = beat then m + 2 ^ (t % 32) else m) 0)

/-- VOTE (R430). A predicate destination is written for all 96 threads. -/
def execVote (c : Ctl) (form : VoteForm) (d a : Opd) (s : State) :=
  issue s c (runsOnce d) [if form = .bal ∧ runsOnce d then wrN d 3 else wr d, rd a] fun v =>
    let ps := v.threads.filter fun t => v.kbit a t
    let flag (b : Bool) : Nat := if b then 1 else 0
    let x (t : Nat) : Nat := match form with
      | .any => flag !ps.isEmpty
      | .all => flag (ps.length == v.threads.length)
      | .bal => (ballot ps (t / 32)).toNat
      | .cnt => ps.length
    let ws := match d, form with
      | .s _, .bal => writeRun d 0 [ballot ps 0, ballot ps 1, ballot ps 2]
      | .k _, _ => allThreads.flatMap fun t => writeTo d false t (BitVec.ofNat 64 (x t))
      | _, _ => (v.doers d).flatMap fun t => writeTo d false t (BitVec.ofNat 64 (x t))
    .ok (v.lane lnCross (runsOnce d) ws)

/-- LRED (R192, R395). -/
def execLred (c : Ctl) (g : Seg) (op : RedOp) (d a b : Opd) (s : State) :=
  issue s c (runsOnce d) [wr d, rd a, rd b] (chk := []) fun v => do
    let sg ← v.segs g b false
    if runsOnce d then
      let x := tree (redComb op) ((List.range 96).map fun u => if v.on u && u < v.st.threads then some (v.word a u) else none)
      .ok (v.lane lnScan true (writeTo d false 0 ((x.getD (redIdentity op)).setWidth 64)))
    else
      let rs := bySegment sg.head (v.segThreads sg) (v.word a) (tree (redComb op))
      .ok (v.lane lnScan false (rs.flatMap fun p => writeTo d false p.1 ((p.2.getD (redIdentity op)).setWidth 64)))

/-- The carry of a scan (R198): read from the leader, applied to segment 0 when thread 0 continues a sequence. -/
def View.carryFor {α : Type} (sg : Segs) (carry : Option α) (t : Nat) : Option α :=
  if sg.cont && segStart sg.head t == 0 then carry else none

/-- SCAN (R410). -/
def execScan (c : Ctl) (g : Seg) (op : RedOp) (d a b e : Opd) (s : State) :=
  issue s c false [wr d, rd a, rd b, rd e] (chk := []) fun v => do
    let carry := if e.isNone then none
      else some (match op with
        | .fadd => v.float e v.leader
        | .fmul => v.float e v.leader
        | .fmin => v.float e v.leader
        | .fmax => v.float e v.leader
        | _ => v.word e v.leader)
    let sg ← v.segs g b carry.isSome
    let rs := bySegment sg.head (v.segThreads sg) (v.word a) (ksScan (redComb op))
    .ok (v.lane lnScan false (rs.flatMap fun p =>
      writeTo d false p.1 (((ext (redComb op) (View.carryFor sg carry p.1) (p.2[p.1]?.join)).getD 0).setWidth 64)))

/-- SCANLR (R199, R411). -/
def execScanlr (c : Ctl) (g : Seg) (d a b e : Opd) (s : State) :=
  issue s c false [wrN d 2, rd2 a, rd b, rd2 e] (chk := []) fun v => do
    let pairOf (o : Opd) (t : Nat) : Word × Word :=
      let x := v.quad false o t
      (x.setWidth 32, x.extractLsb' 32 32)
    let carry := if e.isNone then none else some (pairOf e v.leader)
    let sg ← v.segs g b carry.isSome
    let rs := bySegment sg.head (v.segThreads sg) (pairOf a) (ksScan lrComb)
    .ok (v.lane lnScanlr false (rs.flatMap fun p =>
      let y := (ext lrComb (View.carryFor sg carry p.1) (p.2[p.1]?.join)).getD (0, 0)
      writeRun d p.1 [y.1, y.2]))

end Sys2Proof.Machine
end

