-- ==== Sys2Proof/Machine/Stats.lean ====
section
/-! DEFINITION. Statistics triples (R178 to R187, R191) and the statistics instructions of registers (R417 to R420). -/

namespace Sys2Proof.Machine
open Sys2Proof

/-- status_after (R184): `sum` is the exact weight sum's rounding with its flags. A weight sum that is NaN has no exact value to
differ from, and sets no O (DESIGN CHOICE, log entry 57). -/
def statusAfter (old : Word) (x : Option Word) (sum : Word × Flags) (mean m2 : Word) : Word :=
  let isInf (y : Word) : Bool := y == inf32 false || y == inf32 true
  let nan := old.getLsbD 0 || (x.map isNaN).getD false || isNaN mean || isNaN m2
  let inf := old.getLsbD 1 || (x.map isInf).getD false || isInf mean || isInf m2
  let ovf := old.getLsbD 2 || sum.2 &&& (fNX ||| fOF) != 0 || isInf sum.1
  (if nan then 1 else 0) ||| (if inf then 2 else 0) ||| (if ovf then 4 else 0)

/-- A triple as read: E = 1 reads as the empty triple (R180). -/
def Tri.read (q : Tri) : Tri := if q.st.getLsbD 3 then Tri.empty else q

/-- stacc (R181). -/
def stacc (q0 : Tri) (x : Word) : Tri :=
  let q := q0.read
  let w := add32 q.w 0x3F800000
  let d := (sub32 x q.mean).1
  let mean := (add32 q.mean (div32 d w.1).1).1
  let e := (sub32 x mean).1
  let m2 := (fma32 d e q.m2).1
  ⟨w.1, mean, m2, statusAfter q.st (some x) w mean m2⟩

/-- staccw (R182). -/
def staccw (q0 : Tri) (x w : Word) : Tri :=
  let q := q0.read
  if w = 0 ∨ w = 0x80000000 then q0
  else if isNaN w ∨ w.getLsbD 31 ∨ w = inf32 false then { q with st := (q.st &&& 7) ||| 1 }
  else
    let w1 := add32 q.w w
    let d := (sub32 x q.mean).1
    let r := (div32 w w1.1).1
    let mean := (fma32 r d q.mean).1
    let e := (sub32 x mean).1
    let t := (mul32 w d).1
    let m2 := (fma32 t e q.m2).1
    ⟨w1.1, mean, m2, statusAfter q.st (some x) w1 mean m2⟩

/-- merge (R185), a the left side. -/
def mergeTri (a b : Tri) : Tri :=
  if a.st.getLsbD 3 then b
  else if b.st.getLsbD 3 then a
  else
    let w := add32 a.w b.w
    let d := (sub32 b.mean a.mean).1
    let r := (div32 b.w w.1).1
    let mean := (fma32 r d a.mean).1
    let m2 := (add32 a.m2 b.m2).1
    let t := (mul32 d d).1
    let u := (mul32 a.w r).1
    let m := (fma32 t u m2).1
    ⟨w.1, mean, m, statusAfter (a.st ||| b.st) none w mean m⟩

/-- rsqrt32(add32(div32(M2, W), eps)); an empty triple gives the canonical NaN (R186, R243, R419). -/
def triRstd (q : Tri) (eps : Word) : Word :=
  if q.st.getLsbD 3 then cnan else (rsqrt32 (add32 (div32 q.m2 q.w).1 eps).1).1

/-- stfin (R186). -/
def stfin (q : Tri) (eps : Word) : List Word :=
  if q.st.getLsbD 3 then [cnan, cnan, cnan, cnan]
  else [q.mean, (div32 q.m2 q.w).1, (div32 q.m2 (sub32 q.w 0x3F800000).1).1, triRstd q eps]

/-- norm (R187). -/
def normElem (x m r gamma beta : Word) : Word := (fma32 (mul32 (sub32 x m).1 r).1 gamma beta).1

/-- The write of a triple to a statistics register. -/
def writeQ (d : Opd) (t : Nat) (q : Tri) : List RegW :=
  match d with
  | .q n => [.q n.toNat t q]
  | _ => []

/-! ## Meanings -/

/-- A statistics word: a triple for each active thread. -/
def statWord (s : State) (c : Ctl) (ln : Lane) (d : Opd) (us : List Use) (f : View → Nat → Tri) :
    Host.Outcome State Fault Refusal :=
  issue s c false (wr d :: us) fun v => .ok (v.lane ln false (v.threads.flatMap fun t => writeQ d t (f v t)))

/-- STINIT (R183). -/
def execStinit (c : Ctl) (d a : Opd) (s : State) :=
  statWord s c lnAlu d [rd a] fun v t => if a.isNone then Tri.empty else stacc Tri.empty (v.float a t)

/-- STACC (R181). -/
def execStacc (c : Ctl) (d a b : Opd) (s : State) :=
  statWord s c lnStat d [rd a, rd b] fun v t => stacc (v.triple a t) (v.float b t)

/-- STACCW (R182). -/
def execStaccw (c : Ctl) (d a b e : Opd) (s : State) :=
  statWord s c lnStat d [rd a, rd b, rd e] fun v t => staccw (v.triple a t) (v.float b t) (v.float e t)

/-- STMRG (R185): q_a is side a. -/
def execStmrg (c : Ctl) (d a b : Opd) (s : State) :=
  statWord s c lnStat d [rd a, rd b] fun v t => mergeTri (v.triple a t) (v.triple b t)

/-- STRED (R191, R420). -/
def execStred (c : Ctl) (g : Seg) (d a b : Opd) (s : State) :=
  issue s c false [wr d, rd a, rd b] (chk := []) fun v => do
    let sg ← v.segs g b false
    let rs := bySegment sg.head (v.segThreads sg) (v.triple a) (tree mergeTri)
    .ok (v.lane lnStred false (rs.flatMap fun p => writeQ d p.1 (p.2.getD Tri.empty)))

/-- STFIN (R186, R418). -/
def execStfin (c : Ctl) (d a b : Opd) (s : State) :=
  issue s c (runsOnce d) [wrN d 4, rd a, rd b] fun v =>
    .ok (v.lane lnStfin (runsOnce d) ((v.doers d).flatMap fun t =>
      writeRun d t (stfin (v.triple a t) (v.float b t))))

/-- Register j after a first register, for thread t (R419). -/
def View.nth (v : View) (o : Opd) (j t : Nat) : Word :=
  match o with
  | .v n => v.st.cur.getV (n.toNat + j) t
  | .s n => v.st.cur.getS (n.toNat + j)
  | _ => 0

/-- STNORM (R187, R419). -/
def execStnorm (c : Ctl) (g : Option (BitVec 3)) (d a b e : Opd) (s : State) :=
  issue s c false [wr d, rd a, rd b, rdN e 3] (chk := []) fun v => do
    let out (t : Nat) : Word :=
      let q := v.triple b t
      normElem (v.float a t) q.mean (triRstd q (v.nth e 2 t)) (v.nth e 0 t) (v.nth e 1 t)
    match g with
    | none => .ok (v.perThread lnStat d false fun t => ((out t).setWidth 64, 0))
    | some n =>
      let r := v.st.getG n.toNat
      if !r.valid && !v.threads.isEmpty then raise .illconv v.threads
      else
        let ts := v.threads.filter fun t => r.o.toNat + t < r.total.toNat
        .ok (v.lane lnStat false (ts.flatMap fun t => writeTo d false t ((out t).setWidth 64)))

end Sys2Proof.Machine
end

