-- ==== Sys2Proof/Machine/Scratch.lean ====
section
/-! DEFINITION. Scratch as instructions use it: apertures (R131), banks and degree (R135 to R139), tags (R124), writes in flight (R141, R142), and STLD, STST, TAGR, TAGW, PACK, UNPACK, GATH. -/

namespace Sys2Proof.Machine
open Sys2Proof

/-! ## Apertures and storage -/

/-- The aperture of a generic address (R131); a scratch offset with bits [55:18] set is out of range. -/
inductive Aperture where
  | glob (va : Nat)
  | priv (off : Nat)
  | scratch (off : Nat)
  | none
  deriving DecidableEq, Repr

/-- The aperture an address selects (R131). -/
def apertureOf (a : Addr) : Aperture :=
  let top := a.toNat / 2 ^ 56
  let off := a.toNat % 2 ^ 56
  if top ≤ 1 then .glob a.toNat
  else if top = 0xFD then .priv off
  else if top = 0xFE then .scratch off
  else .none

/-- Size of scratch in bytes (R19). -/
def scratchSize : Nat := 2 ^ 18

/-- Whether w bytes at a scratch offset may be accessed: every one lies in a held segment (R131). -/
def Blk.okScratch (b : Blk) (off w : Nat) : Bool := off + w ≤ scratchSize && b.heldRange off w

/-- Writing bytes and tags to scratch. A write that covers a whole protected word clears its error (R323, R416). -/
def Core.putScratch (k : Core) (bytes : List (Nat × Byte)) (tags : List (Nat × Tag)) : Core :=
  let m := smWrites k.scratch bytes
  let covered (u : Nat) : Bool := (List.range 8).all fun i => bytes.any fun p => p.1 == 8 * u + i
  { k with
    scratch := m
    stags := smWrites k.stags tags
    badScratch := if k.badScratch.isEmpty then [] else k.badScratch.filter fun u => !covered u
    badTags := k.badTags.filter fun t => !tags.any fun p => p.1 == t }

/-- Whether some byte of a range of scratch lies in an uncorrectable word (R323). -/
def Core.badBytes (k : Core) (off n : Nat) : Bool :=
  k.badScratch.any fun u => off / 8 ≤ u && u ≤ (off + n - 1) / 8

/-- Bytes paired with their addresses. -/
def addressed (a : Nat) (bs : List Byte) : List (Nat × Byte) := bs.zipIdx.map fun p => (a + p.2, p.1)

/-- A write to scratch in flight (R141): the row of R142, its landing, its bytes and tags. -/
def View.scratchWrite (v : View) (land row : Nat) (bytes : List (Nat × Byte)) (tags : List (Nat × Tag)) (s : State) : State :=
  if bytes.isEmpty && tags.isEmpty then s
  else v.onCore (fun k => { k with swr := k.swr ++ [⟨v.seq, land, row, bytes, tags⟩] }) s

/-- A memory access of the strand for the fences to await (R165). -/
def Strand.addAcc (st : Strand) (now : Nat) (a : Acc) : Strand :=
  { st with accs := (st.accs.filter fun x => match x.land with | some t => now < t | none => true) ++ [a] }

/-- An access to scratch that lands at a known cycle. -/
def View.access (v : View) (land : Nat) (s : State) : State :=
  v.onStrand (fun st => st.addAcc v.now ⟨v.seq, some land, false⟩) s

/-- A fault found now that is raised at a later cycle (R287); the word has issued. -/
def View.lateFault (v : View) (at_ : Nat) (len : Nat) (f : Trap) (s : State) : State :=
  v.onStrand (fun st => { st with late := st.late ++ [⟨at_, v.st.pc, len, f⟩] }) s

/-- MEMUNC in the cycle after issue for threads with the scratch offsets they read (R287). -/
def View.lateScratch (v : View) (len : Nat) (bad : List (Nat × Nat)) (s : State) : State :=
  let addr : Addr := BitVec.ofNat 64 (0xFE00000000000000 + ((bad.head?.map (·.2)).getD 0))
  v.lateFault (v.now + 1) len { cause := .memunc, threads := bad.map (·.1), addr := addr } s

/-- An engine command: the next number of its timeline (R148), with its landing and its fault if known. -/
def View.command (v : View) (e : Engine) (land : Option Nat) (fail : Option (Cause × BitVec 64)) (s : State) : State :=
  v.onStrand (fun st =>
    let n := smGet st.tl (Engine.index e) + 1
    { st with tl := smSet st.tl (Engine.index e) n, eops := st.eops ++ [⟨e, n.toNat, v.seq, land, fail⟩] }) s

/-- The number the next command of an engine takes. -/
def View.nextNum (v : View) (e : Engine) : Nat := (smGet v.st.tl (Engine.index e) + 1).toNat

/-! ## Banks and degree -/

/-- The bank that serves the 8-byte unit at an offset (R137). -/
def Blk.bank (b : Blk) (off : Nat) : Nat :=
  match b.segAt off 1 with
  | none => off / 8 % 32
  | some g =>
    let rel := off - g.base
    let bk := rel / 8 % 32
    let row := rel / 256 % 1024
    if g.swz = 0 then bk
    else
      let span := 2 ^ (g.swz + 3)
      let div := if span / 256 = 0 then 1 else span / 256
      let mod := if span / 8 < 32 then span / 8 else 32
      bk ^^^ (row / div % mod)

/-- The units an access of w bytes touches. -/
def unitsOf (off w : Nat) : List Nat := if w ≤ 8 then [off / 8] else [off / 8, off / 8 + 1]

/-- The degree of one beat (R138): the largest number of distinct units in one bank. -/
def Blk.beatDegree (b : Blk) (units : List Nat) : Nat :=
  let banks := (dedupSorted units).map fun u => b.bank (8 * u)
  (List.range 32).foldl (fun m k => let n := banks.count k; if m < n then n else m) 0

/-- The degrees of the three beats of a structured access (R138). -/
def Blk.degrees (b : Blk) (w : Nat) (xs : List (Nat × Nat)) : List Nat :=
  (List.range 3).map fun beat =>
    b.beatDegree (xs.flatMap fun p => if p.1 / 32 = beat then unitsOf p.2 w else [])

/-- The degree of the access, at least 1. -/
def degreeOf (ds : List Nat) : Nat := ds.foldl (fun m n => if m < n then n else m) 1

/-- The generic address of a scratch offset. -/
def scratchAddr (off : Nat) : Addr := BitVec.ofNat 64 (0xFE00000000000000 + off)

/-- The address faults of an access of w bytes to scratch by threads at offsets (R131, R132, R140). -/
def View.scratchFaults (v : View) (w : Nat) (xs : List (Nat × Nat)) : List (Nat × Cause × Addr) :=
  xs.filterMap fun p =>
    if !v.b.okScratch p.2 w then some (p.1, .apert, scratchAddr p.2)
    else if p.2 % w != 0 then some (p.1, .misalign, scratchAddr p.2)
    else none

/-- The degree of a structured access (R138). -/
def View.degree (v : View) (w : Nat) (xs : List (Nat × Nat)) : Nat := degreeOf (v.b.degrees w xs)

/-- CONFL of a structured access in fixed discipline: every thread of a beat whose degree exceeds 1 (R139). -/
def View.conflicts (v : View) (w : Nat) (xs : List (Nat × Nat)) : List (Nat × Cause × Addr) :=
  let ds := v.b.degrees w xs
  if v.b.loose then [] else (xs.filter fun p => 1 < ds.getD (p.1 / 32) 0).map fun p => (p.1, .confl, 0)

/-- The checks of a structured access at issue (R131, R132, R138, R139): threads with their offsets, w bytes each;
the degree if none fails. -/
def View.structured (v : View) (w : Nat) (xs : List (Nat × Nat)) : Except Trap Nat := do
  worst (v.scratchFaults w xs ++ v.conflicts w xs)
  .ok (v.degree w xs)

/-- The latency and occupancy of a structured access of degree n (R139, R80). -/
def View.structLat (v : View) (once : Bool) (n : Nat) : Nat := (11 + 3 * n) * v.scale once
def View.structOcc (v : View) (once : Bool) (n : Nat) : Nat := 3 * n * v.scale once

/-- The threads, with their addresses, that read an uncorrectable byte of scratch (R287). -/
def View.uncScratch (v : View) (w : Nat) (xs : List (Nat × Nat)) : List (Nat × Addr) :=
  (xs.filter fun p => v.core.badBytes p.2 w).map fun p => (p.1, scratchAddr p.2)

/-- MEMUNC of some threads, with their addresses, in the cycle after issue (R287). -/
def View.lateUnc (v : View) (len : Nat) (bad : List (Nat × Addr)) (s : State) : State :=
  v.onStrand (fun st => st.lateMemunc v.now v.st.pc len bad false) s

/-- The effect of a structured load: MEMUNC in the next cycle if a byte read is uncorrectable, else its results. -/
def View.structLoad (v : View) (once : Bool) (n w len : Nat) (xs : List (Nat × Nat)) (ws : List RegW) : Act :=
  let bad := v.uncScratch w xs
  { unc := bad
    post := fun s =>
      let land := v.now + v.structLat once n
      let s := v.occupy uScratch (v.structOcc once n) s
      if bad.isEmpty then v.access land (v.land land ws s)
      else v.lateUnc len bad s }

/-- The effect of a structured store: its bytes at its landing, row 5 of R142. -/
def View.structStore (v : View) (once : Bool) (n : Nat) (bytes : List (Nat × Byte)) (tags : List (Nat × Tag)) : Act :=
  { post := fun s =>
      let land := v.now + v.structLat once n
      v.access land (v.scratchWrite land 5 bytes tags (v.occupy uScratch (v.structOcc once n) s)) }

/-! ## STLD, STST, TAGR, TAGW -/

/-- off + base modulo 2^32 (R421, R424, R387). -/
def View.offBase (v : View) (a b : Opd) (t : Nat) : Nat := (v.word a t + v.word b t).toNat

/-- The 16 bytes of a triple (R178). -/
def triBytes (q : Tri) : List Byte :=
  bytesOf 4 q.w.toNat ++ bytesOf 4 q.mean.toNat ++ bytesOf 4 q.m2.toNat ++ bytesOf 4 (q.st &&& 0xF).toNat

/-- The triple in 16 bytes as read (R179, R180). -/
def triOf (n : Nat) : Tri :=
  Tri.read ⟨BitVec.ofNat 32 n, BitVec.ofNat 32 (n / 2 ^ 32), BitVec.ofNat 32 (n / 2 ^ 64), BitVec.ofNat 32 (n / 2 ^ 96) &&& 0xF⟩

/-- STLD (R196, R421). -/
def execStld (c : Ctl) (d a b : Opd) (s : State) :=
  let us := [wr d, rd a, rd b]
  issue s c false us fun v => do
    let xs := v.threads.map fun t => (t, v.offBase a b t)
    let n ← v.structured 16 xs
    .ok (v.structLoad false n 16 (wordLen us) xs (xs.flatMap fun p => writeQ d p.1 (triOf (smNat v.core.scratch p.2 16))))

/-- STST (R196, R421): an empty triple in the form of R180. -/
def execStst (c : Ctl) (a b e : Opd) (s : State) :=
  issue s c false [rd a, rd b, rd e] (chk := [rd a, rd b]) fun v => do
    let xs := v.threads.map fun t => (t, v.offBase a b t)
    let n ← v.structured 16 xs
    let bytesFor (p : Nat × Nat) : List (Nat × Byte) :=
      let q := v.triple e p.1
      addressed p.2 (if q.st.getLsbD 3 then bytesOf 16 (8 * 2 ^ 96) else triBytes q)
    .ok (v.structStore false n (xs.flatMap bytesFor) [])

/-- The checks of TAGR and TAGW (R424). -/
def View.tagChecks (v : View) (xs : List (Nat × Nat)) : Except Trap Unit :=
  worst (xs.filterMap fun p =>
    if p.2 < scratchSize && v.b.heldByte p.2 then none
    else some (p.1, .apert, BitVec.ofNat 64 (0xFE00000000000000 + p.2)))

/-- TAGR (R424): the tag as it stands at issue, unchecked. -/
def execTagr (c : Ctl) (d a b : Opd) (s : State) :=
  let us := [wr d, rd a, rd b]
  issue s c (runsOnce d) us fun v => do
    let xs := (v.doers d).map fun t => (t, v.offBase a b t)
    v.tagChecks xs
    let ws := xs.flatMap fun p => writeTo d false p.1 ((smGet v.core.stags (p.2 / 64)).setWidth 64)
    let bad := (xs.filter fun p => v.core.badTags.contains (p.2 / 64)).map fun p => (p.1, scratchAddr p.2)
    .ok { unc := bad, post := fun s =>
      let land := v.now + v.structLat (runsOnce d) 1
      let s := v.occupy uScratch (v.structOcc (runsOnce d) 1) s
      if bad.isEmpty then v.access land (v.land land ws s)
      else v.lateUnc (wordLen us) bad s }

/-- The tag that bits [23:0] make with their check byte (R124). -/
def tagWith (x : Word) : Tag := mkTag (x.extractLsb' 0 8) (x.extractLsb' 8 8) (x.extractLsb' 16 8)

/-- TAGW (R424): the highest thread that names a block is kept. -/
def execTagw (c : Ctl) (a b e : Opd) (s : State) :=
  issue s c false [rd a, rd b, rd e] (chk := [rd a, rd b]) fun v => do
    let xs := v.threads.map fun t => (t, v.offBase a b t)
    v.tagChecks xs
    .ok (v.structStore false 1 [] (xs.map fun p => (p.2 / 64, tagWith (v.word e p.1))))

/-! ## PACK and UNPACK -/

/-- One element of PACK in register form (R403). -/
def packElem (f : Fmt) (x : Word) (k : Int) : Nat × Flags :=
  match fv x with
  | .fin n m e => toFmt f .ne (FV.scale (.fin n m e) (-k))
  | y => toFmt f .ne y

/-- PACK in register form (R402, R403). -/
def execPack (c : Ctl) (f : PFmt) (d a b : Opd) (s : State) :=
  issue s c (runsOnce d) [wr d, rdN a f.e, rd b] fun v =>
    .ok (v.perThread lnFp d false fun t =>
      let es := (List.range f.e).map fun i => packElem (pfmt f) (v.nth a i t) (v.word b t).toInt
      (BitVec.ofNat 64 (concatElems (pfmt f).width (es.map (·.1))), es.foldl (fun m p => m ||| p.2) 0))

/-- The beats with an active thread (R404, R427). -/
def View.beats (v : View) : List Nat := (List.range 3).filter fun b => v.threads.any fun t => t / 32 == b

/-- The faults of a block form's addresses: one block for each beat (R404, R427). -/
def View.blkFaults (v : View) (off : Nat) : List (Nat × Cause × Addr) :=
  v.beats.flatMap fun b =>
    let ts := v.threads.filter fun t => t / 32 == b
    let addr : Addr := BitVec.ofNat 64 (0xFE00000000000000 + off + 64 * b)
    if scratchSize ≤ off || !v.b.okScratch (off + 64 * b) 64 then ts.map fun t => (t, .apert, addr)
    else if off % 64 ≠ 0 then ts.map fun t => (t, .misalign, addr)
    else []

/-- PACK in block form (R404): the quantising store. -/
def execPackBlk (c : Ctl) (f : PFmt) (a b : Opd) (s : State) :=
  issue s c false [rdN a f.r, rd b] (chk := [rd b]) fun v => do
    let off := (v.word b v.leader).toNat
    worst (v.blkFaults off)
    let one (beat : Nat) : (List (Nat × Flags) × Tag) :=
      quantise (pfmt f) (pfmtCode f) ((List.range f.r).flatMap fun m => (List.range 32).map fun l =>
        if v.on (32 * beat + l) then v.nth a m (32 * beat + l) else 0)
    let out := v.beats.map fun beat => (beat, one beat)
    let bytes := out.flatMap fun p =>
      addressed (off + 64 * p.1) (bytesOf 64 (blockOf (pfmt f).width (p.2.1.map (·.1))))
    let tags := out.map fun p => ((off + 64 * p.1) / 64, p.2.2)
    let flags := out.flatMap fun p => p.2.1.zipIdx.flatMap fun q =>
      let t := 32 * p.1 + q.2 % 32
      if v.on t then flagW t q.1.2 else []
    .ok { post := fun s =>
      let land := v.now + v.structLat false 1
      v.occupy uLane (v.structOcc false 1) (v.land land flags ((v.structStore false 1 bytes tags).post s)) }

/-- One element of UNPACK in register form (R426). -/
def unpackElem (f : Fmt) (code : Nat) (k : Int) : Word × Flags :=
  match f.value code with
  | .nan s => (cnan, if s then fIV else 0)
  | .inf n => (inf32 n, 0)
  | .fin n m e =>
    match FV.scale (.fin n m e) k with
    | .fin n m e => r32 n m e false
    | _ => (0, 0)

/-- UNPACK in register form (R425, R426). -/
def execUnpack (c : Ctl) (f : PFmt) (d a b : Opd) (s : State) :=
  issue s c false [wrN d f.e, rd a, rd b] fun v =>
    .ok (v.lane lnFp false (v.threads.flatMap fun t =>
      let es := (List.range f.e).map fun i =>
        unpackElem (pfmt f) (elemAt (v.word a t).toNat (pfmt f).width i) (v.word b t).toInt
      writeRun d t (es.map (·.1)) ++ flagW t (es.foldl (fun m p => m ||| p.2) 0)))

/-- A decoded element rounded to FP32, with its flags (R427): a NaN raises none. -/
def toF32 (x : FV) : Word × Flags :=
  match x with
  | .nan _ => (cnan, 0)
  | .inf n => (inf32 n, 0)
  | .fin n m e => r32 n m e false

/-- UNPACK in block form (R427): a beat outside held segments and the format of another's tag are judged together (R286); a tag that
stands is judged whatever the data under it (R124, R285). -/
def execUnpackBlk (c : Ctl) (f : PFmt) (d a : Opd) (s : State) :=
  let us := [wrN d f.r, rd a]
  issue s c false us fun v => do
    let off := (v.word a v.leader).toNat
    let faults := v.blkFaults off
    let tagOf (b : Nat) : Tag := smGet v.core.stags ((off + 64 * b) / 64)
    let beatThreads (b : Nat) : List Nat := v.threads.filter fun t => t / 32 == b
    let noTag (b : Nat) : Bool := !tagOk (tagOf b) || v.core.badTags.contains ((off + 64 * b) / 64)
    let unc := v.beats.filter fun b => noTag b || v.core.badBytes (off + 64 * b) 64
    let held (b : Nat) : Bool := !faults.any fun p => p.1 / 32 == b
    worst (sortBy (·.1) (faults ++ v.beats.flatMap fun b =>
      if held b && !noTag b && tagFormat (tagOf b) != pfmtCode f then (beatThreads b).map fun t => (t, .illconv, 0) else []))
    let ws := v.beats.flatMap fun b =>
      let blk := smNat v.core.scratch (off + 64 * b) 64
      (beatThreads b).flatMap fun t =>
        let es := (List.range f.r).map fun m =>
          toF32 (decodeElem (tagOf b) (pfmt f) (elemAt blk (pfmt f).width (32 * m + t % 32)))
        writeRun d t (es.map (·.1)) ++ flagW t (es.foldl (fun m p => m ||| p.2) 0)
    .ok { post := fun s =>
      let land := v.now + v.structLat false 1
      let s := v.occupy uLane (v.structOcc false 1) (v.occupy uScratch (v.structOcc false 1) s)
      if unc.isEmpty then v.access land (v.land land ws s)
      else v.lateScratch (wordLen us) (unc.flatMap fun b => (beatThreads b).map fun t => (t, off + 64 * b)) s }

/-! ## GATH -/

/-- Bytes of a GATH element (R387). -/
def gsBytes (z : GSize) : Nat := match z with | .b8 => 1 | .b16 => 2 | .b32 => 4 | .b64 => 8

/-- The checks of GATH for each active thread (R131, R132, R140). -/
def View.gathChecks (v : View) (w : Nat) (xs : List (Nat × Nat)) : Except Trap Unit := worst (v.scratchFaults w xs)

/-- GATH.LD (R157, R387): reads at issue, lands at issue + 48. -/
def execGathLd (c : Ctl) (sx : Bool) (z : GSize) (d a b : Opd) (s : State) :=
  let us := [wrT (z == .b64) d, rd a, rd b]
  issue s c false us fun v => do
    let w := gsBytes z
    let xs := v.threads.map fun t => (t, v.offBase a b t)
    v.gathChecks w xs
    let ws := xs.flatMap fun p =>
      let n := smNat v.core.scratch p.2 w
      writeTo d (z == .b64) p.1 (BitVec.ofInt 64 (intOf sx (8 * w) n))
    let bad := v.uncScratch w xs
    .ok { unc := bad, post := fun s =>
      let land := v.now + v.latency lnGather false
      let s := v.command .gather (some land) none (v.occupy uGather (v.occupancy lnGather false) s)
      if bad.isEmpty then v.land land ws s
      else v.lateUnc (wordLen us) bad s }

/-- GATH.ST (R157, R387): the highest thread that writes a byte is kept. -/
def execGathSt (c : Ctl) (z : GSize) (a b e : Opd) (s : State) :=
  issue s c false [rd a, rd b, rdT (z == .b64) e] (chk := [rd a, rd b]) fun v => do
    let w := gsBytes z
    let xs := v.threads.map fun t => (t, v.offBase a b t)
    v.gathChecks w xs
    let bytes := xs.flatMap fun p =>
      addressed p.2 (bytesOf w (if z == .b64 then (v.quad false e p.1).toNat else (v.word e p.1).toNat))
    .ok { post := fun s =>
      let land := v.now + v.latency lnGather false
      let s := v.command .gather (some land) none (v.occupy uGather (v.occupancy lnGather false) s)
      v.scratchWrite land 4 bytes [] s }

end Sys2Proof.Machine
end

