-- ==== Sys2Proof/Machine/Memory.lean ====
section
/-! DEFINITION. Global memory as instructions use it: translation (R305, R306), memory operations (R36, R134), and LD, ST, ATOM, ATOM.TREE, ATOMQ, SHLD, SHWIN, WAITA, FENCE. -/

namespace Sys2Proof.Machine
open Sys2Proof

/-! ## Translation

A translated address is one number: a package physical address below 2^39; an address of host memory from 2^39 to 2^40;
and 2^40·(p + 1) + PA for a page at home in package p. Its line is that number div 64. -/

/-- Whether a page holds an address of an address space. -/
def Page.covers (p : Page) (asid va : Nat) : Bool := p.asid == asid && p.va ≤ va && va < p.va + p.size

/-- The translated address of a virtual address in a page. -/
def Page.target (p : Page) (va : Nat) : Nat :=
  let pa := p.pa + (va - p.va)
  match p.home with
  | some k => 2 ^ 40 * (k + 1) + pa
  | none => if p.host then 2 ^ 39 + pa % 2 ^ 39 else pa

/-- The package of a remote line, and the line at its home. -/
def lineHome (line : Nat) : Option Nat := if line < 2 ^ 34 then none else some (line / 2 ^ 34 - 1)
def lineAtHome (line : Nat) : Nat := line % 2 ^ 34

/-- The stack that holds a line (R14); 8 stands for host memory. -/
def stackOf (line : Nat) : Nat := if line < 2 ^ 33 then line / 2 ^ 30 else 8

/-- The translation a die's last-level TLB holds for an address (R305). -/
def State.tlbPage (s : State) (die asid va : Nat) : Option Page :=
  (s.tlb.find? fun e => e.die == die && e.page.covers asid va).map (·.page)

/-- Which rights an access needs (R306). -/
structure Need where
  w : Bool := false
  x : Bool := false
  a : Bool := false
  deriving DecidableEq, Repr

/-- What a translation gives: the address, a walk that holds the word, or a cause (R305, R306, R308). -/
inductive Xl where
  | ok (key : Nat)
  | walk (va : Nat)
  | bad (c : Cause)
  deriving DecidableEq, Repr

/-- Translating an address for a core (R305, R306): a TLB miss with a page-table entry, or a page on the move, holds
the word; without an entry XLATE; without the rights PERM. An atomic needs both write and atomic permission. A page in
host memory needs the ASID's PASID (R283). -/
def State.translate (s : State) (c asid va : Nat) (n : Need) : Xl :=
  match s.tlbPage (dieOf c) asid va with
  | some p =>
    if s.held.contains (asid, p.va) then .walk va
    else if p.host && !(smGet s.host.pasid asid).getLsbD 31 then .bad .xlate
    else if (n.w && !p.w) || (n.x && !p.x) || (n.a && !(p.a && p.w)) then .bad .perm
    else .ok (p.target va)
  | none => if s.pages.any fun p => p.covers asid va then .walk va else .bad .xlate

/-- One global or private access of a thread: its translated address, or why it has none. -/
structure Lookup where
  thread : Nat
  addr : Addr
  xl : Xl
  deriving DecidableEq, Repr

/-- The lookup of an access of w bytes that is not to scratch (R131 to R133): private accesses use the arena's physical
range; an address that is misaligned or outside is not translated. -/
def View.lookup (v : View) (w : Nat) (n : Need) (privOk : Bool) (t : Nat) (a : Addr) : Lookup :=
  match apertureOf a with
  | .glob va =>
    if va % w ≠ 0 then ⟨t, a, .bad .misalign⟩ else ⟨t, a, v.s.translate v.c v.b.asid va n⟩
  | .priv off =>
    if !privOk || v.b.stack < off + w then ⟨t, a, .bad .apert⟩
    else if off % w ≠ 0 then ⟨t, a, .bad .misalign⟩
    else ⟨t, a, .ok (v.b.arena + (v.i * v.st.threads + t) * v.b.stack + off)⟩
  | _ => ⟨t, a, .bad .apert⟩

/-- The page whose walk holds the word: the first a thread needs. -/
def walkOf (ls : List Lookup) : Option Nat :=
  (ls.filterMap fun l => match l.xl with | .walk va => some va | _ => none).head?

/-- The faults of lookups. -/
def lookupFaults (ls : List Lookup) : List (Nat × Cause × Addr) :=
  ls.filterMap fun l => match l.xl with | .bad c => some (l.thread, c, l.addr) | _ => none

/-- The threads with their translated addresses. -/
def lookupKeys (ls : List Lookup) : List (Nat × Nat) :=
  ls.filterMap fun l => match l.xl with | .ok k => some (l.thread, k) | _ => none

/-! ## Memory operations -/

/-- An operation that moves nothing yet: the issuing core's column, its strand's key, accepted at issue + 1 (R36). -/
def View.memOp (v : View) (lines : List Nat) (done : Done) : MemOp where
  loose := v.b.loose
  seq := v.seq
  col := v.c
  key := 1 + v.i
  acc := v.now + 1
  todo := (dedupSorted lines).filter fun l => (lineHome l).isNone
  carry := []
  carried := false
  flag := none
  carryFlag := false
  acqPod := false
  reads := true
  atEnd := false
  got := []
  writes := []
  wtags := []
  horizon := none
  keepHor := false
  narrow := false
  atoms := []
  olds := []
  remote := []
  rland := none
  bad := []
  floor := 0
  done := done

/-- Putting an operation under way. -/
def State.addOp (s : State) (o : MemOp) : State := { s with ops := s.ops ++ [o] }

/-- A record of R257 with no operands. -/
def recordOf (line op : Nat) : Rec := ⟨BitVec.ofNat 33 line, BitVec.ofNat 4 op, 0, 0, 0, 0, 0, none, false⟩

/-- The record opcodes of R258. -/
def opLoad : Nat := 1
def opStore : Nat := 2
def opStoreb : Nat := 3
def opMask : Nat := 4
def opCopyw : Nat := 5
def opAtom : Nat := 6
def opAtomtree : Nat := 7
def opResp : Nat := 8

/-- The plane of a line (R255). -/
def State.planeOf (s : State) (line : Nat) : Nat := (s.sch.planeMap.extractLsb' (3 * (line % 8)) 3).toNat

/-- Queueing one record of an operation to the home of a line (R259); `thread` numbers the records of one line. -/
def State.sendRecord (s : State) (o : MemOp) (line thread : Nat) (body : Rec) (mask : Option (BitVec 64)) : State :=
  match lineHome line with
  | none => s
  | some pkg =>
    let r : OutRec := ⟨s.planeOf line, pkg, false, o.acc, o.col, o.key, o.seq, thread, body, mask, 0⟩
    { s with fab := { s.fab with recq := s.fab.recq ++ [r] } }

/-- The words of a line that bytes touch, and whether they are touched whole. -/
def wordMask (bytes : List (Nat × Byte)) : BitVec 16 :=
  BitVec.ofNat 16 ((List.range 16).foldl (fun m w => if bytes.any fun p => p.1 % 64 / 4 == w then m + 2 ^ w else m) 0)
def wholeWords (bytes : List (Nat × Byte)) : Bool :=
  (List.range 16).all fun w =>
    let n := ((List.range 4).filter fun j => bytes.any fun p => p.1 % 64 == 4 * w + j).length
    n == 0 || n == 4

/-- Bytes laid into a 64-byte block at their place in the line. -/
def laid (bytes : List (Nat × Byte)) : Block :=
  smBlock (bytes.foldl (fun m p => smSet m (p.1 % 64) p.2) []) 0

/-- The bytes of a line that bytes touch, as a mask. -/
def byteMask (bytes : List (Nat × Byte)) : BitVec 64 :=
  BitVec.ofNat 64 ((List.range 64).foldl (fun m j => if bytes.any fun p => p.1 % 64 == j then m + 2 ^ j else m) 0)

/-- The records of an operation for its remote lines, in ascending line order (R258, R259): loads, stores, byte stores. -/
def remoteLoads (lines : List Nat) : List (Nat × Nat × Rec × Option (BitVec 64)) :=
  ((dedupSorted lines).filter fun l => (lineHome l).isSome).map fun l =>
    (l, 0, recordOf (lineAtHome l) opLoad, none)
def remoteStores (lines : List Nat) (writes : List (Nat × Byte)) : List (Nat × Nat × Rec × Option (BitVec 64)) :=
  ((dedupSorted lines).filter fun l => (lineHome l).isSome).map fun l =>
    let bs := writes.filter fun p => p.1 / 64 == l
    if wholeWords bs then (l, 0, { recordOf (lineAtHome l) opStore with mask := wordMask bs, data := laid bs }, none)
    else (l, 0, { recordOf (lineAtHome l) opStoreb with data := laid bs }, some (byteMask bs))

/-- Putting an operation with its remote records under way. -/
def State.launchOp (s : State) (o : MemOp) (recs : List (Nat × Nat × Rec × Option (BitVec 64))) : State :=
  let rem := recs.map fun r =>
    ({ pkg := (lineHome r.1).getD 0, line := lineAtHome r.1, thread := r.2.1,
       resp := r.2.2.1.op == 1#4 || r.2.2.1.op == 6#4 || r.2.2.1.op == 7#4, sent := none, data := none } : RemLine)
  let s := s.addOp { o with remote := rem }
  recs.foldl (fun s r => s.sendRecord o r.1 r.2.1 r.2.2.1 r.2.2.2) s

/-- Whether an access goes to other packages only: one that has a line here too is awaited as an access to this package (R165). -/
def farOnly (lines : List Nat) : Bool := !lines.isEmpty && lines.all fun l => (lineHome l).isSome

/-- The access of an operation to some lines for the fences, and the memory port (R76, R165). -/
def View.memPort (v : View) (lines : List Nat) (s : State) : State :=
  v.onStrand (fun st => st.addAcc v.now ⟨v.seq, none, farOnly lines⟩) (v.occupy uMemory 3 s)

/-- A register result of an operation, which lands with it (R74, R134). -/
def View.awaitResult (v : View) (s : State) : State :=
  v.onStrand (fun st => st.put ⟨v.seq, none, true, []⟩) s

/-- The latest landing known of a strand's accesses to lines of other packages that it issued before `seq`, 0 without one. -/
def Strand.farLatest (st : Strand) (seq : Nat) : Nat :=
  st.accs.foldl (fun m a => match a.land with | some t => if a.remote && a.seq < seq && m < t then t else m | none => m) 0

/-- Whether one of them has no landing yet: its records wait for their slots. -/
def Strand.farOpen (st : Strand) (seq : Nat) : Bool := st.accs.any fun a => a.remote && a.seq < seq && a.land.isNone

/-- Whether the strand's earlier accesses have landed: scratch, private stack and in-package lines, and with `pod` lines
of other packages (R165). -/
def Strand.accsLanded (st : Strand) (now seq : Nat) (pod : Bool) : Bool :=
  st.accs.all fun a =>
    seq ≤ a.seq || (a.remote && !pod) || (match a.land with | some t => decide (t ≤ now) | none => false)

/-- The horizon a release writes, as far as its issue cycle knows it (R167): 0 for scope pod, else the latest landing of the
strand's accesses to lines of other packages outstanding then; those without a landing add theirs as they get it. -/
def View.horizonOf (v : View) (sc : Scope) : Nat :=
  if sc = .pod then 0 else let t := v.st.farLatest v.seq; if v.now < t then t else 0

/-- Whether an ordering kind acquires, releases, at a scope of strand or wider (R164). -/
def acquires (k : Kind) (sc : Scope) : Bool := (k = .acq || k = .acqrel) && sc != .thread
def releases (k : Kind) (sc : Scope) : Bool := (k = .rel || k = .acqrel) && sc != .thread

/-- The park of an acquire until its access has landed, as if it carried the hold bit (R168). -/
def View.parkAcquire (v : View) (kind : Kind) (sc : Scope) (s : State) : State :=
  if acquires kind sc then v.park (.acq v.seq) s else s

/-- One effect after another. -/
def andThen (f g : State → State) (s : State) : State := g (f s)

/-! ## LD and ST -/

/-- Bytes of an LD or ST element (R391). -/
def ldBytes : LdTy → Nat
  | .ty t => if tyBits t < 8 then 1 else tyBits t / 8
  | .b128 => 16

/-- Registers of an LD or ST element. -/
def ldRegs (t : LdTy) : Nat := (ldBytes t + 3) / 4

/-- The destination words of loaded bytes (R392). -/
def ldWords (t : LdTy) (n : Nat) : List Word :=
  match t with
  | .ty .i8 => [BitVec.ofInt 32 (intOf true 8 (n % 2 ^ 8))]
  | .ty .i16 => [BitVec.ofInt 32 (intOf true 16 (n % 2 ^ 16))]
  | t => (List.range (ldRegs t)).map fun i => BitVec.ofNat 32 (n / 2 ^ (32 * i))

/-- Format codes an LD.DEC accepts besides RAW (R392). -/
def decFormats : LdTy → List Nat
  | .ty .f32 => [1]
  | .ty .f16 => [2]
  | .ty .bf16 => [3]
  | .ty .i8 => [7]
  | .ty .u8 => [7]
  | .ty .i16 => [9]
  | .ty .u16 => [9]
  | .ty .i32 => [10]
  | .ty .u32 => [10]
  | _ => []

/-- The tag check of LD.DEC (R392). -/
def decCheck (t : LdTy) (tag : Tag) : Option Cause :=
  if !tagOk tag then some .memunc
  else if (tagFormat tag).toNat ∈ 0 :: decFormats t then none
  else some .illconv

/-- What thread t's element of an LD or ST is: an address, no row, or a shape fault (R392, R416). -/
inductive Elem where
  | at_ (a : Addr)
  | zero
  | bad (c : Cause)
  deriving DecidableEq, Repr

/-- The element of thread t: addr + off, or the packed row of its thread (R211, R392). -/
def View.elem (v : View) (shape : Option ShMode) (a b : Opd) (t : Nat) : Elem :=
  let base := v.quad false a t
  match shape with
  | none => .at_ (base + (v.word b t).signExtend 64)
  | some m =>
    let g := v.st.getG (gIx b)
    match g.use m t with
    | .packed r => .at_ (BitVec.ofNat 64 (base.toNat + r * g.pitch.toNat))
    | .zero => .zero
    | .fault c => .bad c

/-- Where the elements of an LD or ST lie (R393): scratch offsets by thread, or lookups, with the threads of zero rows. -/
inductive Target where
  | scratch (xs : List (Nat × Nat))
  | mem (ls : List Lookup)
  deriving DecidableEq, Repr

/-- The address of an element; 0 without one. -/
def View.elemAddr (_v : View) : Elem → Addr
  | .at_ a => a
  | _ => 0

/-- The elements with an address. -/
def elemAddrs (es : List (Nat × Elem)) : List (Nat × Addr) :=
  es.filterMap fun e => match e.2 with | .at_ a => some (e.1, a) | _ => none

/-- Whether the active threads name scratch, and whether they name memory (R393). -/
def namesScratch (es : List (Nat × Addr)) : Bool := es.any fun e => match apertureOf e.2 with | .scratch _ => true | _ => false
def namesMemory (es : List (Nat × Addr)) : Bool :=
  es.any fun e => match apertureOf e.2 with | .glob _ => true | .priv _ => true | _ => false

/-- The elements of an LD or ST, one for each thread that acts. -/
def View.elems (v : View) (shape : Option ShMode) (d a b : Opd) : List (Nat × Elem) :=
  (v.doers d).map fun t => (t, v.elem shape a b t)

/-- Whether the elements of an LD or ST go to the scratch port (R393), and those of a word. -/
def scratchPort (es : List (Nat × Elem)) : Bool :=
  !namesMemory (elemAddrs es) && !(es.any fun e => e.2 == .zero) || namesScratch (elemAddrs es)
def View.toScratch (v : View) (shape : Option ShMode) (d a b : Opd) : Bool := scratchPort (v.elems shape d a b)

/-- Where the elements of an LD or ST lie, and the checks that find it (R393); of scratch accesses with a further check of its own. A
thread whose address is uncorrectable is judged by its shape register alone (R287, log entry 49). -/
def View.target (v : View) (shape : Option ShMode) (w : Nat) (n : Need) (d a b : Opd)
    (more : Nat × Nat → Option Cause := fun _ => none) : Except Trap Target :=
  let all := v.elems shape d a b
  let dark := v.badThreads (runsOnce d) [rd2 a, rd b]
  let es := all.filter fun e => !dark.contains e.1
  let ts := all.map (·.1)
  let addrs := elemAddrs es
  let shFaults : List (Nat × Cause × Addr) := all.filterMap fun e => match e.2 with | .bad c => some (e.1, c, 0) | _ => none
  if shape.isSome && !(v.st.getG (gIx b)).valid && !ts.isEmpty then raise .illconv ts
  else if namesScratch addrs && namesMemory addrs then raise .illconv (es.map (·.1))
  else if scratchPort es then do
    let xs := addrs.filterMap fun e => match apertureOf e.2 with | .scratch off => some (e.1, off) | _ => none
    let un := addrs.filterMap fun e => match apertureOf e.2 with | .scratch _ => none | _ => some (e.1, Cause.apert, e.2)
    let own := xs.filterMap fun p => (more p).map fun c => (p.1, c, scratchAddr p.2)
    worst (sortBy (·.1) (shFaults ++ un ++ v.scratchFaults w xs ++ v.conflicts w xs ++ own))
    .ok (.scratch xs)
  else
    let ls := addrs.map fun e => v.lookup w n true e.1 e.2
    if (walkOf ls).isSome then .ok (.mem ls)
    else do
      worst (sortBy (·.1) (shFaults ++ lookupFaults ls))
      .ok (.mem ls)

/-- LD (R391 to R393). -/
def execLd (c : Ctl) (dec : Bool) (kind : Kind) (sc : Scope) (shape : Option ShMode) (ty : LdTy) (d a b : Opd) (s : State) :=
  let us := [wrN d (ldRegs ty), rd2 a, rd b]
  issue s c (runsOnce d) us (chk := []) fun v => do
    let w := ldBytes ty
    let tag (p : Nat × Nat) : Option Cause :=
      if !dec then none else if v.core.badTags.contains (p.2 / 64) then some .memunc else decCheck ty (smGet v.core.stags (p.2 / 64))
    let tgt ← v.target shape w {} d a b tag
    let es := v.elems shape d a b
    match tgt with
    | .scratch xs =>
      let n := v.degree w xs
      let zeros := es.flatMap fun e => if e.2 = .zero then writeRun d e.1 (ldWords ty 0) else []
      let ws := xs.flatMap fun p => writeRun d p.1 (ldWords ty (smNat v.core.scratch p.2 w))
      let act := v.structLoad (runsOnce d) n w (wordLen us) xs (zeros ++ ws)
      .ok { act with post := andThen act.post (v.parkAcquire kind sc) }
    | .mem ls =>
      match walkOf ls with
      | some va => .ok { walk := some (v.b.asid, va) }
      | none =>
        let keys := lookupKeys ls
        let lines := keys.map fun p => p.2 / 64
        let lanes := es.map fun e => (e.1, (keys.find? fun p => p.1 == e.1).map fun p => (p.2, v.elemAddr e.2))
        let o := v.memOp lines (.load (runsOnce d) (match d with | .v n => n.toNat | .s n => n.toNat | _ => 0) ty dec lanes v.st.pc (wordLen us))
        let o := { o with acqPod := acquires kind sc && sc == .pod }
        let recs := remoteLoads lines
        .ok { post := fun s => v.parkAcquire kind sc ((v.awaitResult (v.memPort lines s)).launchOp o recs) }

/-- The stored bytes of a thread (R416): register words low first. -/
def View.stBytes (v : View) (ty : LdTy) (d : Opd) (t : Nat) : List Byte :=
  bytesOf (ldBytes ty) ((List.range (ldRegs ty)).foldl (fun n j => n + (v.nth d j t).toNat * 2 ^ (32 * j)) 0)

/-- Whether an access releases at a scope narrower than pod (R167). -/
def narrowRelease (k : Kind) (sc : Scope) : Bool := releases k sc && sc != .pod

/-- Records with the horizon their home is to write (R167). -/
def withHorizon (rel : Bool) (hor : Nat) (recs : List (Nat × Nat × Rec × Option (BitVec 64))) :
    List (Nat × Nat × Rec × Option (BitVec 64)) :=
  if rel then recs.map fun r => (r.1, r.2.1, { r.2.2.1 with hor := some (BitVec.ofNat 64 hor) }, r.2.2.2) else recs

/-- A store operation with its remote records: its bytes, its horizon under R167. -/
def View.storeOp (v : View) (kind : Kind) (sc : Scope) (lines : List Nat) (bytes : List (Nat × Byte)) (s : State) : State :=
  let hor := if releases kind sc then v.horizonOf sc else 0
  let recs := withHorizon (releases kind sc) hor (remoteStores lines bytes)
  let here := bytes.filter fun p => (lineHome (p.1 / 64)).isNone
  let o := { v.memOp lines .nothing with writes := here, horizon := some hor, narrow := narrowRelease kind sc, reads := false }
  (v.memPort lines s).launchOp o recs

/-- ST (R415, R416). -/
def execSt (c : Ctl) (kind : Kind) (sc : Scope) (shape : Option ShMode) (ty : LdTy) (d a b : Opd) (s : State) :=
  issue s c (runsOnce d) [rdN d (ldRegs ty), rd2 a, rd b] (chk := []) fun v => do
    let w := ldBytes ty
    let tgt ← v.target shape w { w := true } d a b
    match tgt with
    | .scratch xs =>
      let n := v.degree w xs
      .ok (v.structStore (runsOnce d) n (xs.flatMap fun p => addressed p.2 (v.stBytes ty d p.1)) [])
    | .mem ls =>
      match walkOf ls with
      | some va => .ok { walk := some (v.b.asid, va) }
      | none =>
        let keys := lookupKeys ls
        let bytes := keys.flatMap fun p => addressed p.2 (v.stBytes ty d p.1)
        .ok { post := v.storeOp kind sc (keys.map fun p => p.2 / 64) bytes }

/-! ## Atomics -/

/-- The value an atomic leaves (R358); `y` is the comparand of CAS. -/
def atomValue (op : AtomOp) (ty : Ty) (old x y : BitVec 64) : BitVec 64 :=
  let m := if ty.wide then 64 else 32
  let cut (z : BitVec 64) : BitVec 64 := if m = 64 then z else (z.setWidth 32).setWidth 64
  let si (z : BitVec 64) : Int := intOf (tySigned ty) m (cut z).toNat
  match op with
  | .add => cut (old + x)
  | .sub => cut (old - x)
  | .and => cut (old &&& x)
  | .or => cut (old ||| x)
  | .xor => cut (old ^^^ x)
  | .min => if si x < si old then cut x else cut old
  | .max => if si old < si x then cut x else cut old
  | .exch => cut x
  | .cas => if cut old = cut y then cut x else cut old
  | .fadd => ((add32 (old.setWidth 32) (x.setWidth 32)).1).setWidth 64
  | .fmin => ((fmin32 (old.setWidth 32) (x.setWidth 32)).1).setWidth 64
  | .fmax => ((fmax32 (old.setWidth 32) (x.setWidth 32)).1).setWidth 64

/-- Record codes of the atomic operations (R358). -/
def AtomOp.code : AtomOp → Nat
  | .add => 0 | .and => 1 | .or => 2 | .xor => 3 | .min => 4 | .max => 5
  | .exch => 6 | .cas => 7 | .fadd => 8 | .fmin => 9 | .fmax => 10 | .sub => 11

/-- Bytes an atomic touches. -/
def atomBytes (r : AtomReq) : Nat := if r.tri.isSome then 16 else if r.ty.wide then 8 else 4

/-- The operand of an atomic as its record carries it (R257): CAS has its comparand in the element after the new value
(log entry 16). -/
def atomData (r : AtomReq) : Block :=
  let w := atomBytes r
  let off := r.pa % 64
  let put (o : Nat) (x : Nat) : Nat := x * 2 ^ (8 * (o % 64))
  match r.tri with
  | some q => BitVec.ofNat 512 (put off (leOf (triBytes q)))
  | none =>
    if r.op = .cas then BitVec.ofNat 512 (put off (r.x.toNat % 2 ^ (8 * w)) + put (off + w) (r.y.toNat % 2 ^ (8 * w)))
    else BitVec.ofNat 512 (put off (r.x.toNat % 2 ^ (8 * w)))

/-- The word mask of an atomic. -/
def atomMask (r : AtomReq) : BitVec 16 :=
  BitVec.ofNat 16 ((2 ^ (atomBytes r / 4) - 1) * 2 ^ (r.pa % 64 / 4))

/-- The record of one atomic (R257, R258), with the sign of its type beside it (log entry 24). -/
def atomRecord (tree : Bool) (r : AtomReq) : Rec :=
  { recordOf (lineAtHome (r.pa / 64)) (if tree then opAtomtree else opAtom) with
    mask := atomMask r
    aop := BitVec.ofNat 5 (if r.tri.isSome then 12 else AtomOp.code r.op)
    width := if r.tri.isSome then 2 else if r.ty.wide then 1 else 0
    sgn := tySigned r.ty
    data := atomData r }

/-- The words of its line that an atomic's operands take in a record: for CAS the element of the comparand too. -/
def atomSpan (r : AtomReq) : BitVec 16 :=
  if r.op = .cas && r.tri.isNone then atomMask r ||| (atomMask r).rotateLeft (atomBytes r / 4) else atomMask r

/-- The atomics on one line with the number of the record that carries each: threads on one word take successive records in
thread order, and those on different words share one (R258). -/
def atomPlaces (rs : List AtomReq) : List (AtomReq × Nat) :=
  rs.foldl (fun ps r => ps ++ [(r, ps.foldl (fun n p => if atomSpan p.1 &&& atomSpan r != 0 && n < p.2 + 1 then p.2 + 1 else n) 0)]) []

/-- One record of several atomics: the words of each. -/
def joinAtoms (tree : Bool) (rs : List AtomReq) : Rec :=
  match rs with
  | [] => recordOf 0 0
  | r :: l => l.foldl (fun x q => { x with mask := x.mask ||| atomMask q, data := x.data ||| atomData q }) (atomRecord tree r)

/-- The records of remote atomics (R258), in line order. -/
def remoteAtoms (tree : Bool) (rs : List AtomReq) : List (Nat × Nat × Rec × Option (BitVec 64)) :=
  let far := rs.filter fun r => (lineHome (r.pa / 64)).isSome
  (dedupSorted (far.map fun r => r.pa / 64)).flatMap fun l =>
    let ps := atomPlaces (far.filter fun r => r.pa / 64 == l)
    (dedupSorted (ps.map (·.2))).map fun k => (l, k, joinAtoms tree ((ps.filter fun p => p.2 == k).map (·.1)), none)

/-- Putting atomics under way: their operation, records, register results and parks (R167, R168, R360). -/
def View.atomics (v : View) (kind : Kind) (sc : Scope) (tree : Bool) (result : Bool) (done : Done) (rs : List AtomReq)
    (s : State) : State :=
  if rs.isEmpty then v.occupy uMemory 3 s
  else
    let rel := releases kind sc
    let recs := withHorizon rel (v.horizonOf sc) (remoteAtoms tree rs)
    let lines := rs.map fun r => r.pa / 64
    let o := { v.memOp lines done with
      atoms := rs
      horizon := if rel then some (v.horizonOf sc) else none
      keepHor := !rel
      narrow := narrowRelease kind sc
      acqPod := acquires kind sc && sc == .pod }
    let s := (v.memPort lines s).launchOp o recs
    let s := if result then v.awaitResult s else s
    v.parkAcquire kind sc s

/-- The lookups of an atomic (R361): global only. -/
def View.atomLookups (v : View) (w : Nat) (d a : Opd) : List Lookup :=
  (v.doers d).map fun t => v.lookup w { a := true } false t (v.quad false a t)

/-- The operand and the comparand of a thread: CAS names the comparand first, then the new value (R358). -/
def View.atomOperand (v : View) (op : AtomOp) (ty : Ty) (b : Opd) (t : Nat) : BitVec 64 × BitVec 64 :=
  if op = .cas then
    if ty.wide then (v.nth b 3 t ++ v.nth b 2 t, v.nth b 1 t ++ v.nth b 0 t)
    else ((v.nth b 1 t).setWidth 64, (v.nth b 0 t).setWidth 64)
  else (v.src ty b t, 0)

/-- The operand registers of an atomic. -/
def atomUses (op : AtomOp) (ty : Ty) (d a b : Opd) : List Use :=
  [wrT ty.wide d, rd2 a, rdN b ((if ty.wide then 2 else 1) * if op = .cas then 2 else 1)]

/-- ATOM (R357 to R361): one atomic for each active thread; uniform, the leader's. -/
def execAtom (c : Ctl) (op : AtomOp) (ty : Ty) (kind : Kind) (sc : Scope) (d a b : Opd) (s : State) :=
  let us := atomUses op ty d a b
  issue s c (runsOnce d) us (chk := [rd2 a]) fun v => do
    let ls := v.atomLookups (if ty.wide then 8 else 4) d a
    match walkOf ls with
    | some va => .ok { walk := some (v.b.asid, va) }
    | none =>
      worst (lookupFaults ls)
      let rs := (lookupKeys ls).map fun p =>
        let x := v.atomOperand op ty b p.1
        (⟨p.1, p.2, op, ty, x.1, x.2, none, v.quad false a p.1⟩ : AtomReq)
      let dst := match d with | .v n => some n.toNat | .s n => some n.toNat | _ => none
      .ok { post := v.atomics kind sc false dst.isSome (.fetched (runsOnce d) dst ty.wide none v.st.pc (wordLen us)) rs }

/-- ATOM.TREE (R177, R359): the active operands combined in the SCAN order, one atomic. -/
def execAtomTree (c : Ctl) (op : AtomOp) (ty : Ty) (kind : Kind) (sc : Scope) (d a b : Opd) (s : State) :=
  let us := atomUses op ty d a b
  issue s c (runsOnce d) us (chk := [rd2 a]) fun v => do
    let addr0 := v.quad false a v.leader
    let other := v.threads.filter fun t => v.quad false a t != addr0
    if !other.isEmpty then raise .illconv other
    let ls := v.atomLookups (if ty.wide then 8 else 4) d a
    match walkOf ls with
    | some va => .ok { walk := some (v.b.asid, va) }
    | none =>
      worst (lookupFaults ls)
      let comb (x y : BitVec 64) : BitVec 64 := atomValue op ty x y 0
      let scan := ksScan comb ((List.range 96).map fun t => if v.on t then some (v.src ty b t) else none)
      let excl := (v.threads.zip (v.threads.drop 1)).filterMap fun p => (scan[p.1]?.join).map fun x => (p.2, x)
      let rs := match lookupKeys ls, scan[95]?.join with
        | p :: _, some x => [(⟨p.1, p.2, op, ty, x, 0, none, addr0⟩ : AtomReq)]
        | _, _ => []
      let dst := match d with | .v n => some n.toNat | _ => none
      let done := Done.fetched false dst ty.wide (some (op, ty, (v.leader, 0) :: excl)) v.st.pc (wordLen us)
      .ok { post := v.atomics kind sc true dst.isSome done rs }

/-- ATOMQ (R362): a merge at each active thread's triple. -/
def execAtomq (c : Ctl) (kind : Kind) (sc : Scope) (d a b : Opd) (s : State) :=
  let us := [wr d, rd2 a, rd b]
  issue s c false us (chk := [rd2 a]) fun v => do
    let ls := v.atomLookups 16 d a
    match walkOf ls with
    | some va => .ok { walk := some (v.b.asid, va) }
    | none =>
      worst (lookupFaults ls)
      let rs := (lookupKeys ls).map fun p => (⟨p.1, p.2, .add, .u32, 0, 0, some (v.triple b p.1), v.quad false a p.1⟩ : AtomReq)
      let dst := match d with | .q n => some n.toNat | _ => none
      .ok { post := v.atomics kind sc false dst.isSome (.fetchedQ dst v.st.pc (wordLen us)) rs }

/-! ## SHLD and SHWIN -/

/-- The addresses of the lines that hold boundary entries from x on (R217, R218): e[x] to e[min(x + 63, S)]. -/
def windowLines (btab : Addr) (x seqs : Nat) : List Addr :=
  let last := if seqs < x + 63 then seqs else x + 63
  let lo := 4 * x / 64
  let hi := 4 * last / 64
  (List.range (hi + 1 - lo)).map fun k => btab + BitVec.ofNat 64 (64 * (lo + k))

/-- The lookup of a line a word reads for its leader. -/
def View.lineLookup (v : View) (a : Addr) : Lookup := v.lookup 64 {} false v.leader a

/-- SHLD (R217): the header line; its window follows when the header lands. A FENCE does not wait for it (R223). -/
def execShld (c : Ctl) (d a : Opd) (s : State) :=
  let us := [wr d, rd2 a]
  issue s c true us fun v => do
    let l := v.lineLookup (v.quad false a v.leader)
    match walkOf [l] with
    | some va => .ok { walk := some (v.b.asid, va) }
    | none =>
      worst (lookupFaults [l])
      let lines := (lookupKeys [l]).map fun p => p.2 / 64
      let done := Done.shHeader (gIx d) ((lookupKeys [l]).map (fun p => (p.2, l.addr)) |>.headD (0, 0)) v.leader v.st.pc (wordLen us)
      .ok { post := fun s => (v.awaitResult (v.occupy uMemory 3 s)).launchOp (v.memOp lines done) (remoteLoads lines) }

/-- SHWIN (R218): the fields of the register are those of its issue cycle (R73, R223); a FENCE does not wait for it. -/
def execShwin (c : Ctl) (d a : Opd) (s : State) :=
  let us := [wr d, rd a]
  issue s c true us (chk := []) fun v => do
    let g := v.st.getG (gIx d)
    let x := (v.word a v.leader).toNat
    if !g.valid then v.raise1 .illconv
    if !v.knows true [rd a] then return {}
    if x % 16 ≠ 0 ∨ g.seqs.toNat < x then v.raise1 .bound
    let ls := (windowLines g.btab x g.seqs.toNat).map v.lineLookup
    match walkOf ls with
    | some va => .ok { walk := some (v.b.asid, va) }
    | none =>
      worst (lookupFaults ls)
      let keys := (lookupKeys ls).zip ls |>.map fun p => (p.1.2, p.2.addr)
      let lines := keys.map fun k => k.1 / 64
      let done := Done.shReload (gIx d) g (BitVec.ofNat 32 x) keys v.leader v.st.pc (wordLen us)
      .ok { post := fun s => (v.awaitResult (v.occupy uMemory 3 s)).launchOp (v.memOp lines done) (remoteLoads lines) }

/-! ## WAITA and FENCE -/

/-- The condition of WAITA (R272). -/
def waitaHolds (q : WCond) (m x : Word) : Bool :=
  match q with
  | .eq => m == x
  | .ne => m != x
  | .geu => x.toNat ≤ m.toNat
  | .ltu => m.toNat < x.toNat

/-- WAITA (R272, R273): in fixed discipline to its deadline, in loose discipline until a commit finds the condition. With .ACQ of scope
strand or wider it holds its strand for the results outstanding too (R168). -/
def execWaita (c : Ctl) (q : WCond) (acq : Bool) (sc : Scope) (d a b e : Opd) (s : State) :=
  issue s c true [wr d, rd2 a, rd b, rd e] (chk := [rd2 a]) fun v => do
    let l := v.lookup 4 {} false v.leader (v.quad false a v.leader)
    match walkOf [l] with
    | some va => .ok { walk := some (v.b.asid, va) }
    | none =>
      worst (lookupFaults [l])
      let pa := ((lookupKeys [l]).map (·.2)).headD 0
      if (lineHome (pa / 64)).isSome then v.raise1 .apert l.addr
      let dst := match d with | .s n => some n.toNat | _ => none
      let deadline := if v.b.loose then none else some (v.now + (v.word e v.leader).toNat)
      let from_ := v.now + 1
      let wait := v.park (.waita pa (v.word b v.leader) q dst deadline from_ (acq && sc == .pod) v.seq)
      .ok { post := if acq && sc != .thread then andThen wait (v.park .hold) else wait }

/-- FENCE (R165): the strand waits for its earlier accesses; scope thread does nothing. -/
def execFence (c : Ctl) (sc : Scope) (s : State) :=
  issue s c true [] fun v =>
    .ok { post := fun s => if sc = .thread then s else v.park (.fence v.seq (sc == .pod)) s }

end Sys2Proof.Machine
end

