-- ==== Sys2Proof/Machine/Control.lean ====
section
/-! DEFINITION. Control instructions: NOP, BRA, JMP, CALL, RET, LOOP, LBRK, EXIT, ROLE, CLASP, TNEXT, UNTIL, VNT. -/

namespace Sys2Proof.Machine
open Sys2Proof

/-- NOP (R343): nothing beyond its issue frame. -/
def execNop (c : Ctl) (s : State) := issue s c true [] fun _ => .ok {}

/-! ## Transfers of control -/

/-- A target given as a displacement from the word's own address (R334). -/
def View.relative (v : View) (disp : Word) : Addr := v.st.pc + disp.signExtend 64

/-- BRA (R365). -/
def execBra (c : Ctl) (disp : Word) (s : State) :=
  issue s c true [rd (.lit32 disp)] fun v => .ok { jump := some (v.relative disp) }

/-- JMP (R388): an absolute address. -/
def execJmp (c : Ctl) (a : Opd) (s : State) :=
  issue s c true [rd2 a] fun v => .ok { jump := some (v.quad false a v.leader) }

/-- CALL (R367): the return address lands at issue + 4. -/
def execCall (c : Ctl) (d a : Opd) (s : State) :=
  let us := [wrN d 2, rd2 a]
  issue s c true us fun v =>
    let dest := match a with | .lit32 x => v.relative x | a => v.quad false a v.leader
    let ret := v.st.pc + BitVec.ofNat 64 (wordLen us)
    .ok { jump := some dest, post := v.land (v.now + 4) (writeTo d true v.leader ret) }

/-- RET (R405). -/
def execRet (c : Ctl) (a : Opd) (s : State) :=
  issue s c true [rd2 a] fun v => .ok { jump := some (v.quad false a v.leader) }

/-! ## Loops -/

/-- A byte of a block's code at a translated address (R326): as memory stood when the block started; in another package, or in
host memory, a free value (log entry 34). -/
def Blk.codeByte (b : Blk) (key : Nat) : Byte := if key < 2 ^ 39 then smGet b.code key else Config.farByte b.start key

/-- n bytes of a block's code. -/
def Blk.codeNat (b : Blk) (key n : Nat) : Nat := leOf ((List.range n).map fun i => b.codeByte (key + i))

/-- The translated address of code when the block started; `now` where its page has come since. -/
def Blk.codeKey (b : Blk) (va now : Nat) : Nat :=
  match b.pages.find? fun p => p.covers b.asid va with
  | some p => p.target va
  | none => now

/-- The 4-byte piece of the block's code at an address, whatever the die's TLB holds; none where no page holds it. -/
def View.codePiece (v : View) (va : Nat) : Option Nat :=
  ((v.b.pages ++ v.s.pages).find? fun p => p.covers v.b.asid va).map fun p => v.b.codeNat (p.target va) 4

/-- The length of the instruction at an address of the block's code (R325), each 4-byte piece of its word in the page that
holds the piece (R326); 8 where no page holds one. -/
def View.codeLen (v : View) (a : Addr) : Nat :=
  match v.codePiece (a.toNat % 2 ^ 57), v.codePiece ((a.toNat + 4) % 2 ^ 57) with
  | some lo, some hi => 8 + litLen (BitVec.ofNat 64 (lo + 2 ^ 32 * hi))
  | _, _ => 8

/-- The counter a loop operand names. -/
def lcIx : Opd → Nat
  | .lc n => n.toNat
  | _ => 0

/-- LOOP (R81, R83, R394). -/
def execLoop (c : Ctl) (d a : Opd) (disp : Word) (s : State) :=
  let us := [wr d, rd a, rd (.lit32 disp)]
  issue s c true us (chk := []) fun v => do
    let first := v.st.pc + BitVec.ofNat 64 (wordLen us)
    let last := v.relative disp
    let after := last + BitVec.ofNat 64 (v.codeLen last)
    let outside := match v.st.enclosing with
      | [] => 2048 < after.toNat - first.toNat
      | l :: _ => l.last.toNat < last.toNat
    if v.st.inHandler || last.toNat < first.toNat || 3 ≤ v.st.enclosing.length
        || (v.st.enclosing.any fun l => l.ctr == lcIx d) || outside then v.raise1 .illmod
    let n := v.word a v.leader
    let count := v.land (v.now + 1) [.lc (lcIx d) n]
    if n = 0 then .ok { jump := some after, post := count }
    else .ok { post := andThen count (v.onStrand fun st => { st with loops := ⟨lcIx d, first, last⟩ :: st.loops }) }

/-- LBRK (R83, R84). -/
def execLbrk (c : Ctl) (s : State) :=
  issue s c true [] fun v =>
    if v.st.inHandler then v.raise1 .illmod
    else
      match v.st.enclosing with
      | [] => v.raise1 .illmod
      | l :: _ =>
        .ok { jump := some (l.last + BitVec.ofNat 64 (v.codeLen l.last)), post := v.land (v.now + 1) [.lc l.ctr 0] }

/-! ## EXIT and ROLE -/

/-- EXIT (R109, R379): the strand ends; the cause it records is decided once its engine operations have landed. -/
def execExit (c : Ctl) (s : State) :=
  issue s c true [] fun v =>
    .ok { post := v.onStrand fun st => st.finish v.now 0 0 true v.st.pc st.frec }

/-- The strand in its other allotment (R85): the departing one keeps its registers and the next word's address; the
region entry is the new allotment's resume address (R293). -/
def Strand.switchRole (st : Strand) (other : Regs) (next : Addr) : Strand :=
  { st with
    alt := some { st.cur with resume := next }
    cur := other
    curIx := !st.curIx
    pc := other.resume
    entry := other.resume }

/-- ROLE (R85, R86, R406). It issues once no register result is outstanding (`heldBeforeIssue`). -/
def execRole (c : Ctl) (s : State) :=
  issue s c true [] fun v =>
    match v.st.alt with
    | none => v.raise1 .illop
    | some other =>
      if v.st.inHandler || !v.st.enclosing.isEmpty then v.raise1 .illmod
      else .ok { post := v.onStrand fun st => st.switchRole other (v.st.pc + 8) }

/-! ## Clasps -/

/-- Clasp c of the block, if the block holds it (R105). -/
def View.clasp (v : View) (o : Opd) : Except Trap (Nat × Clasp) :=
  let n := (v.word o v.leader).toNat
  match aGet v.b.clasps n with
  | some k => .ok (n, k)
  | none => v.raise1 .illmod

/-- Whether a strand waits at clasp n. -/
def Strand.waitsAt (st : Strand) (n : Nat) : Bool := st.waits.any fun w => match w with | .clasp m _ _ _ _ => m == n | _ => false

/-- One effect on a clasp (R105, R236). -/
def Clasp.land (k : Clasp) (e : ClaspEff) : Clasp :=
  match e with
  | .init m n => { k with m := m, e := n, a := 0, h := 0 }
  | .arrive i => { k with a := k.a ||| BitVec.ofNat 8 (2 ^ i) }
  | .hardware _ => { k with h := k.h + 1 }

/-- Whether a clasp opens (R104). One without participants and without extra count opened as its last participant left
(`Clasp.leave`, log entry 39), and has nothing more to open for. -/
def Clasp.opens (k : Clasp) : Bool := k.a == k.m && k.e ≤ k.h && !(k.m == 0 && k.e == 0)

/-- The clasp after it has opened (R104). -/
def Clasp.opened (k : Clasp) : Clasp := { k with a := 0, h := k.h - k.e, gen := k.gen + 1 }

/-- A strand leaves a clasp (R109). Where it was the last participant and E is 0, the clasp opens then, once (R104, log entry
39). -/
def Clasp.leave (k : Clasp) (bit : BitVec 8) : Clasp :=
  let k' := { k with m := k.m &&& ~~~bit, a := k.a &&& ~~~bit }
  if k.m != 0 && k'.m == 0 && k.e == 0 then k'.opened else k'

/-- A clasp after one cycle's effects, applied in order, and its opening if they complete it (R104, R105). -/
def Clasp.run (k : Clasp) (es : List ClaspEff) : Clasp :=
  let k := es.foldl Clasp.land k
  if k.opens then k.opened else k

/-- The effects on clasp n that land at tick t: those of CLASP words in issue order, then the hardware arrivals (R105, R236). -/
def Core.claspEffs (k : Core) (n t : Nat) : List ClaspEff :=
  (sortBy (·.seq) (k.claspQ.filter fun q => q.c == n && q.land == t)).map (·.eff)
    ++ (k.runs.filter fun r => r.trio == some n && r.land == t).map fun r => .hardware r.failed.isSome

/-- The strand slots that leave their clasps at tick t (R109). -/
def Blk.leaving (b : Blk) (t : Nat) : List Nat :=
  (List.range b.slots.length).filter fun i =>
    match b.slots[i]? with | some st => st.ended.any fun e => e.at_ + 4 == t | none => false

/-- Clasp n of a block as it will stand before the effects of tick now + 4, with all that lands until then. -/
def Core.claspAhead (k : Core) (b : Blk) (n now : Nat) (x : Clasp) : Clasp :=
  [now + 1, now + 2, now + 3].foldl (fun x t =>
    ((b.leaving t).foldl (fun x i => x.leave (BitVec.ofNat 8 (2 ^ i))) x).run (k.claspEffs n t)) x

/-- An effect on a clasp that lands at issue + 4 (R105). -/
def View.claspEffect (v : View) (n : Nat) (e : ClaspEff) : State → State :=
  v.onCore fun k => { k with claspQ := k.claspQ ++ [⟨v.seq, v.now + 4, n, e⟩] }

/-- CLASP.INIT (R105): checked against the clasp in the issue cycle. -/
def execClaspInit (c : Ctl) (a b e : Opd) (s : State) :=
  issue s c true [rd a, rd b, rd e] (chk := []) fun v => do
    let mask := v.word b v.leader
    let extra := v.word e v.leader
    let mk := v.knows true [rd b]
    let ek := v.knows true [rd e]
    let resident (i : Nat) : Bool := match v.b.slots[i]? with | some st => st.ended.isNone | none => false
    if mk && ((List.range 8).any (fun i => mask.getLsbD i && !resident i) || 2 ^ 8 ≤ mask.toNat)
        || ek && 2 ^ 4 ≤ extra.toNat || mk && ek && mask == 0 && extra == 0 then v.raise1 .illmod
    if !v.knows true [rd a] then return {}
    let (n, k) ← v.clasp a
    if (v.b.slots.any fun st => st.waitsAt n) || k.a != 0 then v.raise1 .illmod
    .ok { post := v.claspEffect n (.init (mask.setWidth 8) extra.toNat) }

/-- Whether the strand may arrive at clasp n (R105): it is in M and not in A in the issue cycle, nor in A when its arrival lands.
An earlier arrival of its own still in flight bars it unless the clasp opens before then (R295, log entry 62). -/
def View.mayArrive (v : View) (n : Nat) (k : Clasp) : Bool :=
  k.m.getLsbD v.i && !k.a.getLsbD v.i && !(v.core.claspAhead v.b n v.now k).a.getLsbD v.i

/-- CLASP.ARR (R105, R172). -/
def execClaspArr (c : Ctl) (a : Opd) (s : State) :=
  issue s c true [rd a] fun v => do
    let (n, k) ← v.clasp a
    if !v.mayArrive n k then v.raise1 .illmod
    .ok { post := v.claspEffect n (.arrive v.i) }

/-- CLASP.WAIT (R105 to R107): in fixed discipline with the deadline issue + limit. -/
def execClaspWait (c : Ctl) (a b : Opd) (s : State) :=
  let us := [rd a, rd b]
  issue s c true us (chk := [rd a]) fun v => do
    let (n, k) ← v.clasp a
    if !v.mayArrive n k then v.raise1 .illmod
    let deadline := if v.b.loose then none else some (v.now + (v.word b v.leader).toNat)
    .ok { post := andThen (v.claspEffect n (.arrive v.i)) (v.park (.clasp n deadline v.st.pc (wordLen us) v.leader)) }

/-! ## TNEXT, UNTIL, VNT -/

/-- TNEXT (R103): the next entry of the block's table, or the end of it in k_p; all land at issue + 4. -/
def execTnext (c : Ctl) (d a : Opd) (s : State) :=
  issue s c true [wrN d 2] fun v =>
    let done := v.b.cursor = v.b.tableN
    let field (j : Nat) : Nat := smNat v.b.table (8 + 8 * v.b.cursor + 2 * j) 2
    let kw := (List.range 96).flatMap fun t => writeTo a false t (if done then 1 else 0)
    if done then .ok { post := v.land (v.now + 4) kw }
    else
      let x := writeRun d v.leader [BitVec.ofNat 32 (field 0 + 2 ^ 16 * field 1), BitVec.ofNat 32 (field 2 + 2 ^ 16 * field 3)]
      let take := v.onBlk fun b =>
        { b with cursor := b.cursor + 1, coords := some (BitVec.ofNat 16 (field 0), BitVec.ofNat 16 (field 1)) }
      .ok { post := andThen (v.land (v.now + 4) (x ++ kw)) take }

/-- UNTIL (R428). -/
def execUntil (c : Ctl) (a : Opd) (s : State) :=
  issue s c true [rd2 a] fun v =>
    let t := (v.quad false a v.leader).toNat
    .ok { post := fun s => if t ≤ v.s.accord + 1 then s else v.park (.until t) s }

/-- VNT (R429): the named islands change at issue + 4. -/
def execVnt (c : Ctl) (a : Opd) (s : State) :=
  issue s c true [rd a] fun v =>
    let x := v.word a v.leader
    .ok { post := v.onCore fun k => { k with vnt := k.vnt ++ [(v.now + 4, x.extractLsb' 4 4, x.extractLsb' 0 4)] } }

end Sys2Proof.Machine
end

