-- ==== Sys2Proof/Machine/System.lean ====
section
/-! DEFINITION. System instructions: TRAP, RETT, REGION, STEP, PREM, SYSR, SYSW. -/

namespace Sys2Proof.Machine
open Sys2Proof

/-- TRAP (R292): raises TRAPSW with the code's low byte. -/
def execTrap (c : Ctl) (a : Opd) (s : State) :=
  issue s c true [rd a] fun v =>
    .error { cause := .trapsw, threads := [v.leader], code := (v.word a v.leader) &&& 0xFF }

/-- RETT.NEXT (R292). -/
def execRettNext (c : Ctl) (s : State) :=
  issue s c true [] fun v =>
    if v.st.inHandler then .ok { post := v.onStrand Strand.returnNext } else v.raise1 .illmod

/-- RETT.REGION (R292, R294). -/
def execRettRegion (c : Ctl) (s : State) :=
  issue s c true [] fun v =>
    if v.st.inHandler then .ok { post := v.onStrand Strand.returnRegion } else v.raise1 .illmod

/-- REGION (R293): the entry and the snapshot at issue; regioncnt at issue + 4. -/
def execRegion (c : Ctl) (s : State) :=
  issue s c true [] fun v =>
    if v.st.inHandler then v.raise1 .illmod
    else
      let mark := v.onStrand fun st => { st with entry := v.st.pc + 8, snap := ⟨v.st.lc, v.st.enclosing, v.st.tl⟩ }
      .ok { post := andThen mark (v.land (v.now + 4) [.regionInc]) }

/-- STEP (R298): stepcnt at issue + 4; a pending cut sees it there (R300). -/
def execStep (c : Ctl) (s : State) :=
  issue s c true [] fun v => .ok { post := v.land (v.now + 4) [.stepInc] }

/-- The frame count and first frame of the slice in force, from the running part's slice table (R40). -/
def Part.section (p : Part) (k : Nat) : Nat × Nat × Nat :=
  (smNat p.img (0x28 + 16 * k) 8, smNat p.img (0x28 + 16 * k + 8) 4, smNat p.img (0x28 + 16 * k + 12) 4)
def Part.sliceFirst (p : Part) (i : Nat) : Nat := smNat p.img ((p.section 0).1 + 16 * i) 8
def Part.sliceFrames (p : Part) (i : Nat) : Nat := smNat p.img ((p.section 0).1 + 16 * i + 8) 4
def Part.slicePattern (p : Part) (i : Nat) : Nat := smNat p.img ((p.section 0).1 + 16 * i + 12) 2
def Part.sliceStands (p : Part) (i : Nat) : Nat := smNat p.img ((p.section 0).1 + 16 * i + 14) 2
def Part.sliceCount (p : Part) : Nat := (p.section 0).2.1

/-- The part in force: the main part or an alternate; none under the built-in idle alternate (R48, R49). -/
def State.part (s : State) : Option Part :=
  match s.sch.inForce with
  | .main => s.sch.main
  | .alt n => aGet s.sch.alts n
  | .idle => none

/-- Whether the running cycle lies in the last frame of the running slice. -/
def State.lastFrame (s : State) : Bool :=
  match s.part with
  | some p => s.sch.active && s.accord / 2048 + 1 == p.sliceFirst s.sch.slice + p.sliceFrames s.sch.slice
  | none => false

/-- A cut pending for a core (R300). -/
def State.cutFor (s : State) (c : Nat) : Option Cut :=
  match s.host.cut with
  | some k => if k.cores.contains c && !k.saving then some k else none
  | none => none

/-- The live ranges a PREM names (R299). -/
def premRanges (n : Nat) (x : BitVec 64) : List (BitVec 16) := (List.range n).map fun i => x.extractLsb' (16 * i) 16

/-- PREM (R299 to R302): under a pending cut with stepcnt = T, or for a fixed strand in the last frame of its slice,
the strand parks before the word; else nothing, nor does the PREM that a restored strand reissues. -/
def execPrem (c : Ctl) (crown acc : Bool) (n : BitVec 3) (a b : Opd) (s : State) :=
  let us := [rd a, rd2 b]
  issue s c true us (chk := [rd2 b]) fun v => do
    let rs := premRanges n.toNat (v.quad false b v.leader)
    if rs.any fun r => 256 < (r.extractLsb' 8 8).toNat + (r.extractLsb' 0 8).toNat + 1 then v.raise1 .illmod
    let parks := if v.st.passPrem then false
      else if v.b.loose then
        match v.s.cutFor v.c with
        | some k => v.st.stepcnt.toNat == k.target
        | none => false
      else v.s.lastFrame
    if parks then
      .ok { jump := some v.st.pc,
            post := v.park (.prem (wordLen us) c.hold (v.word a v.leader) rs acc crown (!v.b.loose)) }
    else .ok { post := v.onStrand fun st => { st with passPrem := false } }

/-- SYSR (R422): the special register of a dynamic index, at issue + 4. -/
def execSysr (c : Ctl) (d a : Opd) (s : State) :=
  issue s c (runsOnce d) [wr d, rd a] fun v =>
    let n := (v.word a v.leader).toNat
    .ok { post := v.land (v.now + 4) ((v.doers d).flatMap fun t => writeTo d false t ((v.special n t).setWidth 64)) }

/-- SYSW (R423): fstat of each active thread, or a half of the trap vector; writes to the fault record are discarded. -/
def execSysw (c : Ctl) (d a : Opd) (s : State) :=
  let ix := match d with | .sp n => n.toNat | _ => 0
  issue s c (ix != 0x4E) [rd a] fun v =>
    let x := v.word a v.leader
    let ws : List RegW :=
      if ix = 0x4E then v.threads.map fun t => .fstatSet t ((v.word a t).setWidth 6)
      else if ix = 0x5C then [.tvecLo x]
      else if ix = 0x5D then [.tvecHi x]
      else []
    .ok { post := v.land (v.now + 4) ws }

end Sys2Proof.Machine
end

