-- ==== Sys2Proof/Machine/Pair.lean ====
section
/-! DEFINITION. The pair word (R338 to R342). -/

namespace Sys2Proof.Machine
open Sys2Proof

/-- A pair operand as an operand. -/
def slotOpd : POpd → Opd
  | .v n => .v n
  | .s n => .s n
  | .inl n => .inl n
  | .fpc n => .fpc n

/-- What a slot computes (R340): its destination, source, whether it reads d, class, and its result for a thread. -/
structure SlotOp where
  d : Opd
  s : Opd
  readsD : Bool
  ln : Lane
  f : View → Opd → Opd → Nat → BitVec 64 × Flags

/-- An integer slot. -/
def intSlot (d s : POpd) (readsD : Bool) (f : BitVec 64 → BitVec 64 → BitVec 64) : SlotOp :=
  ⟨slotOpd d, slotOpd s, readsD, lnAlu, fun v d s t => (f ((v.word d t).setWidth 64) ((v.word s t).setWidth 64), 0)⟩

/-- A floating-point slot. -/
def fpSlot (ln : Lane) (d s : POpd) (f : Word → Word → Word × Flags) : SlotOp :=
  ⟨slotOpd d, slotOpd s, true, ln, fun v d s t =>
    let r := f (v.float d t) (v.float s t)
    (r.1.setWidth 64, r.2)⟩

/-- The type of an integer slot: modifier [0] selects the unsigned one. -/
def slotTy (u : Bool) : Ty := if u then .u32 else .i32

/-- The compare and scale class of R76. -/
def lnCmp : Lane := ⟨uLane, 6, 3, 4, 0⟩

/-- A slot that computes; none for NOP and LD. -/
def slotOp : Slot → Option SlotOp
  | .nop => none
  | .add u d s => some (intSlot d s true (vAdd (slotTy u) false))
  | .sub u d s => some (intSlot d s true (vSub (slotTy u) false))
  | .and _ d s => some (intSlot d s true (vAnd false))
  | .or _ d s => some (intSlot d s true (vOr false))
  | .xor _ d s => some (intSlot d s true (vXor false))
  | .shl u d s => some (intSlot d s true fun x y => vShl (slotTy u) x (y.toNat % 2 ^ 32))
  | .shr i d s => some (intSlot d s true fun x y => vShr (slotTy (!i)) x (y.toNat % 2 ^ 32))
  | .min u d s => some (intSlot d s true (vMin (slotTy u)))
  | .max u d s => some (intSlot d s true (vMax (slotTy u)))
  | .mov _ d s => some (intSlot d s false fun _ y => y)
  | .mul u d s => some (intSlot d s true fun x y => (vMul (slotTy u) false false (x.setWidth 32) (y.setWidth 32)).setWidth 64)
  | .fadd d s => some (fpSlot lnFp d s add32)
  | .fsub d s => some (fpSlot lnFp d s sub32)
  | .fmul d s => some (fpSlot lnFp d s mul32)
  | .fmin d s => some (fpSlot lnCmp d s fmin32)
  | .fmax d s => some (fpSlot lnCmp d s fmax32)
  | .ld _ _ => none

/-- The LD slot's operands. -/
def slotLd : Slot → Option (Opd × Opd)
  | .ld d s => some (slotOpd d, slotOpd s)
  | _ => none

/-- The registers a slot uses. -/
def slotUses (x : Slot) : List Use :=
  match slotOp x, slotLd x with
  | some o, _ => [⟨o.d, 1, o.readsD⟩, rd o.s]
  | none, some p => [wr p.1, rd p.2]
  | none, none => []

/-- The effect of a computing slot: its results at the latency of its class (R342). -/
def View.slotLand (v : View) (x : Slot) : State → State :=
  match slotOp x with
  | none => fun s => s
  | some o =>
    let ws := (v.doers o.d).flatMap fun t =>
      writeTo o.d false t (o.f v o.d o.s t).1 ++ flagW t (o.f v o.d o.s t).2
    v.land (v.now + v.latency o.ln (runsOnce o.d)) ws

/-- Whether a slot has a vector destination. -/
def slotVector (x : Slot) : Bool :=
  match slotOp x, slotLd x with
  | some o, _ => !runsOnce o.d
  | none, some p => !runsOnce p.1
  | none, none => false

/-- The threads of a slot whose registers are uncorrectable (R287): a scalar slot runs once, for the leader (R342). -/
def View.slotBad (v : View) (x : Slot) : List Nat := v.badThreads (!slotVector x) (slotUses x)

/-- A word of which some slot reads uncorrectable registers: it writes nothing, and MEMUNC comes in the next cycle, of slot X if
both raise it (R286, R287); `unc` are the threads of slot X whose load reads uncorrectable scratch. -/
def View.pairBad (v : View) (x y : Slot) (unc : List (Nat × Addr)) : State → State :=
  let bx := noAddr (v.slotBad x) ++ unc
  v.onStrand fun st => st.lateMemunc v.now v.st.pc 8 (if bx.isEmpty then noAddr (v.slotBad y) else bx) bx.isEmpty

/-- PAIR (R342): both slots read in the issue cycle; an LD slot that faults stops both, and the fault record names the slot. -/
def execPair (hold : Bool) (x y : Slot) (s : State) :=
  let us := slotUses x ++ slotUses y
  let outside (r : Regs) : Bool := (slotUses x).all r.holds
  issue s ⟨hold, false, 0⟩ false (us.map fun u => { u with rd := false }) (slotY := outside) fun v => do
    let bad := !(v.slotBad x).isEmpty || !(v.slotBad y).isEmpty
    let once := !(slotVector x || slotVector y)
    let both := andThen (v.slotLand x) (v.slotLand y)
    let lane := v.occupy uLane (3 * v.scale once)
    match slotLd x with
    | none => .ok { post := if bad then v.pairBad x y [] else andThen both lane }
    | some (d, o) =>
      let xs := ((v.doers d).filter fun t => !(v.slotBad x).contains t).map fun t => (t, (v.word o t).toNat)
      let n ← v.structured 4 xs
      let ws := xs.flatMap fun p => writeTo d false p.1 (BitVec.ofNat 64 (smNat v.core.scratch p.2 4))
      let load := v.structLoad (runsOnce d) n 4 8 xs ws
      if bad then .ok { post := v.pairBad x y load.unc }
      else .ok { post := andThen load.post (andThen (if load.unc.isEmpty then both else fun s => s) lane) }

end Sys2Proof.Machine
end

