-- ==== Sys2Proof/Machine/Matrix.lean ====
section
/-! DEFINITION. The matrix array (R224 to R247): MMA, MMA.TRIO, MMAG, MLDA, MZERO, MZERO.ALL, MDRN, and the array's rows, landings and failures. -/

namespace Sys2Proof.Machine
open Sys2Proof

/-! ## Accumulators in array order (R228) -/

/-- A range of a sparse array, and its replacement. -/
def smSlice {w : Nat} (m : SMap w) (lo n : Nat) : SMap w := m.filter fun p => lo ≤ p.1 && p.1 < lo + n
def smReplace {w : Nat} (m : SMap w) (lo n : Nat) (x : SMap w) : SMap w :=
  (m.filter fun p => p.1 < lo) ++ x ++ (m.filter fun p => lo + n ≤ p.1)

/-- Elements of an accumulator. -/
def accSize : Nat := 1024

/-- Element (i, j) of accumulator a, as array order leaves it. -/
def Core.accElem (k : Core) (a i j : Nat) : Word := smGet k.accArr (accSize * a + 32 * i + j)

/-- The value of an accumulator in array order. -/
def Core.accValue (k : Core) (a : Nat) : SMap 32 := smSlice k.accArr (accSize * a) accSize

/-- Setting an accumulator in array order. -/
def Core.setAcc (k : Core) (a : Nat) (x : SMap 32) : Core := { k with accArr := smReplace k.accArr (accSize * a) accSize x }

/-- A value that lands in an accumulator later, with the clearing of its mark. -/
def Core.landAcc (k : Core) (seq land a slot : Nat) (clears : Bool := false) : Core :=
  { k with accLands := k.accLands ++ [⟨seq, land, a, slot, k.accValue a, clears⟩] }

/-! ## Operands (R224 to R226) -/

/-- The format codes a width class accepts (R225). -/
def mAccepts (c : MClass) (f : Byte) : Bool :=
  match c with
  | .w16 => f == 2 || f == 3
  | .w8 => f == 4 || f == 5
  | .w4 => f == 6

/-- Whether n bytes at a scratch offset lie wholly in one held segment. -/
def Blk.oneSegment (b : Blk) (off n : Nat) : Bool := off < scratchSize && (b.segAt off n).isSome

/-- Tag of column j of a crown slot. -/
def Core.crownTag (k : Core) (slot j : Nat) : Tag := smGet k.ctags (32 * slot + j)

/-- Whether the data, and whether a tag of a crown slot is uncorrectable (R323). -/
def Core.badCrownData (k : Core) (slot : Nat) : Bool :=
  k.badCrown.any fun u => 2048 * slot ≤ 8 * u && 8 * u < 2048 * (slot + 1)
def Core.badCrownTag (k : Core) (slot j : Nat) : Bool := k.badCTags.contains (32 * slot + j)

/-- The causes of a tag used as a matrix operand (R225, R226). -/
def tagCauses (c : MClass) (bad : Bool) (t : Tag) : List Cause :=
  if bad || !tagOk t then [.memunc] else if mAccepts c (tagFormat t) then [] else [.illconv]

/-- The causes of an A tile (R224, R226): its range, alignment and tags. -/
def aCauses (b : Blk) (k : Core) (c : MClass) (a : Nat) (rows : List Nat) : List Cause :=
  if !b.oneSegment a 2048 then [.apert]
  else if a % 64 ≠ 0 then [.misalign]
  else rows.flatMap fun i => tagCauses c (k.badTags.contains (a / 64 + i)) (smGet k.stags (a / 64 + i))

/-- A slot above 127 is ILLOP (R247), also where a register holds it. -/
def slotCauses (slot : Nat) : List Cause := if 127 < slot then [.illop] else []

/-- The causes of a B slot (R143, R226); `own` says that its data is the issuing core's. -/
def bCauses (b : Blk) (k : Core) (c : MClass) (slot : Nat) (own : Bool) : List Cause :=
  if !b.heldSlot slot then [.apert]
  else
    (if own && k.badCrownData slot then [.memunc] else []) ++
      (List.range 32).flatMap fun j => tagCauses c (k.badCrownTag slot j) (k.crownTag slot j)

/-- The fault of the highest priority, in the leader (R286). -/
def View.worst1 (v : View) (cs : List Cause) (addr : Addr) : Except Trap Unit :=
  worst (cs.map fun c => (v.leader, c, addr))

/-- The same where each cause has its own fault address: the first of the cause recorded. -/
def View.worstAt (v : View) (cs : List (Cause × Addr)) : Except Trap Unit :=
  worst (cs.map fun c => (v.leader, c.1, c.2))

/-! ## Products -/

/-- The elements per block of a class (R225). -/
def mDepth (c : MClass) : Nat := match c with | .w16 => 32 | .w8 => 64 | .w4 => 128

/-- A block's decoded elements (R125). -/
def decodeBlock (c : MClass) (t : Tag) (data : Nat) : List FV :=
  match codeFmt (tagFormat t) with
  | some f => (List.range (mDepth c)).map fun i => decodeElem t f (elemAt data f.width i)
  | none => []

/-- mac (R128, R129): the accumulator and the K products in one sum. -/
def mac (acc : Word) (xs ys : List FV) : Word := macTerms (fv acc :: xs.zipWith mulFV ys)

/-- One row of a running product (R231, R233): row i of the accumulator after its A row is read. -/
def Core.matrixRow (k : Core) (r : MRun) (i : Nat) : Core :=
  match aGet r.rowSlot i with
  | none => k
  | some slot =>
    let xs := decodeBlock r.cls (smGet r.rowTags i) (smNat k.scratch (r.a + 64 * i) 64)
    let arr := (List.range 32).foldl (fun m j =>
      let ys := decodeBlock r.cls (smGet r.bTags (32 * slot + j)) (smNat r.bData (2048 * slot + 64 * j) 64)
      let e := accSize * r.acc + 32 * i + j
      smSet m e (mac (smGet m e) xs ys)) k.accArr
    { k with accArr := arr }

/-- A run after the cycle in which it reads its next row: an uncorrectable row fails it (R232, R237); the last row
gives the value that lands (R228). -/
def Core.runRow (k : Core) (now : Nat) (r : MRun) : Core × MRun :=
  if r.failed.isSome || 32 ≤ r.next || now < r.issue + r.next then (k, r)
  else if (aGet r.rowSlot r.next).isSome && k.badBytes (r.a + 64 * r.next) 64 then 
    (k, { r with failed := some now, badAt := scratchAddr (r.a + 64 * r.next) })
  else
    let k := k.matrixRow r r.next
    let r := { r with next := r.next + 1 }
    (if r.next = 32 then k.landAcc r.seq r.land r.acc r.slot else k, r)

/-- The row each running product reads in this cycle (R226). -/
def Core.matrixCycle (k : Core) (now : Nat) : Core :=
  if k.runs.all fun r => r.failed.isSome || 32 ≤ r.next then k
  else
    let p := k.runs.foldl (fun (p : Core × List MRun) r =>
      let q := p.1.runRow now r
      (q.1, p.2 ++ [q.2])) (k, [])
    { p.1 with runs := p.2 }

/-- Starting a product on a core (R226, R231, R234): tags and B data as they stand at issue. -/
def Core.startRun (k : Core) (v : View) (cls : MClass) (acc a : Nat) (rowSlot : List (Nat × Nat)) (trio : Option Nat)
    (failed : Option Nat) : Core :=
  let r : MRun :=
    { seq := v.seq, issue := v.now, land := v.now + 72, acc := acc, a := a, trio := trio, issuer := v.c, slot := v.i
      num := v.nextNum .matrix, word := v.st.pc, cls := cls
      rowTags := smWrites [] ((List.range 32).map fun i => (i, smGet k.stags (a / 64 + i)))
      rowSlot := rowSlot, bData := k.crown, bTags := k.ctags, before := k.accValue acc, next := 0
      failed := failed, badAt := 0, delivered := false }
  { (k.occupy uMatrix (v.now + 32)) with runs := k.runs ++ [r] }

/-- The command of an instruction that writes accumulators, and its result for the hold bit (R74, R148, R228). -/
def View.matrixCommand (v : View) (lat : Nat) (s : State) : State :=
  let s := v.command .matrix (some (v.now + lat)) none s
  v.onStrand (fun st => st.put ⟨v.seq, some (v.now + lat), true, []⟩) s

/-- Rows 0 to 31 with one slot. -/
def allRows (slot : Nat) : List (Nat × Nat) := (List.range 32).map fun i => (i, slot)

/-- MMA (R231, R232). A cause of its crown slot or B tags is recorded with the address of the A tile, as R289 names no other
(DESIGN CHOICE, log entry 59). -/
def execMma (c : Ctl) (cls : MClass) (d a b : Opd) (s : State) :=
  issue s c false [rd a, rd b] (chk := []) fun v => do
    let off := (v.word a v.leader).toNat
    let slot := (v.word b v.leader).toNat
    let ka := v.knows false [rd a]
    let kb := v.knows false [rd b]
    v.worst1 (if kb then slotCauses slot else []) 0
    v.whole
    let marked := if v.core.inc.getLsbD (accIx d) then [Cause.partner] else []
    v.worst1 ((if ka then aCauses v.b v.core cls off (List.range 32) else [])
      ++ (if kb then bCauses v.b v.core cls slot true else []) ++ marked) (scratchAddr off)
    .ok { post := andThen (v.matrixCommand 72)
            (v.onCore fun k => k.startRun v cls (accIx d) off (allRows slot) none none) }

/-- The cores of a trio (R18). -/
def trioCores (c : Nat) : List Nat := [3 * (c / 3), 3 * (c / 3) + 1, 3 * (c / 3) + 2]

/-- Whether the block of a core, if it has one, does not hold a clasp (R234). -/
def View.trioClasp (v : View) (n x : Nat) : List Cause :=
  match (v.s.core x).blk with
  | none => []
  | some b => if (aGet b.clasps n).isNone then [.illmod] else []

/-- The other causes on one core of a trio (R234): its block, range, slot and mark, of operands that are known. -/
def View.trioCauses (v : View) (cls : MClass) (acc off slot : Nat) (ka kb : Bool) (x : Nat) : List Cause :=
  let k := v.s.core x
  match k.blk with
  | none => [.apert]
  | some b =>
    (if ka then aCauses b k cls off (List.range 32) else [])
      ++ (if kb then bCauses b k cls slot (x == v.c) else []) ++ (if k.inc.getLsbD acc then [.partner] else [])

/-- MMA.TRIO (R234 to R238): one product on each array of the trio. -/
def execMmaTrio (c : Ctl) (cls : MClass) (d a b e : Opd) (s : State) :=
  issue s c false [rd a, rd b, rd e] (chk := []) fun v => do
    let off := (v.word a v.leader).toNat
    let slot := (v.word b v.leader).toNat
    let n := (v.word e v.leader).toNat
    let ka := v.knows false [rd a]
    let kb := v.knows false [rd b]
    v.worst1 ((if kb then slotCauses slot else [])
      ++ if v.knows false [rd e] then (trioCores v.c).flatMap (v.trioClasp n) else []) 0
    v.whole
    v.worst1 ((trioCores v.c).flatMap (v.trioCauses cls (accIx d) off slot ka kb)) (scratchAddr off)
    let start (s : State) (x : Nat) : State :=
      s.modCore x fun k =>
        k.startRun v cls (accIx d) off (allRows slot) (some n) (if x != v.c && k.badCrownData slot then some v.now else none)
    .ok { post := andThen (v.matrixCommand 72) fun s => (trioCores v.c).foldl start s }

/-- MMAG (R216, R233): each row's slot from the group table; rows beyond T take no part. The table is read in the issue cycle, and
an uncorrectable byte of it traps there (DESIGN CHOICE, log entry 60). -/
def execMmag (c : Ctl) (cls : MClass) (d a b : Opd) (s : State) :=
  issue s c false [rd a] (chk := []) fun v => do
    v.whole
    let off := (v.word a v.leader).toNat
    let g := v.st.getG (gIx b)
    if !g.valid || !g.flags.getLsbD 0 then v.raise1 .illconv
    let rows := (List.range 32).filter fun i => g.row i != .beyond
    let entry (i : Nat) : Option Nat := match g.row i with | .inSeq j _ _ _ => some (g.gtab.toNat % 2 ^ 56 + j) | _ => none
    let slots := rows.filterMap fun i => (entry i).map fun p => (i, (smGet v.core.scratch p).toNat)
    let lost := if rows.any fun i => g.row i == .lost then [Cause.shwin] else []
    let entryOut := if rows.any fun i => match entry i with | some p => !(p < scratchSize && v.b.heldByte p) | none => false
      then [Cause.apert] else []
    let entryBad := if rows.any fun i => match entry i with | some p => v.core.badBytes p 1 | none => false
      then [Cause.memunc] else []
    let marked := if v.core.inc.getLsbD (accIx d) then [Cause.partner] else []
    let bs := (dedupSorted (slots.map (·.2))).flatMap fun x => bCauses v.b v.core cls x true
    v.worst1 (lost ++ entryOut ++ entryBad ++ marked ++ (if v.knows false [rd a] then aCauses v.b v.core cls off rows else [])
      ++ (if entryOut.isEmpty && entryBad.isEmpty then bs else [])) (scratchAddr off)
    .ok { post := andThen (v.matrixCommand 72)
            (v.onCore fun k => k.startRun v cls (accIx d) off slots none none) }

/-! ## MLDA and MZERO -/

/-- MLDA (R230): 4,096 bytes bit for bit. -/
def execMlda (c : Ctl) (d a : Opd) (s : State) :=
  let us := [rd a]
  issue s c false us (chk := []) fun v => do
    v.whole
    if !v.knows false us then return {}
    let off := (v.word a v.leader).toNat
    let causes : List Cause :=
      if !v.b.okScratch off 4096 then [.apert]
      else if off % 64 ≠ 0 then [.misalign]
      else (List.range 64).flatMap fun i =>
        let t := smGet v.core.stags (off / 64 + i)
        if v.core.badTags.contains (off / 64 + i) || !tagOk t then [.memunc]
        else if tagFormat t == 0 || tagFormat t == 1 then [] else [.illconv]
    v.worst1 causes (scratchAddr off)
    let take := v.onCore fun k => k.occupy uMatrix (v.now + 32)
    if v.core.badBytes off 4096 then
      .ok { post := andThen (v.matrixCommand 46) (andThen take (v.lateScratch (wordLen us) [(v.leader, off)])) }
    else
      let value : SMap 32 := (List.range accSize).filterMap fun e =>
        let x : Word := BitVec.ofNat 32 (smNat v.core.scratch (off + 4 * e) 4)
        if x = 0 then none else some (accSize * accIx d + e, x)
      let load := v.onCore fun k =>
        (({ k with inc := k.inc &&& ~~~(1#4 <<< accIx d) }).setAcc (accIx d) value).landAcc v.seq (v.now + 46) (accIx d) v.i true
      .ok { post := andThen (v.matrixCommand 46) (andThen take load) }

/-- Clearing accumulators in array order (R229). -/
def Core.zeroAccs (k : Core) (v : View) (land : Nat) (marks : Bool) (as : List Nat) : Core :=
  as.foldl (fun k a =>
    (({ k with inc := if marks then k.inc &&& ~~~(1#4 <<< a) else k.inc }).setAcc a []).landAcc v.seq land a v.i marks) k

/-- The effect of MZERO on some accumulators (R229). -/
def View.zero (v : View) (as : List Nat) : Act :=
  { post := andThen (v.matrixCommand 6)
      (v.onCore fun k => (k.occupy uMatrix (v.now + 3)).zeroAccs v (v.now + 6) true as) }

/-- MZERO (R229). -/
def execMzero (c : Ctl) (d : Opd) (s : State) :=
  issue s c false [] fun v => do
    v.whole
    .ok (v.zero [accIx d])

/-- MZERO.ALL (R229). -/
def execMzeroAll (c : Ctl) (s : State) :=
  issue s c false [] fun v => do
    v.whole
    .ok (v.zero [0, 1, 2, 3])

/-! ## MDRN -/

/-- Rows and columns of a layout, and its accumulators' base (R239). -/
def layoutRows (l : Nat) : Nat := if l = 3 then 64 else 32
def layoutCols (l : Nat) : Nat := if l = 0 then 32 else if l = 2 then 128 else 64
def layoutAccs (l a : Nat) : List Nat :=
  if l = 0 then [a] else if l = 1 then [a, a + 1] else [0, 1, 2, 3]
def layoutOk (l a : Nat) : Bool :=
  if l = 0 then true else if l = 1 then a == 0 || a == 2 else a == 0

/-- Element (i, c) of a group (R239). -/
def Core.groupElem (k : Core) (l a i c : Nat) : Word :=
  if l = 3 then k.accElem (2 * (i / 32) + c / 32) (i % 32) (c % 32) else k.accElem (a + c / 32) i (c % 32)

/-- A drain as its descriptor gives it (R240). -/
structure Drain where
  seq : Bool
  clr : Bool
  t : Bool
  norm : Bool
  stats : Bool
  acc : Nat
  dst : Nat
  tdst : Nat
  dformat : Byte
  tformat : Byte
  layout : Nat
  inScratch : Bool
  q : Nat
  slotBase : Nat
  gamma : Nat
  beta : Nat
  eps : Word
  g : Option ShapeReg
  deriving DecidableEq, Repr

/-- The drain that the descriptor at an offset gives (R240). -/
def View.drain (v : View) (seq clr t norm stats : Bool) (acc desc : Nat) (g : Option ShapeReg) : Drain :=
  let f (o n : Nat) : Nat := smNat v.core.scratch (desc + o) n
  { seq := seq, clr := clr, t := t, norm := norm, stats := stats, acc := acc, dst := f 0 4, tdst := f 4 4,
    dformat := BitVec.ofNat 8 (f 8 1), tformat := BitVec.ofNat 8 (f 9 1), layout := f 0xA 1 % 4,
    inScratch := f 0xB 1 / 128 == 1, q := f 0xB 1 % 4, slotBase := f 0xC 4, gamma := f 0x10 4, beta := f 0x14 4,
    eps := BitVec.ofNat 32 (f 0x18 4), g := g }

def Drain.rows (d : Drain) : Nat := layoutRows d.layout
def Drain.cols (d : Drain) : Nat := layoutCols d.layout

/-- Whether row i lies beyond T (R215, R245). -/
def Drain.beyond (d : Drain) (i : Nat) : Bool := match d.g with | some g => g.total.toNat ≤ g.o.toNat + i | none => false

/-- The number of row i's slot (R244): the row, or with .SEQ its segment. -/
def Drain.slotOf (d : Drain) (i : Nat) : Nat :=
  match d.seq, d.g with
  | true, some g => ((List.range i).filter fun k => (g.row (k + 1)).isFirst).length
  | _, _ => i

/-- The slots that rows below T use. -/
def Drain.slots (d : Drain) : List Nat := dedupSorted (((List.range d.rows).filter fun i => !d.beyond i).map d.slotOf)

/-- Whether the drain uses triple slots. -/
def Drain.usesSlots (d : Drain) : Bool := d.stats || d.norm

/-- The limits of R239 to R242 and R399 that give ILLCONV. The slot base is used, and its limit checked, only where the drain uses
triple slots (DESIGN CHOICE, log entry 61). -/
def Drain.bad (d : Drain) (nq threads : Nat) : Bool :=
  let w8 := d.dformat == 4 || d.dformat == 5
  let t8 := d.tformat == 4 || d.tformat == 5
  !layoutOk d.layout d.acc || d.dformat.toNat == 0 || 6 < d.dformat.toNat
    || (w8 && !(d.layout == 1 || d.layout == 3)) || (d.dformat == 6 && d.layout != 2)
    || d.dst % 64 != 0
    || (d.t && (d.tdst % 64 != 0 || d.tformat.toNat < 2 || 5 < d.tformat.toNat || (t8 && d.layout != 3)))
    || (d.usesSlots && (if d.inScratch then d.slotBase % 16 != 0 else nq ≤ d.q || threads < d.rows))
    || (d.norm && (d.gamma % 4 != 0 || d.beta % 4 != 0))

/-- Elements of a block of a format. -/
def blockElems (f : Fmt) : Nat := 512 / f.width

/-- Bytes of a run of n elements. -/
def runBytes (f : Fmt) (n : Nat) : Nat := n * f.width / 8

/-- The format of a descriptor code. -/
def dfmt (c : Byte) : Fmt := (codeFmt c).getD fmt32

/-- Whether every range of the drain lies in held segments (R240). -/
def Drain.held (d : Drain) (b : Blk) : Bool :=
  let ok (off n : Nat) : Bool := n == 0 || (off + n ≤ scratchSize && b.heldRange off n)
  ok d.dst (d.rows * runBytes (dfmt d.dformat) d.cols)
    && (!d.t || ok d.tdst (d.cols * runBytes (dfmt d.tformat) d.rows))
    && (!(d.usesSlots && d.inScratch) || d.slots.all fun u => ok (d.slotBase + 16 * u) 16)
    && (!d.norm || (ok d.gamma (4 * d.cols) && ok d.beta (4 * d.cols)))

/-- The triple in a slot as read at issue (R244). -/
def View.slotTriple (v : View) (d : Drain) (u : Nat) : Tri :=
  if d.inScratch then triOf (smNat v.core.scratch (d.slotBase + 16 * u) 16)
  else (v.st.cur.getQ d.q u).read

/-- The triple of row i (R193). -/
def View.rowTriple (v : View) (d : Drain) (i : Nat) : Tri :=
  (tree mergeTri ((List.range d.cols).map fun c => some (stacc Tri.empty (v.core.groupElem d.layout d.acc i c)))).getD Tri.empty

/-- The values .STATS writes to the slots (R244): carried, then the tree over the slot's rows. -/
def View.slotValues (v : View) (d : Drain) : List (Nat × Tri) :=
  d.slots.map fun u =>
    let rows := (List.range d.rows).filter fun i => !d.beyond i && d.slotOf i == u
    let t := (tree mergeTri (rows.map fun i => some (v.rowTriple d i))).getD Tri.empty
    (u, mergeTri (v.slotTriple d u) t)

/-- Element y of R243: normalised by the row's norm triple, or as it is. -/
def View.drained (v : View) (d : Drain) (norms : List (Nat × Tri)) (i c : Nat) : Word :=
  let x := v.core.groupElem d.layout d.acc i c
  if d.norm then
    let q := (aGet norms (d.slotOf i)).getD Tri.empty
    let p (o : Nat) : Word := BitVec.ofNat 32 (smNat v.core.scratch (o + 4 * c) 4)
    normElem x q.mean (triRstd q d.eps) (p d.gamma) (p d.beta)
  else x

/-- Values quantised into consecutive blocks from an offset (R126, R243). -/
def quantRun (code : Byte) (off : Nat) (xs : List Word) : List (Nat × Byte) × List (Nat × Tag) :=
  let f := dfmt code
  let n := blockElems f
  let one (b : Nat) : List (Nat × Byte) × (Nat × Tag) :=
    let q := quantise f code ((xs.drop (n * b)).take n)
    (addressed (off + 64 * b) (bytesOf 64 (blockOf f.width (q.1.map (·.1)))), (off / 64 + b, q.2))
  let out := (List.range (xs.length / n)).map one
  (out.flatMap (·.1), out.map (·.2))

/-- The direct copy (R241) and the transposed copy (R242) of drained elements; a row beyond T is not written, and is +0 in the
transposed copy (R215, R245, log entry 17). -/
def Drain.direct (d : Drain) (y : Nat → Nat → Word) : List (Nat × Byte) × List (Nat × Tag) :=
  let out := ((List.range d.rows).filter fun i => !d.beyond i).map fun i =>
    quantRun d.dformat (d.dst + i * runBytes (dfmt d.dformat) d.cols) ((List.range d.cols).map (y i))
  (out.flatMap (·.1), out.flatMap (·.2))
def Drain.transposed (d : Drain) (y : Nat → Nat → Word) : List (Nat × Byte) × List (Nat × Tag) :=
  let out := (List.range d.cols).map fun c =>
    quantRun d.tformat (d.tdst + c * runBytes (dfmt d.tformat) d.rows)
      ((List.range d.rows).map fun i => if d.beyond i then 0 else y i c)
  (out.flatMap (·.1), out.flatMap (·.2))

/-- Whether an input of the drain is uncorrectable (R246). -/
def View.drainUnc (v : View) (d : Drain) : Bool :=
  (d.norm && (v.core.badBytes d.gamma (4 * d.cols) || v.core.badBytes d.beta (4 * d.cols)))
    || (d.usesSlots && d.inScratch && d.slots.any fun u => v.core.badBytes (d.slotBase + 16 * u) 16)
    || (d.usesSlots && !d.inScratch && d.slots.any fun u => v.core.badRegs.any fun r =>
          r.slot == v.i && r.allot == v.st.curIx && r.file == 2 && r.index == d.q && r.thread == u)

/-- The writes of a drain: the direct copy and scratch slots at issue + 64, q results there, the transposed copy at
issue + 96, cleared accumulators (R244 to R246); what it writes to q registers and accumulators are register results (R74,
R399), its scratch writes are none. -/
def View.drainEffect (v : View) (d : Drain) (s : State) : State :=
  let values := if d.stats then v.slotValues d else []
  let norms := if d.stats then values else d.slots.map fun u => (u, v.slotTriple d u)
  let y := v.drained d norms
  let direct := d.direct y
  let slotBytes := if d.inScratch then values.flatMap fun p => addressed (d.slotBase + 16 * p.1) (triBytes p.2) else []
  let qs : List RegW := if d.inScratch then [] else values.map fun p => .q d.q p.1 p.2
  let s := v.scratchWrite (v.now + 64) 3 (direct.1 ++ slotBytes) direct.2 s
  let s := v.land (v.now + 64) qs s
  let s := if d.t then
      let tr := d.transposed y
      v.scratchWrite (v.now + 96) 3 tr.1 tr.2 s
    else s
  if d.clr then
    v.onCore (fun k => k.zeroAccs v (v.now + 64) false (layoutAccs d.layout d.acc))
      (v.onStrand (fun st => st.put ⟨v.seq, some (v.now + 64), true, []⟩) s)
  else s

/-- MDRN (R239 to R246, R399): a row outside the window of its shape register is SHWIN at issue (R209, R213). -/
def execMdrn (c : Ctl) (sq clr t norm stats : Bool) (a b e : Opd) (s : State) :=
  let us := [rd b]
  issue s c false us (chk := []) fun v => do
    v.whole
    let desc := (v.word b v.leader).toNat
    let lat := if t then 96 else 64
    let busy := v.onCore fun k => k.occupy uMatrix (v.now + if t then 64 else 32)
    let issueIt := andThen (v.command .matrix (some (v.now + lat)) none) busy
    let unc := andThen issueIt (v.lateScratch (wordLen us) [(v.leader, desc)])
    let g := if e.isNone then none else some (v.st.getG (gIx e))
    let invalid : Bool := match g with | some r => !r.valid | none => false
    v.worst1 (if invalid then [.illconv] else []) 0
    if !v.knows false us then return {}
    v.worst1 ((if v.b.okScratch desc 64 then [] else [.apert]) ++ (if desc % 64 = 0 then [] else [.misalign])) (scratchAddr desc)
    if v.core.badBytes desc 64 then .ok { post := unc }
    else
      let d := v.drain sq clr t norm stats (accIx a) desc g
      if d.bad v.st.cur.nq v.st.threads then v.raise1 .illconv
      let lost : Bool := match g with
        | some r => (List.range d.rows).any fun i => r.row i == .lost
        | none => false
      let marked := (layoutAccs d.layout d.acc).any fun x => v.core.inc.getLsbD x
      v.worst1 ((if d.held v.b then [] else [Cause.apert]) ++ (if lost then [.shwin] else [])
        ++ (if marked then [.partner] else [])) (scratchAddr d.dst)
      if v.drainUnc d then .ok { post := unc }
      else .ok { post := andThen issueIt (v.drainEffect d) }

/-! ## Landings and failures -/

/-- The incomplete marks once a value has landed (R228 to R230): it, or an earlier one that it discards, clears its accumulator's mark,
unless a later product has set it. -/
def Core.landedMarks (k : Core) (l : AccLand) : BitVec 4 :=
  if k.accLands.any fun m => m.clears && m.acc == l.acc && decide (m.seq ≤ l.seq) then
    (k.marks &&& ~~~(1#4 <<< l.acc)) ||| (k.inc &&& (1#4 <<< l.acc))
  else k.marks

/-- The landing of accumulator values due at a cycle (R228): a value lands unless a later-issued one has landed. -/
def Core.landAccs (k : Core) (now : Nat) : Core :=
  let due := k.accLands.filter fun l => l.land ≤ now
  due.foldl (fun k l =>
    if k.accLands.any fun m => m.seq == l.seq && m.acc == l.acc then
      { k with
        acc := smReplace k.acc (accSize * l.acc) accSize l.value
        marks := k.landedMarks l
        accLands := k.accLands.filter fun m => !(m.acc == l.acc && m.seq ≤ l.seq) }
    else k) k

/-- Runs that land in a cycle make their hardware arrivals (R236) and leave the array. -/
def Core.landRuns (k : Core) (now : Nat) : Core :=
  let due := k.runs.filter fun r => r.land ≤ now
  { k with
    runs := k.runs.filter fun r => !(r.land ≤ now)
    claspQ := k.claspQ ++ due.filterMap fun r => r.trio.map fun n => ⟨r.seq, now, n, .hardware r.failed.isSome⟩ }

/-- ACCUMULATOR_LANDING (R228, R236). -/
def execAccumulatorLanding (c : Nat) (s : State) : Host.Outcome State Fault Refusal :=
  .next (s.modCore c fun k => (k.landAccs s.now).landRuns s.now)

/-- The fault of a strand ended without a consuming thread of its own (R286): it names no thread, and the generic
address of the failing A block (R439). -/
def memuncNoThread (r : MRun) : Trap := { cause := .memunc, threads := [], addr := r.badAt }

/-- The word a strand is parked at, or the next it would have issued (R439). A strand held before a word, by a page walk or at a
pre-emption point, stands before that word, and one that has just entered its handler before the handler's first. -/
def Strand.parkedWord (st : Strand) : Addr :=
  let before := st.waits.all fun w => match w with
    | .walk .. => true
    | .prem .. => true
    | .handler _ => true
    | _ => false
  if before then st.pc else st.lastWord

/-- The consuming strand of a core for a failed product (R232, R237): the issuer on its own core; on a partner the
lowest-slot participant of the clasp, or the lowest-slot resident strand. -/
def consumingStrand (b : Blk) (c : Nat) (r : MRun) : Option Nat :=
  if r.issuer = c then some r.slot
  else
    let live := (List.range b.slots.length).filter fun i => match b.slots[i]? with | some st => st.ended.isNone | none => false
    let m := match r.trio.bind (aGet b.clasps) with | some k => live.filter fun i => k.m.getLsbD i | none => []
    (m ++ live).head?

/-- A failed product undone on a core (R232, R237): its accumulator as before; for a trio the mark is set. A run that failed
on its own core stays to be delivered there. -/
def Core.undoRun (k : Core) (seq : Nat) (f : Nat) : Core :=
  match k.runs.find? fun r => r.seq == seq with
  | none => k
  | some r =>
    let k := k.setAcc r.acc r.before
    { k with
      inc := if r.trio.isSome then k.inc ||| (1#4 <<< r.acc) else k.inc
      marks := if r.trio.isSome then k.marks ||| (1#4 <<< r.acc) else k.marks
      accLands := k.accLands.filter fun l => l.seq != seq
      runs := k.runs.map fun x => if x.seq == seq && x.failed.isNone then { x with failed := some f, delivered := true } else x }

/-- Marking the issuer's operation as failed (R232, R237), for what R150 records of a strand that has ended by EXIT; an error
of the issuer's own core stands before a partner's. -/
def Strand.failOp (st : Strand) (seq : Nat) (c : Cause) (addr : BitVec 64) : Strand :=
  { st with eops := st.eops.map fun e =>
      if e.seq == seq && (c = .memunc || e.fail.isNone) then { e with fail := some (c, addr) } else e }

/-- PARTNER_FAILURE (R232, R237): the cycle after an uncorrectable row, or partner B data, was read on a core. -/
def execPartnerFailure (c : Nat) (s : State) : Host.Outcome State Fault Refusal :=
  let k := s.core c
  match k.blk, k.runs.find? fun r => r.failed.isSome && !r.delivered with
  | some b, some r =>
    let f := r.failed.getD s.now
    let cores := if r.trio.isSome then trioCores c else [c]
    let s := cores.foldl (fun s x => s.modCore x fun k => k.undoRun r.seq f) s
    let s := s.modCore c fun k =>
      { k with runs := k.runs.map fun x => if x.seq == r.seq then { x with delivered := true } else x }
    let s := s.modStrand r.issuer r.slot fun st =>
      if r.issuer = c then st.failOp r.seq .memunc r.badAt else st.failOp r.seq .partner 0
    match consumingStrand b c r with
    | none => .next s
    | some i => .next (s.modStrand c i fun st =>
        if st.ended.isSome then st
        else
          let word := if r.issuer = c then r.word else st.parkedWord
          st.finish s.now Cause.memunc.code 0 false word (faultRecord st word (memuncNoThread r)))
  | _, _ => .next (s.modCore c fun k =>
      { k with runs := k.runs.map fun r => if r.failed.isSome then { r with delivered := true } else r })

end Sys2Proof.Machine
end

