-- ==== Sys2Proof/Machine/Engines.lean ====
section
/-! DEFINITION. Engine commands (R148 to R157): CPY, CPYB, RROT, XFER, COLL, and WAITT. -/

namespace Sys2Proof.Machine
open Sys2Proof

/-! ## CPY (R151 to R156, R371 to R374) -/

/-- A copy in one direction: its blocks in order, the later of two writes of one byte last. -/
structure Copy where
  toScratch : Bool
  /-- Scratch offset and generic global address of each block; none is a fill. -/
  blocks : List (Nat × Option Addr)
  fillTag : Tag := 0
  /-- Window mode: scratch bytes with their global byte addresses, and the source format. -/
  bytes : List (Nat × Addr) := []
  winFmt : Option Byte := none
  deriving DecidableEq, Repr

/-- The sides of a CPY: the scratch offset, the global address, whether it copies into scratch; none is APERT (R151). -/
def copySides (dst src : Addr) : Option (Nat × Addr × Bool) :=
  match apertureOf dst, apertureOf src with
  | .scratch d, .glob _ => some (d, src, true)
  | .glob _, .scratch x => some (x, dst, false)
  | _, _ => none

/-- The side of a CPY that APERT names: the destination, unless only the source lies in neither aperture (R289). -/
def badSide (dst src : Addr) : Addr :=
  let known (a : Addr) : Bool := match apertureOf a with | .glob _ => true | .scratch _ => true | _ => false
  if known dst && !known src then src else dst

/-- Causes of the scratch blocks of a copy: held segments (R151), at the first block outside them. -/
def View.scratchBlocks (v : View) (offs : List Nat) : List (Cause × Addr) :=
  match offs.find? fun o => !(o + 64 ≤ scratchSize && v.b.heldByte o && v.b.heldByte (o + 63)) with
  | some o => [(.apert, scratchAddr o)]
  | none => []

/-- Causes of the global blocks of a copy: the global aperture (R151), at the first block outside it. -/
def globBlocks (as : List Addr) : List (Cause × Addr) :=
  match as.find? fun a => match apertureOf a with | .glob _ => false | _ => true with
  | some a => [(.apert, a)]
  | none => []

/-- MISALIGN at the first address that is not a multiple of n (R374). -/
def misalignAt (n : Nat) (as : List Addr) : List (Cause × Addr) :=
  match as.find? fun a => a.toNat % n != 0 with
  | some a => [(.misalign, a)]
  | none => []

/-- A copy's flag: its generic address and value (R153). -/
structure Flag where
  addr : Addr
  value : Word
  deriving DecidableEq, Repr

/-- Register k of a parameter group as an operand. -/
def groupReg (p : Opd) (k : Nat) : Opd := match p with | .s n => .s (n + BitVec.ofNat 6 k) | o => o

/-- The uses of a parameter group (R372): its eight registers lie in the allotment, and some are read; with .FLAG the last three. -/
def groupUses (p : Opd) (flag : Bool) (ks : List Nat) : List Use :=
  wrN p 8 :: (ks ++ if flag then [5, 6, 7] else []).map fun k => rd (groupReg p k)

/-- Whether one of some registers of a parameter group, which the word reads only as other operands have it, is uncorrectable. -/
def View.badGroup (v : View) (p : Opd) (ks : List Nat) : Bool :=
  v.core.badRegs.any fun b => b.slot == v.i && b.allot == v.st.curIx && b.file == 1
    && ks.any fun k => match p with | .s n => b.index == n.toNat + k | _ => false

/-- The effect of a uniform word that has read an uncorrectable register: MEMUNC in the next cycle, and nothing else (R287). -/
def View.badWord (v : View) (len : Nat) : Act :=
  { post := v.lateFault (v.now + 1) len { cause := .memunc, threads := [v.leader] } }

/-- The flag of a parameter group (R372). -/
def View.flagOf (v : View) (on : Bool) (p : Opd) : Option Flag :=
  if on then some ⟨v.group p 7 ++ v.group p 6, v.group p 5⟩ else none

/-- Causes of a flag (R151, R374): in the destination's aperture, 4-byte aligned, a scratch flag in a held segment. -/
def View.flagCauses (v : View) (toScratch : Bool) (f : Option Flag) : List (Cause × Addr) :=
  match f with
  | none => []
  | some f =>
    (match apertureOf f.addr, toScratch with
      | .scratch o, true => if v.b.okScratch o 4 then [] else [(.apert, f.addr)]
      | .glob _, false => []
      | _, _ => [(.apert, f.addr)]) ++ misalignAt 4 [f.addr]

/-- The translated lines of a copy's global side, or the fault its WAITT delivers (R374), or the walk that holds it. -/
def View.copyKeys (v : View) (need : Need) (as : List Addr) : List Lookup :=
  as.map fun a =>
    match apertureOf a with
    | .glob va => ⟨0, a, v.s.translate v.c v.b.asid va need⟩
    | _ => ⟨0, a, .bad .apert⟩

/-- The fault of an engine operation among its lookups: the highest priority, the first address (R150, R285). -/
def engineFault (ls : List Lookup) : Option (Cause × BitVec 64) :=
  (lookupFaults ls).foldl (fun (m : Option (Cause × BitVec 64)) f =>
    match m with
    | none => some (f.2.1, f.2.2)
    | some x => if f.2.1.priority < x.1.priority then some (f.2.1, f.2.2) else some x) none

/-- Putting a copy under way (R148, R152, R153): numbered, its lines of share, its flag, a release (R175) of scope package, or pod
where a line lies in another package. -/
def View.startCopy (v : View) (k : Copy) (f : Option Flag) (bad : Option (Cause × BitVec 64)) : Act :=
  let dataAddrs := (k.blocks.filterMap (·.2)) ++ k.bytes.map (·.2)
  let ls := v.copyKeys { w := !k.toScratch } dataAddrs
  let fl := match f with | some f => if k.toScratch then [] else v.copyKeys { w := true } [f.addr] | none => []
  match walkOf (ls ++ fl) with
  | some va => { walk := some (v.b.asid, va) }
  | none =>
    let fail := match bad with | some x => some x | none => engineFault (ls ++ fl)
    let num := v.nextNum .copy
    let keyOf (l : Lookup) : Nat := match l.xl with | .ok n => n | _ => 0
    let keys := ls.map keyOf
    let nb := (k.blocks.filterMap (·.2)).length
    let blockKeys := (k.blocks.foldl (fun (p : List (Nat × Option (Nat × Addr)) × List Nat) b =>
      match b.2, p.2 with
      | some a, x :: xs => (p.1 ++ [(b.1, some (x, a))], xs)
      | _, xs => (p.1 ++ [(b.1, none)], xs)) ([], keys.take nb)).1
    let byteKeys := (k.bytes.zip (keys.drop nb)).map fun p => (p.1.1, p.2, p.1.2)
    let lines := if fail.isSome then [] else keys.map fun x => x / 64
    let scratchFlag := match f with | some f => if k.toScratch then some (f.addr.toNat % 2 ^ 56, f.value) else none | none => none
    let done :=
      if k.toScratch then Done.copyIn num blockKeys k.fillTag byteKeys k.winFmt scratchFlag
      else Done.copyOut num (blockKeys.filterMap fun b => b.2.map fun x => (x.1, b.1))
    let memFlag := match f, fl.map keyOf with
      | some f, x :: _ => if fail.isSome then none else some (x, f.value)
      | _, _ => none
    let far := lines.any (fun l => (lineHome l).isSome) || match memFlag with | some x => (lineHome (x.1 / 64)).isSome | none => false
    let o := { v.memOp lines done with
      atEnd := true, flag := memFlag, reads := k.toScratch
      horizon := if k.toScratch then none else some (if far then 0 else v.horizonOf .pkg)
      narrow := !k.toScratch && memFlag.isSome && !far }
    let recs := if k.toScratch then remoteLoads lines else []
    if f.isSome && far && !v.st.accsLanded v.now v.seq true then
      { jump := some v.st.pc, post := v.onStrand fun st => { st with waits := [.fence v.seq true] } }
    else
    { post := fun s =>
        let s := v.command .copy none fail (v.occupy uCopyQ 3 s)
        let s := s.launchOp o recs
        if k.toScratch || fail.isSome then s
        else v.onCore (fun c => { c with accepts := c.accepts ++ [(v.now + 1, .copy v.seq)] }) s }

/-- The direction of a copy as far as its addresses are readable: whether it copies into scratch. -/
def knownInto (ka kb : Bool) (dst src : Addr) : Option Bool :=
  match ka, apertureOf dst, kb, apertureOf src with
  | true, .scratch _, _, _ => some true
  | true, .glob _, _, _ => some false
  | _, _, true, .glob _ => some true
  | _, _, true, .scratch _ => some false
  | _, _, _, _ => none

/-- The causes of one side of a copy of which some operand is uncorrectable (R151, R287, R374): where its address is readable, its
aperture, its alignment, and its blocks, by their displacements where these are known, else the first. `rel` gives them for a scratch side and
for a global one. -/
def View.sideCauses (v : View) (known : Bool) (a : Addr) (rel : Bool → Option (List Nat)) : List (Cause × Addr) :=
  if !known then []
  else
    (match apertureOf a with
      | .glob _ => globBlocks (((rel false).getD [0]).map fun k => a + BitVec.ofNat 64 k)
      | .scratch o => v.scratchBlocks (((rel true).getD [0]).map fun k => o + k)
      | _ => [(.apert, a)]) ++ misalignAt 64 [a]

/-- The causes of a flag as far as its address and the copy's direction are readable. -/
def View.flagPart (v : View) (flag : Bool) (e : Opd) (into : Option Bool) : List (Cause × Addr) :=
  if !v.knows true ([6, 7].map fun k => rd (groupReg e k)) then []
  else
    match v.flagOf flag e, into with
    | f, some t => v.flagCauses t f
    | some f, none => misalignAt 4 [f.addr]
    | none, none => []

/-- The checks of a CPY of which some operand is uncorrectable: those that rest on the others (R287, R344; log entry 49); then the word
ends in MEMUNC (`View.badWord` where the bad register is one that `issue` does not know of). -/
def View.partCopy (v : View) (us : List Use) (flag : Bool) (a b e : Opd) (dRel sRel : Bool → Option (List Nat))
    (more : List (Cause × Addr)) : Except Trap Act := do
  let dst := v.quad false a v.leader
  let src := v.quad false b v.leader
  let ka := v.knows true [rd2 a]
  let kb := v.knows true [rd2 b]
  let sides := if ka && kb && (copySides dst src).isNone then [(Cause.apert, badSide dst src)] else []
  v.worstAt (sides ++ v.sideCauses ka dst dRel ++ v.sideCauses kb src sRel ++ v.flagPart flag e (knownInto ka kb dst src) ++ more)
  .ok (if v.knows true us then v.badWord (wordLen us) else {})

/-- CPY.1D (R151, R373). -/
def execCpy1d (c : Ctl) (flag : Bool) (a b e : Opd) (s : State) :=
  let us := rd2 a :: rd2 b :: if flag then groupUses e true [0] else [rd e]
  issue s c true us (chk := []) fun v => do
    let n := (if flag then v.group e 0 else v.word e v.leader).toNat
    let dst := v.quad false a v.leader
    let src := v.quad false b v.leader
    let f := v.flagOf flag e
    let counted := v.knows true [rd (if flag then groupReg e 0 else e)]
    if counted && (n = 0 || 4096 < n) then v.raise1 .illmod
    if !v.knows true us then
      let rel (_ : Bool) : Option (List Nat) := if counted then some ((List.range n).map (64 * ·)) else none
      v.partCopy us flag a b e rel rel [] else
    match copySides dst src with
    | none => v.raise1 .apert (badSide dst src)
    | some (off, g, into) =>
      let blocks := (List.range n).map fun k => (off + 64 * k, some (g + BitVec.ofNat 64 (64 * k)))
      v.worstAt (v.scratchBlocks (blocks.map (·.1)) ++ globBlocks (blocks.filterMap (·.2)) ++ v.flagCauses into f
        ++ misalignAt 64 [dst, src])
      .ok (v.startCopy { toScratch := into, blocks := blocks } f none)

/-- The blocks of CPY.2D (R373), with the fault of its rows (R211, R213). -/
def copy2d (g : Option (ShapeReg × ShMode)) (off : Nat) (glob : Addr) (into : Bool) (rows rb : Nat)
    (sStride gStride : Nat) : List (Nat × Option Addr) × List Cause :=
  let row (r : Nat) : Option (Option Addr) × List Cause :=
    match g with
    | none => (some (some (glob + BitVec.ofNat 64 (r * gStride))), [])
    | some (g, m) =>
      match g.use m r with
      | .packed n => (some (some (glob + BitVec.ofNat 64 (n * g.pitch.toNat))), [])
      | .zero => (if into then some none else none, [])
      | .fault c => (none, [c])
  let out := (List.range rows).map fun r => (r, row r)
  (out.flatMap fun p =>
    match p.2.1 with
    | none => []
    | some base => (List.range rb).map fun k =>
        (off + p.1 * sStride + 64 * k, base.map fun a => a + BitVec.ofNat 64 (64 * k)), out.flatMap fun p => p.2.2)

/-- The checks of a CPY.2D of which some operand is uncorrectable (R213, R287, R374). -/
def View.part2d (v : View) (us : List Use) (g : Option (ShapeReg × ShMode)) (flag : Bool) (a b e : Opd) (rows rb : Nat) : Except Trap Act :=
  let known (k : Nat) : Bool := v.knows true [rd (groupReg e k)]
  let dst := v.quad false a v.leader
  let stride (k : Nat) : Nat := (v.group e k).toNat
  let rowsOf (k : Nat) : Option (List Nat) :=
    if known 0 && known k then some ((List.range rows).flatMap fun r => (List.range rb).map fun j => r * stride k + 64 * j) else none
  let shaped := copy2d g 0 0 true rows rb 0 0
  let packed : Option (List Nat) := if known 0 && known 3 then some ((shaped.1.filterMap (·.2)).map (·.toNat)) else none
  let rel (k : Nat) (scratch : Bool) : Option (List Nat) := if scratch || g.isNone then rowsOf k else packed
  let into := knownInto (v.knows true [rd2 a]) (v.knows true [rd2 b]) dst (v.quad false b v.leader)
  let strides := match g, into with
    | none, _ => [1, 2]
    | some _, some t => if t then [1] else [2]
    | some _, none => []
  let mis := misalignAt 64 ((strides.filter known).map fun k => BitVec.ofNat 64 (stride k))
  let rowFaults := if known 0 && known 3 then shaped.2.map fun c => (c, dst) else []
  v.partCopy us flag a b e (rel 1) (rel 2) (mis ++ rowFaults)

/-- CPY.2D (R151, R211 to R213, R373): its scratch side, every row of it moved or not, lies in held segments (R374). -/
def execCpy2d (c : Ctl) (shape : Option ShMode) (flag : Bool) (a b e : Opd) (s : State) :=
  let us := rd2 a :: rd2 b :: groupUses e flag (if shape.isSome then [0, 3] else [0, 1, 2])
  issue s c true us (chk := []) fun v => do
    let w := v.group e 0
    let rows := (w.extractLsb' 0 16).toNat
    let rb := (w.extractLsb' 16 16).toNat
    let dst := v.quad false a v.leader
    let src := v.quad false b v.leader
    let f := v.flagOf flag e
    if v.knows true [rd (groupReg e 0)] && (rows * rb = 0 || 4096 < rows * rb || (shape.isSome && 32 < rows)) then v.raise1 .illmod
    let g := shape.map fun m => (v.st.getG ((v.group e 3).extractLsb' 0 3).toNat, m)
    let invalid : Bool := match g with | some p => !p.1.valid | none => false
    if v.knows true [rd (groupReg e 3)] && invalid then v.raise1 .illconv
    if !v.knows true us then v.part2d us g flag a b e rows rb else
    match copySides dst src with
    | none => v.raise1 .apert (badSide dst src)
    | some (off, glob, into) =>
      if shape.isSome && v.badGroup e [if into then 1 else 2] then v.part2d us g flag a b e rows rb else
      let dStride := (v.group e 1).toNat
      let sStride := (v.group e 2).toNat
      let blocks := copy2d g off glob into rows rb (if into then dStride else sStride) (if into then sStride else dStride)
      let scratchStride := if into then dStride else sStride
      let globStride := if into then sStride else dStride
      let strides := BitVec.ofNat 64 scratchStride :: (if shape.isSome then [] else [BitVec.ofNat 64 globStride])
      let side := (List.range rows).flatMap fun r => (List.range rb).map fun k => off + r * scratchStride + 64 * k
      v.worstAt (v.scratchBlocks side ++ globBlocks (blocks.1.filterMap (·.2)) ++ v.flagCauses into f
        ++ misalignAt 64 ([dst, src] ++ strides) ++ blocks.2.map fun c => (c, dst))
      let tag := match g with | some p => p.1.fillTag | none => 0
      .ok (v.startCopy { toScratch := into, blocks := blocks.1, fillTag := tag } f none)

/-- A tensor map (R154). -/
structure TMap where
  base : Addr
  format : Nat
  rank : Nat
  mode : Nat
  fill : Tag
  ext : List Nat
  st : List Nat
  box : List Nat
  fw : Nat
  fh : Nat
  sx : Nat
  sy : Nat
  px : Nat
  py : Nat
  ow : Nat
  oh : Nat
  deriving DecidableEq, Repr

/-- The map in scratch at an offset (R154). -/
def readMap (m : SMap 8) (o : Nat) : TMap :=
  let f (k n : Nat) : Nat := smNat m (o + k) n
  { base := BitVec.ofNat 64 (f 0 8), format := f 8 1, rank := f 9 1, mode := f 0xA 1 % 4,
    fill := mkTag (BitVec.ofNat 8 (f 0xC 1)) (BitVec.ofNat 8 (f 0xD 1)) (BitVec.ofNat 8 (f 0xE 1)),
    ext := (List.range 5).map fun i => f (0x10 + 4 * i) 4,
    st := (List.range 4).map fun i => f (0x28 + 8 * i) 8,
    box := (List.range 5).map fun i => f (0x48 + 2 * i) 2,
    fw := f 0x52 1, fh := f 0x53 1, sx := f 0x54 1, sy := f 0x55 1, px := f 0x56 1, py := f 0x57 1,
    ow := f 0x58 2, oh := f 0x5A 2 }

/-- Element size in bits of a format code (R122); a RAW element is one byte (log entry 18). -/
def codeBits (c : Nat) : Nat :=
  match c with
  | 1 => 32 | 2 => 16 | 3 => 16 | 6 => 4 | 8 => 4 | 9 => 16 | 10 => 32 | 11 => 128 | _ => 8

def TMap.window (m : TMap) : Bool := m.mode == 1

/-- Extent and box of a dimension; a dimension at or beyond the rank counts 1. -/
def TMap.extent (m : TMap) (i : Nat) : Nat := m.ext.getD i 1
def TMap.boxDim (m : TMap) (i : Nat) : Nat := if i < m.rank then m.box.getD i 1 else 1
def TMap.stride (m : TMap) (i : Nat) : Nat := if i = 0 then codeBits m.format / 8 else m.st.getD (i - 1) 0

/-- Whether a value lies in a range. -/
def within (lo hi n : Nat) : Bool := lo ≤ n && n ≤ hi

/-- Whether the map breaks R154 or R155: R154's table limits the filter, step, padding and output of every map, and ties only the
box to a mode; a block-mode map of a reserved format, to which R122 gives no element size, does (log
entry 48). -/
def TMap.bad (m : TMap) (out : Bool) (c0 : Int) : Bool :=
  let bits := codeBits m.format
  let blocks := (List.range 5).foldl (fun n i => n * (if i = 0 then m.boxDim 0 * bits / 512 else m.boxDim i)) 1
  2 ≤ m.mode || m.base.toNat % 64 != 0 || 2 ≤ m.base.toNat / 2 ^ 56 || !within 1 5 m.rank
    || (tagFormat m.fill).toNat != m.format
    || m.ext.any (fun e => !within 1 (2 ^ 31) e)
    || (List.range 5).any (fun i => m.rank ≤ i && m.extent i != 1)
    || !within 1 16 m.fw || !within 1 16 m.fh || !within 1 16 m.sx || !within 1 16 m.sy
    || 15 < m.px || 15 < m.py || m.ow == 0 || m.oh == 0
    || (if m.window then
          out || m.rank != 4 || !(m.format ∈ [1, 2, 3, 7, 9, 10])
            || m.st.any (fun x => x % (bits / 8) != 0)
        else
          10 < m.format || m.st.any (fun x => x % 64 != 0)
            || m.extent 0 * bits % 512 != 0 || m.boxDim 0 * bits % 512 != 0 || c0 * bits % 512 != 0
            || 4096 < blocks)

/-- The blocks of block mode (R155): scratch offsets in dimension-0-fastest order, none outside the extents. -/
def TMap.blockMode (m : TMap) (off : Nat) (c : List Int) : List (Nat × Option Addr) :=
  let bits := codeBits m.format
  let per := 512 / bits
  let n0 := m.boxDim 0 * bits / 512
  let idx := (List.range (m.boxDim 4)).flatMap fun i4 => (List.range (m.boxDim 3)).flatMap fun i3 =>
    (List.range (m.boxDim 2)).flatMap fun i2 => (List.range (m.boxDim 1)).flatMap fun i1 =>
      (List.range n0).map fun b0 => [b0 * per, i1, i2, i3, i4]
  idx.zipIdx.map fun p =>
    let at_ : List Int := (List.range 5).map fun i => c.getD i 0 + (p.1.getD i 0 : Int)
    let inside := (List.range 5).all fun i => 0 ≤ at_.getD i 0 && at_.getD i 0 < (m.extent i : Int)
    let rel := (List.range 5).foldl (fun n i =>
      let x := (at_.getD i 0).toNat
      n + if i = 0 then x * bits / 8 else x * m.stride i) 0
    (off + 64 * p.2, if inside then some (m.base + BitVec.ofNat 64 rel) else none)

/-- The bytes of window mode (R156): scratch byte and global byte of every element that is not zero. -/
def TMap.windowMode (m : TMap) (off q0 j rows : Nat) : List (Nat × Addr) :=
  let size := codeBits m.format / 8
  let e := 64 / size
  let ch := m.extent 0
  (List.range rows).flatMap fun r =>
    let q := q0 + r
    if m.ow * m.oh * m.extent 3 ≤ q then []
    else
      let ox := q % m.ow
      let oy := q / m.ow % m.oh
      let n := q / (m.ow * m.oh)
      (List.range e).flatMap fun i =>
        let k := j * e + i
        if m.fh * m.fw * ch ≤ k then []
        else
          let cc := k % ch
          let fx := k / ch % m.fw
          let fy := k / (ch * m.fw)
          let ix : Int := (ox * m.sx + fx : Nat) - (m.px : Int)
          let iy : Int := (oy * m.sy + fy : Nat) - (m.py : Int)
          if ix < 0 || (m.extent 1 : Int) ≤ ix || iy < 0 || (m.extent 2 : Int) ≤ iy then []
          else
            let rel := n * m.stride 3 + iy.toNat * m.stride 2 + ix.toNat * m.stride 1 + cc * size
            (List.range size).map fun b =>
              (off + 64 * r + size * i + b, m.base + BitVec.ofNat 64 (rel + b))

/-- The checks of a CPY.TM of which some operand is uncorrectable: those of its map, its scratch side, its global blocks and its flag that
rest on the others (R287, R344, R374; log entry 49). -/
def View.partMap (v : View) (us : List Use) (out flag : Bool) (a b e : Opd) : Except Trap Act := do
  let side := v.quad false a v.leader
  let mo := (v.word b v.leader).toNat
  let kb := v.knows true [rd b]
  let known (ks : List Nat) : Bool := !v.badGroup e ks
  let read := kb && !v.core.badBytes mo 128
  let m := readMap v.core.scratch mo
  let coords : List Int := (List.range 5).map fun i => if known [i] then (v.group e i).toInt else 0
  let rows := (v.group e 2).toNat
  if read && m.window && known [2] && !within 1 32 rows then v.raise1 .illmod
  let bad := read && m.bad out (coords.getD 0 0)
  let moved := read && !bad
  let rel : List Nat :=
    if !moved then [0]
    else if m.window then (if known [2] then (List.range rows).map (64 * ·) else [0])
    else (m.blockMode 0 coords).map (·.1)
  let globs : List Addr :=
    if !moved then []
    else if m.window then (if known [0, 1, 2] then (m.windowMode 0 (v.group e 0).toNat (v.group e 1).toNat rows).map (·.2) else [])
    else if known [0, 1, 2, 3, 4] then (m.blockMode 0 coords).filterMap (·.2) else []
  let sideBad := match apertureOf side with
    | .scratch o => v.scratchBlocks (rel.map (o + ·)) ++ misalignAt 64 [side]
    | _ => [(.apert, side)]
  v.worstAt ((if bad then [(.illconv, 0)] else []) ++ (if v.knows true [rd2 a] then sideBad else []) ++ globBlocks globs
    ++ v.flagPart flag e (some !out) ++ if kb then misalignAt 64 [scratchAddr mo] else [])
  .ok (if v.knows true us then v.badWord (wordLen us) else {})

/-- CPY.TM (R154 to R156). A map that holds an uncorrectable byte is not judged: the copy fails with MEMUNC at its WAITT (R150,
R374). -/
def execCpyTm (c : Ctl) (out flag : Bool) (a b e : Opd) (s : State) :=
  let us := rd2 a :: rd b :: groupUses e flag [0, 1, 2]
  issue s c true us (chk := []) fun v => do
    let side := v.quad false a v.leader
    let mo := (v.word b v.leader).toNat
    let f := v.flagOf flag e
    if v.knows true [rd b] && !(mo + 128 ≤ scratchSize && v.b.heldRange mo 128) then v.raise1 .apert (scratchAddr mo)
    if !v.knows true us then v.partMap us out flag a b e else
    let m := readMap v.core.scratch mo
    let coords : List Int := (List.range 5).map fun i => (v.group e i).toInt
    let rows := (v.group e 2).toNat
    let unc := v.core.badBytes mo 128
    if !m.window && !unc && v.badGroup e [3, 4] then v.partMap us out flag a b e else
    if m.window && !unc && !within 1 32 rows then v.raise1 .illmod
    let bad := !unc && m.bad out (coords.getD 0 0)
    match apertureOf side with
    | .scratch off =>
      let blocks := if unc then [] else if m.window then (List.range rows).map fun r => (off + 64 * r, none) else m.blockMode off coords
      let bytes := if m.window && !unc then m.windowMode off (v.group e 0).toNat (v.group e 1).toNat rows else []
      let held := if bad then [] else v.scratchBlocks (blocks.map (·.1)) ++ globBlocks (blocks.filterMap (·.2) ++ bytes.map (·.2))
      v.worstAt ((if bad then [(.illconv, 0)] else []) ++ held ++ v.flagCauses (!out) f
        ++ misalignAt 64 [scratchAddr mo, side])
      let moved := if out then blocks.filter fun p => p.2.isSome else blocks
      let fmt := if m.window then some (BitVec.ofNat 8 m.format) else none
      let fail := if unc then some (Cause.memunc, scratchAddr mo) else none
      .ok (v.startCopy ⟨!out, moved, m.fill, bytes, fmt⟩ f fail)
    | _ => v.worst1 ((if bad then [.illconv] else []) ++ [.apert]) side; .ok {}

/-- CPYB (R145, R375): a B image into a crown slot. -/
def execCpyb (c : Ctl) (a b : Opd) (s : State) :=
  issue s c true [rd a, rd2 b] (chk := []) fun v => do
    let slot := (v.word a v.leader).toNat
    let src := v.quad false b v.leader
    let slotBad := if v.knows true [rd a] && !v.b.heldSlot slot then [Cause.apert] else []
    if !v.knows true [rd2 b] then do v.worst1 slotBad 0; return {}
    let mis := if src.toNat % 64 = 0 then [] else [Cause.misalign]
    let num := v.nextNum .copy
    match apertureOf src with
    | .scratch off =>
      let range := if v.b.oneSegment off 2048 then [] else [Cause.apert]
      v.worst1 (slotBad ++ range ++ mis) src
      let land := if v.core.lastFill + 32 < v.now + 40 then v.now + 40 else v.core.lastFill + 32
      .ok { post := fun s =>
        let s := v.command .copy (some land) none (v.occupy uCopyQ 3 s)
        v.onCore (fun k => { k with lastFill := land, accepts := k.accepts ++ [(v.now + 1, .fill v.i num off slot land)] }) s }
    | .glob _ =>
      let lines := (List.range 32).map fun j => src + BitVec.ofNat 64 (64 * j)
      v.worst1 (slotBad ++ (globBlocks lines).map (·.1) ++ mis) src
      let ls := v.copyKeys {} lines
      match walkOf ls with
      | some va => .ok { walk := some (v.b.asid, va) }
      | none =>
        let fail := engineFault ls
        let keys := (lookupKeys ls).zip ls |>.map fun p => (p.1.2 / 64, p.2.addr)
        let lines := if fail.isSome then [] else keys.map (·.1)
        let o := v.memOp lines (.crown num slot (if fail.isSome then [] else keys))
        .ok { post := fun s =>
          (v.command .copy none fail (v.occupy uCopyQ 3 s)).launchOp o (remoteLoads lines) }
    | _ => v.raise1 .apert src

/-! ## RROT (R146, R147, R407, R408) -/

/-- The causes of a 2 KiB tile at a scratch offset (R408). -/
def View.tileCauses (v : View) (off : Nat) : List Cause :=
  (if v.b.oneSegment off 2048 then [] else [.apert]) ++ (if off % 64 = 0 then [] else [.misalign])

/-- Whether some block of a range has uncorrectable data or an uncorrectable tag. -/
def Core.badBlocks (k : Core) (off n : Nat) : Bool :=
  k.badBytes off n || k.badTags.any fun t => off / 64 ≤ t && t < (off + n + 63) / 64

/-- Whether a core's ring predecessor counts as exited for its k-th RROT, its tile not having come (R147). -/
def State.predExited (s : State) (c k now : Nat) : Bool :=
  let p := s.core (trioCore c (c % 3 + 2))
  match p.blk with
  | none => true
  | some b => (match b.exitAt with | some x => decide (x < now) | none => false) || decide (k ≤ p.ringK)

/-- RROT (R146): the source is read at issue and sent to the successor's block. With an uncorrectable source the word faults in
the next cycle (R408); its number and index are taken, and it lands as another RROT does, writing nothing. -/
def execRrot (c : Ctl) (a b : Opd) (s : State) :=
  let us := [rd a, rd b]
  issue s c false us (chk := []) fun v => do
    v.whole
    let dst := (v.word a v.leader).toNat
    let src := (v.word b v.leader).toNat
    let onDst := if v.knows false [rd a] then v.tileCauses dst else []
    let onSrc := if v.knows false [rd b] then v.tileCauses src else []
    v.worst1 (onDst ++ onSrc) (scratchAddr (if onDst.isEmpty then src else dst))
    let k := v.core.ringK + 1
    let bad := v.core.badBlocks src 2048
    let num := v.nextNum .ring
    let tile : Tile := ⟨k, v.now, bad, if bad then [] else smWrites [] (addressed 0 (smBytes v.core.scratch src 2048)),
      if bad then [] else smWrites [] ((List.range 32).map fun i => (i, smGet v.core.stags (src / 64 + i)))⟩
    let succ := trioCore v.c (v.c % 3 + 1)
    let alone := !(v.core.tiles.any fun t => t.k == k) && v.s.predExited v.c k v.now
    .ok { post := fun s =>
      let s := v.command .ring (if v.b.loose then none else some (v.now + 40)) none (v.occupy uRing 32 s)
      let s := v.onCore (fun x => { x with ringK := k }) s
      let s := match s.blk succ with
        | some sb => if sb.exitAt.isSome then s else s.modCore succ fun x => { x with tiles := x.tiles ++ [tile] }
        | none => s
      let s := v.onCore (fun x => { x with rings := x.rings ++ [⟨v.seq, k, v.now, v.i, num, dst, !v.b.loose, bad, alone⟩] }) s
      if bad then v.lateScratch (wordLen us) [(v.leader, src)] s else s }

/-! ## XFER (R261 to R264) -/

/-- The non-idle slot-map entries of a part: plane, slot, kind, index (R46), in order of slot, then plane. -/
def Part.slotEntries (p : Part) : List (Nat × Nat × Nat × Nat) :=
  let sec := p.section 4
  let raw := p.img.filter fun e => sec.1 ≤ e.1 && e.1 < sec.1 + 2048 * sec.2.1
  let ats := dedupSorted (raw.map fun e => (e.1 - sec.1) / 2)
  sortBy (fun e => 8 * e.2.1 + e.1) (ats.map fun n =>
    let x := smNat raw (sec.1 + 2 * n) 2
    (n / 1024, n % 1024, x / 2 ^ 13, x % 2 ^ 13))

/-- The slots of a stream (c, peer): plane and slot (R261). -/
def Part.streamSlots (p : Part) (chan peer : Nat) : List (Nat × Nat) :=
  (p.slotEntries.filter fun e => e.2.2.1 == 1 && e.2.2.2 / 256 % 32 == chan && e.2.2.2 % 256 == peer).map fun e => (e.1, e.2.1)

/-- The pod size of the running part (R39). -/
def State.podSize (s : State) : Nat := match s.sch.main with | some p => smNat p.img 0x12 2 | none => 1

/-- The fields of an XFER word (R262). -/
def xferPeer (w : Word) : Nat := (w.extractLsb' 0 8).toNat
def xferChan (w : Word) : Nat := (w.extractLsb' 8 5).toNat
def xferN (w : Word) : Nat := (w.extractLsb' 16 16).toNat

/-- The causes of an XFER (R263), each where the operands it rests on are known. -/
def View.xferCauses (v : View) (a b : Opd) (w : Word) (off : Nat) : List Cause :=
  let slots := match v.s.part with | some p => p.streamSlots (xferChan w) (xferPeer w) | none => []
  let n := xferN w
  let ka := v.knows true [rd a]
  let kb := v.knows true [rd b]
  (if ka && (n = 0 || 4096 < n || (w.extractLsb' 13 3) != 0 || xferPeer w == v.s.sch.pkgid || v.s.podSize ≤ xferPeer w
      || slots.isEmpty) then [Cause.illmod] else [])
    ++ (if kb && !v.b.oneSegment off (if ka then 64 * n else 64) then [.apert] else [])
    ++ (if kb && off % 64 != 0 then [.misalign] else [])

/-- The stream's slots from an Accord time to the end of the running slice. -/
def State.slotsLeft (s : State) (chan peer from_ : Nat) : Nat :=
  match s.part with
  | none => 0
  | some p =>
    let slots := p.streamSlots chan peer
    let first := from_ / 2048
    let stop := p.sliceFirst s.sch.slice + p.sliceFrames s.sch.slice
    let inFirst := (slots.filter fun e => from_ ≤ 2048 * first + 2 * e.2).length
    if stop ≤ first then 0 else inFirst + (stop - first - 1) * slots.length

/-- XFER.SEND (R262, R263). -/
def execXferSend (c : Ctl) (a b : Opd) (s : State) :=
  issue s c true [rd a, rd b] (chk := []) fun v => do
    let w := v.word a v.leader
    let off := (v.word b v.leader).toNat
    v.worst1 (v.xferCauses a b w off) (scratchAddr off)
    let left := (xferN w + 2) / 3
    let queued := (v.s.fab.sends.filter fun x => x.chan == xferChan w && x.peer == xferPeer w).foldl (fun n x => n + x.left) 0
    let short := !v.b.loose && v.s.slotsLeft (xferChan w) (xferPeer w) (v.s.accord + 65) < left + queued
    let x : XSend := ⟨v.seq, v.c, v.i, v.nextNum .fabric, v.now + 1, xferChan w, xferPeer w, off, xferN w, [], left, false, false, none, []⟩
    .ok { post := fun s =>
      let s := v.command .fabric none none (v.occupy uFabricQ 3 s)
      let s := { s with fab := { s.fab with sends := s.fab.sends ++ [x] } }
      let s := v.onCore (fun k => { k with accepts := k.accepts ++ [(v.now + 1, .send v.seq)] }) s
      if short then s.stall v.c else s }

/-- XFER.RECV (R262, R263): in fixed discipline with the last frame its flits may come from. -/
def execXferRecv (c : Ctl) (a b e : Opd) (s : State) :=
  issue s c true [rd a, rd b, rd e] (chk := []) fun v => do
    let w := v.word a v.leader
    let off := (v.word b v.leader).toNat
    v.worst1 (v.xferCauses a b w off) (scratchAddr off)
    let limit := if v.b.loose then none else some ((v.s.accord + (v.word e v.leader).toNat) / 2048)
    let x : XRecv := ⟨v.seq, v.c, v.i, v.nextNum .fabric, xferChan w, xferPeer w, off, xferN w, [], none, limit⟩
    .ok { post := fun s =>
      let s := v.command .fabric none none (v.occupy uFabricQ 3 s)
      { s with fab := { s.fab with recvs := s.fab.recvs ++ [x] } } }

/-! ## COLL (R265 to R271, R370) -/

/-- The entries of tree t in slice s of a part, in section order: their indices (R266). -/
def Part.collEntries (p : Part) (t sl : Nat) : List Nat :=
  let sec := p.section 5
  (List.range sec.2.1).filter fun i =>
    smNat p.img (sec.1 + 32 * i) 1 == t && smNat p.img (sec.1 + 32 * i + 4) 4 == sl

/-- A field of collective entry i (R40): bytes at an offset of the 32. -/
def Part.collField (p : Part) (i o n : Nat) : Nat := smNat p.img ((p.section 5).1 + 32 * i + o) n

/-- The frame F of collective entry i (R266). -/
def Part.collFrame (p : Part) (i : Nat) : Nat := p.sliceFirst (p.collField i 4 4) + p.collField i 8 4

/-- The last cycle of a frame, as a pod tick. -/
def State.frameEnd (s : State) (f : Nat) : Nat := s.tickOf (2048 * (f + 1) - 1)

/-- Chunk c of tree t, as entry i of a part gives it, without contribution (R266). -/
def Part.chunk (p : Part) (t c i asid : Nat) (addr : Option Nat) (by_ : Option (Nat × Nat × Nat)) (loose : Bool) : Chunk where
  tree := t
  c := c
  entry := i
  frame := p.collFrame i
  op := p.collField i 1 1
  rank := p.collField i 2 2
  bytes := p.collField i 28 4
  asid := asid
  addr := addr
  firedBy := by_
  loose := loose
  read := false
  mine := []
  void := false
  ranks := []
  status := none

/-- Firing a chunk (R268). -/
def State.fireChunk (s : State) (k : Chunk) : State := { s with fab := { s.fab with chunks := s.fab.chunks ++ [k] } }

/-- The chunk of a tree and a number in a frame. -/
def State.chunk (s : State) (t c frame : Nat) : Option Chunk :=
  s.fab.chunks.find? fun k => k.tree == t && k.c == c && k.frame == frame

/-- Whether chunk c of tree t has been fired in a frame (R270). -/
def State.firedAt (s : State) (t c frame : Nat) : Bool :=
  s.fab.chunks.any fun k => k.tree == t && k.c == c && k.frame == frame && k.addr.isSome

/-- Collective statuses (R270). -/
def collDone : Nat := 0
def collTimeout : Nat := 1
def collNotree : Nat := 2
def collNoentry : Nat := 3
def collData : Nat := 4

/-- COLL (R271, R370). -/
def execColl (c : Ctl) (d a b e : Opd) (s : State) :=
  issue s c false [wr d, rd a, rd b, rd2 e] (chk := []) fun v => do
    v.whole
    if !v.knows false [rd2 e] then return {}
    let t := (v.word a v.leader).toNat
    let ch := (v.word b v.leader).toNat
    let addr := v.quad false e v.leader
    let glob := match apertureOf addr with | .glob _ => true | _ => false
    v.worst1 ((if glob then [] else [.apert]) ++ (if addr.toNat % 64 = 0 then [] else [.misalign])) addr
    let takeQ := v.occupy uCollQ 3
    let answer (st at_ : Nat) : State → State := fun s =>
      v.command .coll (some at_) none (takeQ (v.land at_ (writeTo d false v.leader (BitVec.ofNat 64 st)) s))
    if 63 < t then .ok { post := answer collNotree (v.now + 4) }
    else
      match v.s.part with
      | none => .ok { post := answer collNoentry (v.now + 4) }
      | some p =>
        match (p.collEntries t v.s.sch.slice)[ch]? with
        | none => .ok { post := answer collNoentry (v.now + 4) }
        | some i =>
          if v.s.firedAt t ch (p.collFrame i) then .ok { post := answer collNoentry (v.now + 4) }
          else
            let f := p.collFrame i
            let end_ := v.s.frameEnd (f + 1)
            if 2048 * f - 1 < v.s.accord then
              .ok { post := answer collTimeout (if end_ ≤ v.now then v.now + 4 else end_) }
            else
              let bytes := p.collField i 28 4
              let base := addr.toNat + (if p.collField i 1 1 / 16 = 1 then p.collField i 2 2 * bytes else 0)
              let pages := (List.range ((bytes + 65535) / 65536)).map fun k => BitVec.ofNat 64 (base + 65536 * k)
              let ls := v.copyKeys { w := true } (pages ++ [BitVec.ofNat 64 (base + bytes - 1)])
              match walkOf ls with
              | some va => .ok { walk := some (v.b.asid, va) }
              | none =>
                let fail := engineFault ls
                .ok { post := fun s =>
                  let s := v.command .coll (some end_) fail (takeQ s)
                  let s := v.onStrand (fun st => st.put ⟨v.seq, none, true, writeTo d false v.leader 0⟩) s
                  s.fireChunk { p.chunk t ch i v.b.asid (some addr.toNat) (some (v.c, v.i, v.seq)) v.b.loose with void := fail.isSome } }

/-! ## WAITT (R149, R150, R431) -/

/-- The operations of an engine that a WAITT acquires. -/
def Strand.acquired (st : Strand) (e : Engine) (n : Nat) : List EngOp :=
  st.eops.filter fun o => o.eng == e && o.num ≤ n

/-- Whether an operation has landed at a cycle. -/
def EngOp.landed (o : EngOp) (now : Nat) : Bool := match o.land with | some t => t ≤ now | none => false

/-- The fault a WAITT delivers (R150): the highest priority, then the lowest number. -/
def waittFault (ops : List EngOp) : Option (Cause × BitVec 64) :=
  (sortBy (·.num) ops).foldl (fun m o =>
    match m, o.fail with
    | none, f => f
    | some x, some f => if f.1.priority < x.1.priority then some f else some x
    | some x, none => some x) none

/-- Leaving the contexts of a strand: the operations acquired. -/
def Strand.forget (st : Strand) (e : Engine) (n : Nat) : Strand :=
  { st with eops := st.eops.filter fun o => !(o.eng == e && o.num ≤ n) }

/-- Acquiring landed operations at a WAITT: their fault, if any, is taken with the WAITT as the faulting word, and a handler's
first word issues in a later cycle (R291). -/
def State.acquire (s : State) (c i : Nat) (e : Engine) (n : Nat) (word : Addr) (len leader : Nat) : State :=
  match s.strand c i with
  | none => s
  | some st =>
    let s := s.modStrand c i fun st => st.forget e n
    match waittFault (st.acquired e n) with
    | none => s
    | some f =>
      let s := s.trap c i word len { cause := f.1, threads := [leader], addr := f.2, engine := some e }
      s.modStrand c i fun st => if st.ended.isSome then st else { st with waits := st.waits ++ [.handler (s.now + 1)] }

/-- WAITT (R149): n beyond the last number issued is STALL in fixed discipline, ILLMOD in loose. -/
def execWaitt (c : Ctl) (e : Engine) (b : Opd) (s : State) :=
  let us := [rd b]
  issue s c true us fun v => do
    let n := match b with
      | .sp k => (v.special (k.toNat + 1) v.leader ++ v.special k.toNat v.leader).toNat
      | .lit64 x => x.toNat
      | b => (v.word b v.leader).toNat
    if (smGet v.st.tl (Engine.index e)).toNat < n then
      if v.b.loose then v.raise1 .illmod else .ok { post := fun s => s.stall v.c }
    else
      let ops := v.st.acquired e n
      if ops.all fun o => o.landed v.now then
        if (waittFault ops).isSome then
          .ok { jump := some v.st.pc, post := fun s => s.acquire v.c v.i e n v.st.pc (wordLen us) v.leader }
        else .ok { post := v.onStrand fun st => st.forget e n }
      else .ok { post := v.park (.waitt e n v.st.pc (wordLen us) v.leader) }

end Sys2Proof.Machine
end

