-- ==== Sys2Proof/Machine/Landing.lean ====
section
/-! DEFINITION. What lands on one core in a cycle (R73, R74, R141 to R147, R228, R272): register results, scratch writes, ring tiles, crown fills, clasps, releases of parked strands, and the scratch reads made at acceptance. -/

namespace Sys2Proof.Machine
open Sys2Proof

/-! ## Engine operations of a strand -/

/-- Changing the engine operation of an issue. -/
def Strand.modOp (st : Strand) (seq : Nat) (f : EngOp → EngOp) : Strand :=
  { st with eops := st.eops.map fun e => if e.seq == seq then f e else e }

/-- An engine operation lands at a tick, if it has not. -/
def EngOp.landAt (o : EngOp) (t : Nat) : EngOp := match o.land with | some _ => o | none => { o with land := some t }

/-- An engine operation meets a fault, unless it has one. -/
def EngOp.failWith (o : EngOp) (c : Cause) (a : Addr) : EngOp := match o.fail with | some _ => o | none => { o with fail := some (c, a) }

/-- The slots of a core's block. -/
def State.slotsOf (s : State) (c : Nat) : List Nat := match s.blk c with | some b => List.range b.slots.length | none => []

/-- Changing every strand of a core. -/
def State.modSlots (s : State) (c : Nat) (f : Strand → Strand) : State := s.modBlk c fun b => { b with slots := b.slots.map f }

/-- The landing of the engine operation of an issue on a core, and its fault. -/
def State.landEng (s : State) (c seq : Nat) : State := s.modSlots c fun st => st.modOp seq fun o => o.landAt s.now
def State.failEng (s : State) (c seq : Nat) (cause : Cause) (a : Addr) : State :=
  s.modSlots c fun st => st.modOp seq fun o => o.failWith cause a

/-! ## Scratch writes by row (R142) -/

/-- Whether a tick has come. -/
def dueBy (t now : Nat) : Bool := decide (t ≤ now)

/-- Applying the writes of one row of R142 that are due, in issue order. -/
def Core.landRow (k : Core) (row now : Nat) : Core :=
  let due := sortBy (·.seq) (k.swr.filter fun w => w.row == row && dueBy w.land now)
  let k := due.foldl (fun k w => k.putScratch w.bytes w.tags) k
  { k with swr := k.swr.filter fun w => !(w.row == row && dueBy w.land now) }

/-- DRAIN_LANDING (R246): row 3. -/
def execDrainLanding (c : Nat) (s : State) : Host.Outcome State Fault Refusal :=
  .next (s.modCore c fun k => k.landRow 3 s.now)

/-- GATHER_STORE_LANDING (R157): row 4. -/
def execGatherStoreLanding (c : Nat) (s : State) : Host.Outcome State Fault Refusal :=
  .next (s.modCore c fun k => k.landRow 4 s.now)

/-! ## Ring (R146, R147) -/

/-- What a RROT does in a cycle: nothing yet, its tile lands, it leaves dst unchanged, or STALL. -/
inductive RingDo where
  | wait
  | tile (t : Tile)
  | empty
  | stall
  deriving DecidableEq, Repr

/-- What a RROT of a core does in the running cycle (R146, R147). -/
def State.ringDo (s : State) (c : Nat) (o : RingOp) : RingDo :=
  let due := dueBy (o.issue + 40) s.now
  match (s.core c).tiles.find? fun t => t.k == o.k with
  | some t =>
    if t.issue ≤ o.issue then (if due then .tile t else .wait)
    else if o.fixed then (if due then .stall else .wait)
    else if dueBy (t.issue + 40) s.now then .tile t else .wait
  | none =>
    if o.fixed then (if due then .stall else .wait)
    else if o.issue < s.now && (o.alone || s.predExited c o.k s.now) then .empty else .wait

/-- One RROT in the running cycle. -/
def State.ringLand (s : State) (c : Nat) (o : RingOp) : State :=
  let drop (s : State) : State := s.modCore c fun k =>
    { k with rings := k.rings.filter fun x => x.seq != o.seq, tiles := k.tiles.filter fun t => t.k != o.k }
  match s.ringDo c o with
  | .wait => s
  | .empty => (drop s).landEng c o.seq
  | .stall => (drop s).stall c
  | .tile t =>
    let s := (drop s).landEng c o.seq
    if o.mute then s
    else if t.bad then s.failEng c o.seq .partner 0
    else s.modCore c fun k =>
      k.putScratch ((List.range 2048).map fun i => (o.dst + i, smGet t.bytes i))
        ((List.range 32).map fun i => (o.dst / 64 + i, smGet t.tags i))

/-- RING_LANDING (R146, R147). -/
def execRingLanding (c : Nat) (s : State) : Host.Outcome State Fault Refusal :=
  .next ((s.core c).rings.foldl (fun s o => s.ringLand c o) s)

/-! ## Crown (R144, R145) -/

/-- One crown fill lands: 2,048 bytes and 32 tags, and errors of the words it covers end (R144, R323). -/
def Core.putCrown (k : Core) (f : Fill) : Core :=
  { k with
    crown := smReplace k.crown (2048 * f.cslot) 2048 (f.bytes.map fun p => (2048 * f.cslot + p.1, p.2))
    ctags := smReplace k.ctags (32 * f.cslot) 32 (f.tags.map fun p => (32 * f.cslot + p.1, p.2))
    badCrown := k.badCrown.filter fun u => u / 256 != f.cslot
    badCTags := k.badCTags.filter fun u => u / 32 != f.cslot }

/-- One fill of a core. -/
def State.landFill (s : State) (c : Nat) (f : Fill) : State :=
  let s := s.landEng c f.seq
  if f.bad then s.failEng c f.seq .memunc 0 else s.modCore c fun k => k.putCrown f

/-- CROWN_FILL (R144): the fills due, in issue order. -/
def execCrownFill (c : Nat) (s : State) : Host.Outcome State Fault Refusal :=
  let due := sortBy (·.seq) ((s.core c).fills.filter fun f => dueBy f.land s.now)
  let s := s.modCore c fun k => { k with fills := k.fills.filter fun f => !dueBy f.land s.now }
  .next (due.foldl (fun s f => s.landFill c f) s)

/-! ## Register results (R73, R287, R300) -/

/-- The results of a strand due in a cycle, applied in issue order. -/
def Strand.landDue (st : Strand) (now : Nat) : Strand :=
  let due (p : Pend) : Bool := match p.land with | some t => dueBy t now | none => false
  let st' := st.landAll (st.pend.filter due)
  { st' with pend := st.pend.filter fun p => !due p }

/-- A strand released from its PREM: the word does nothing and the next follows (R300). -/
def Strand.releasePrem (st : Strand) (now seq : Nat) : Strand :=
  match st.waits.findSome? fun w => match w with | .prem len hold .. => some (len, hold) | _ => none with
  | none => st
  | some (len, hold) =>
    ({ st with waits := st.waits.filter fun w => match w with | .prem .. => false | _ => true }).advance now seq hold len none

/-- Whether a strand is parked at a PREM. -/
def Strand.atPrem (st : Strand) : Bool := st.waits.any fun w => match w with | .prem .. => true | _ => false

/-- The largest step count of the live strands of some cores. -/
def State.maxStep (s : State) (cs : List Nat) : Nat :=
  cs.foldl (fun m c =>
    match s.blk c with
    | none => m
    | some b => b.slots.foldl (fun m st => if st.ended.isNone && m < st.stepcnt.toNat then st.stepcnt.toNat else m) m) 0

/-- A STEP that takes stepcnt above T raises T for the whole set and releases the strands parked below it (R300). -/
def State.raiseCut (s : State) (c : Nat) : State :=
  match s.cutFor c with
  | none => s
  | some k =>
    let n := s.maxStep k.cores
    if n ≤ k.target then s
    else
      let s := { s with host := { s.host with cut := some { k with target := n } } }
      k.cores.foldl (fun s x => s.modSlots x fun st =>
        if st.atPrem && st.stepcnt.toNat < n then st.releasePrem s.now s.seq else st) s

/-- Raising the late faults due in a strand (R287); a handler's first word issues in a later cycle (R291). -/
def State.raiseLate (s : State) (c i : Nat) : State :=
  match s.strand c i with
  | none => s
  | some st =>
    let due := st.late.filter fun l => dueBy l.at_ s.now
    if due.isEmpty then s
    else
      let s := s.modStrand c i fun st => { st with late := st.late.filter fun l => !dueBy l.at_ s.now }
      let s := due.foldl (fun s l =>
        match s.strand c i with
        | some st => if st.ended.isSome then s else s.trap c i l.word l.len l.trap
        | none => s) s
      s.modStrand c i fun st => if st.ended.isSome then st else { st with waits := st.waits ++ [.handler (s.now + 1)] }

/-- Whether a register write covers a whole word of a register file (R323). -/
def RegW.overwrites (w : RegW) (b : BadReg) : Bool :=
  match w with
  | .v r t _ => b.file == 0 && b.index == r && b.thread == t
  | .s r _ => b.file == 1 && b.index == r
  | .am n _ => b.file == 1 && b.index == 61 + n
  | .q r t _ => b.file == 2 && b.index == r && b.thread == t
  | _ => false

/-- Whether a result of a strand that is due writes a register-file word. -/
def Strand.rewrites (st : Strand) (now : Nat) (b : BadReg) : Bool :=
  b.allot == st.curIx && st.pend.any fun p =>
    (match p.land with | some t => dueBy t now | none => false) && p.writes.any fun w => w.overwrites b

/-- The uncorrectable register words that the results due in a cycle leave so: a write of a word ends its error (R323). -/
def State.badRegsLeft (s : State) (c : Nat) : List BadReg :=
  (s.core c).badRegs.filter fun b => !(match s.strand c b.slot with | some st => st.rewrites s.now b | none => false)

/-- RESULT_LANDING (R73, R141): register results, then structured stores (row 5), then late faults. -/
def execResultLanding (c : Nat) (s : State) : Host.Outcome State Fault Refusal :=
  let left := s.badRegsLeft c
  let s := s.modCore c fun k => { k with badRegs := left }
  let s := s.modSlots c fun st => st.landDue s.now
  let s := s.modCore c fun k =>
    let v := k.vnt.filter fun x => dueBy x.1 s.now
    let k := v.foldl (fun k x => { k with islands := (k.islands &&& ~~~x.2.1) ||| (x.2.2 &&& x.2.1) }) k
    { (k.landRow 5 s.now) with vnt := k.vnt.filter fun x => !dueBy x.1 s.now }
  let s := s.raiseCut c
  .next ((s.slotsOf c).foldl (fun s i => s.raiseLate c i) s)

/-! ## Clasps (R104 to R107) -/

/-- The trio's current-slope limit register (R108); its reset value is 0x0802. -/
def State.slopeOf (s : State) (c : Nat) : BitVec 16 := (aGet s.slope (trioOf c)).getD 0x0802

/-- The release tick of rank r at an opening in cycle o (R106, R108). -/
def waveRelease (reg : BitVec 16) (o r : Nat) : Nat :=
  let w := (reg.extractLsb' 0 4).toNat
  let w := if w = 0 ∨ 8 < w then 8 else w
  o + 1 + r / w * (reg.extractLsb' 8 8).toNat

/-- A waiting strand with its release: parked to it; PARTNER then, for a failed arrival (R237). -/
def Strand.releaseAt (st : Strand) (n rel : Nat) (bad : Bool) : Strand :=
  let mine := st.waits.findSome? fun w => match w with | .clasp m _ word len leader => if m == n then some (word, len, leader) else none | _ => none
  match mine with
  | none => st
  | some (word, len, leader) =>
    { st with
      waits := (st.waits.filter fun w => match w with | .clasp m .. => m != n | _ => true) ++ [.tick rel]
      late := if bad then st.late ++ [⟨rel, word, len, { cause := .partner, threads := [leader] }⟩] else st.late }

/-- The deadline of a strand's wait at a clasp. -/
def Strand.claspDeadline (st : Strand) (n : Nat) : Option Nat :=
  st.waits.findSome? fun w => match w with | .clasp m (some d) .. => if m == n then some d else none | _ => none

/-- STALL at a tick to come: a release later than its deadline (R107). -/
def State.stallAt (s : State) (c t : Nat) : State :=
  { s with sch := { s.sch with raised := s.sch.raised ++
    [⟨.stall, s.sch.pkgid, c, s.accordOf t / 2048, s.accordOf t, t⟩] } }

/-- CLASP_WAVE_RELEASE (R104 to R107, R236): the effects that land, the openings, and the waves of released strands. A strand whose
arrival is still to land waits in the generation after the opening (log entry 62). -/
def execClaspWaveRelease (c : Nat) (s : State) : Host.Outcome State Fault Refusal :=
  let k := s.core c
  let due := k.claspQ.filter fun q => dueBy q.land s.now
  let s := s.modCore c fun k => { k with claspQ := k.claspQ.filter fun q => !dueBy q.land s.now }
  let coming (n i : Nat) : Bool := k.claspQ.any fun q => q.c == n && q.eff == .arrive i && !dueBy q.land s.now
  match k.shown with
  | none => .next s
  | some b =>
    let hard (q : ClaspLand) : Bool := match q.eff with | .hardware _ => true | _ => false
    let order := sortBy (·.seq) (due.filter fun q => !hard q) ++ due.filter hard
    let clasps := order.foldl (fun l q => match aGet l q.c with | some x => aSet l q.c (x.land q.eff) | none => l) b.clasps
    let opening := (clasps.filter fun p => p.2.opens).map (·.1)
    let failed := due.filterMap fun q => match q.eff with | .hardware true => some q.c | _ => none
    let waiters := opening.flatMap fun n =>
      (List.range b.slots.length).filterMap fun i =>
        match b.slots[i]? with | some st => if st.waitsAt n && !coming n i then some (n, i) else none | none => none
    let s := s.modCore c fun k => k.modShown fun b => { b with clasps := clasps.map fun p => (p.1, if p.2.opens then p.2.opened else p.2) }
    let reg := s.slopeOf c
    .next (waiters.zipIdx.foldl (fun s w =>
      let rel := waveRelease reg s.now w.2
      let late := match (s.strand c w.1.2).bind fun st => st.claspDeadline w.1.1 with
        | some d => if d < rel then some d else none
        | none => none
      let s := s.modStrand c w.1.2 fun st => st.releaseAt w.1.1 rel (failed.contains w.1.1)
      match late with | some d => s.stallAt c d | none => s) s)

/-! ## Parked strands -/

/-- The horizon of a line at an acquire of scope pod (R168), and the strand whose accesses without a landing it rests on too. -/
def State.horizon (s : State) (line : Nat) : Nat := (smGet s.horizons line).toNat
def State.horizonFar (s : State) (line : Nat) : Option (Nat × Nat × Nat) := (s.horFar.find? fun h => h.1 == line).map (·.2)

/-- The parks until a horizon (R168). -/
def horizonWaits (h : Nat) (far : Option (Nat × Nat × Nat)) : List Wait :=
  .tick h :: match far with | some f => [.far f.1 f.2.1 f.2.2] | none => []

/-- A word of memory. -/
def State.memWord (s : State) (pa : Nat) : Word := BitVec.ofNat 32 (smNat s.mem pa 4)

/-- A WAITA whose condition holds: the word lands in d in the next cycle, and the strand is released then, or with .ACQ
at scope pod at the line's horizon (R168, R272). -/
def State.releaseWaita (s : State) (c i : Nat) (w : Wait) : State :=
  match w with
  | .waita pa _ _ d _ _ pod seq =>
    let x := s.memWord pa
    s.modStrand c i fun st =>
      let st := { st with waits := (st.waits.filter fun y => y != w) ++ (.tick (s.now + 1) :: if pod then horizonWaits (s.horizon (pa / 64)) (s.horizonFar (pa / 64)) else []) }
      match d with
      | some r => st.put ⟨seq, some (s.now + 1), true, [.s r x]⟩
      | none => st
  | _ => s

/-- WAITA_DEADLINE (R272): the word read at the deadline, else STALL. -/
def execWaitaDeadline (c i : Nat) (s : State) : Host.Outcome State Fault Refusal :=
  match (s.strand c i).bind fun st => st.waits.find? fun w => match w with
      | .waita _ _ _ _ (some t) _ _ _ => dueBy t s.now | _ => false with
  | some (.waita pa x q d (some t) from_ pod seq) =>
    let w := Wait.waita pa x q d (some t) from_ pod seq
    if waitaHolds q (s.memWord pa) x then .next (s.releaseWaita c i w)
    else .next ((s.modStrand c i fun st =>
      { st with waits := st.waits.map fun y => if y = w then Wait.waita pa x q d none from_ pod seq else y }).stall c)
  | _ => .next s

/-- UNTIL_RELEASE (R428). -/
def execUntilRelease (c i : Nat) (s : State) : Host.Outcome State Fault Refusal :=
  .next (s.modStrand c i fun st =>
    { st with waits := st.waits.filter fun w => match w with | .until t => !decide (t ≤ s.accord) | _ => true })

/-- STALL (R50, R107): a clasp wait that no opening has released by its deadline. -/
def execStall (c i : Nat) (s : State) : Host.Outcome State Fault Refusal :=
  let late (w : Wait) : Bool := match w with | .clasp _ (some d) .. => dueBy d s.now | _ => false
  match s.strand c i with
  | some st =>
    if st.waits.any late then
      .next ((s.modStrand c i fun st => { st with waits := st.waits.map fun w =>
        match w with | .clasp n (some d) a l t => if dueBy d s.now then .clasp n none a l t else w | w => w }).stall c)
    else .next s
  | none => .next s

/-- Whether a register result of the strand is outstanding (R74). -/
def Strand.resultsOut (st : Strand) (now : Nat) : Bool :=
  st.pend.any fun p => p.reg && (match p.land with | some t => decide (now < t) | none => true)

/-- Whether everything a strand has under way has landed (R294): register results and engine operations. -/
def Strand.settled (st : Strand) (now : Nat) : Bool := !st.resultsOut now && st.eops.all fun o => o.landed now

/-- Whether the accesses to other packages that a strand issued before `seq` have landed, where the strand is still there. -/
def State.farLanded (s : State) (c i seq : Nat) : Bool :=
  match s.strand c i with
  | some st => st.accs.all fun a => !a.remote || seq ≤ a.seq || (match a.land with | some t => dueBy t s.now | none => false)
  | none => true

/-- Whether a reason to be parked has ended at a cycle (R74, R149, R165, R168, R294, R305); releases with an event of their
own are not counted here. -/
def State.waitOver (s : State) (c : Nat) (st : Strand) (w : Wait) : Bool :=
  match w with
  | .hold => !st.resultsOut s.now
  | .fence n pod => st.accsLanded s.now n pod
  | .acq n => !st.resultsOut s.now && st.accs.all fun a => a.seq != n || (match a.land with | some t => dueBy t s.now | none => false)
  | .tick n => dueBy n s.now
  | .handler n => dueBy n s.now
  | .far c i n => s.farLanded c i n
  | .waitt e n .. => (st.acquired e n).all fun o => o.landed s.now
  | .region => st.settled s.now
  | .walk asid va => match s.translate c asid va {} with | .walk _ => false | _ => true
  | _ => false

/-- HOLD_RELEASE (R74): a strand whose awaited results have landed. A WAITT's operations are acquired and their fault is
taken (R149, R150); a restart restores the region's snapshot (R294). -/
def execHoldRelease (c i : Nat) (s : State) : Host.Outcome State Fault Refusal :=
  match s.strand c i with
  | none => .next s
  | some st =>
    let past := st.waits.filter (s.waitOver c st)
    let s := s.modStrand c i fun st => { st with waits := st.waits.filter fun w => !past.contains w }
    .next (past.foldl (fun s w =>
      match w with
      | .waitt e n word len leader => s.acquire c i e n word len leader
      | .region => s.modStrand c i Strand.restart
      | _ => s) s)

/-! ## Scratch reads at acceptance (R145, R152, R262) -/

/-- Whether a scratch block and its tag may be read (R288). -/
def Core.blockOk (k : Core) (off : Nat) : Bool := !k.badBlocks off 64

/-- A copy's source as it stands in its acceptance cycle (R152): the bytes to be written and the tags of their lines; the
records of its lines in other packages, one for each distinct line in ascending order, with the block that is later in the copy's order
(R152, R258, R259, R373). An uncorrectable source writes nothing (R288). -/
def State.acceptCopy (s : State) (c seq : Nat) : State :=
  match s.ops.find? fun o => o.seq == seq && o.col == c with
  | none => s
  | some o =>
    match o.done with
    | .copyOut _ blocks =>
      let k := s.core c
      match blocks.find? fun b => !k.blockOk b.2 with
      | some b => 
        let s := s.failEng c seq .memunc (scratchAddr b.2)
        { s with ops := s.ops.map fun x => if x.seq == seq && x.col == c then { x with flag := none } else x }
      | none =>
        let here := blocks.filter fun b => (lineHome (b.1 / 64)).isNone
        let far := blocks.filter fun b => (lineHome (b.1 / 64)).isSome
        let bytes := here.flatMap fun b => addressed b.1 (smBytes k.scratch b.2 64)
        let tags := here.map fun b => (b.1 / 64, smGet k.stags (b.2 / 64))
        let recs : List (Nat × Nat × Rec × Option (BitVec 64)) := (dedupSorted (far.map fun b => b.1 / 64)).map fun l =>
          let src := ((far.reverse.find? fun b => b.1 / 64 == l).map (·.2)).getD 0
          (l, 0, { recordOf (lineAtHome l) opCopyw with tag := smGet k.stags (src / 64), data := smBlock k.scratch src }, none)
        let rem := recs.map fun r =>
          ({ pkg := (lineHome r.1).getD 0, line := lineAtHome r.1, thread := r.2.1, resp := false, sent := none, data := none } : RemLine)
        let s := { s with ops := s.ops.map fun x =>
          if x.seq == seq && x.col == c then { x with writes := bytes, wtags := tags, remote := rem } else x }
        recs.foldl (fun s r => s.sendRecord o r.1 r.2.1 r.2.2.1 r.2.2.2) s
    | _ => s

/-- A crown fill from scratch reads its B image (R145). -/
def State.acceptFill (s : State) (c slot num off cslot land : Nat) : State :=
  let seq := match (s.strand c slot).bind fun st => st.eops.find? fun o => o.eng == .copy && o.num == num with
    | some o => o.seq
    | none => 0
  s.modCore c fun k =>
    let bad := k.badBlocks off 2048
    let f : Fill := ⟨seq, slot, num, land, cslot, if bad then [] else smWrites [] (addressed 0 (smBytes k.scratch off 2048)),
      if bad then [] else smWrites [] ((List.range 32).map fun i => (i, smGet k.stags (off / 64 + i))), bad⟩
    { k with fills := k.fills ++ [f] }

/-- An XFER.SEND reads its blocks (R262). -/
def State.acceptSend (s : State) (c seq : Nat) : State :=
  let k := s.core c
  let read (x : XSend) : XSend :=
    let units := (List.range x.n).map fun i => (smBlock k.scratch (x.off + 64 * i), smGet k.stags (x.off / 64 + i))
    { x with units := units, read := true, bad := (List.range x.n).any fun i => !k.blockOk (x.off + 64 * i) }
  { s with fab := { s.fab with sends := s.fab.sends.map fun x => if x.seq == seq && x.core == c then read x else x } }

/-- One acceptance. -/
def State.acceptOne (s : State) (c : Nat) (a : Accept) : State :=
  match a with
  | .copy seq => s.acceptCopy c seq
  | .fill slot num off cslot land => s.acceptFill c slot num off cslot land
  | .send seq => s.acceptSend c seq

/-- The acceptances of a core due in a cycle. -/
def State.acceptCore (s : State) (c : Nat) : State :=
  let due := (s.core c).accepts.filter fun a => dueBy a.1 s.now
  if due.isEmpty then s
  else
    let s := s.modCore c fun k => { k with accepts := k.accepts.filter fun a => !dueBy a.1 s.now }
    due.foldl (fun s a => s.acceptOne c a.2) s

end Sys2Proof.Machine
end

