-- ==== Sys2Proof/Machine/Issue.lean ====
section
/-! DEFINITION. Fetching a word (R325, R326), the issue rotation (R70, R71), and what holds a word before it issues (R79, R86, R167, R172, R235). -/

namespace Sys2Proof.Machine
open Sys2Proof

/-! ## Fetch -/

/-- A fetch: the word and its literal, a page walk that holds it, or a fetch fault. -/
inductive Fetched where
  | word (w lit : BitVec 64)
  | walk (va : Nat)
  | bad (c : Cause)
  deriving DecidableEq, Repr

/-- The translations of the n 4-byte pieces of code from an address. -/
def State.codeXls (s : State) (c : Nat) (b : Blk) (a : Addr) (n : Nat) : List Xl :=
  (List.range n).map fun k => s.translate c b.asid ((a.toNat + 4 * k) % 2 ^ 57) { x := true }

/-- The bytes of code from an address under translations, as a number: code as it stood when the block started (R326). -/
def Blk.codeValue (b : Blk) : Nat → List Xl → Nat
  | _, [] => 0
  | va, .ok k :: l => b.codeNat (b.codeKey (va % 2 ^ 57) k) 4 + 2 ^ 32 * b.codeValue (va + 4) l
  | va, _ :: l => 2 ^ 32 * b.codeValue (va + 4) l

/-- The page to be walked, or the cause of the highest priority, among translations. -/
def xlsWalk (ls : List Xl) : Option Nat := ls.findSome? fun x => match x with | .walk va => some va | _ => none
def xlsBad (ls : List Xl) : Option Cause :=
  ls.foldl (fun m x =>
    match m, x with
    | some c, .bad d => if d.priority < c.priority then some d else some c
    | none, .bad d => some d
    | m, _ => m) none

/-- Fetching the word at an address and its literal (R325, R326). -/
def State.fetch (s : State) (c : Nat) (b : Blk) (a : Addr) : Fetched :=
  if 1 < a.toNat / 2 ^ 56 then .bad .apert
  else if a.toNat % 4 ≠ 0 then .bad .misalign
  else
    let xs := s.codeXls c b a 2
    match xlsWalk xs, xlsBad xs with
    | some va, _ => .walk va
    | none, some d => .bad d
    | none, none =>
      let w := BitVec.ofNat 64 (b.codeValue a.toNat xs)
      let ys := s.codeXls c b (a + 8) (litLen w / 4)
      match xlsWalk ys, xlsBad ys with
      | some va, _ => .walk va
      | none, some d => .bad d
      | none, none => .word w (BitVec.ofNat 64 (b.codeValue (a.toNat + 8) ys))

/-- How many registers each of the operands D, A, B and C names, in the type and form that opcode and modifier select
(R112, R353, and the entries): 2 for a pair, 8 for a parameter group. -/
def fieldSpans (op : BitVec 8) (m : BitVec 6) (d b e : Opd) : List Nat :=
  let pair (x : Bool) : Nat := if x then 2 else 1
  let w := pair (Ty.ofCode (mf m 0 4)).wide
  let inl (o : Opd) : BitVec 8 := match o with | .inl n => n | _ => 0
  let data : Nat := match LdTy.ofCode ((inl e).setWidth 5) with | some (.ty t) => pair t.wide | some .b128 => 4 | none => 1
  let fmt (f : PFmt → Nat) (g : PFmt → Nat) : Nat :=
    match PFmt.ofCode (mf m 0 4) with
    | some k => if m.getLsbD 5 then g k else f k
    | none => 1
  match op.toNat with
  | 0x01 => [w, w, w, 1]
  | 0x02 => [w, w, w, 1]
  | 0x03 => [w, w, 1, 1]
  | 0x04 => [w, w, 1, 1]
  | 0x05 => [w, w, w, 1]
  | 0x06 => [w, w, w, 1]
  | 0x09 => [w, w, w, 1]
  | 0x0A => [w, w, w, 1]
  | 0x0B => [w, w, w, 1]
  | 0x0C => [w, w, 1, 1]
  | 0x0D => [w, w, 1, 1]
  | 0x0E => [w, w, 1, 1]
  | 0x12 => [1, w, 1, 1]
  | 0x13 => [1, w, 1, 1]
  | 0x14 => let u := pair (Ty.ofCode (0#1 ++ mf m 0 3)).wide; [1, u, u, 1]
  | 0x15 => [w, w, w, 1]
  | 0x16 => [w, w, 1, 1]
  | 0x4A => [w, pair (Ty.ofCode ((inl b).setWidth 4)).wide, 1, 1]
  | 0x4B => [1, fmt PFmt.e PFmt.r, 1, 1]
  | 0x4C => [fmt PFmt.e PFmt.r, 1, 1, 1]
  | 0x81 => [if mf m 0 2 == VoteForm.code .bal && d.isS then 3 else 1, 1, 1, 1]
  | 0x84 => [2, 2, 1, 2]
  | 0x8D => [4, 1, 1, 1]
  | 0x8E => [1, 1, 1, 3]
  | 0x98 => [1, 2, 1, 1]
  | 0xA0 => [data, 2, 1, 1]
  | 0xA1 => [data, 2, 1, 1]
  | 0xA2 =>
    let t := pair (match atomTyOf ((inl e).extractLsb' 5 3) with | some t => t.wide | none => false)
    [t, 2, if AtomOp.ofCode ((inl e).extractLsb' 0 5) = some .cas then 2 * t else t, 1]
  | 0xA3 => [1, 2, 1, 1]
  | 0xBC => [1, 2, 1, 1]
  | 0xC0 => [1, 2, pair (mf m 0 2 != 2), if mf m 0 3 = 0 then 1 else 8]
  | 0xC1 => [1, 1, 2, 1]
  | 0xC3 => let z := pair (GSize.ofCode (mf m 1 2) == .b64); [z, 1, 1, z]
  | 0xC9 => [1, 1, 1, 2]
  | 0xE2 => [1, 2, 1, 1]
  | 0xE3 => [2, 2, 1, 1]
  | 0xE7 => [1, 2, 1, 1]
  | 0xEC => [1, 2, 2, 1]
  | 0xED => [2, 1, 1, 1]
  | 0xEE => [1, 2, 1, 1]
  | 0xF4 => [1, 1, 2, 1]
  | _ => [1, 1, 1, 1]

/-- Slots X and Y of a pair word (R338). -/
def slotXOf (w : BitVec 64) : SlotBits := slotBitsOf (w.extractLsb' 31 31)
def slotYOf (w : BitVec 64) : SlotBits := slotBitsOf (w.extractLsb' 0 31)

/-- Whether a slot names a register outside the strand's allotment (R66). -/
def slotOutside (r : Regs) (x : SlotBits) : Bool :=
  [x.d, x.s].any fun c => (POpd.ofCode c).any fun o => !r.holds ⟨slotOpd o, 1, true⟩

/-- Whether an operand of a word names a register outside the strand's allotment (R66): a pair or a group is outside
when any of its registers is. -/
def rawOutside (r : Regs) (w : BitVec 64) : Bool :=
  if w.getLsbD 62 then slotOutside r (slotXOf w) || slotOutside r (slotYOf w)
  else
    let at_ (k : Nat) : Opd := (opdOf (w.extractLsb' (11 * k) 11) 0).getD .none
    let ns := fieldSpans (w.extractLsb' 54 8) (w.extractLsb' 48 6) (at_ 3) (at_ 1) (at_ 0)
    (List.range 4).any fun k => !r.holds ⟨at_ (3 - k), ns.getD k 1, true⟩

/-- The cause of a decode error in a strand: an operand outside its allotment is ILLOP first (R66, R326). -/
def decodeCause (r : Regs) (w : BitVec 64) : DecErr → Cause
  | .illop => .illop
  | .illmod => if rawOutside r w then .illop else .illmod
  | .illpair => if rawOutside r w then .illop else .illpair

/-- Whether the cause that a word's decoding gives is slot Y's of a pair (R286, R289): slot X does not breach the step of R344 that
gives it. A pairing rule is broken by both slots. -/
def decodeSlotY (r : Regs) (w : BitVec 64) (cause : Cause) : Bool :=
  let x := slotXOf w
  w.getLsbD 62 && match cause with
    | .illop =>
      if slotAssigned x.op && slotAssigned (slotYOf w).op then !(pcodeBad x.d || pcodeBad x.s || slotOutside r x) else slotAssigned x.op
    | .illmod => slotModOk x
    | _ => false

/-! ## What holds a word -/

/-- The control bits of an instruction. -/
def ctlOf (i : Instr) : Ctl :=
  match i.form with
  | .full f => f.ctl
  | .pair h _ _ => ⟨h, false, 0⟩
  | .event => ⟨false, false, 0⟩

/-- The lane unit, which a uniform word does not take (R77). -/
def laneUnit (d : Opd) : List Nat := if runsOnce d then [] else [uLane]

/-- The units an instruction needs (R76 to R79). -/
def unitsNeeded (v : View) (i : Instr) : List Nat :=
  match i with
  | .abs _ _ _ d _ => laneUnit d
  | .add _ _ _ d _ _ => laneUnit d
  | .and _ _ _ d _ _ => laneUnit d
  | .bfi _ _ d _ _ _ => laneUnit d
  | .bfx _ _ d _ _ => laneUnit d
  | .clz _ _ d _ => laneUnit d
  | .cmp _ _ _ d _ _ => laneUnit d
  | .kop _ _ d _ _ => laneUnit d
  | .kopGet _ d _ _ => laneUnit d
  | .kopPut _ d _ _ => laneUnit d
  | .max _ _ d _ _ => laneUnit d
  | .min _ _ d _ _ => laneUnit d
  | .mov _ _ d _ => laneUnit d
  | .neg _ _ _ d _ => laneUnit d
  | .not _ _ d _ => laneUnit d
  | .or _ _ _ d _ _ => laneUnit d
  | .popc _ _ d _ => laneUnit d
  | .rot _ _ _ d _ _ => laneUnit d
  | .sel _ _ d _ _ _ => laneUnit d
  | .shl _ _ d _ _ => laneUnit d
  | .shr _ _ d _ _ => laneUnit d
  | .sub _ _ _ d _ _ => laneUnit d
  | .xor _ _ _ d _ _ => laneUnit d
  | .mul _ _ _ _ d _ _ => laneUnit d
  | .mad _ _ _ d _ _ _ => laneUnit d
  | .fadd _ d _ _ => laneUnit d
  | .fsub _ d _ _ => laneUnit d
  | .fmul _ d _ _ => laneUnit d
  | .fma _ d _ _ _ => laneUnit d
  | .fcmp _ _ d _ _ => laneUnit d
  | .fmax _ d _ _ => laneUnit d
  | .fmin _ d _ _ => laneUnit d
  | .fclass _ d _ _ => laneUnit d
  | .fscl _ d _ _ => laneUnit d
  | .cvt _ _ _ _ d _ => laneUnit d
  | .frnd _ _ d _ => laneUnit d
  | .pack _ _ d _ _ => laneUnit d
  | .unpack _ _ d _ _ => laneUnit d
  | .dot4 _ _ _ _ d _ _ _ => laneUnit d
  | .shq _ _ d _ _ => laneUnit d
  | .stinit _ d _ => laneUnit d
  | .packBlk _ _ _ _ => [uLane, uScratch]
  | .unpackBlk _ _ _ _ => [uLane, uScratch]
  | .frcp _ _ _ => [uSfu]
  | .fsqrt _ _ _ => [uSfu]
  | .frsq _ _ _ => [uSfu]
  | .fdiv _ _ _ _ => [uSfu]
  | .fexp2 _ _ _ => [uSfu]
  | .flog2 _ _ _ => [uSfu]
  | .ftanh _ _ _ => [uSfu]
  | .fsin _ _ _ => [uSfu]
  | .fcos _ _ _ => [uSfu]
  | .shfl _ _ _ _ _ _ => [uCross]
  | .vote _ _ _ _ => [uCross]
  | .bxch _ _ _ _ _ => [uCross]
  | .shseg _ _ _ _ => [uCross]
  | .scan _ _ _ _ _ _ _ => [uCross]
  | .scanlr _ _ _ _ _ _ => [uCross]
  | .lred _ _ _ _ _ _ => [uCross]
  | .stacc _ _ _ _ => [uStat]
  | .staccw _ _ _ _ _ => [uStat]
  | .stmrg _ _ _ _ => [uStat]
  | .stnorm _ _ _ _ _ _ => [uStat]
  | .stred _ _ _ _ _ => [uStat]
  | .stfin _ _ _ _ => [uStat]
  | .stld _ _ _ _ => [uScratch]
  | .stst _ _ _ _ => [uScratch]
  | .tagr _ _ _ _ => [uScratch]
  | .tagw _ _ _ _ => [uScratch]
  | .ld _ _ _ _ sh _ d a b => if v.toScratch sh d a b then [uScratch] else [uMemory]
  | .st _ _ _ sh _ d a b => if v.toScratch sh d a b then [uScratch] else [uMemory]
  | .gathLd _ _ _ _ _ _ => [uGather]
  | .gathSt _ _ _ _ _ => [uGather]
  | .atom _ _ _ _ _ _ _ _ => [uMemory]
  | .atomTree _ _ _ _ _ _ _ _ => [uMemory]
  | .atomq _ _ _ _ _ _ => [uMemory]
  | .shld _ _ _ => [uMemory]
  | .shwin _ _ _ => [uMemory]
  | .mma _ _ _ _ _ => [uMatrix]
  | .mmag _ _ _ _ _ => [uMatrix]
  | .mmaTrio _ _ _ _ _ _ => [uMatrix]
  | .mlda _ _ _ => [uMatrix]
  | .mzero _ _ => [uMatrix]
  | .mzeroAll _ => [uMatrix]
  | .mdrn _ _ _ _ _ _ _ _ _ => [uMatrix]
  | .rrot _ _ _ => [uRing]
  | .cpy1d _ _ _ _ _ => [uCopyQ]
  | .cpy2d _ _ _ _ _ _ => [uCopyQ]
  | .cpyTm _ _ _ _ _ _ => [uCopyQ]
  | .cpyb _ _ _ => [uCopyQ]
  | .coll _ _ _ _ _ => [uCollQ]
  | .xferSend _ _ _ => [uFabricQ]
  | .xferRecv _ _ _ _ => [uFabricQ]
  | .pair _ x y =>
    if (slotLd x).isSome || (slotLd y).isSome then [uLane, uScratch] else [uLane]
  | _ => []

/-- The units of an opcode (R76 to R79, R343), for a word that fails R344's steps 2 to 4: its instruction is the opcode's, so
it issues, and is checked, once they are free (log entry 12). Where the unit hangs on an operand's value (LD, ST) there is none. -/
def opcodeUnits (op : Nat) (d : Opd) : List Nat :=
  if (0x01 ≤ op ∧ op ≤ 0x18) ∨ (0x40 ≤ op ∧ op ≤ 0x4C) ∨ op = 0x88 ∨ op = 0x9B then laneUnit d
  else if 0x50 ≤ op ∧ op ≤ 0x58 then [uSfu]
  else if (0x80 ≤ op ∧ op ≤ 0x85) ∨ op = 0x9C then [uCross]
  else if 0x89 ≤ op ∧ op ≤ 0x8E then [uStat]
  else if 0xA4 ≤ op ∧ op ≤ 0xA7 then [uScratch]
  else if op = 0xC3 then [uGather]
  else if op = 0x98 ∨ op = 0x99 ∨ op = 0xA2 ∨ op = 0xA3 then [uMemory]
  else if 0xD0 ≤ op ∧ op ≤ 0xD4 then [uMatrix]
  else if op = 0xC2 then [uRing]
  else if op = 0xC0 ∨ op = 0xC1 then [uCopyQ]
  else if op = 0xC8 then [uFabricQ]
  else if op = 0xC9 then [uCollQ]
  else []

/-- The units of a word that does not decode. -/
def illUnits (w : BitVec 64) : List Nat :=
  if w.getLsbD 62 then [uLane]
  else opcodeUnits (w.extractLsb' 54 8).toNat ((opdOf (w.extractLsb' 33 11) 0).getD .none)

/-- Whether a word follows the predicate rule of R67 (a uniform or control word, or an engine command of one thread). -/
def runsByRule (i : Instr) : Bool :=
  match i with
  | .cpy1d _ _ _ _ _ => true
  | .cpy2d _ _ _ _ _ _ => true
  | .cpyTm _ _ _ _ _ _ => true
  | .cpyb _ _ _ => true
  | .xferSend _ _ _ => true
  | .xferRecv _ _ _ _ => true
  | .shld _ _ _ => true
  | .shwin _ _ _ => true
  | .claspArr _ _ => true
  | .claspWait _ _ _ => true
  | .role _ => true
  | i =>
    match i.form with
    | .full f => runsOnce f.d
    | _ => false

/-- The accesses a word awaits as a release or a clasp arrival (R167, R172): whether it is one, and whether of scope pod. A copy with
.FLAG is a release of scope package (R175, log entry 44); `View.startCopy` finds one of scope pod. -/
def awaits (i : Instr) : Option Bool :=
  match i with
  | .st _ k sc _ _ _ _ _ => if releases k sc then some (sc == .pod) else none
  | .atom _ _ _ k sc _ _ _ => if releases k sc then some (sc == .pod) else none
  | .atomTree _ _ _ k sc _ _ _ => if releases k sc then some (sc == .pod) else none
  | .atomq _ k sc _ _ _ => if releases k sc then some (sc == .pod) else none
  | .cpy1d _ flag _ _ _ => if flag then some false else none
  | .cpy2d _ _ flag _ _ _ => if flag then some false else none
  | .cpyTm _ _ flag _ _ _ => if flag then some false else none
  | .claspArr _ _ => some false
  | .claspWait _ _ _ => some false
  | _ => none

/-- The cores whose arrays an instruction takes. -/
def arraysOf (c : Nat) (i : Instr) : List Nat :=
  match i with
  | .mmaTrio _ _ _ _ _ _ => trioCores c
  | _ => [c]

/-- Whether a word is held before it issues: a unit it needs is taken (R79, R235), or earlier accesses (R167, R172) or
register results (R85, R86) are outstanding. A word of R67 that does not execute is not held. -/
def heldBeforeIssue (v : View) (i : Instr) : Bool :=
  if runsByRule i && !v.runs then false
  else
    ((unitsNeeded v i).any fun u => (arraysOf v.c i).any fun x => decide (v.now < (v.s.core x).freeFrom u))
      || (match awaits i with
          | some pod => !v.st.accsLanded v.now v.seq pod
          | none => false)
      || (match i with
          | .role _ => v.st.resultsOut v.now
          | _ => false)

/-! ## The rotation -/

/-- What the running cycle's next issue is: a word to run in a state that selects its strand, or a strand whose fetch
fault, decode fault or page walk has been taken. -/
inductive Pick where
  | run (i : Instr) (s : State)
  | took (s : State)
  deriving DecidableEq, Repr

/-- What one ready strand does in an issue frame: none when its word is held, `later` when it is an MMA.TRIO that lets
other cores go first (R235). -/
inductive Try where
  | held
  | later
  | pick (p : Pick)
  deriving DecidableEq, Repr

/-- One ready strand in an issue frame. -/
def State.tryStrand (s : State) (c i : Nat) (b : Blk) (st : Strand) (trio : Bool) : Try :=
  let s1 := { s with sel := some (c, i), served := c :: s.served }
  let fault (cause : Cause) (len : Nat) (a : Addr) (slotY : Bool := false) : Try :=
    .pick (.took ({ s1 with seq := s.seq + 1 }.trap c i st.pc len { cause := cause, threads := allThreads, addr := a, slotY := slotY }))
  match s.fetch c b st.pc with
  | .walk va => .pick (.took (s1.holdForWalk c i b.asid va))
  | .bad cause => fault cause 8 st.pc
  | .word w lit =>
    match decode w lit with
    | .error e =>
      if (illUnits w).any fun u => decide (s.now < (s.core c).freeFrom u) then .held
      else
        let cause := decodeCause st.cur w e
        fault cause (8 + litLen w) 0 (decodeSlotY st.cur w cause)
    | .ok ins =>
      match s1.view (ctlOf ins) with
      | none => .held
      | some v =>
        if heldBeforeIssue v ins then .held
        else
          match ins, trio with
          | .mmaTrio _ _ _ _ _ _, false => .later
          | _, _ => .pick (.run ins s1)

/-- The strands offered an issue frame, in order (R70, R71): the owner, and in loose discipline the other slots after it. -/
def Blk.offered (b : Blk) (j : Nat) : List Nat :=
  let owner := j % b.rot
  if b.loose then (List.range b.rot).map fun k => (owner + k) % b.rot else [owner]

/-- The first of some slots whose strand is ready and whose word is not held. -/
def State.pickSlot (s : State) (c : Nat) (b : Blk) (trio : Bool) : List Nat → Option Pick
  | [] => none
  | i :: is =>
    match b.slots[i]? with
    | none => s.pickSlot c b trio is
    | some st =>
      if st.ended.isSome || !st.waits.isEmpty then s.pickSlot c b trio is
      else
        match s.tryStrand c i b st trio with
        | .held => s.pickSlot c b trio is
        | .later => none
        | .pick p => some p

/-- The issue of one core in the running cycle, if an issue frame of its block begins in it and is not used yet (R70). -/
def State.pickCore (s : State) (trio : Bool) (c : Nat) (k : Core) : Option Pick :=
  match k.blk with
  | none => none
  | some b =>
    if s.served.contains c || b.exitAt.isSome || s.now < b.start || (s.now - b.start) % 3 ≠ 0 then none
    else s.pickSlot c b trio (b.offered ((s.now - b.start) / 3))

/-- The first core of a list that issues. -/
def State.pickFrom (s : State) (trio : Bool) : List (Nat × Core) → Option Pick
  | [] => none
  | (c, k) :: l =>
    match s.pickCore trio c k with
    | some p => some p
    | none => s.pickFrom trio l

/-- The next issue of the running cycle: cores in rising order, MMA.TRIO after every other core's word (R235). -/
def State.nextIssue (s : State) : Option Pick :=
  match s.pickFrom false s.cores with
  | some p => some p
  | none => s.pickFrom true s.cores

end Sys2Proof.Machine
end

