-- ==== Sys2Proof/Machine/Period.lean ====
section
/-! DEFINITION. Memory periods (R34 to R36, R43, R54, R161, R176): shares, the lines chosen for a period with their reads, what an operation has read, and its writes and atomics. -/

namespace Sys2Proof.Machine
open Sys2Proof

/-! ## What an operation has read -/

/-- The data and tag an operation has of a line: read here, or delivered by a RESP. -/
def MemOp.lineData (o : MemOp) (line : Nat) : Option (Block × Tag) :=
  match lineHome line with
  | none => (o.got.find? fun g => g.line == line).map fun g => (g.data, g.tag)
  | some p => (o.remote.find? fun r => r.pkg == p && r.line == lineAtHome line && r.data.isSome).bind (·.data)

/-- A byte at a translated address, as the operation read it. -/
def MemOp.byteAt (o : MemOp) (key : Nat) : Byte :=
  match o.lineData (key / 64) with
  | some p => p.1.extractLsb' (8 * (key % 64)) 8
  | none => 0

/-- n bytes from a translated address, little-endian. -/
def MemOp.natAt (o : MemOp) (key n : Nat) : Nat := leOf ((List.range n).map fun i => o.byteAt (key + i))

/-- The tag of a translated address's line. -/
def MemOp.tagAt (o : MemOp) (key : Nat) : Tag := match o.lineData (key / 64) with | some p => p.2 | none => 0

/-- Whether every remote record of an operation has been sent, its frame is over and its answers are in (R37). -/
def MemOp.remoteDone (o : MemOp) (now : Nat) : Bool :=
  o.remote.isEmpty ||
    ((match o.rland with | some t => dueBy t now | none => false) && o.remote.all fun r => !r.resp || r.data.isSome)

/-- Whether every line of data has moved. -/
def MemOp.dataDone (o : MemOp) (now : Nat) : Bool := o.todo.isEmpty && o.carry.isEmpty && o.remoteDone now

/-! ## Shares (R43) -/

/-- Bytes of one pattern period, and the offset of pattern k in the share section. -/
def patternPeriod : Nat := 8 * 1538 * 2
def patternOffset (img : Mem) (base : Nat) : Nat → Nat
  | 0 => base
  | k + 1 =>
    let o := patternOffset img base k
    o + 16 + smNat img o 4 * patternPeriod

/-- The share of a column of a stack in pattern period q of a slice of a part. -/
def Part.share (p : Part) (slice q stack col : Nat) : Nat :=
  let o := patternOffset p.img (p.section 2).1 (p.slicePattern slice)
  let n := smNat p.img o 4
  smNat p.img (o + 16 + (q % n) * patternPeriod + (stack * 1538 + col) * 2) 2

/-- The share in force in the running period (R43, R48, R49): none under an idle alternate or outside a slice. A line of host
memory spends no stack's share; before any Accord is installed only the host column moves lines, as many as the stack can
(R314, log entry 22). -/
def State.share (s : State) (stack col : Nat) : Nat :=
  if 8 ≤ stack then 2 ^ 32
  else
    match s.part with
    | some p =>
      if s.sch.active && s.sch.inForce != .alt 9 then p.share s.sch.slice (s.accord / 1024 - 2 * p.sliceFirst s.sch.slice) stack col else 0
    | none => if s.sch.main.isNone && col == 1537 then (if s.plat.stackAlt.getLsbD stack then 19200 else 24000) else 0

/-! ## Choosing a period's lines (R36, R54) -/

/-- Lines already chosen by stack and column, keyed 16·column + stack. -/
def spentKey (col stack : Nat) : Nat := 16 * col + stack

/-- Taking lines for an operation: those taken, those left, and the spending after it. -/
def State.takeLines (s : State) (col : Nat) : List Nat → List (Nat × Nat) → List Nat × List Nat × List (Nat × Nat)
  | [], used => ([], [], used)
  | l :: ls, used =>
    let key := spentKey col (stackOf l)
    let n := (aGet used key).getD 0
    if n < s.share (stackOf l) col then
      let r := s.takeLines col ls (aSet used key (n + 1))
      (l :: r.1, r.2.1, r.2.2)
    else
      let r := s.takeLines col ls used
      (r.1, l :: r.2.1, r.2.2)

/-- A line as read at this cycle (R161). -/
def State.readLine (s : State) (l : Nat) : Got := ⟨l, smBlock s.mem (64 * l), smGet s.tags l, s.horizon l, s.horizonFar l⟩

/-- Whether an operation may not land at the commit of the period that begins (R52). -/
def State.tooEarly (s : State) (o : MemOp) : Bool := s.now + 1023 < o.floor

/-- The lines that an operation has left, in the order in which they spend its share (R54): by address, but for the preload line of an
admission's stage 2, which comes before its table lines (R93). -/
def MemOp.spendOrder (o : MemOp) : List Nat :=
  let lines := dedupSorted (o.carry ++ o.todo)
  match o.done with
  | .stage _ (some l) _ => if lines.contains l then l :: lines.filter (· != l) else lines
  | _ => lines

/-- One operation's lines in a period that begins: carried lines, the reads of R161, a flag that follows its data (R153);
an operation without lines counts as carried (R36). One that may not land yet keeps its last line back (R52). -/
def State.chooseOp (s : State) (o : MemOp) (used : List (Nat × Nat)) : MemOp × List (Nat × Nat) :=
  let lines := o.spendOrder
  let back := if s.tooEarly o then lines.getLast?.toList else []
  let r := s.takeLines o.col (if s.tooEarly o then lines.dropLast else lines) used
  let o := { o with carry := r.1, todo := r.2.1 ++ back, carried := !(s.tooEarly o && lines.isEmpty) }
  let o := if o.reads then { o with got := (o.got.filter fun g => !r.1.contains g.line) ++ r.1.map s.readLine } else o
  match o.flag with
  | none => (o, r.2.2)
  | some f =>
    let stack := stackOf (f.1 / 64)
    let key := spentKey o.col stack
    let n := (aGet r.2.2 key).getD 0
    if o.todo.isEmpty && !s.tooEarly o && o.remoteDone s.now && (lineHome (f.1 / 64)).isNone && n < s.share stack o.col then
      ({ o with carryFlag := true }, aSet r.2.2 key (n + 1))
    else ({ o with carryFlag := false }, r.2.2)

/-- The place of an operation in its column: acceptance, then slot, then issue (R54). -/
def opBefore (x y : MemOp) : Bool :=
  x.acc < y.acc || (x.acc == y.acc && (x.key < y.key || (x.key == y.key && x.seq ≤ y.seq)))

/-- Stable insertion sort by an order. -/
def insertOp (lt : MemOp → MemOp → Bool) (o : MemOp) : List MemOp → List MemOp
  | [] => [o]
  | x :: l => if lt o x then o :: x :: l else x :: insertOp lt o l
def sortOps (lt : MemOp → MemOp → Bool) (l : List MemOp) : List MemOp := l.foldr (insertOp lt) []

/-- The uncorrectable lines that operations read in the period that has begun (R55). -/
def State.badRead (s : State) : List Nat :=
  dedupSorted (s.ops.flatMap fun o => if o.reads || !o.atoms.isEmpty then o.carry.filter s.badLines.contains else [])

/-- A line read with an uncorrectable error needs its retry in the period that begins, in a cycle after this one that no
program controls: a free value (R55, log entry 13). -/
def State.needRetry (s : State) (l : Nat) : State :=
  let r := s.draw
  { r.2 with inputs := r.2.inputs ++ [(s.now + 1 + r.1.toNat % 1022, .retryDetected (stackOf l) l true)] }

/-- The start of a memory period: the operations accepted before it take their lines in order (R54), and the uncorrectable
lines among them need their retries (R55). -/
def State.choosePeriod (s : State) : State :=
  let go := fun (p : List MemOp × List (Nat × Nat)) (o : MemOp) =>
    if o.acc < s.now then
      let r := s.chooseOp o p.2
      (p.1 ++ [r.1], r.2)
    else (p.1 ++ [o], p.2)
  let s := { s with ops := ((sortOps opBefore s.ops).foldl go ([], [])).1 }
  s.badRead.foldl State.needRetry s

/-! ## Writes and atomics (R176) -/

/-- Setting the horizon of lines (R167), with the strand whose accesses without a landing it rests on too. -/
def State.setHorizons (s : State) (ls : List Nat) (h : Nat) (far : Option (Nat × Nat × Nat) := none) : State :=
  { s with
    horizons := ls.foldl (fun m l => smSet m l (BitVec.ofNat 64 h)) s.horizons
    horFar := (s.horFar.filter fun x => !ls.contains x.1) ++ match far with | some f => ls.map fun l => (l, f) | none => [] }

/-- The horizon that an operation writes as it commits (R167): what its issue gave, and for a release narrower than pod the latest
landing of the strand's earlier accesses to other packages, as far as it is known, with the strand while it is not. -/
def State.horizonNow (s : State) (o : MemOp) : Nat × Option (Nat × Nat × Nat) :=
  let h := o.horizon.getD 0
  if !o.narrow then (h, none)
  else
    match s.strand o.col (o.key - 1) with
    | none => (h, none)
    | some st => (max h (st.farLatest o.seq), if st.farOpen o.seq then some (o.col, o.key - 1, o.seq) else none)

/-- The uncorrectable lines a write leaves so: a write of a whole line clears its error, a partial one does not (R323). -/
def leftBad (bad : List Nat) (bs : List (Nat × Byte)) : List Nat :=
  bad.filter fun l => !(List.range 64).all fun k => bs.any fun p => p.1 == 64 * l + k

/-- Writing bytes of memory, of one operation (R323). -/
def State.writeMem (s : State) (bs : List (Nat × Byte)) : State :=
  { s with mem := smWrites s.mem bs, badLines := leftBad s.badLines bs }

/-- Applying the local writes of an operation on some lines, with their tags and horizons. -/
def State.applyWrites (s : State) (o : MemOp) (ls : List Nat) (h : Nat × Option (Nat × Nat × Nat)) : State :=
  let bs := o.writes.filter fun p => ls.contains (p.1 / 64)
  let ts := o.wtags.filter fun p => ls.contains p.1
  let s := { s.writeMem bs with tags := smWrites s.tags ts }
  s.setHorizons (dedupSorted (bs.map fun p => p.1 / 64)) h.1 h.2

/-- The old value of an atomic and the bytes it leaves (R176, R358, R362). -/
def atomStep (m : Mem) (r : AtomReq) : BitVec 128 × List Byte :=
  let n := atomBytes r
  let old := smNat m r.pa n
  match r.tri with
  | some q => (BitVec.ofNat 128 old, triBytes (mergeTri (triOf old) q))
  | none => (BitVec.ofNat 128 old, bytesOf n (atomValue r.op r.ty (BitVec.ofNat 64 old) r.x r.y).toNat)

/-- Applying the atomics of an operation on some lines in thread order; the operation keeps the old values. -/
def State.applyAtoms (s : State) (o : MemOp) (ls : List Nat) : State × MemOp :=
  let mine := sortBy (·.thread) (o.atoms.filter fun r => ls.contains (r.pa / 64))
  let go := fun (p : Mem × List (Nat × BitVec 128)) (r : AtomReq) =>
    let x := atomStep p.1 r
    (smWrites p.1 (addressed r.pa x.2), p.2 ++ [(r.thread, x.1)])
  let r := mine.foldl go (s.mem, [])
  let s := { s with mem := r.1 }
  let h := s.horizonNow o
  let s := if o.keepHor then s else s.setHorizons (dedupSorted (mine.map fun r => r.pa / 64)) h.1 h.2
  (s, { o with olds := o.olds ++ r.2 })

/-! ## Landing an operation of a strand -/

/-- The strand slot of an operation of a core. -/
def MemOp.slot (o : MemOp) : Nat := o.key - 1

/-- The access of an operation lands, for the fences (R165). -/
def Strand.landAcc (st : Strand) (seq now : Nat) : Strand :=
  { st with accs := st.accs.map fun a => if a.seq == seq then { a with land := some now } else a }

/-- The register results of an operation become known and land (R134). -/
def Strand.landPend (st : Strand) (seq now : Nat) (ws : List RegW) : Strand :=
  { st with pend := st.pend.map fun p => if p.seq == seq && p.land.isNone then { p with land := some now, writes := ws } else p }

/-- An operation's result lands at its strand. -/
def State.landResult (s : State) (o : MemOp) (ws : List RegW) : State :=
  if o.key = 0 || 8 < o.key then s
  else s.modStrand o.col o.slot fun st => (st.landAcc o.seq s.now).landPend o.seq s.now ws

/-- Whether an operation is a strand's: its access or its register results are. -/
def Strand.owns (st : Strand) (seq : Nat) : Bool := (st.accs.any fun a => a.seq == seq) || st.pend.any fun p => p.seq == seq

/-- A fault of an operation, raised in the next cycle; nothing is written (R287). -/
def State.lateOp (s : State) (o : MemOp) (word : Addr) (len : Nat) (f : Trap) : State :=
  let mine := match s.strand o.col o.slot with | some st => st.owns o.seq | none => false
  let s := s.landResult o []
  s.modStrand o.col o.slot fun st =>
    if st.ended.isSome || !mine then st else { st with late := st.late ++ [⟨s.now + 1, word, len, f⟩] }

/-- The registers a loaded run of words goes to. -/
def loadWrites (toS : Bool) (d t : Nat) (xs : List Word) : List RegW :=
  xs.zipIdx.map fun p => if toS then RegW.s (d + p.2) p.1 else RegW.v (d + p.2) t p.1

/-- The register writes of a load (R392). -/
def MemOp.loadWrites (o : MemOp) (toS : Bool) (d : Nat) (t : LdTy) (lanes : List (Nat × Option (Nat × Addr))) : List RegW :=
  lanes.flatMap fun p =>
    Sys2Proof.Machine.loadWrites toS d p.1 (ldWords t (match p.2 with | some k => o.natAt k.1 (ldBytes t) | none => 0))

/-- The number of the record that carries a thread's atomic on a line (R258). -/
def MemOp.placeOf (o : MemOp) (t line : Nat) : Nat :=
  (((atomPlaces (o.atoms.filter fun r => r.pa / 64 == line)).find? fun p => p.1.thread == t).map (·.2)).getD 0

/-- The old value an atomic of a thread fetched: here, or in its RESP (R258). -/
def MemOp.oldOf (o : MemOp) (bytes t : Nat) (pa : Nat) : BitVec 128 :=
  match o.olds.find? fun p => p.1 == t with
  | some p => p.2
  | none =>
    match o.remote.find? fun r => r.thread == o.placeOf t (pa / 64) && some r.pkg == lineHome (pa / 64)
        && r.line == lineAtHome (pa / 64) && r.data.isSome with
    | some r => match r.data with
      | some d => BitVec.ofNat 128 (d.1.toNat / 2 ^ (8 * (pa % 64)) % 2 ^ (8 * bytes))
      | none => 0
    | none => 0

/-! ## Shape registers from lines (R202, R217, R218) -/

/-- A header as a shape register with w = 0, o = 0 and no window. -/
def headerOf (f : Nat → Nat → Nat) : ShapeReg where
  valid := true
  fresh := false
  magicOk := f 0 4 == 0x47415253 && f 4 2 == 1
  seqs := BitVec.ofNat 32 (f 8 4)
  total := BitVec.ofNat 32 (f 0xC 4)
  pitch := BitVec.ofNat 32 (f 0x10 4)
  width := BitVec.ofNat 16 (f 0x14 2)
  format := BitVec.ofNat 8 (f 0x16 1)
  flags := BitVec.ofNat 16 (f 6 2)
  btab := BitVec.ofNat 64 (f 0x18 8)
  gtab := BitVec.ofNat 64 (f 0x20 8)
  w := 0
  o := 0
  win := []

/-- The window at x: entry k from the lines read, and T above S (R204). -/
def windowOf (g : ShapeReg) (x : Nat) (entry : Nat → Nat) : SMap 32 :=
  (List.range 64).foldl (fun m k => smSet m k (if g.seqs.toNat < x + k then g.total else BitVec.ofNat 32 (entry (x + k)))) []

/-- Entry j of a boundary table among lines that begin at the line of entry x. -/
def MemOp.entryAt (o : MemOp) (pas : List (Nat × Addr)) (x j : Nat) : Nat :=
  match pas[4 * j / 64 - 4 * x / 64]? with
  | some p => o.natAt (p.1 + 4 * j % 64) 4
  | none => 0

end Sys2Proof.Machine
end

