-- ==== Sys2Proof/Machine/Launch.lean ====
section
/-! DEFINITION. Launch records, admission and the end of blocks (04_launch.md): LAUNCH, the admission stages, the firing of launch entries, block start, strand departure, block exit. -/

namespace Sys2Proof.Machine
open Sys2Proof

/-! ## Launch entries (R41, R42) -/

/-- A launch entry of a core: its index within the core's entries and its fields (R41). -/
structure LEntry where
  ix : Nat
  fire : Nat
  recAt : Addr
  asid : Nat
  cls : Nat
  free : Bool
  valid : Bool
  slice : Nat
  hold : Nat
  deriving DecidableEq, Repr

/-- First entry and count of a core, from the index of section 1 (R40). -/
def Part.coreEntries (p : Part) (c : Nat) : Nat × Nat :=
  let o := (p.section 1).1
  (smNat p.img (o + 8 * c) 4, smNat p.img (o + 8 * c + 4) 4)

/-- Entry i of a core, as the image holds it. -/
def Part.entry (p : Part) (c i : Nat) : LEntry :=
  let o := (p.section 1).1 + 8 * 1536 + 32 * ((p.coreEntries c).1 + i)
  let f (k n : Nat) : Nat := smNat p.img (o + k) n
  { ix := i, fire := f 0 8, recAt := BitVec.ofNat 64 (f 8 8), asid := f 0x10 2, cls := f 0x12 1,
    free := f 0x13 1 / 2 % 2 == 1, valid := f 0x13 1 % 2 == 1, slice := f 0x14 4, hold := f 0x18 4 }

/-- An entry that LAUNCH has filled (R100). -/
def LEntry.fill (e : LEntry) (f : Filled) : LEntry :=
  { e with fire := f.fire, recAt := f.record, asid := f.asid, cls := f.cls, hold := 0, free := false, valid := true }

/-- Entry i of a core in the schedule in force. -/
def State.key (s : State) (i : Nat) : EntryKey := ⟨s.sch.partNo, s.sch.inForce, i⟩

/-- The entries of a core in the part in force, with those of it that LAUNCH has filled by a tick (R48, R100). -/
def State.entries (s : State) (c seen : Nat) : List LEntry :=
  match s.part with
  | none => []
  | some p =>
    (List.range (p.coreEntries c).2).map fun i =>
      let e := p.entry c i
      match s.sch.filled.find? fun f => f.key == s.key i && f.core == c && decide (f.at_ ≤ seen) with
      | some f => e.fill f
      | none => e

/-- The slice of the running part that contains an Accord time. -/
def Part.sliceAt (p : Part) (t : Nat) : Option Nat :=
  (List.range p.sliceCount).find? fun i =>
    2048 * p.sliceFirst i ≤ t && t < 2048 * (p.sliceFirst i + p.sliceFrames i)

/-! ## LAUNCH (R99, R100) -/

/-- A core's entries in cursor order: by fire time, class, index (R41, R95). -/
def cursorOrder (es : List LEntry) : List LEntry := sortBy (·.fire) (sortBy (·.cls) (sortBy (·.ix) es))

/-- The lowest-indexed suitable entry of a core for T: free, of the slice, and with T between the fire times of the entries before
and after it in cursor order (R99, R100). -/
def suitable (es : List LEntry) (t slice : Nat) : Option LEntry :=
  let l := cursorOrder es
  (sortBy (·.ix) ((l.zipIdx.filter fun p =>
    p.1.free && !p.1.valid && p.1.slice == slice
      && (p.2 == 0 || (match l[p.2 - 1]? with | some e => decide (e.fire ≤ t) | none => true))
      && (match l[p.2 + 1]? with | some e => decide (t ≤ e.fire) | none => true)).map (·.1))).head?

/-- What LAUNCH finds: a code, or the entries to fill, one for each core of the set (R100). -/
def State.launchCheck (s : State) (die first count t : Nat) (reserved : Bool) : Except Nat (List (Nat × LEntry)) :=
  if count = 0 ∨ 192 < first + count ∨ reserved then .error 3
  else if t < s.accord + 10240 then .error 2
  else
    match s.part with
    | none => .error 2
    | some p =>
      match p.sliceAt t with
      | none => .error 2
      | some i =>
        if t - 8192 < 2048 * p.sliceFirst i then .error 2
        else
          let es := (List.range count).map fun k =>
            let c := 192 * die + first + k
            (c, suitable (s.entries c (s.now + 64)) t i)
          if es.any fun e => e.2.isNone then .error 1
          else .ok (es.filterMap fun e => e.2.map fun x => (e.1, x))

/-- LAUNCH (R100): all entries or none; they are seen from issue + 64, where the code lands. -/
def execLaunch (c : Ctl) (d a b e : Opd) (s : State) :=
  issue s c true [wr d, rd2 a, rd2 b, rd e] fun v =>
    let t := (v.quad false a v.leader).toNat
    let set := v.word e v.leader
    let first := (set.extractLsb' 0 8).toNat
    let count := (set.extractLsb' 8 8).toNat
    let cls := (set.extractLsb' 16 2).toNat
    let cls := if cls < v.st.cur.cls then v.st.cur.cls else cls
    let found := v.s.launchCheck (dieOf v.c) first count t (set.extractLsb' 18 14 != 0)
    let code := match found with | .error n => n | .ok _ => 0
    let fills : List Filled := match found with
      | .error _ => []
      | .ok es => es.map fun x => ⟨v.s.key x.2.ix, x.1, t, v.quad false b v.leader, v.b.asid, cls, !v.b.loose, v.now + 64⟩
    let give := v.land (v.now + 64) (writeTo d false v.leader (BitVec.ofNat 64 code))
    .ok { post := andThen give fun s => { s with sch := { s.sch with filled := s.sch.filled ++ fills } } }

/-! ## Launch records (R89 to R91) -/

/-- A field of a record. -/
def recField (r : SMap 8) (o n : Nat) : Nat := smNat r o n

/-- Whether a record names the loose discipline. -/
def recLoose (r : SMap 8) : Bool := recField r 0x0D 1 / 128 == 1

/-- A flag of a record. -/
def recFlag (r : SMap 8) (k : Nat) : Bool := (recField r 0x0F 1).testBit k

/-- Whether an allotment's register counts are within limits (R89). -/
def countsOk (v s q : Nat) : Bool := v % 8 == 0 && within 8 248 v && within 3 64 s && q ≤ 4

/-- Whether the segment descriptors are valid (R90, R136). -/
def segmentsOk (r : SMap 8) : Bool :=
  let d (j : Nat) : Nat := recField r (0x10 + 4 * j) 4
  let base (j : Nat) : Nat := d j % 2 ^ 12
  let size (j : Nat) : Nat := d j / 2 ^ 16 % 2 ^ 13
  (List.range 4).all (fun j =>
    d j / 2 ^ 29 != 7 && d j / 2 ^ 12 % 16 == 0 && size j ≤ 4096 && (size j == 0 || base j + size j ≤ 4096)
      && (size j == 0 || d j / 2 ^ 29 == 0 || (base j % 4 == 0 && size j % 4 == 0)))
  && (List.range 4).all fun i => (List.range 4).all fun j =>
    i == j || size i == 0 || size j == 0 || decide (base i + size i ≤ base j) || decide (base j + size j ≤ base i)

/-- Whether bytes of a record are all zero. -/
def recZero (r : SMap 8) (o n : Nat) : Bool := recField r o n == 0

/-- Whether every field of a record is within R89 and R90, and its reserved fields zero as R98 has it (log entry 30). The alignment of
the preload table is asked for only where flags[2] has it used: R89 does not say (DESIGN CHOICE, log entry 67). -/
def recordOk (r : SMap 8) : Bool :=
  let f := recField r
  let mode := f 0x0D 1
  let l := mode % 16
  f 0 8 % 4 == 0 && within 1 8 (f 8 1) && f 8 1 ≤ l && within 1 8 l && mode / 16 % 8 == 0
    && within 1 96 (f 9 1) && countsOk (f 0xA 1) (f 0xB 1) (f 0xC 1)
    && f 0xE 1 ≤ 16 && f 0xF 1 < 8 && segmentsOk r
    && f 0x20 1 ≤ 127 && f 0x21 1 ≤ 128 && f 0x20 1 + f 0x21 1 ≤ 128
    && f 0x22 2 % 64 == 0 && f 0x22 2 ≤ 16384 && recZero r 0x24 4
    && (f 0x22 2 == 0 || f 0x28 8 % 65536 == 0)
    && f 0x30 8 % 64 == 0 && (!recFlag r 2 || f 0x38 8 % 64 == 0)
    && f 0x40 8 % 64 == 0 && f 0x40 8 != 0
    && (!recFlag r 1 || (f 0x58 1 ≤ 63 && 1 ≤ f 0x59 1 && 1 ≤ f 0x5A 1 && recZero r 0x5B 1 && 1 ≤ f 0x5C 2 && recZero r 0x5E 2))
    && (!recFlag r 0 || (f 0x60 8 % 4 == 0 && countsOk (f 0x68 1) (f 0x69 1) (f 0x6A 1) && f 0x6B 1 ≤ 3))
    && recZero r 0x6C 20

/-- The count of R91. -/
def recWords (r : SMap 8) : Nat :=
  let f := recField r
  f 8 1 * (96 * (f 0xA 1 + 4 * f 0xC 1) + f 0xB 1)
    + if recFlag r 0 then f 8 1 * (96 * (f 0x68 1 + 4 * f 0x6A 1) + f 0x69 1) else 0

/-- Launch results (R98). -/
def resAdmitted : Nat := 0
def resBadrec : Nat := 1
def resNofit : Nat := 2
def resXlate : Nat := 3
def resArena : Nat := 4
def resMemunc : Nat := 5

/-- Words of an exit status word (R290). -/
def statusRunning : Nat := 0xFE
def statusNone : Nat := 0xFF

/-! ## Operations of a core that no strand issues -/

/-- An operation of a column with nothing moved yet. -/
def rawOp (seq col key acc : Nat) (lines : List Nat) (done : Done) : MemOp where
  seq := seq
  col := col
  key := key
  acc := acc
  todo := (dedupSorted lines).filter fun l => (lineHome l).isNone
  carry := []
  carried := false
  flag := none
  carryFlag := false
  acqPod := false
  reads := true
  atEnd := false
  got := []
  writes := []
  wtags := []
  horizon := none
  keepHor := false
  narrow := false
  atoms := []
  olds := []
  remote := []
  rland := none
  bad := []
  floor := 0
  loose := false
  done := done

/-- A read of lines for a column, accepted at a tick (R54, R93). -/
def State.startRead (s : State) (col key acc : Nat) (lines : List Nat) (done : Done) : State :=
  { s with seq := s.seq + 1 }.launchOp (rawOp s.seq col key acc lines done) (remoteLoads lines)

/-- A store for a column, accepted at a tick; `loose` for one of a loose block, `done` for what its landing does. -/
def State.startStore (s : State) (col key acc : Nat) (bytes : List (Nat × Byte)) (loose : Bool := false)
    (done : Done := .nothing) : State :=
  let lines := bytes.map fun p => p.1 / 64
  let o := { rawOp s.seq col key acc lines done with
    reads := false, horizon := some 0, loose := loose, writes := bytes.filter fun p => (lineHome (p.1 / 64)).isNone }
  { s with seq := s.seq + 1 }.launchOp o (remoteStores lines bytes)

/-- The translation of an address for a core outside issue: a miss that a page-table entry serves is no fault (R305). -/
def State.pageKey (s : State) (c asid va : Nat) (n : Need) : Except Cause Nat :=
  match s.translate c asid va n with
  | .ok k => .ok k
  | .bad e => .error e
  | .walk _ =>
    match s.pages.find? fun p => p.covers asid va with
    | none => .error .xlate
    | some p =>
      if p.host && !(smGet s.host.pasid asid).getLsbD 31 then .error .xlate
      else if (n.w && !p.w) || (n.a && !(p.a && p.w)) then .error .perm
      else .ok (p.target va)

/-- Translating a run of line addresses; the first fault. -/
def State.pageKeys (s : State) (c asid : Nat) (n : Need) : List Nat → Except Cause (List Nat)
  | [] => .ok []
  | a :: l =>
    match s.pageKey c asid a n, s.pageKeys c asid n l with
    | .ok k, .ok ks => .ok (k :: ks)
    | .error e, _ => .error e
    | _, .error e => .error e

/-- The exit status words of eight slots, n of them running. -/
def statusWords (n : Nat) : List Byte :=
  (List.range 8).flatMap fun i => bytesOf 4 (if i < n then statusRunning else statusNone)

/-- A store to the status area of a block on a core, of loose discipline or not (R92, R97); false where the area cannot be
written. -/
def State.statusStore (s : State) (c asid : Nat) (base : Addr) (acc off : Nat) (bs : List Byte) (loose : Bool) : State × Bool :=
  if 2 ^ 57 ≤ base.toNat + 64 * c then (s, false)
  else
    match s.pageKey c asid (base.toNat + 64 * c) { w := true } with
    | .ok k => (s.startStore c 16 acc (addressed (k + off) bs) loose, true)
    | .error _ => (s, false)

/-- The LAUNCH event (R98, R282). -/
def State.launchEvent (s : State) (c ix code : Nat) : State :=
  s.event evLaunch (smWrite [] 0 (bytesOf 5 (c + 2 ^ 16 * ix + 2 ^ 32 * code))) c 0

/-! ## Admission stages (R93) -/

/-- Changing an entry's admission. -/
def State.modAdm (s : State) (c : Nat) (key : EntryKey) (f : Adm → Adm) : State :=
  s.modCore c fun k => { k with adms := k.adms.map fun a => if a.key == key then f a else a }

/-- The Accord time at which stage n of an entry is accepted at the earliest. -/
def stageTime (fire n : Nat) : Nat := fire - (8192 - 2048 * (n - 1))

/-- The line addresses a stage reads (R93): each with what it stands for. A record address given to LAUNCH that is not 128-byte
aligned is read where it stands, in two line addresses from it; bytes past the lines so fetched read as 0: the spec names no check
of it (DESIGN CHOICE, log entry 38). -/
def Adm.stageLines (a : Adm) (c n : Nat) : List Nat :=
  let f := recField a.record
  match n with
  | 1 => [a.recAt.toNat, a.recAt.toNat + 64]
  | 2 =>
    (if recFlag a.record 2 then [f 0x38 8] else [])
      ++ if f 0x30 8 = 0 then [] else (List.range 33).map fun k => f 0x30 8 + 2112 * (c % 192) + 64 * k
  | 3 => (List.range 8).filterMap fun g => let p := smGet a.preload g; if p = 0 then none else some p.toNat
  | _ => (a.headers.filter fun h => h.2.headerOk).flatMap fun h => (List.range 4).map fun k => h.2.btab.toNat + 64 * k

/-- The arena part of a core in a record, as a range of addresses (R92). -/
def recArena (r : SMap 8) (c : Nat) : Nat × Nat :=
  let n := recField r 8 1 * recField r 9 1 * recField r 0x22 2
  (recField r 0x28 8 + c * n, n)

/-- The physical base of the arena part (R133): XLATE where it has no translation (R283), ARENA where it leaves its page. -/
def State.arenaKey (s : State) (asid : Nat) (r : SMap 8) (c : Nat) : Except Nat Nat :=
  let a := recArena r c
  if a.2 = 0 then .ok 0
  else
    match s.pages.find? fun p => p.covers asid a.1 with
    | some p => if !p.w || p.host && !(smGet s.host.pasid asid).getLsbD 31 then .error resXlate else if a.1 + a.2 ≤ p.va + p.size then .ok (p.target a.1) else .error resArena
    | none => .error resXlate

/-- A stage's end with a result (R98). -/
def State.failStage (s : State) (c : Nat) (a : Adm) (n result : Nat) : State :=
  s.modAdm c a.key fun a => { a with stage := n, landed := s.now, result := some result }

/-- A stage accepted (R93). A translation fault ends the stages with XLATE; stage 2 translates the arena part (R133): of the two a line's
XLATE comes first, and both before a BADREC that the lines of stage 2 would give (R98 ranks none; DESIGN CHOICE, log entry 67). -/
def State.startStage (s : State) (c : Nat) (a : Adm) (n : Nat) : State :=
  let lines := a.stageLines c n
  if lines.any fun l => 2 ^ 57 ≤ l then s.failStage c a n resXlate
  else
    match s.pageKeys c a.asid {} lines, (if n = 2 then s.arenaKey a.asid a.record c else .ok a.arena) with
    | .error _, _ => s.failStage c a n resXlate
    | _, .error e => s.failStage c a n e
    | .ok ks, .ok base =>
      let first := if n = 2 && recFlag a.record 2 then (ks.head?).map fun k => k / 64 else none
      let s := s.modAdm c a.key fun a => { a with stage := n, busy := true, arena := base }
      s.startRead c 0 s.now (ks.map fun k => k / 64) (.stage a.key first (ks.map some))

/-- An entry taken up by the cursor. -/
def LEntry.adm (e : LEntry) (key : EntryKey) : Adm where
  key := key
  fire := e.fire
  asid := e.asid
  cls := e.cls
  hold := e.hold
  recAt := e.recAt
  stage := 0
  landed := 0
  busy := false
  record := []
  preload := []
  headers := []
  table := []
  arena := 0
  result := none
  known := false
  slow := false
  late := false

/-- The entries of the running slice that the cursor has to take up: stage 1 is due and they are not passed over (R101). An idle
alternate has none (R48). -/
def State.newEntries (s : State) (c : Nat) : List LEntry :=
  if !s.sch.active || s.sch.inForce == .alt 9 then []
  else (s.entries c s.now).filter fun e =>
    e.valid && e.slice == s.sch.slice && decide (stageTime e.fire 1 ≤ s.accord)
      && !((s.core c).adms.any fun a => a.key == s.key e.ix) && !s.sch.consumed.contains (c, s.key e.ix)

/-- The next stage of an entry, if it is due: at its cycle, and after the stage before has landed (R93). After a stage that found
BADREC, XLATE, ARENA or MEMUNC no later stage runs; NOFIT is found only once all have landed, so a later XLATE, MEMUNC or ARENA
comes before it: the spec does not say (DESIGN CHOICE, log entry 38). -/
def State.stageDue (s : State) (a : Adm) : Option Nat :=
  if a.busy || a.result.isSome || 4 ≤ a.stage then none
  else if decide (stageTime a.fire (a.stage + 1) ≤ s.accord) && (a.stage == 0 || a.landed < s.now) then some (a.stage + 1)
  else none

/-- ADMISSION_STAGE (R93): entries whose first stage is due are taken up, and every stage that is due is accepted, those of one cycle in
the order of the stages' table; of one stage, in the order in which their entries were taken up (DESIGN CHOICE, log entry 55). -/
def execAdmissionStage (c : Nat) (s : State) : Host.Outcome State Fault Refusal :=
  let s := s.modCore c fun k => { k with adms := k.adms ++ (s.newEntries c).map fun e => e.adm (s.key e.ix) }
  .next ((sortBy (fun a => a.stage) (s.core c).adms).foldl (fun s a => match s.stageDue a with | some n => s.startStage c a n | none => s) s)

/-- A stage's lines as landed: what the entry keeps of them (R93, R98, R102, R206). -/
def Adm.landStage (a : Adm) (o : MemOp) (pas : List Nat) (now : Nat) : Adm :=
  let a := { a with busy := false, landed := now }
  let bytes (k n : Nat) : List Byte := (List.range n).map fun i => o.byteAt (pas.getD (k + i / 64) 0 + i % 64)
  if !o.bad.isEmpty then { a with result := some resMemunc }
  else
    match a.stage with
    | 1 =>
      let r := smWrite [] 0 (bytes 0 128)
      { a with record := r, known := true, result := if recordOk r then none else some resBadrec }
    | 2 =>
      let pre : SMap 64 := if recFlag a.record 2 then
          (List.range 8).foldl (fun m g => smSet m g (BitVec.ofNat 64 (leOf ((bytes 0 64).drop (8 * g) |>.take 8)))) []
        else []
      let first := if recFlag a.record 2 then 1 else 0
      let table := if recField a.record 0x30 8 = 0 then [] else smWrite [] 0 (bytes first 2112)
      let badPre := pre.any fun p => p.2.toNat % 64 != 0 || 2 ≤ p.2.toNat / 2 ^ 56
      { a with preload := pre, table := table,
               result := if badPre || 256 < smNat table 0 4 then some resBadrec else none }
    | 3 =>
      let gs := (List.range 8).filter fun g => smGet a.preload g != 0
      { a with headers := gs.zipIdx.map fun p => (p.1, headerOf fun o n => leOf ((bytes p.2 64).drop o |>.take n)) }
    | _ =>
      let ok := a.headers.filter fun h => h.2.headerOk
      { a with headers := a.headers.map fun h =>
          match ok.findIdx? fun x => x.1 == h.1 with
          | none => (h.1, h.2.recheck)
          | some i => (h.1, ({ h.2 with win := windowOf h.2 0 fun j => leOf ((bytes (4 * i + j / 16) 64).drop (4 * (j % 16)) |>.take 4) }).recheck) }

/-- Whether a core belongs to a fenced trio (R314). -/
def State.fencedCore (s : State) (c : Nat) : Bool := s.plat.fenced.any fun f => f.1 == dieOf c && f.2 == c / 3 % 64

/-- An entry once a stage has landed: on a core of a fenced trio its record, when it is known, gives BADREC (R314). -/
def Adm.judge (a : Adm) (fenced : Bool) : Adm := if fenced && a.known && a.result.isNone then { a with result := some resBadrec } else a

/-- A stage lands: too late for fixed discipline at or after the next stage's cycle, the fourth after the fire time; where its
record is known and fixed after the fire time, STALL comes in the next cycle (R93). -/
def State.landStage (s : State) (o : MemOp) (key : EntryKey) (pas : List (Option Nat)) : State :=
  let s := s.modAdm o.col key fun a =>
    let due := if a.stage < 4 then stageTime a.fire (a.stage + 1) else a.fire + 1
    { (a.landStage o (pas.filterMap id) s.now).judge (s.fencedCore o.col) with slow := a.slow || decide (due ≤ s.accord) }
  match (s.core o.col).adms.find? fun a => a.key == key with
  | some a =>
    if a.stage == 1 && a.known && !recLoose a.record && a.result.isNone && a.fire < s.accord then
      (s.stallAt o.col (s.now + 1)).modAdm o.col key fun a => { a with late := true }
    else s
  | none => s

/-! ## Firing (R94, R95) -/

/-- Whether a core is free (R94): no block resident, past its exit and its reservation. -/
def State.coreFree (s : State) (c : Nat) : Bool :=
  let k := s.core c
  k.blk.isNone && decide (k.freeAt ≤ s.now) && k.resEnd == 0

/-- The result of an entry whose stages are over (R98). -/
def Adm.launchResult (a : Adm) : Nat :=
  match a.result with
  | some n => n
  | none =>
    if 65536 < recWords a.record then resNofit
    else resAdmitted

/-- What the first entry of a core's cursor does in the running cycle. -/
inductive FireDo where
  | wait
  | consume (key : EntryKey) (code : Nat)
  | admitBlock (key : EntryKey)
  | stall (key : EntryKey)
  deriving DecidableEq, Repr

/-- The entries not consumed, in the order the cursor visits them (R95). -/
def State.waitingAdms (s : State) (c : Nat) : List Adm :=
  sortBy (fun a => a.fire) (sortBy (fun a => a.cls) (sortBy (fun a => a.ix) ((s.core c).adms.filter fun a => a.stage != 9)))

/-- Whether an entry is known to name fixed discipline, and whether its stages are over. -/
def Adm.fixed (a : Adm) : Bool := a.known && !recLoose a.record
def Adm.past (a : Adm) : Bool := a.result.isSome || (a.stage == 4 && !a.busy)

/-- What the first entry in cursor order does (R93, R94), once its fire time and its stages are past. A fixed entry that can not
be admitted at its fire time raises STALL. One that is rejected is consumed with its result, also where a stage of it was late
(DESIGN CHOICE, log entry 54). -/
def State.fireHead (s : State) (c : Nat) (a : Adm) : FireDo :=
  if s.accord < a.fire || a.late then .wait
  else
    let ready := a.past && (a.landed < s.now || (a.fixed && a.landed ≤ s.now))
    if a.fixed && a.result.isNone && (a.slow || !ready) then .stall a.key
    else if !ready then .wait
    else
      let code := a.launchResult
      if code ≠ 0 then .consume a.key code
      else if s.coreFree c && !(a.fixed && a.fire < s.accord) then .admitBlock a.key
      else if a.fixed then .stall a.key
      else .wait

/-- Whether a fixed entry behind the first one raises STALL (R94): its fire time has come, and the one before it waits. -/
def State.fixedBehind (s : State) (a : Adm) : Bool :=
  a.fixed && !a.late && decide (a.fire ≤ s.accord) && a.result.isNone && (!a.past || a.launchResult == 0)

/-- What firing does on a core (R93, R94). -/
def State.fireDo (s : State) (c : Nat) : FireDo :=
  match s.waitingAdms c with
  | [] => .wait
  | a :: l =>
    match s.fireHead c a with
    | .wait => (match l.find? s.fixedBehind with | some b => .stall b.key | none => .wait)
    | d => d

/-- An allotment as R96 leaves it. -/
def initRegs (nv ns nq threads : Nat) (arg : BitVec 64) (resume : Addr) (cls : Nat) : Regs where
  nv := nv
  ns := ns
  nq := nq
  v := []
  s := smSet (smSet [] 0 (if 4 ≤ ns then arg.extractLsb' 0 32 else 0)) 1 (if 5 ≤ ns then arg.extractLsb' 32 32 else 0)
  am := threadMask threads
  q := []
  resume := resume
  cls := cls

/-- A strand at its start (R96). -/
def initStrand (threads : Nat) (cur : Regs) (alt : Option Regs) (g : List (Nat × ShapeReg)) : Strand where
  threads := threads
  pc := cur.resume
  cur := cur
  alt := alt
  curIx := false
  k := []
  lc := []
  loops := []
  fstat := []
  regioncnt := 0
  stepcnt := 0
  tl := []
  tvec := 0
  inHandler := false
  fword := 0
  flen := 0
  lastWord := 0
  frec := 0
  g := g
  pend := []
  accs := []
  eops := []
  waits := []
  late := []
  entry := cur.resume
  snap := ⟨[], [], []⟩
  passPrem := false
  ended := none

/-- The block a record gives (R89, R96). -/
def launchBlk (a : Adm) (tickStart : Nat) : Blk :=
  let f := recField a.record
  let arg := BitVec.ofNat 64 (f 0x48 8)
  let r0 := initRegs (f 0xA 1) (f 0xB 1) (f 0xC 1) (f 9 1) arg (BitVec.ofNat 64 (f 0 8)) a.cls
  let r1 := if recFlag a.record 0 then
      some (initRegs (f 0x68 1) (f 0x69 1) (f 0x6A 1) (f 9 1) arg (BitVec.ofNat 64 (f 0x60 8)) (f 0x6B 1 % 4))
    else none
  let n := f 8 1
  { entryIx := a.ix, asid := a.asid, loose := recLoose a.record, fresh := true, rot := f 0xD 1 % 16, fire := a.fire,
    hold := a.hold, start := tickStart, record := a.record, arena := a.arena, stack := f 0x22 2, table := a.table,
    tableN := smNat a.table 0 4, cursor := 0, coords := none,
    slots := (List.range n).map fun _ => initStrand (f 9 1) r0 r1 a.headers,
    clasps := (List.range (f 0xE 1)).map fun j => (j, ⟨BitVec.ofNat 8 (2 ^ n - 1), 0, 0, 0, 0⟩),
    code := [], pages := [], exitAt := none }

/-- The consumption store of an admission (R97). -/
def admitBytes (n start : Nat) : List Byte := statusWords n ++ bytesOf 8 resAdmitted ++ bytesOf 8 start

/-- The consumption store, or the LAUNCH event where it is impossible (R98). -/
def State.consumeStore (s : State) (c : Nat) (a : Adm) (code : Nat) (bs : List Byte) : State :=
  if !a.known then s.launchEvent c a.ix code
  else
    let r := s.statusStore c a.asid (BitVec.ofNat 64 (recField a.record 0x40 8)) s.now 0 bs (recLoose a.record && code == resAdmitted)
    if r.2 then r.1 else s.launchEvent c a.ix code

/-- LAUNCH_ENTRY_FIRE (R94 to R97): admission, rejection, or STALL. -/
def execLaunchEntryFire (c : Nat) (s : State) : Host.Outcome State Fault Refusal :=
  let done (key : EntryKey) (s : State) : State := s.modAdm c key fun a => { a with stage := 9 }
  match s.fireDo c with
  | .wait => .next s
  | .stall key => .next ((s.modAdm c key fun a => { a with late := true }).stall c)
  | .consume key code =>
    match (s.core c).adms.find? fun a => a.key == key with
    | none => .next s
    | some a => .next (done key (s.consumeStore c a code (statusWords 0 ++ bytesOf 8 code)))
  | .admitBlock key =>
    match (s.core c).adms.find? fun a => a.key == key with
    | none => .next s
    | some a =>
      let b := launchBlk a (s.now + 1088)
      let s := done key (s.consumeStore c a resAdmitted (admitBytes b.slots.length (s.accord + 1088)))
      let s := s.modCore c fun k => { k with blk := some b, left := none, claspQ := [], ringK := 0, rings := [], tiles := [] }
      .next (if b.loose then { s with sch := { s.sch with consumed := s.sch.consumed ++ [(c, key)] } } else s)

/-- CORE_RESERVATION_END (R94). -/
def execCoreReservationEnd (c : Nat) (s : State) : Host.Outcome State Fault Refusal :=
  .next (s.modCore c fun k => { k with resEnd := 0, resFixed := none })

/-! ## Block start (R96) -/

/-- The storage a block holds in the state of R96: held scratch segments and crown slots zero, accumulators +0. -/
def Core.initStorage (k : Core) (b : Blk) : Core :=
  let k := b.segments.foldl (fun k g =>
    { k with scratch := smClear k.scratch g.base g.size, stags := smClear k.stags (g.base / 64) (g.size / 64),
             badScratch := k.badScratch.filter fun u => 8 * u < g.base || g.base + g.size ≤ 8 * u,
             badTags := k.badTags.filter fun u => 64 * u < g.base || g.base + g.size ≤ 64 * u }) k
  let first := b.field 0x20 1
  let n := b.field 0x21 1
  { k with
    crown := smClear k.crown (2048 * first) (2048 * n)
    ctags := smClear k.ctags (32 * first) (32 * n)
    badCrown := k.badCrown.filter fun u => u / 256 < first || first + n ≤ u / 256
    badCTags := k.badCTags.filter fun u => u / 32 < first || first + n ≤ u / 32
    badRegs := []
    acc := [], accArr := [], accLands := [], inc := 0, marks := 0 }

/-- BLOCK_START (R96, R326): the block's storage, unless it is restored from a save area, and its code as it stands. -/
def execBlockStart (c : Nat) (s : State) : Host.Outcome State Fault Refusal :=
  match s.blk c with
  | none => .next s
  | some b =>
    let s := if b.fresh then s.modCore c fun k => k.initStorage b else s
    .next (s.modBlk c fun b => { b with fresh := false, code := s.mem, pages := s.pages.filter fun p => p.asid == b.asid })

/-! ## The end of strands and blocks (R109, R290) -/

/-- The exit status word (R290). -/
def statusWord (code : Nat) (beats : BitVec 3) (region : Word) : Nat :=
  region.toNat % 2 ^ 21 * 2048 + beats.toNat * 256 + code

/-- The fault an EXIT records for unacquired operations (R150): highest priority, then engine code, then number. -/
def exitFault (ops : List EngOp) : Option (EngOp × Cause × BitVec 64) :=
  let fs := (sortBy (fun o => Engine.index o.eng) (sortBy (·.num) ops)).filterMap fun o => o.fail.map fun f => (o, f.1, f.2)
  fs.foldl (fun m f =>
    match m with
    | none => some f
    | some x => if f.2.1.priority < x.2.1.priority then some f else some x) none

/-- The strand's end with the cause EXIT records, once its operations have landed (R150). -/
def Strand.settleExit (st : Strand) : Strand :=
  match st.ended with
  | some e =>
    if e.byExit then
      match exitFault st.eops with
      | some f =>
        { st with
          frec := faultRecord st e.word { cause := f.2.1, threads := [], addr := f.2.2, engine := some f.1.eng }
          ended := some { e with code := BitVec.ofNat 8 f.2.1.code, byExit := false } }
      | none => { st with ended := some { e with byExit := false } }
    else st
  | none => st

/-- Whether a strand's exit word store is accepted by a tick (R109). -/
def Strand.exitStoreAt (st : Strand) : Option Nat :=
  match st.ended with
  | none => none
  | some e =>
    if st.eops.any fun o => o.land.isNone then none
    else
      let last := st.eops.foldl (fun m o => match o.land with | some t => if m < t then t else m | none => m) 0
      some (if last ≤ e.at_ + 4 then e.at_ + 4 else last + 1)

/-- The exit word store of a slot, accepted at a tick. -/
def State.exitWord (s : State) (c i acc : Nat) : State :=
  match s.blk c with
  | none => s
  | some b =>
    let s := s.modStrand c i Strand.settleExit
    match s.strand c i with
    | none => s
    | some st =>
      match st.ended with
      | none => s
      | some e =>
        let s := s.modStrand c i fun st => { st with ended := some { e with stored := true } }
        (s.statusStore c b.asid (BitVec.ofNat 64 (b.field 0x40 8)) acc (4 * i)
          (bytesOf 4 (statusWord e.code.toNat e.beats e.region)) b.loose).1

/-- The strand in slot i of the block a core shows. -/
def Core.shownStrand (k : Core) (i : Nat) : Option Strand := k.shown.bind fun b => b.slots[i]?

/-- STRAND_DEPARTURE (R109): four cycles after its end a strand leaves every clasp; then its exit word is stored. -/
def execStrandDeparture (c i : Nat) (s : State) : Host.Outcome State Fault Refusal :=
  match (s.core c).shownStrand i with
  | none => .next s
  | some st =>
    match st.ended with
    | none => .next s
    | some e =>
      let leave := !e.departed && dueBy (e.at_ + 4) s.now
      let bit := BitVec.ofNat 8 (2 ^ i)
      let s := if leave then
          s.modCore c fun k => k.modShown fun b =>
            { b with clasps := b.clasps.map fun p => (p.1, p.2.leave bit)
                     slots := b.slots.modify i fun st => { st with ended := some { e with departed := true } } }
        else s
      match st.exitStoreAt with
      | some t => .next (if !e.stored && dueBy t s.now then s.exitWord c i s.now else s)
      | none => .next s

/-- Whether everything a block's strands issued has landed (R109): results, stores and other accesses, engine operations. -/
def Core.quiet (k : Core) (b : Blk) (now : Nat) : Bool :=
  let past (t : Option Nat) : Bool := match t with | some t => dueBy t now | none => false
  b.slots.all (fun st => st.ended.isSome && st.pend.all (fun p => past p.land) && st.accs.all (fun a => past a.land)
      && st.eops.all fun o => o.landed now)
    && k.runs.all (fun r => dueBy r.land now) && k.rings.isEmpty

/-- The coordinates of a block at its end (R103). -/
def Blk.coordsOr (b : Blk) (c : Nat) : Nat × Nat :=
  match b.coords with
  | some p => (p.1.toNat, p.2.toNat)
  | none => (c % 192, c / 192)

/-- Firing the bound chunk of a block (R103, R268): a chunk without an entry, late, or already fired fires nothing. -/
def State.fireBound (s : State) (c : Nat) (b : Blk) : State :=
  if !recFlag b.record 1 then s
  else
    let t := b.field 0x58 1
    let xy := b.coordsOr c
    let ch := xy.2 / b.field 0x5A 1 * b.field 0x5C 2 + xy.1 / b.field 0x59 1
    match s.part with
    | none => s
    | some p =>
      match (p.collEntries t s.sch.slice)[ch]? with
      | none => s
      | some i =>
        if s.firedAt t ch (p.collFrame i) || 2048 * p.collFrame i - 1 < s.accord then s
        else s.fireChunk (p.chunk t ch i b.asid (some (b.field 0x50 8 + ch * p.collField i 28 4)) none b.loose)

/-- The block leaves its core (R94, R109): the exit word stores still to come, the exit store, the bound chunk. What is left of it
stays on the core until another block is admitted: its strands depart from their clasps four cycles after their ends. Its hold counts
from the fire time of its entry, also where R93 treats t_f as later (log entry 53). -/
def State.leaveCore (s : State) (c : Nat) (b : Blk) (x : Nat) : State :=
  let s := (List.range b.slots.length).foldl (fun s i =>
    match s.strand c i with
    | some st => match st.ended, st.exitStoreAt with
      | some e, some t => if e.stored then s else s.exitWord c i (if t < s.now then s.now else t)
      | _, _ => s
    | none => s) s
  let s := (s.statusStore c b.asid (BitVec.ofNat 64 (b.field 0x40 8)) s.now 0x30 (bytesOf 16 (s.accordOf x)) b.loose).1
  let s := s.fireBound c b
  let till := b.fire + 2048 * b.hold
  s.modCore c fun k =>
    { k with blk := none, left := k.blk, freeAt := x + 1, resEnd := if s.accord < till then till else 0
             resFixed := if b.loose || till ≤ s.accord then none else some b.fire, rings := [], tiles := [] }

/-- BLOCK_EXIT (R109): the exit cycle, and in the cycle after it the end of the block. -/
def execBlockExit (c : Nat) (s : State) : Host.Outcome State Fault Refusal :=
  match s.blk c with
  | none => .next s
  | some b =>
    match b.exitAt with
    | none => .next (s.modBlk c fun b => { b with exitAt := some s.now })
    | some x => .next (s.leaveCore c b x)

end Sys2Proof.Machine
end

