-- ==== Sys2Proof/Machine/Preempt.lean ====
section
/-! DEFINITION. Pre-emption (R298 to R304): cuts, context save areas, saving and restoring a block, and the mailbox's completion of a request. -/

namespace Sys2Proof.Machine
open Sys2Proof

/-! ## Completing a mailbox request (R280, R281) -/

/-- A field of the request in MBREQ. -/
def State.req (s : State) (o n : Nat) : Nat := smNat s.host.req o n

/-- Completion of the request under way: busy clear, done set, the code and the request's tag; the response in MBRSP; MSI-X
vector 0 (R280). -/
def State.respond (s : State) (code : Nat) (results : List Byte) : State :=
  let tag := s.req 4 4
  { s with
    out := s.out ++ [.msix 0]
    host := { s.host with
    busy := false
    stat := BitVec.ofNat 64 (2 + 2 ^ 8 * code + 2 ^ 32 * tag)
    rsp := smWrite [] 0 (bytesOf 4 code ++ bytesOf 4 tag ++ results) } }

/-! ## Parts of a save area (R303, R304) -/

/-- Zero bytes up to a multiple of 64. -/
def pad64 (bs : List Byte) : List Byte := bs ++ List.replicate ((64 - bs.length % 64) % 64) 0

/-- 32-bit words as bytes. -/
def wordsBytes (xs : List Word) : List Byte := xs.flatMap fun x => bytesOf 4 x.toNat

/-- The PREM a strand is parked at: vmask, ranges, .ACC, .CROWN (R299). -/
def Strand.premOf (st : Strand) : Option (Word × List (BitVec 16) × Bool × Bool) :=
  st.waits.findSome? fun w => match w with | .prem _ _ m rs a c _ => some (m, rs, a, c) | _ => none

/-- The KiB blocks of scratch that ranges name. -/
def rangeKib (r : BitVec 16) : List Nat :=
  (List.range ((r.extractLsb' 0 8).toNat + 1)).map fun k => (r.extractLsb' 8 8).toNat + k

/-- Maximal runs of rising numbers: start and length. -/
def runsOf : List Nat → List (Nat × Nat)
  | [] => []
  | x :: l =>
    match runsOf l with
    | (y, n) :: rest => if x + 1 = y then (x, n + 1) :: rest else (x, 1) :: (y, n) :: rest
    | [] => [(x, 1)]

/-- The live scratch runs of a block, merged from its strands' ranges (R303). -/
def Blk.saveRuns (b : Blk) : List (Nat × Nat) :=
  runsOf (dedupSorted (b.slots.flatMap fun st => match st.premOf with | some p => p.2.1.flatMap rangeKib | none => []))

/-- Whether some strand's PREM names accumulators, or crown slots. -/
def Blk.savesAcc (b : Blk) : Bool := b.slots.any fun st => match st.premOf with | some p => p.2.2.1 | none => false
def Blk.savesCrown (b : Blk) : Bool := b.slots.any fun st => match st.premOf with | some p => p.2.2.2 | none => false

/-- A byte of a live run; bytes outside held segments are not saved (R299). -/
def Core.runByte (k : Core) (b : Blk) (off : Nat) : Byte := if b.heldByte off then smGet k.scratch off else 0

/-- The accumulators in the layout of MLDA, then their marks (R303), as landed (R228). -/
def Core.accBytes (k : Core) : List Byte :=
  (wordsBytes ((List.range 4096).map fun i => smGet k.acc i))
    ++ pad64 ((List.range 4).map fun a => if k.marks.getLsbD a then 1 else 0)

/-- A crown slot: its bytes and its tags. -/
def Core.slotBytes (k : Core) (n : Nat) : List Byte :=
  smBytes k.crown (2048 * n) 2048 ++ wordsBytes ((List.range 32).map fun j => smGet k.ctags (32 * n + j))

/-- Clasps, schedule-table cursor, ring count and table: the part of a block context that is always present. -/
def Core.blockHead (k : Core) (b : Blk) : List Byte :=
  let clasp (j : Nat) : List Byte :=
    match aGet b.clasps j with
    | some c => bytesOf 4 (c.m.toNat + 2 ^ 8 * (c.e % 256) + 2 ^ 16 * c.a.toNat + 2 ^ 24 * (c.h % 256)) ++ bytesOf 4 c.gen.toNat
    | none => bytesOf 8 0
  (List.range 16).flatMap clasp ++ pad64 (bytesOf 4 b.cursor ++ bytesOf 4 k.ringK ++ smBytes b.table 0 2112)

/-- The block context (R303). -/
def Core.blockContext (k : Core) (b : Blk) (acc crown : Bool) (runs : List (Nat × Nat)) : List Byte :=
  k.blockHead b
    ++ (if acc then k.accBytes else [])
    ++ (if crown then (List.range (b.field 0x21 1)).flatMap fun i => k.slotBytes (b.field 0x20 1 + i) else [])
    ++ runs.flatMap fun r =>
        ((List.range (1024 * r.2)).map fun i => k.runByte b (1024 * r.1 + i))
          ++ wordsBytes ((List.range (16 * r.2)).map fun i =>
              if b.heldByte (1024 * r.1 + 64 * i) then smGet k.stags (16 * r.1 + i) else 0)

/-- The loop counters, loop bodies by counter, and timelines: 0x020 to 0x08F of a control section. -/
def loopPart (lc : SMap 32) (loops : List LoopSt) (tl : SMap 64) : List Byte :=
  let body (n : Nat) : List Byte :=
    match loops.find? fun l => l.ctr == n with
    | some l => bytesOf 8 l.first.toNat ++ bytesOf 8 l.last.toNat
    | none => bytesOf 16 0
  wordsBytes ((List.range 3).map (smGet lc)) ++ bytesOf 4 0 ++ (List.range 3).flatMap body
    ++ ((List.range 6).flatMap fun e => bytesOf 8 (smGet tl e).toNat)

/-- The control section (R304). -/
def Strand.control (st : Strand) (vmask : Word) : List Byte :=
  let loopBits := (List.range 3).foldl (fun n i => if st.loops.any (fun l => l.ctr == i) then n + 2 ^ (i + 1) else n) 0
  let flags := loopBits + if st.inHandler then 1 else 0
  bytesOf 8 st.pc.toNat ++ bytesOf 8 st.entry.toNat ++ bytesOf 4 st.regioncnt.toNat ++ bytesOf 4 st.stepcnt.toNat
    ++ bytesOf 4 ((if st.curIx then 1 else 0) + 256 * flags) ++ bytesOf 4 vmask.toNat
    ++ loopPart st.lc st.loops st.tl ++ loopPart st.snap.lc st.snap.loops st.snap.tl
    ++ bytesOf 8 st.tvec.toNat ++ bytesOf 32 st.frec.toNat
    ++ bytesOf 8 (match st.alt with | some r => r.resume.toNat | none => 0) ++ bytesOf 16 0
    ++ ((List.range 7).flatMap fun j => bytesOf 12 (smGet st.k (j + 1)).toNat) ++ List.replicate 108 0

/-- A shape register in 384 bytes: valid, the header as loaded (of an empty one all 0, R206), w, o, and the window. -/
def ShapeReg.bytes (g : ShapeReg) : List Byte :=
  let magic := if g.magicOk && !g.fresh then 0x47415253 + 2 ^ 32 else 0
  bytesOf 4 (if g.valid then 1 else 0)
    ++ bytesOf 6 magic ++ bytesOf 2 g.flags.toNat ++ wordsBytes [g.seqs, g.total, g.pitch] ++ bytesOf 2 g.width.toNat
    ++ bytesOf 2 g.format.toNat ++ bytesOf 8 g.btab.toNat ++ bytesOf 8 g.gtab.toNat ++ List.replicate 24 0
    ++ wordsBytes [g.w, g.o] ++ wordsBytes ((List.range 64).map (smGet g.win)) ++ List.replicate 52 0

/-- Vector registers of an allotment from register `lo`, n of them: register by register, thread by thread. -/
def Regs.vectorBytes (r : Regs) (lo n : Nat) : List Byte :=
  (List.range n).flatMap fun j => wordsBytes ((List.range 96).map fun t => r.getV (lo + j) t)

/-- Statistics registers of an allotment: thread-major triples. -/
def Regs.statBytes (r : Regs) : List Byte :=
  (List.range r.nq).flatMap fun j => (List.range 96).flatMap fun t => triBytes (r.getQ j t)

/-- s0 to s63; a register not allotted reads 0. -/
def Regs.scalarBytes (r : Regs) : List Byte :=
  wordsBytes ((List.range 64).map fun n => if n < 61 && r.ns < n + 4 then 0 else r.getS n)

/-- A strand context (R304). -/
def Strand.context (st : Strand) (vmask : Word) : List Byte :=
  st.control vmask ++ wordsBytes ((List.range 96).map (smGet st.fstat)) ++ st.cur.scalarBytes
    ++ ((List.range 8).flatMap fun n => (st.getG n).bytes)
    ++ ((List.range (st.cur.nv / 8)).flatMap fun g => if vmask.getLsbD g then st.cur.vectorBytes (8 * g) 8 else [])
    ++ st.cur.statBytes
    ++ match st.alt with
      | some r => r.scalarBytes ++ r.vectorBytes 0 r.nv ++ r.statBytes
      | none => []

/-- The strand contexts of a block, none for an ended strand. -/
def Blk.contexts (b : Blk) : List (List Byte) :=
  b.slots.map fun st => if st.ended.isSome then [] else pad64 (st.context (match st.premOf with | some p => p.1 | none => 0))

/-- The flags word at 0x004 of the header: version, and the flags with or without complete. -/
def saveFlags (fixed acc crown complete : Bool) : Nat :=
  1 + 2 ^ 16 * ((if complete then 1 else 0) + (if acc then 2 else 0) + (if crown then 4 else 0) + if fixed then 8 else 0)

/-- A whole save area, its complete flag still 0 (R303). -/
def Core.saveArea (k : Core) (c : Nat) (b : Blk) (time target : Nat) : List Byte :=
  let runs := b.saveRuns
  let blk := pad64 (k.blockContext b b.savesAcc b.savesCrown runs)
  let ctxs := b.contexts
  let offs := (ctxs.foldl (fun (p : List Nat × Nat) x => (p.1 ++ [if x.isEmpty then 0 else p.2], p.2 + x.length))
    ([], 512 + blk.length))
  let head := bytesOf 4 0x45564153 ++ bytesOf 4 (saveFlags (!b.loose) b.savesAcc b.savesCrown false)
    ++ bytesOf 8 time ++ bytesOf 4 target ++ bytesOf 2 c ++ bytesOf 2 b.asid ++ bytesOf 8 offs.2
    ++ bytesOf 4 runs.length ++ bytesOf 4 512
    ++ ((List.range 8).flatMap fun i => bytesOf 4 (offs.1.getD i 0)) ++ List.replicate 56 0
    ++ smBytes b.record 0 128
    ++ ((List.range 32).flatMap fun i => match runs[i]? with | some r => bytesOf 2 (256 * r.1 + (r.2 - 1)) | none => bytesOf 2 0)
    ++ List.replicate 192 0
  head ++ blk ++ ctxs.flatMap id

/-! ## Saving -/

/-- Whether a register word with an uncorrectable error is part of the context of a strand. -/
def Strand.savesBad (st : Strand) (w : BadReg) : Bool :=
  let mask := match st.premOf with | some p => p.1 | none => 0
  st.ended.isNone && (w.allot != st.curIx || w.file != 0 || mask.getLsbD (w.index / 8))

/-- Whether the context of a block holds uncorrectable data (R288). -/
def Core.saveBad (k : Core) (b : Blk) : Bool :=
  let kib (off : Nat) : Bool := b.heldByte off && b.saveRuns.any fun r => r.1 ≤ off / 1024 && off / 1024 < r.1 + r.2
  k.badScratch.any (fun u => kib (8 * u)) || k.badTags.any (fun u => kib (64 * u))
    || (b.savesCrown && (k.badCrown.any (fun u => b.heldSlot (u / 256)) || k.badCTags.any fun u => b.heldSlot (u / 32)))
    || k.badRegs.any fun w => match b.slots[w.slot]? with | some st => st.savesBad w | none => false

/-- A block's context on its way to memory, the complete flag last; the core's share carries it (R300, R301). As the save begins the
flag of its area becomes 0, so that an area of a save that is cut short never shows the flag of an earlier one (R322, log entry 63). Of a context that
holds uncorrectable data nothing is written (R288) but a complete flag of 0, so RESUME refuses its area (DESIGN CHOICE, log entry
40). -/
def State.startSave (s : State) (c base time target : Nat) : State :=
  match s.blk c with
  | none => s
  | some b =>
    let bad := (s.core c).saveBad b
    let flags (complete : Bool) : Nat := saveFlags (!b.loose) b.savesAcc b.savesCrown complete
    let bytes := if bad then addressed (base + 4) (bytesOf 4 (flags false)) else addressed base ((s.core c).saveArea c b time target)
    let o := { rawOp s.seq c 17 s.now (bytes.map fun p => p.1 / 64) (.save (!b.loose)) with
      reads := false, atEnd := true, horizon := some 0, writes := bytes, loose := b.loose
      flag := if bad then none else some (base + 4, BitVec.ofNat 32 (flags true)) }
    ({ s with seq := s.seq + 1 }.writeMem (addressed (base + 4) (bytesOf 4 (flags false)))).addOp o

/-- Whether the block of a core is on its way to a save area. -/
def State.savingCore (s : State) (c : Nat) : Bool := s.ops.any fun o => o.col == c && match o.done with | .save _ => true | _ => false

/-- A core after its block is saved: free from the next cycle (R301, R303). -/
def State.dropBlk (s : State) (c : Nat) : State :=
  s.modCore c fun k =>
    { k with blk := none, freeAt := s.now + 1, resEnd := 0, resFixed := none, rings := [], tiles := [], claspQ := [], swr := [], accepts := [] }

/-- The record of the last completed cut (R315, R322). -/
def State.recordCut (s : State) (k : Cut) : State :=
  { s with plat := { s.plat with cutT := BitVec.ofNat 32 k.target, cutTime := BitVec.ofNat 64 s.accord } }

/-- The end of a cut's saves: the answer DONE. -/
def State.endCut (s : State) (k : Cut) : State :=
  let s := { s with host := { s.host with cut := none } }
  if k.mailbox then s.respond 0 (bytesOf 4 k.target) else s

/-- A save has landed: its core is free; the last save of a cut completes it. -/
def State.landSave (s : State) (o : MemOp) (fixed : Bool) : State :=
  let s := s.dropBlk o.col
  match s.host.cut with
  | some k =>
    if fixed || !k.saving then s
    else if s.ops.any fun x => x.seq != o.seq && (match x.done with | .save false => true | _ => false) then s
    else s.endCut k
  | none => s

/-- Whether every strand of the cut's set is parked at T or has ended, and its engine operations have landed (R300). -/
def State.cutReady (s : State) (k : Cut) : Bool :=
  k.cores.all fun c =>
    match s.blk c with
    | none => true
    | some b => b.slots.all fun st =>
        (st.ended.isSome || (st.atPrem && st.stepcnt.toNat == k.target)) && st.eops.all fun o => o.landed s.now

/-- The cores of a set that hold a block with a live strand. -/
def State.liveCores (s : State) (cs : List Nat) : List Nat :=
  cs.filter fun c => match s.blk c with | some b => b.slots.any (fun st => st.ended.isNone) | none => false

/-- CUT_COMPLETE (R300, R315): the cut is recorded, and every block of the set is saved. -/
def execCutComplete (s : State) : Host.Outcome State Fault Refusal :=
  match s.host.cut with
  | none => .next s
  | some k =>
    if k.saving || !s.cutReady k then .next s
    else
      let s := s.recordCut k
      let cs := s.liveCores k.cores
      if cs.isEmpty then .next (s.endCut k)
      else
        let s := { s with host := { s.host with cut := some { k with saving := true } } }
        .next (cs.foldl (fun s c => s.startSave c (k.base + k.stride * c) s.accord k.target) s)

/-- Releasing the strands of a set that are parked at a PREM. -/
def State.releaseSet (s : State) (cs : List Nat) : State :=
  cs.foldl (fun s c => s.modSlots c fun st => if st.atPrem then st.releasePrem s.now s.seq else st) s

/-- STOP_LIMIT_EXPIRY (R300): the parked strands run on; NOCUT. -/
def execStopLimitExpiry (s : State) : Host.Outcome State Fault Refusal :=
  match s.host.cut with
  | none => .next s
  | some k =>
    if k.saving || s.now < k.limit then .next s
    else
      let s := { s.releaseSet k.cores with host := { s.host with cut := none } }
      .next (if k.mailbox then s.respond 1 (bytesOf 4 k.target) else s)

/-- The cores of a request's 1,536-bit mask at 0x08. -/
def State.stopCores (s : State) : List Nat :=
  (List.range 1536).filter fun c => (smGet s.host.req (8 + c / 8)).getLsbD (c % 8)

/-- STOP (R300, R281). -/
def execStop (s : State) : Host.Outcome State Fault Refusal :=
  let cs := s.stopCores
  let fixed := cs.any fun c => match s.blk c with | some b => !b.loose | none => false
  if fixed then .next (s.respond 2 (bytesOf 4 0))
  else
    let k : Cut := ⟨cs, s.maxStep cs + 1, s.req 0xD0 8, s.req 0xD8 8, s.now + 2048 * s.req 0xC8 4, true, false⟩
    .next { s with host := { s.host with cut := some k } }

/-- The fixed blocks resident at a slice commit, that have not exited and are not on their way to a save area already (R301). -/
def State.fixedCores (s : State) : List Nat :=
  s.cores.filterMap fun p => match p.2.blk with
    | some b => if !b.loose && b.exitAt.isNone && !s.savingCore p.1 then some p.1 else none
    | none => none

/-- FIXED_SAVE (R301): each fixed block is saved if its strands are parked or ended; else STALL. The spec names no area for
it: the areas of EMERGCFG are used, and without them nothing is written (log entry 20). -/
def execFixedSave (s : State) : Host.Outcome State Fault Refusal :=
  .next (s.fixedCores.foldl (fun s c =>
    match s.blk c with
    | none => s
    | some b =>
      if b.slots.all fun st => st.ended.isSome || st.atPrem then
        match s.host.emerg with
        | some (base, stride, _) => s.startSave c (base + stride * c) s.accord 0
        | none => s.dropBlk c
      else s.stall c) s)

/-! ## Resuming (R302) -/

/-- Whether a save area in memory may be resumed on a core: BADSAVE otherwise (R302). The tests of the magic and of the version, and that
a core of that number exists (R18), are the model's own (DESIGN CHOICE, log entry 71); before the firmware is verified no area can be read (R311, log entry 66). -/
def State.saveOk (s : State) (area c : Nat) : Bool :=
  s.released && decide (c < 1536) && smNat s.mem area 4 == 0x45564153 && smNat s.mem (area + 4) 2 == 1
    && smNat s.mem (area + 6) 2 % 2 == 1 && smNat s.mem (area + 0x14) 2 == c

/-- Whether an Accord time starts a slice in which a core has no launch entry. -/
def State.emptySliceAt (s : State) (c t : Nat) : Bool :=
  match s.part with
  | none => false
  | some p => (List.range p.sliceCount).any fun i =>
      2048 * p.sliceFirst i == t && !(s.entries c s.now).any fun e => e.slice == i && e.valid

/-- RESUME (R302, R281). -/
def execResume (s : State) : Host.Outcome State Fault Refusal :=
  let c := s.req 8 2
  let area := s.req 0x10 8
  let t := s.req 0x18 8
  if !s.saveOk area c then .next (s.respond 1 [])
  else
    let fixed := smNat s.mem (area + 6) 2 / 8 % 2 == 1
    if t < s.accord + 4 * 2048 || (fixed && !s.emptySliceAt c t) then .next (s.respond 2 [])
    else
      let s := { s with host := { s.host with resumes := s.host.resumes ++ [(⟨c, area, t, false, fixed⟩ : Resume)] } }
      .next (s.respond 0 [])

/-- The saved blocks whose Accord time has come: their areas are read as one operation each (R302). -/
def State.startResumes (s : State) : State :=
  let go := fun (s : State) (p : Resume × Nat) =>
    if p.1.started || s.accord < p.1.time || s.plat.step < 4 then s
    else
      let n := smNat s.mem (p.1.area + 0x18) 8
      let lines := (List.range ((n + 63) / 64)).map fun k => p.1.area / 64 + k
      let s := { s with host := { s.host with resumes := s.host.resumes.modify p.2 fun r => { r with started := true } } }
      s.startRead p.1.core 0 s.now lines (.restore p.1.area)
  s.host.resumes.zipIdx.foldl go s

/-- A section of a save area as read: n bytes at an offset. -/
abbrev Area := Nat → Nat → Nat

/-- Loop state and timelines from their 112 bytes: loops with a last word, innermost first. -/
def readLoops (f : Area) (o : Nat) : Snapshot :=
  let ls := (List.range 3).filterMap fun n =>
    let first := BitVec.ofNat 64 (f (o + 16 + 16 * n) 8)
    let last := BitVec.ofNat 64 (f (o + 24 + 16 * n) 8)
    if last = 0 then none else some (⟨n, first, last⟩ : LoopSt)
  { lc := smWrites [] ((List.range 3).map fun n => (n, BitVec.ofNat 32 (f (o + 4 * n) 4)))
    loops := (sortBy (fun l => l.first.toNat) ls).reverse
    tl := smWrites [] ((List.range 6).map fun e => (e, BitVec.ofNat 64 (f (o + 64 + 8 * e) 8))) }

/-- A shape register from its 384 bytes; a valid one without the magic of a header is empty (R206). -/
def readShape (f : Area) (o : Nat) : ShapeReg :=
  let g := headerOf fun k n => f (o + 4 + k) n
  let valid := f o 4 % 2 == 1
  { g with valid := valid, fresh := valid && !g.magicOk, w := BitVec.ofNat 32 (f (o + 68) 4), o := BitVec.ofNat 32 (f (o + 72) 4),
           win := smWrites [] ((List.range 64).map fun k => (k, BitVec.ofNat 32 (f (o + 76 + 4 * k) 4))) }

/-- Words of a save area as entries of a sparse array. -/
def readWords (f : Area) (o lo n : Nat) : List (Nat × Word) :=
  (List.range n).map fun k => (lo + k, BitVec.ofNat 32 (f (o + 4 * k) 4))

/-- Scalars, vectors of some groups, and statistics of an allotment. -/
def Regs.readFrom (r : Regs) (f : Area) (threads oS oV oQ : Nat) (groups : List Nat) : Regs :=
  let am := BitVec.ofNat 96 (f (oS + 4 * 61) 12) &&& threadMask threads
  let s := smWrites [] ((readWords f oS 0 61).filter fun p => p.1 + 4 ≤ r.ns)
  let v := groups.zipIdx.flatMap fun g => readWords f (oV + 3072 * g.2) (768 * g.1) 768
  let q := (List.range (96 * r.nq)).map fun j => (j, triOf (f (oQ + 16 * j) 16))
  { r with s := s, v := smWrites [] v, q := q.filter fun p => p.2 != Tri.empty, am := am }

/-- A fault record as the special registers hold it: its reserved bits are 0 (R5, R289). -/
def frecMask : BitVec 256 := ~~~0xF8F800#256

/-- A strand from its context (R304): the registers named as live, everything else 0. -/
def readStrand (f : Area) (o : Nat) (r0 : Regs) (r1 : Option Regs) (threads : Nat) (fetchLen : Addr → Nat) : Strand :=
  let ix := f (o + 0x18) 1 % 2 == 1
  let flags := f (o + 0x19) 1
  let vmask := BitVec.ofNat 32 (f (o + 0x1C) 4)
  let curR := if ix then r1.getD r0 else r0
  let altR := if ix then some r0 else r1
  let groups := (List.range (curR.nv / 8)).filter fun g => vmask.getLsbD g
  let oV := o + 512 + 384 + 256 + 3072
  let oQ := oV + 3072 * groups.length
  let oA := oQ + 1536 * curR.nq
  let cur := curR.readFrom f threads (o + 896) oV oQ groups
  let alt := altR.map fun r =>
    { r.readFrom f threads oA (oA + 256) (oA + 256 + 384 * r.nv) (List.range (r.nv / 8)) with
      resume := BitVec.ofNat 64 (f (o + 0x128) 8) }
  let now := readLoops f (o + 0x20)
  let frec := BitVec.ofNat 256 (f (o + 0x108) 32) &&& frecMask
  let fword : Addr := frec.extractLsb' 128 64
  { initStrand threads cur alt ((List.range 8).map fun n => (n, readShape f (o + 1152 + 384 * n))) with
    pc := BitVec.ofNat 64 (f o 8)
    curIx := ix
    k := smWrites [] ((List.range 7).map fun j => (j + 1, BitVec.ofNat 96 (f (o + 0x140 + 12 * j) 12)))
    lc := now.lc
    loops := now.loops
    fstat := smWrites [] ((readWords f (o + 512) 0 96).map fun p => (p.1, p.2 &&& 0x3F))
    regioncnt := BitVec.ofNat 32 (f (o + 0x10) 4)
    stepcnt := BitVec.ofNat 32 (f (o + 0x14) 4)
    tl := now.tl
    tvec := BitVec.ofNat 64 (f (o + 0x100) 8)
    inHandler := flags % 2 == 1
    fword := fword
    flen := fetchLen fword
    frec := frec
    entry := BitVec.ofNat 64 (f (o + 8) 8)
    snap := readLoops f (o + 0x90)
    passPrem := true }

/-- A strand slot that had ended before the cut. -/
def emptySlot (r0 : Regs) (threads : Nat) : Strand :=
  { initStrand threads r0 none [] with
    ended := some { at_ := 0, region := 0, code := 0, beats := 0, byExit := false, word := 0, departed := true, stored := true } }

/-- The storage of a saved block: scratch runs, crown, accumulators; the rest of what it holds is 0 (R302). -/
def Core.readStorage (k : Core) (b : Blk) (f : Area) (o : Nat) (acc crown : Bool) (runs : List (Nat × Nat)) : Core :=
  let k := k.initStorage b
  let oAcc := o + 2304
  let oCrown := oAcc + if acc then 4 * 4096 + 64 else 0
  let first := b.field 0x20 1
  let n := b.field 0x21 1
  let oRuns := oCrown + if crown then 2176 * n else 0
  let k := if acc then
      let m := smWrites [] (readWords f oAcc 0 4096)
      let inc := (List.range 4).foldl (fun x a => if f (oAcc + 16384 + a) 1 = 0 then x else x ||| (1#4 <<< a)) 0#4
      { k with acc := m, accArr := m, inc := inc, marks := inc }
    else k
  let k := if crown then
      (List.range n).foldl (fun (k : Core) i =>
        let p := oCrown + 2176 * i
        k.putCrown ⟨0, 0, 0, 0, first + i, smWrites [] ((List.range 2048).map fun j => (j, BitVec.ofNat 8 (f (p + j) 1))),
          smWrites [] (readWords f (p + 2048) 0 32), false⟩) k
    else k
  (runs.foldl (fun (p : Core × Nat) r =>
    let bytes := (List.range (1024 * r.2)).filterMap fun i =>
      let off := 1024 * r.1 + i
      if b.heldByte off then some (off, BitVec.ofNat 8 (f (p.2 + i) 1)) else none
    let tags := (List.range (16 * r.2)).filterMap fun i =>
      if b.heldByte (1024 * r.1 + 64 * i) then some (16 * r.1 + i, BitVec.ofNat 32 (f (p.2 + 1024 * r.2 + 4 * i) 4)) else none
    (p.1.putScratch bytes tags, p.2 + 1024 * r.2 + 64 * r.2)) (k, oRuns)).1

/-- The coordinates a block has at a cursor of its schedule table (R103): those of the last entry taken. -/
def coordsAt (table : SMap 8) (cursor : Nat) : Option (BitVec 16 × BitVec 16) :=
  if cursor = 0 then none
  else
    let f (j : Nat) : BitVec 16 := BitVec.ofNat 16 (smNat table (8 * cursor + 2 * j) 2)
    some (f 0, f 1)

/-- A save area has been read: its block is resident and starts in the next cycle (R302); where its arena part no longer
lies in one page the core stays free (log entry 14). A save area holds no class, entry index or hold of the entry that launched
the block: the restored block has class 0, index 0 and hold 0 (R89, R303; DESIGN CHOICE, log entry 41). One of fixed discipline
stays listed until its slice commits (R28). -/
def State.landRestore (s : State) (o : MemOp) (area : Nat) : State :=
  let c := o.col
  let s := { s with host := { s.host with resumes := s.host.resumes.filter fun r => r.fixed || !(r.core == c && r.area == area && r.started) } }
  if !s.coreFree c || !o.bad.isEmpty then s
  else
    let f : Area := fun k n => o.natAt (area + k) n
    let record := smWrites [] ((List.range 128).map fun i => (i, BitVec.ofNat 8 (f (0x80 + i) 1)))
    let flags := f 6 2
    let runs := (List.range (f 0x20 4)).map fun i => (f (0x100 + 2 * i + 1) 1, f (0x100 + 2 * i) 1 + 1)
    let oB := f 0x24 4
    match s.arenaKey (f 0x16 2) record c with
    | .error _ => s
    | .ok base =>
    let a : Adm := { key := s.key 0, fire := s.accord, asid := f 0x16 2, cls := 0, hold := 0, recAt := 0, stage := 9, landed := 0,
                     busy := false, record := record, preload := [], headers := [],
                     table := smWrites [] ((List.range 2112).map fun i => (i, BitVec.ofNat 8 (f (oB + 136 + i) 1))),
                     arena := base, result := none, known := true, slow := false, late := false }
    let b := launchBlk a (s.now + 1)
    let clasps := b.clasps.map fun p =>
      (p.1, (⟨BitVec.ofNat 8 (f (oB + 8 * p.1) 1), BitVec.ofNat 8 (f (oB + 8 * p.1 + 2) 1), f (oB + 8 * p.1 + 1) 1, f (oB + 8 * p.1 + 3) 1,
        BitVec.ofNat 32 (f (oB + 8 * p.1 + 4) 4)⟩ : Clasp))
    let first := b.slots.head?
    let len (w : Addr) : Nat := match s.pageKey c a.asid (w.toNat % 2 ^ 57) {} with
      | .ok k => 8 + litLen (BitVec.ofNat 64 (smNat s.mem k 8))
      | .error _ => 8
    let slots := (List.range b.slots.length).filterMap fun i => first.map fun st0 =>
      let at_ := f (0x28 + 4 * i) 4
      if at_ = 0 then emptySlot st0.cur st0.threads
      else readStrand f at_ st0.cur st0.alt st0.threads len
    let b := { b with
      fresh := false, clasps := clasps, slots := slots, cursor := f (oB + 128) 4, coords := coordsAt a.table (f (oB + 128) 4) }
    s.modCore c fun k =>
      { (k.readStorage b f oB (flags / 2 % 2 == 1) (flags / 4 % 2 == 1) runs) with
        blk := some b, left := none, claspQ := [], ringK := f (oB + 132) 4, rings := [], tiles := [] }

end Sys2Proof.Machine
end

