-- ==== Sys2Proof/Machine/HostLink.lean ====
section
/-! DEFINITION. The host link (R275 to R284, R305 to R309): the Rimet mailbox and its requests, events, BAR registers, host memory accesses, page requests, shoot-down, migration, and the scale-out engine. -/

namespace Sys2Proof.Machine
open Sys2Proof

/-! ## Events (R282) -/

/-- Whether the event queue is full. -/
def HostIf.full (h : HostIf) : Bool := h.evp - h.evc == 32

/-- Writing an event entry: kind, sequence, payload. -/
def HostIf.postEntry (h : HostIf) (kind : Nat) (payload : SMap 8) : HostIf :=
  let at_ := 64 * (h.evp.toNat % 32)
  let head := bytesOf 4 kind ++ bytesOf 4 h.evseq.toNat
  { h with evq := smWrite h.evq at_ (head ++ smBytes payload 0 56), evp := h.evp + 1, evseq := h.evseq + 1 }

/-- A posted XLATE: its strand waits on the event's sequence. -/
def State.postXlate (s : State) (c i : Nat) (seq : Word) : State :=
  s.modStrand c i fun st =>
    { st with waits := st.waits.map fun w => match w with | .xlate none a l f => .xlate (some seq.toNat) a l f | w => w }

/-- The next event the controller can deal with: the first, or while the queue is full the first that is no XLATE. -/
def HostIf.nextEvent (h : HostIf) : Option (Nat × Nat × SMap 8 × Nat × Nat) :=
  (h.waiting.zipIdx.find? fun p => !h.full || p.1.1 != evXlate).map fun p => (p.2, p.1)

/-- EVENT_POST (R282); a new event signals MSI-X vector 1 (R280). -/
def execEventPost (s : State) : Host.Outcome State Fault Refusal :=
  match s.host.nextEvent with
  | none => .next s
  | some (ix, kind, payload, c, i) =>
    let rest := s.host.waiting.eraseIdx ix
    if s.host.full then
      .next { s with host := { s.host with waiting := rest, lost := s.host.lost + 1, evseq := s.host.evseq + 1 } }
    else
      let seq := s.host.evseq
      let s := { s with out := s.out ++ [.msix 1], host := { s.host.postEntry kind payload with waiting := rest } }
      .next (if kind = evXlate then s.postXlate c i seq else s)

/-- An ALERT event (R282): code, count, and the two unit bytes. -/
def State.alert (s : State) (code count unit port : Nat) : State :=
  s.event evAlert (smWrite [] 0 (bytesOf 2 code ++ bytesOf 2 0 ++ bytesOf 4 count ++ bytesOf 1 unit ++ bytesOf 1 port)) 0 0

/-- MBEVC_WRITE (R282). -/
def execMbevcWrite (x : Word) (s : State) : Host.Outcome State Fault Refusal :=
  .next { s with host := { s.host with evc := x } }

/-- MBLOST_CLEAR (R280). -/
def execMblostClear (s : State) : Host.Outcome State Fault Refusal :=
  .next { s with host := { s.host with lost := 0 } }

/-! ## Requests (R280, R281) -/

/-- Completion without a result: BADOP, and MSI-X vector 0 (R280). -/
def execMailboxBadop (s : State) : Host.Outcome State Fault Refusal :=
  .next { s with
    out := s.out ++ [.msix 0]
    host := { s.host with busy := false, stat := BitVec.ofNat 64 (2 + 8 + 2 ^ 32 * s.req 4 4) } }

/-- The bytes of the request that an opcode uses: first and last offset of each field. -/
def requestFields (op : Nat) : List (Nat × Nat) :=
  match op with
  | 1 => [(8, 0x10)]
  | 2 => [(8, 0x17)]
  | 3 => [(8, 8), (0x10, 0x17)]
  | 4 => [(8, 8), (0xA, 0xB), (0x10, 0x17)]
  | 5 => [(8, 8), (0x10, 0x17)]
  | 6 => [(8, 0xCB), (0xD0, 0xDF)]
  | 7 => [(8, 9), (0x10, 0x1F)]
  | 8 => [(8, 9), (0x10, 0x1F)]
  | 9 => [(8, 0xC)]
  | 10 => [(8, 0x27)]
  | 11 => [(8, 9)]
  | 12 => [(8, 0x1B)]
  | _ => []

/-- Whether the request's opcode is assigned and its reserved bytes are zero (R280). -/
def State.requestOk (s : State) : Bool :=
  let op := s.req 0 2
  within 1 12 op && s.host.req.all (fun p =>
    p.1 < 2 || (4 ≤ p.1 && p.1 < 8) || (requestFields op).any fun r => r.1 ≤ p.1 && p.1 ≤ r.2)
  && (op != 1 || s.req 0x10 4 < 2)

/-- The row that performs the request. -/
def State.requestRow (s : State) : Instr :=
  if !s.requestOk then .mailboxBadop
  else
    match s.req 0 2 with
    | 1 => .fwload
    | 2 => .install
    | 3 => .absent
    | 4 => .treecreate
    | 5 => .treefree
    | 6 => .stop
    | 7 => .resume
    | 8 => .shootdown
    | 9 => .xlatereply
    | 10 => .attest
    | 11 => .migrate
    | _ => .emergcfg

/-- SHOOTDOWN (R309): unpinned entries of the range are dropped; PINNED drops nothing. -/
def execShootdown (s : State) : Host.Outcome State Fault Refusal :=
  let asid := s.req 8 2
  let lo := s.req 0x10 8
  let hi := lo + s.req 0x18 8
  let hit (e : TlbEntry) : Bool := e.page.asid == asid && e.page.va < hi && lo < e.page.va + e.page.size
  if s.tlb.any fun e => hit e && e.pinned then .next (s.respond 1 [])
  else .next ({ s with tlb := s.tlb.filter fun e => !hit e }.respond 0 [])

/-- Answering a strand parked by XLATE (R307): RETRY resumes it at its region entry, FAIL raises the fault again. -/
def State.answerXlate (s : State) (c i : Nat) (retry : Bool) : State :=
  match (s.strand c i).bind fun st => st.waits.findSome? fun w => match w with | .xlate _ a l f => some (a, l, f) | _ => none with
  | none => s
  | some (a, l, f) =>
    let s := { s with host := { s.host with pri := s.host.pri.filter fun p => !(p.2.1 == c && p.2.2.1 == i) } }
    let s := s.sendPages (s.host.priWait.filter fun w => !(w.1 == c && w.2.1 == i))
    if retry then
      s.modStrand c i fun st =>
        { st with waits := (st.waits.filter fun w => match w with | .xlate .. => false | _ => true) ++ [.region] }
    else
      (s.trap c i a l { f with serviced := true }).modStrand c i fun st =>
        if st.ended.isSome then st else { st with waits := st.waits ++ [.handler (s.now + 1)] }

/-- The strand parked on an event's sequence. -/
def State.parkedOn (s : State) (seq : Nat) : Option (Nat × Nat) :=
  s.cores.findSome? fun p => match p.2.blk with
    | some b => (b.slots.findIdx? fun st => st.waits.any fun w => match w with | .xlate (some n) .. => n == seq | _ => false).map fun i => (p.1, i)
    | none => none

/-- XLATEREPLY (R307, R281): answer 0 is RETRY; the others count as FAIL, which is 1: R281 does not say what 2 to 255 are (DESIGN
CHOICE, log entry 77). -/
def execXlatereply (s : State) : Host.Outcome State Fault Refusal :=
  match s.parkedOn (s.req 8 4) with
  | none => .next (s.respond 1 [])
  | some (c, i) => .next ((s.answerXlate c i (s.req 0xC 1 == 0)).respond 0 [])

/-- PRI_RESPONSE (R278): Success acts as RETRY, the others as FAIL. -/
def execPriResponse (group : Nat) (ans : PriAnswer) (s : State) : Host.Outcome State Fault Refusal :=
  match s.host.pri.find? fun p => p.1 == group with
  | none => .next s
  | some p =>
    let s := { s with host := { s.host with pri := s.host.pri.filter fun q => q.1 != group } }
    .next ((s.sendPages s.host.priWait).answerXlate p.2.1 p.2.2.1 (ans == .success))

/-- MIGRATE (R308, R281). -/
def execMigrate (s : State) : Host.Outcome State Fault Refusal :=
  .next ({ s with host := { s.host with migThreshold := s.req 8 2 } }.respond 0 [])

/-- EMERGCFG (R281, R320). -/
def execEmergcfg (s : State) : Host.Outcome State Fault Refusal :=
  let base := s.req 8 8
  let cfg := if base = 0 then none else some (base, s.req 0x10 8, s.req 0x18 4)
  .next ({ s with host := { s.host with emerg := cfg } }.respond 0 [])

/-! ## Translation units (R305, R308) -/

/-- PAGE_WALK_COMPLETE (R305): the page's entry in the die's TLB, the oldest unpinned one evicted at 2,048. -/
def execPageWalkComplete (die asid va : Nat) (s : State) : Host.Outcome State Fault Refusal :=
  let s := { s with walks := s.walks.filter fun w => w != (die, asid, va) }
  match s.pages.find? fun p => p.covers asid va with
  | none => .next s
  | some p =>
    if s.tlb.any fun e => e.die == die && e.page == p then .next s
    else
      let full := 2048 ≤ (s.tlb.filter fun e => e.die == die).length
      let old := if full then s.tlb.findIdx? fun e => e.die == die && !e.pinned else none
      let tlb := match old with | some k => s.tlb.eraseIdx k | none => s.tlb
      .next { s with tlb := tlb ++ [⟨die, p, false⟩] }

/-- Whether a page is pinned (R40, R305). -/
def State.pinnedPage (s : State) (p : Page) : Bool := s.tlb.any fun e => e.pinned && e.page == p

/-- The accesses counted for a page in the running window, by package (R308). -/
def HostIf.countsOf (h : HostIf) (p : Page) : List (Nat × Nat) := ((h.pageCounts.find? fun x => x.1 == (p.asid, p.va)).map (·.2)).getD []

/-- One more access from a package, saturating (R308). -/
def bumpCount (l : List (Nat × Nat)) (pkg : Nat) : List (Nat × Nat) :=
  let n := (aGet l pkg).getD 0
  aSet l pkg (if n < 65535 then n + 1 else n)

/-- Counting one access from a package to the unpinned pages at home here that hold a line, in a migration window (R308). -/
def State.countAccess (s : State) (pkg line : Nat) : State :=
  let hit (p : Page) : Bool := p.home.isNone && !p.host && p.pa ≤ 64 * line && 64 * line < p.pa + p.size && !s.pinnedPage p
  if !(s.host.inWindow && (s.sch.active || s.sch.inForce == .idle)) then s
  else
    { s with host := { s.host with pageCounts := (s.pages.filter hit).foldl (fun l p =>
        (l.filter fun x => x.1 != (p.asid, p.va)) ++ [((p.asid, p.va), bumpCount (s.host.countsOf p) pkg)]) s.host.pageCounts } }

/-- The package that takes a page at the start of a migration window: its count exceeds the threshold and the local count. -/
def State.migrationTo (s : State) (p : Page) : Option Nat :=
  let counts := s.host.countsOf p
  let here := (aGet counts s.sch.pkgid).getD 0
  let recent := s.host.migMoved.any fun m => m.1 == (p.asid, p.va) && s.host.windows < m.2 + 16
  if p.home.isSome || p.host || s.pinnedPage p || recent || s.host.migThreshold == 0 then none
  else ((counts.filter fun n => n.1 != s.sch.pkgid && s.host.migThreshold < n.2 && here < n.2).head?).map (·.1)

/-- PAGE_MIGRATION (R308): at a window's start the pages to be moved are held and their lines are on the way; counts restart. -/
def execPageMigration (s : State) : Host.Outcome State Fault Refusal :=
  let moves := s.pages.filterMap fun p => (s.migrationTo p).map fun k => (p, k)
  let s := { s with
    host := { s.host with
      inWindow := true
      pageCounts := []
      windows := s.host.windows + 1
      migMoved := s.host.migMoved ++ moves.map fun m => ((m.1.asid, m.1.va), s.host.windows) }
    held := s.held ++ moves.map fun m => (m.1.asid, m.1.va) }
  .next (moves.foldl (fun s m =>
    s.startRead 1537 0 s.now ((List.range (m.1.size / 64)).map fun k => m.1.pa / 64 + k) (.migrate m.1.asid m.1.va m.2)) s)

/-- A page's mapping after a move, in the page tables and the TLBs, its accesses no longer held (R308): home and physical base. -/
def State.remapPage (s : State) (asid va : Nat) (home : Option Nat) (base : Nat) : State :=
  let move (p : Page) : Page :=
    if p.asid == asid && p.va == va then { p with home := home, pa := base % 2 ^ 39 / p.size * p.size } else p
  { s with
    pages := s.pages.map move
    tlb := s.tlb.map fun e => { e with page := move e.page }
    held := s.held.filter fun x => x != (asid, va) }

/-- A move lands: its lines go to the other package, which is the page's home from then on, at an address there that this package does
not choose (a free value, log entry 13). With an uncorrectable line the move writes nothing, and the page stays (R288, log entry 45). -/
def State.landMigrate (s : State) (o : MemOp) (asid va pkg : Nat) : State :=
  if !o.bad.isEmpty then { s with held := s.held.filter fun x => x != (asid, va) }
  else
  let r := s.draw
  let t : State := { r.2 with out := s.out ++ [.page pkg asid va ((sortBy (·.line) o.got).map fun g => (g.data, g.tag))] }
  t.remapPage asid va (some pkg) r.1.toNat

/-- A page moves to this package (R308): its accesses are held, and its lines are stored through column 1,537. -/
def State.takePage (s : State) (asid va base : Nat) (lines : List (Block × Tag)) : State :=
  match s.pages.find? fun p => p.asid == asid && p.va == va && p.home.isSome with
  | none => s
  | some p =>
    let at_ := base % 2 ^ 39 / p.size * p.size
    let ls := (lines.take (p.size / 64)).zipIdx
    let bytes := ls.flatMap fun x => addressed (at_ + 64 * x.2) (bytesOf 64 x.1.1.toNat)
    let o := { rawOp s.seq 1537 0 s.now (ls.map fun x => at_ / 64 + x.2) (.pageIn asid va at_) with
      reads := false, horizon := some 0, writes := bytes, wtags := ls.map fun x => (at_ / 64 + x.2, x.1.2) }
    { s with seq := s.seq + 1, held := s.held ++ [(asid, va)] }.launchOp o []

/-- The page has landed: this package is its home, and it stays for 16 windows (R308). -/
def State.landPage (s : State) (asid va base : Nat) : State :=
  { s with host := { s.host with migMoved := s.host.migMoved ++ [((asid, va), s.host.windows)] } }.remapPage asid va none base

/-! ## Scale-out (R274, R275, R284) -/

/-- A field of ring i's descriptor. -/
def State.ring (s : State) (i o n : Nat) : Nat := smNat s.host.rings (64 * i + o) n

/-- Writing bytes of a ring's descriptor. -/
def State.setRing (s : State) (i o : Nat) (bs : List Byte) : State :=
  { s with host := { s.host with rings := smWrite s.host.rings (64 * i + o) bs } }

/-- Whether a ring's fields are within their limits (R284); its reserved bits are ignored (R5). -/
def State.ringOk (s : State) (i : Nat) : Bool :=
  let n := s.ring i 0x18 4
  s.ring i 0 8 % 64 == 0 && s.ring i 8 8 % 4 == 0 && s.ring i 0x10 8 % 4 == 0
    && within 16 65536 n && (n == 2 ^ Nat.log2 n) && s.ring i 0x1C 2 < 4096
    && s.ring i 0 8 < 2 ^ 57 && s.ring i 8 8 < 2 ^ 57 && s.ring i 0x10 8 < 2 ^ 57

/-- RING_ENABLE (R284): enable is written 1; outside its limits the write is discarded. -/
def execRingEnable (i : Nat) (s : State) : Host.Outcome State Fault Refusal :=
  if 256 ≤ i || s.ring i 0x20 1 % 2 == 1 || !s.ringOk i then .next s
  else
    let s := s.setRing i 0x20 (bytesOf 4 1)
    .next { s with host := { s.host with ringIx := aDel s.host.ringIx i } }

/-- Disabling a ring. -/
def State.disableRing (s : State) (i : Nat) : State :=
  let s := s.setRing i 0x20 (bytesOf 4 0)
  { s with host := { s.host with ringIx := aDel s.host.ringIx i } }

/-- The translated address of a ring's field, for the host edge die. -/
def State.hostKey (s : State) (asid va : Nat) (n : Need) : Option Nat :=
  match s.pageKey 0 asid va n with | .ok k => some k | .error _ => none

/-- One ring at a commit (R284): it starts from the producer word; then it takes the descriptors posted and stores its
consumer index; too far ahead it stops. -/
def State.serveRing (s : State) (i : Nat) : State :=
  if s.ring i 0x20 1 % 4 ≠ 1 then s
  else
    let asid := s.ring i 0x1C 2
    let n := s.ring i 0x18 4
    match s.hostKey asid (s.ring i 8 8) {} with
    | none => s
    | some pk =>
      let prod := smNat s.mem pk 4
      match aGet s.host.ringIx i with
      | none => ({ s with host := { s.host with ringIx := aSet s.host.ringIx i prod } }).setRing i 0x24 (bytesOf 4 prod)
      | some cons =>
        let ahead := (prod + 2 ^ 32 - cons) % 2 ^ 32
        if ahead = 0 then s
        else if n < ahead then (s.setRing i 0x20 (bytesOf 4 3)).alert 4 1 0xFF 0xFF
        else
          let take := fun (s : State) (k : Nat) =>
            let ix := (cons + k) % 2 ^ 32
            match s.hostKey asid (s.ring i 0 8 + 64 * (ix % n)) {} with
            | none => s
            | some dk =>
              let d : Desc := ⟨s.host.descId, i, smWrites [] (addressed 0 (smBytes s.mem dk 64)), asid, 0⟩
              { s with host := { s.host with descs := s.host.descs ++ [d], descId := s.host.descId + 1 } }
          let s := (List.range ahead).foldl take s
          let s := ({ s with host := { s.host with ringIx := aSet s.host.ringIx i prod } }).setRing i 0x24 (bytesOf 4 prod)
          match s.hostKey asid (s.ring i 0x10 8) { w := true } with
          | some ck => s.startStore 1537 0 s.now (addressed ck (bytesOf 4 prod))
          | none => s

/-- Every enabled ring at a commit. -/
def State.serveRings (s : State) : State :=
  if s.host.rings.isEmpty then s else (List.range 256).foldl (fun s i => s.serveRing i) s

/-- A field of a descriptor (R275). -/
def Desc.field (d : Desc) (o n : Nat) : Nat := smNat d.bytes o n

/-- Completion statuses (R275). -/
def soOk : Nat := 0
def soBadop : Nat := 1
def soPeer : Nat := 2
def soXlate : Nat := 3

/-- The 16 bytes of a completion, stored through column 1,537; the descriptor is done (R275). -/
def State.completeDesc (s : State) (d : Desc) (status : Nat) : State :=
  let s := { s with host := { s.host with descs := s.host.descs.filter fun x => x.id != d.id } }
  match s.hostKey d.asid (d.field 0x20 8 % 2 ^ 57) { w := true } with
  | some k => s.startStore 1537 0 s.now (addressed k (bytesOf 8 (d.field 0x28 8) ++ bytesOf 4 status ++ bytesOf 4 0))
  | none => s

/-- Whether a descriptor breaks R275 or its ring's port mask; its reserved bytes are ignored (R5). -/
def State.descBad (s : State) (d : Desc) : Bool :=
  let port := d.field 1 1
  !within 1 2 (d.field 0 1) || 9 < port || !(s.ring d.ring 0x1E 2).testBit port
    || !within 1 (2 ^ 32) (d.field 0x18 8) || d.field 0x20 8 % 16 != 0

/-- The local lines of a descriptor, none where some has no translation. -/
def State.descLines (s : State) (d : Desc) (n : Need) : Option (List Nat) :=
  let lo := d.field 8 8
  let len := d.field 0x18 8
  (List.range ((lo % 64 + len + 63) / 64)).foldr (fun k m =>
    match m, s.hostKey d.asid ((lo / 64 + k) * 64 % 2 ^ 57) n with
    | some l, some x => some (x / 64 :: l)
    | _, _ => none) (some [])

/-- The first descriptor of a ring that has not been sent, of an op. -/
def State.nextDesc (s : State) (ring op : Nat) : Option Desc :=
  s.host.descs.find? fun d => d.ring == ring && d.tries == 0 && (d.field 0 1 == op || (op == 1 && !within 1 2 (d.field 0 1)))

/-- A descriptor marked as sent once more. -/
def State.tryDesc (s : State) (id : Nat) : State :=
  { s with host := { s.host with descs := s.host.descs.map fun d => if d.id == id then { d with tries := d.tries + 1 } else d } }

/-- Whether a descriptor's port has been marked down: it behaves as lost, so the peer is unreachable (R314, log entry 46). -/
def State.portLost (s : State) (d : Desc) : Bool := s.plat.portDown.getLsbD (d.field 1 1)

/-- Sending a put: its data is read through column 1,537 first (R274). -/
def State.sendPut (s : State) (d : Desc) : State :=
  if s.portLost d then s.completeDesc d soPeer
  else
  match s.descLines d {} with
  | none => s.completeDesc d soXlate
  | some ls => (s.tryDesc d.id).startRead 1537 0 s.now ls (.putRead d.id)

/-- Sending a get: the descriptor goes to the peer (log entry 21). -/
def State.sendGet (s : State) (d : Desc) : State :=
  if s.portLost d then s.completeDesc d soPeer
  else
  match s.descLines d { w := true } with
  | none => s.completeDesc d soXlate
  | some _ => { s.tryDesc d.id with out := s.out ++ [.port (d.field 1 1) (smBytes d.bytes 0 64)] }

/-- SCALEOUT_PUT (R275). -/
def execScaleoutPut (ring : Nat) (s : State) : Host.Outcome State Fault Refusal :=
  match s.nextDesc ring 1 with
  | none => .next s
  | some d => .next (if s.descBad d then s.completeDesc d soBadop else s.sendPut d)

/-- SCALEOUT_GET (R275). -/
def execScaleoutGet (ring : Nat) (s : State) : Host.Outcome State Fault Refusal :=
  match s.nextDesc ring 2 with
  | none => .next s
  | some d => .next (if s.descBad d then s.completeDesc d soBadop else s.sendGet d)

/-- The data of a put has been read: it leaves by its port. -/
def State.landPut (s : State) (o : MemOp) (id : Nat) : State :=
  match s.host.descs.find? fun d => d.id == id with
  | none => s
  | some d =>
    let first := o.got.head?.map (·.line)
    let bytes := (List.range (d.field 0x18 8)).map fun k =>
      match first, s.hostKey d.asid ((d.field 8 8 + k) % 2 ^ 57) {} with
      | some _, some x => o.byteAt x
      | _, _ => 0
    { s with out := s.out ++ [.port (d.field 1 1) (smBytes d.bytes 0 64 ++ bytes)] }

/-- The answer to a descriptor: the data of a get is still being stored. -/
def State.completing (s : State) (id : Nat) : Bool := s.ops.any fun o => match o.done with | .complete x _ => x == id | _ => false

/-- The data of a get has landed: its completion is written, as a release of scope package (R275). -/
def State.landComplete (s : State) (id status : Nat) : State :=
  match s.host.descs.find? fun d => d.id == id with
  | none => s
  | some d => s.completeDesc d status

/-- The descriptor with an identifier that still awaits its answer. -/
def State.unanswered (s : State) (id : Nat) : Option Desc :=
  if s.completing id then none else s.host.descs.find? fun d => d.id == id

/-- SCALEOUT_COMPLETION (R275): a get's data is stored through column 1,537; the completion, a release of scope package, is stored
when that data has landed (log entry 64). -/
def execScaleoutCompletion (id status : Nat) (bytes : List Byte) (s : State) : Host.Outcome State Fault Refusal :=
  match s.unanswered id with
  | none => .next s
  | some d =>
    let lo := d.field 8 8
    let data := (bytes.take (d.field 0x18 8)).zipIdx.filterMap fun p =>
      (s.hostKey d.asid ((lo + p.2) % 2 ^ 57) { w := true }).map fun k => (k, p.1)
    .next (if d.field 0 1 == 2 && status == soOk && !data.isEmpty then s.startStore 1537 0 s.now data (done := .complete id status)
      else s.completeDesc d status)

/-- SCALEOUT_RETRANSMISSION (R274): sent again, or PEER. -/
def execScaleoutRetransmission (id : Nat) (giveUp : Bool) (s : State) : Host.Outcome State Fault Refusal :=
  match s.unanswered id with
  | none => .next s
  | some d =>
    if giveUp then .next (s.completeDesc d soPeer)
    else .next (if d.field 0 1 == 2 then s.sendGet d else s.sendPut d)

/-- ETHERNET_FRAME (R274): frames of up to 9,216 bytes on a port that is up; a PTP event message is timestamped. -/
def execEthernetFrame (port : Nat) (bytes : List Byte) (ptp : Bool) (s : State) : Host.Outcome State Fault Refusal :=
  if 9 < port || 9216 < bytes.length || s.plat.portDown.getLsbD port || !ptp then .next s
  else .next { s with host := { s.host with stamps := s.host.stamps ++ [(port, s.now)] } }

/-! ## Host memory accesses (R277) -/

/-- The base of the BAR2 window: bits of HBWIN below the size of BAR2 are ignored, and read 0 (R283). -/
def HostIf.window (h : HostIf) : Nat := h.hbwin.toNat / 2 ^ h.barLog * 2 ^ h.barLog

/-- The physical address of a BAR2 offset. -/
def State.barAddr (s : State) (off : Nat) : Nat := s.host.window + off

/-- Package memory ends at 2^39 (R14). -/
def memEnd : Nat := 2 ^ 39

/-- HOST_MEMORY_WRITE (R277): a store of column 1,537 in arrival order. -/
def execHostMemoryWrite (off : Nat) (bytes : List Byte) (s : State) : Host.Outcome State Fault Refusal :=
  let a := s.barAddr off
  if 2 ^ s.host.barLog < off + bytes.length || memEnd < a + bytes.length || bytes.isEmpty then .next s
  else .next (s.startStore 1537 0 s.now (addressed a bytes))

/-- HOST_MEMORY_READ (R277): answered at the commit that carries it. -/
def execHostMemoryRead (off len : Nat) (s : State) : Host.Outcome State Fault Refusal :=
  let a := s.barAddr off
  if 2 ^ s.host.barLog < off + len || memEnd < a + len || len == 0 then .next s
  else
    let lines := (List.range ((a % 64 + len + 63) / 64)).map fun k => a / 64 + k
    .next (s.startRead 1537 0 s.now lines (.hostRead a len))

/-- A host read has landed. -/
def State.landHostRead (s : State) (o : MemOp) (a len : Nat) : State :=
  { s with out := s.out ++ [.host ((List.range len).map fun i => o.byteAt (a + i))] }

/-! ## BAR0 registers (R279 to R284, R317) -/

/-- A doorbell (R280): discarded while busy; done and BADOP clear, the last request's code and tag stay. -/
def State.doorbell (s : State) (x : BitVec 64) : State :=
  if s.host.busy || !x.getLsbD 0 then s
  else { s with host := { s.host with busy := true, stat := (s.host.stat &&& ~~~(10#64)) ||| 1#64 } }

/-- A snapshot request (R317): the last snapshot is no longer held. -/
def State.requestSnapshot (s : State) : State := { s with host := { s.host with rbreq := some s.now }, snap := none }

/-- SNAPSHOT_REQUEST (R317). -/
def execSnapshotRequest (s : State) : Host.Outcome State Fault Refusal := .next s.requestSnapshot

/-- A write to the ring table (R284): a ring's fields while its enable bit is 0; stopped and the consumer index are
read only, and the reserved bits of the port mask stay 0 (R5). -/
def State.ringWrite (s : State) (off size x : Nat) : State :=
  let i := off / 64
  let o := off % 64
  let on := s.ring i 0x20 1 % 2 == 1
  if o = 0x20 then
    if x % 2 = 0 then (if on then s.disableRing i else s)
    else match execRingEnable i s with | .next t => t | _ => s
  else if on || o = 0x24 || 0x28 ≤ o then s
  else
    let t := s.setRing i o (bytesOf size x)
    t.setRing i 0x1F [BitVec.ofNat 8 (t.ring i 0x1F 1 % 4)]

/-- REGISTER_WRITE (R279): 4 or 8 bytes, aligned; every other access and every other offset is discarded. -/
def execRegisterWrite (off size : Nat) (x : BitVec 64) (s : State) : Host.Outcome State Fault Refusal :=
  let bytes := bytesOf size x.toNat
  let h := s.host
  if !(size == 4 || size == 8) || off % size ≠ 0 then .next s
  else if off = 0 then .next (s.doorbell x)
  else if off = 0x18 then .next { s with host := { h with evc := x.setWidth 32 } }
  else if off / 8 * 8 = 0x20 then .next { s with host := { h with lost := 0 } }
  else if 0x100 ≤ off && off < 0x200 then
    .next (if h.busy then s else { s with host := { h with req := smWrite h.req (off - 0x100) bytes } })
  else if off / 8 * 8 = 0x1000 then
    let old := smWrite (smWrite [] 0 (bytesOf 8 h.hbwin.toNat)) (off - 0x1000) bytes
    .next { s with host := { h with hbwin := BitVec.ofNat 64 (smNat old 0 8) &&& 0x7FC0000000 } }
  else if 0x10000 ≤ off && off < 0x18000 then
    let a := (off - 0x10000) / 8
    let old := smWrite (smWrite [] 0 (bytesOf 8 (smGet h.pasid a).toNat)) (off % 8) bytes
    .next { s with host := { h with pasid := smSet h.pasid a (BitVec.ofNat 64 (smNat old 0 8) &&& 0x800FFFFF) } }
  else if 0x20000 ≤ off && off < 0x24000 then .next (s.ringWrite (off - 0x20000) size x.toNat)
  else if off / 8 * 8 = 0xF00000 then
    let old := smWrite (smWrite [] 0 (bytesOf 8 h.rbsel.toNat)) (off % 8) bytes
    .next { s with host := { h with rbsel := BitVec.ofNat 64 (smNat old 0 8) &&& 0xFFFFFFFFE000000 } }
  else if off = 0xF00008 then .next (if x.getLsbD 0 then s.requestSnapshot else s)
  else if 0x3000000 ≤ off && off < 0x4000000 then
    .next (if h.busy then s else { s with host := { h with payload := smWrite h.payload (off - 0x3000000) bytes } })
  else .next s

end Sys2Proof.Machine
end

