-- ==== Sys2Proof/Machine/Commit.lean ====
section
/-! DEFINITION. The commit of a memory period (R34 to R37, R152, R161, R176): COMMIT with its writes, atomics and landings, REFRESH, and RETRY_DETECTED. -/

namespace Sys2Proof.Machine
open Sys2Proof

/-! ## Marks of the running cycle -/

/-- The mark of an event that occurs once in a cycle, in `swept`. -/
def markCommit : Nat := 1

/-- The mark of a cycle whose temperature sensors have been read (R320). -/
def markTemp : Nat := 65536 * 36 + 2

/-- Whether a mark of the running cycle is set, and setting it. -/
def State.marked (s : State) (k : Nat) : Bool := s.swept.contains k
def State.mark (s : State) (k : Nat) : State := { s with swept := k :: s.swept }

/-! ## Uncorrectable lines (R55, R287, R288) -/

/-- Whether the operation is a strand's own load or atomic, whose fault is raised in the strand. -/
def MemOp.ofStrand (o : MemOp) : Bool :=
  match o.done with
  | .load .. => true
  | .fetched .. => true
  | .fetchedQ .. => true
  | .shHeader .. => true
  | .shWindow .. => true
  | .shReload .. => true
  | _ => false

/-- The uncorrectable lines that an operation reads in the period that commits. -/
def MemOp.badCarried (o : MemOp) (bad : List Nat) : List Nat :=
  if o.reads || !o.atoms.isEmpty then o.carry.filter bad.contains else []

/-- The key of a remote line, as lines of an operation are numbered. -/
def remoteKey (pkg line : Nat) : Nat := 2 ^ 34 * (pkg + 1) + line

/-- The threads of an operation that read a line, with the generic address of each. -/
def MemOp.readers (o : MemOp) (line : Nat) : List (Nat × Addr) :=
  match o.done with
  | .load _ _ _ _ lanes _ _ => lanes.filterMap fun l => match l.2 with | some k => if k.1 / 64 == line then some (l.1, k.2) else none | none => none
  | .shHeader _ a leader _ _ => if a.1 / 64 == line then [(leader, a.2)] else []
  | .shWindow _ _ pas leader _ _ => ((pas.filter fun p => p.1 / 64 == line).take 1).map fun p => (leader, p.2)
  | .shReload _ _ _ pas leader _ _ => ((pas.filter fun p => p.1 / 64 == line).take 1).map fun p => (leader, p.2)
  | _ => (o.atoms.filter fun r => r.pa / 64 == line).map fun r => (r.thread, r.va)

/-- The word of a strand's operation. -/
def MemOp.wordOf (o : MemOp) : Addr × Nat :=
  match o.done with
  | .load _ _ _ _ _ w n => (w, n)
  | .fetched _ _ _ _ w n => (w, n)
  | .fetchedQ _ w n => (w, n)
  | .shHeader _ _ _ w n => (w, n)
  | .shWindow _ _ _ _ w n => (w, n)
  | .shReload _ _ _ _ _ w n => (w, n)
  | _ => (0, 0)

/-- Taking an operation away. -/
def State.dropOp (s : State) (o : MemOp) : State := { s with ops := s.ops.filter fun x => !(x.seq == o.seq && x.col == o.col) }

/-- Putting an operation back as it now stands. -/
def State.putOp (s : State) (o : MemOp) : State :=
  { s with ops := s.ops.map fun x => if x.seq == o.seq && x.col == o.col then o else x }

/-- The tag faults of an LD.DEC on some lines (R392): threads, causes and addresses. -/
def MemOp.decFaults (o : MemOp) (lines : List Nat) : List (Nat × Cause × Addr) :=
  match o.done with
  | .load _ _ t true lanes _ _ => lanes.filterMap fun l =>
      match l.2 with
      | some k => if lines.contains (k.1 / 64) then (decCheck t (o.tagAt (k.1 / 64 * 64))).map fun c => (l.1, c, k.2) else none
      | none => none
  | _ => []

/-- The lines that a load's threads read. -/
def MemOp.loadLines (o : MemOp) : List Nat :=
  match o.done with
  | .load _ _ _ _ lanes _ _ => lanes.filterMap fun l => l.2.map fun k => k.1 / 64
  | _ => []

/-- The fault of a strand's operation on some lines it has read, `bad` the uncorrectable ones (R286, R287, R392): MEMUNC of every thread
that reads one of these, and the tags of an LD.DEC on the others. -/
def MemOp.readFault (o : MemOp) (bad lines : List Nat) : Option Trap :=
  let unc := (bad.flatMap o.readers).map fun p => (p.1, Cause.memunc, p.2)
  match worst (sortBy (·.1) (unc ++ o.decFaults (lines.filter fun l => !bad.contains l))) with
  | .error f => some f
  | .ok _ => none

/-! ## The writes of a commit (R152, R153, R176) -/

/-- The place of an operation in the order of a commit: column, acceptance, slot, issue. -/
def commitBefore (x y : MemOp) : Bool :=
  x.col < y.col || (x.col == y.col && opBefore x y)

/-- Whether an operation has nothing of its data left to move. -/
def MemOp.dataMoved (o : MemOp) (now : Nat) : Bool := o.carried && o.todo.isEmpty && o.remoteDone now

/-- A flag of a copy that follows its data (R153): the bytes, with the horizon of R167. -/
def State.writeFlag (s : State) (o : MemOp) (f : Nat × Word) : State :=
  let h := s.horizonNow o
  (s.writeMem (addressed f.1 (bytesOf 4 f.2.toNat))).setHorizons [f.1 / 64] h.1 h.2

/-- A flag in another package goes as a STORE record once the data is done. -/
def State.sendFlag (s : State) (o : MemOp) (f : Nat × Word) : State :=
  let line := f.1 / 64
  let recs := remoteStores [line] (addressed f.1 (bytesOf 4 f.2.toNat))
  let rem := recs.map fun r => ({ pkg := (lineHome r.1).getD 0, line := lineAtHome r.1, thread := r.2.1, resp := false, sent := none, data := none } : RemLine)
  let s := s.putOp { o with flag := none, remote := rem, rland := none }
  recs.foldl (fun s r => s.sendRecord { o with acc := s.now } r.1 r.2.1 r.2.2.1 r.2.2.2) s

/-- The horizons an operation's lines hold as its atomics reach them. -/
def State.gotNow (s : State) (o : MemOp) : List Got :=
  if o.atoms.isEmpty then o.got else o.got.map fun g => if o.carry.contains g.line then { g with horizon := s.horizon g.line, far := s.horizonFar g.line } else g

/-- One operation at a commit: its uncorrectable lines, then its writes, atomics and flag. R167 names the horizon that a plain store,
a release and an atomic leave; every other write leaves 0, as a plain store does (DESIGN CHOICE, log entry 56). -/
def State.commitOp (s : State) (o : MemOp) : State :=
  let bad := o.badCarried s.badLines
  let s := o.carry.foldl (fun s l => s.countAccess s.sch.pkgid l) s
  match if o.ofStrand then o.readFault bad o.carry else none with
  | some f => (s.dropOp o).lateOp o o.wordOf.1 o.wordOf.2 f
  | none =>
    let o := { o with bad := o.bad ++ bad, got := s.gotNow o }
    let ends := o.atEnd && o.dataMoved s.now
    let s :=
      if !o.atEnd then s.applyWrites o o.carry (s.horizonNow o)
      else if ends && o.bad.isEmpty then s.applyWrites o (o.writes.map fun p => p.1 / 64) (0, none)
      else s
    let o := if ends then { o with writes := [], wtags := [] } else o
    let r := s.applyAtoms o o.carry
    let s := match o.flag with | some f => if o.carryFlag then r.1.writeFlag o f else r.1 | none => r.1
    s.putOp { r.2 with carry := [], carryFlag := false, flag := if o.carryFlag then none else r.2.flag }

/-- The operations of some columns at a commit, in order. -/
def State.commitCols (s : State) (mine : Nat → Bool) : State :=
  (sortOps commitBefore (s.ops.filter fun o => mine o.col && o.carried)).foldl State.commitOp s

/-! ## Landings -/

/-- The parks of an acquire of scope pod until its lines' horizons (R168). -/
def State.parkHorizon (s : State) (o : MemOp) : State :=
  let ws := (o.got.flatMap fun g => horizonWaits g.horizon g.far).filter fun w => match w with | .tick h => decide (s.now < h) | _ => true
  if !o.acqPod || ws.isEmpty || o.key = 0 || 8 < o.key then s
  else s.modStrand o.col o.slot fun st =>
    if st.ended.isNone && st.owns o.seq then { st with waits := st.waits ++ ws } else st

/-- The words of a fetched value. -/
def fetchedWords (wide : Bool) (x : BitVec 128) : List Word :=
  x.extractLsb' 0 32 :: if wide then [x.extractLsb' 32 32] else []

/-- The fetched values of an atomic (R177, R359): for .TREE rebuilt from the one old value. -/
def MemOp.fetchedWrites (o : MemOp) (toS : Bool) (d : Nat) (wide : Bool)
    (tree : Option (AtomOp × Ty × List (Nat × BitVec 64))) : List RegW :=
  let bytes := if wide then 8 else 4
  match tree with
  | none => o.atoms.flatMap fun r => Sys2Proof.Machine.loadWrites toS d r.thread (fetchedWords wide (o.oldOf bytes r.thread r.pa))
  | some (op, ty, excl) =>
    match o.atoms, excl with
    | r :: _, first :: rest =>
      let old := (o.oldOf bytes r.thread r.pa).setWidth 64
      Sys2Proof.Machine.loadWrites toS d first.1 (fetchedWords wide (old.setWidth 128))
        ++ rest.flatMap fun p => Sys2Proof.Machine.loadWrites toS d p.1 (fetchedWords wide ((atomValue op ty old p.2 0).setWidth 128))
    | _, _ => []

/-- The fault of a copy into scratch (R156, R288): a source line with an uncorrectable error; in window mode a tag that
fails or names another format. -/
def MemOp.copyFault (o : MemOp) (blocks : List (Nat × Option (Nat × Addr))) (bytes : List (Nat × Nat × Addr)) (fmt : Option Byte) :
    Option (Cause × Addr) :=
  let addrs := (blocks.filterMap (·.2)) ++ bytes.map (·.2)
  let unc := match o.bad.head? with
    | some l => [(0, Cause.memunc, ((addrs.find? fun a => a.1 / 64 == l).map (·.2)).getD 0)]
    | none => []
  let tags := match fmt with
    | none => []
    | some f => bytes.filterMap fun b =>
        let t := o.tagAt (b.2.1 / 64 * 64)
        if !tagOk t then some (0, Cause.memunc, b.2.2)
        else if tagFormat t != f then some (0, Cause.illconv, b.2.2)
        else none
  match worst (unc ++ tags) with
  | .ok _ => none
  | .error f => some (f.cause, f.addr)

/-- The bytes and tags that a copy into scratch writes. -/
def MemOp.copyData (o : MemOp) (blocks : List (Nat × Option (Nat × Addr))) (fillTag : Tag) (bytes : List (Nat × Nat × Addr)) :
    List (Nat × Byte) × List (Nat × Tag) :=
  let whole := blocks.flatMap fun b => (List.range 64).map fun i =>
    (b.1 + i, match b.2 with | some k => o.byteAt (k.1 + i) | none => (0 : Byte))
  let tags := blocks.map fun b => (b.1 / 64, match b.2 with | some k => o.tagAt k.1 | none => fillTag)
  (whole ++ bytes.map fun b => (b.1, o.byteAt b.2.1), tags)

/-- A write of row 1 of R142 in its landing cycle: it is applied with the others of the cycle, in issue order. -/
def Core.copyWrite (k : Core) (seq now : Nat) (bytes : List (Nat × Byte)) (tags : List (Nat × Tag)) : Core :=
  { k with swr := k.swr ++ [⟨seq, now, 1, bytes, tags⟩] }

/-- The writes of row 1 that land in the running cycle (R142, R162): copies into scratch and XFER.RECVs. -/
def State.landCopies (s : State) : State := { s with cores := s.cores.map fun p => (p.1, p.2.landRow 1 s.now) }

/-- A copy into scratch lands (R152, R153): row 1 of R142, its flag after its data. -/
def State.landCopyIn (s : State) (o : MemOp) (blocks : List (Nat × Option (Nat × Addr))) (fillTag : Tag)
    (bytes : List (Nat × Nat × Addr)) (fmt : Option Byte) (flag : Option (Nat × Word)) : State :=
  let s := s.landEng o.col o.seq
  let failed := (s.slotsOf o.col).any fun i => match s.strand o.col i with
    | some st => st.eops.any fun e => e.seq == o.seq && e.fail.isSome
    | none => false
  match o.copyFault blocks bytes fmt with
  | some f => s.failEng o.col o.seq f.1 f.2
  | none =>
    if failed then s
    else
      let data := o.copyData blocks fillTag bytes
      let flagBytes := match flag with | some f => addressed f.1 (bytesOf 4 f.2.toNat) | none => []
      s.modCore o.col fun k => k.copyWrite o.seq s.now (data.1 ++ flagBytes) data.2

/-- A crown fill's lines have landed: the slot is written by its fill in this cycle (R144, R145). -/
def State.landCrown (s : State) (o : MemOp) (num cslot : Nat) (lines : List (Nat × Addr)) : State :=
  match o.bad.head? with
  | some l =>
    let a := ((lines.find? fun p => p.1 == l).map (·.2)).getD 0
    (s.landEng o.col o.seq).failEng o.col o.seq .memunc a
  | none =>
    let bytes := lines.zipIdx.flatMap fun p => (List.range 64).map fun i => (64 * p.2 + i, o.byteAt (64 * p.1.1 + i))
    let tags := lines.zipIdx.map fun p => (p.2, o.tagAt (64 * p.1.1))
    if lines.isEmpty then s.landEng o.col o.seq
    else s.modCore o.col fun k =>
      { k with fills := k.fills ++ [⟨o.seq, o.slot, num, s.now, cslot, smWrites [] bytes, smWrites [] tags, false⟩] }

/-- A header of SHLD lands (R217): its window lines follow, or the register lands invalid, its window all 0 (the spec does not say what
it holds; DESIGN CHOICE, log entry 68), or SHLD faults in the next cycle. -/
def State.landHeader (s : State) (o : MemOp) (g : Nat) (at_ : Nat) (leader : Nat) (word : Addr) (len : Nat) : State :=
  let r := headerOf fun k n => o.natAt (at_ + k) n
  if !r.headerOk then s.landResult o [.shAll g r]
  else
    let addrs := windowLines r.btab 0 r.seqs.toNat
    match (s.blk o.col).map fun b => s.pageKeys o.col b.asid {} (addrs.map fun a => a.toNat % 2 ^ 57) with
    | some (.ok keys) =>
      let pas := keys.zip addrs
      let lines := keys.map fun k => k / 64
      s.launchOp { rawOp o.seq o.col o.key s.now lines (.shWindow g r pas leader word len) with acc := s.now, loose := o.loose } (remoteLoads lines)
    | some (.error c) =>
      let untranslated (a : Addr) : Bool := match (s.blk o.col).map fun b => s.pageKey o.col b.asid (a.toNat % 2 ^ 57) {} with
        | some (.error _) => true
        | _ => false
      s.lateOp o word len { cause := c, threads := [leader], addr := (addrs.find? untranslated).getD 0 }
    | none => s

/-- What an operation does as it lands. -/
def State.landOp (s : State) (o : MemOp) : State :=
  let s := s.parkHorizon o
  match o.done with
  | .nothing => s.landResult o []
  | .load toS d t _ lanes _ _ => s.landResult o (o.loadWrites toS d t lanes)
  | .fetched toS d wide tree _ _ =>
    s.landResult o (match d with | some r => o.fetchedWrites toS r wide tree | none => [])
  | .fetchedQ d _ _ =>
    s.landResult o (match d with
      | some r => o.atoms.map fun a => .q r a.thread (triOf (o.oldOf 16 a.thread a.pa).toNat)
      | none => [])
  | .copyIn _ blocks fillTag bytes fmt flag => s.landCopyIn o blocks fillTag bytes fmt flag
  | .copyOut _ _ => s.landEng o.col o.seq
  | .crown num cslot lines => s.landCrown o num cslot lines
  | .shHeader g a leader word len => s.landHeader o g a.1 leader word len
  | .shWindow g r pas _ _ _ => s.landResult o [.shAll g { r with win := windowOf r 0 (o.entryAt pas 0) }]
  | .shReload g r w pas _ _ _ => s.landResult o [.shWin g w (windowOf r w.toNat (o.entryAt pas w.toNat))]
  | .stage ix _ pas => s.landStage o ix pas
  | .save fixed => s.landSave o fixed
  | .restore area => s.landRestore o area
  | .hostRead off len => if !o.bad.isEmpty then s else s.landHostRead o off len
  | .putRead id => if !o.bad.isEmpty then s else s.landPut o id
  | .complete id status => s.landComplete id status
  | .migrate asid va pkg => s.landMigrate o asid va pkg
  | .pageIn asid va base => s.landPage asid va base

/-- One operation after the writes of a commit: it lands, sends its flag to another package, or goes on. A strand's own first raises
what its lines hold: those of this package were judged by the commits that carried them, those of other packages are judged here
(R287, R392). -/
def State.settleOp (s : State) (o : MemOp) : State :=
  if !o.dataMoved s.now || !o.carry.isEmpty then s
  else
    match o.flag with
    | some f => if (lineHome (f.1 / 64)).isSome && o.bad.isEmpty then s.sendFlag o f else s
    | none =>
      match if o.ofStrand then o.readFault o.bad o.loadLines else none with
      | some f => (s.dropOp o).lateOp o o.wordOf.1 o.wordOf.2 f
      | none => (s.dropOp o).landOp o

/-- Every operation after the writes of a commit. -/
def State.settleOps (s : State) : State := (sortOps commitBefore s.ops).foldl State.settleOp s

/-- The loose WAITAs of a core's strands, tested after every write of a commit (R272). -/
def State.testWaita (s : State) (c : Nat) : State :=
  (s.slotsOf c).foldl (fun s i =>
    match s.strand c i with
    | none => s
    | some st =>
      match st.waits.find? fun w => match w with
        | .waita pa x q _ none from_ _ _ => decide (from_ ≤ s.now) && waitaHolds q (s.memWord pa) x
        | _ => false with
      | some w => s.releaseWaita c i w
      | none => s) s

/-- COMMIT (R36, R176). The first time in a cycle it applies the writes and atomics of the cores' columns; the records of
column 1,536 follow as events of their own; the second time it applies column 1,537, lands what has moved, tests the
waiting WAITAs and serves the scale-out rings, whose die has left reset by then (R311). -/
def execCommit (s : State) : Host.Outcome State Fault Refusal :=
  if !s.marked markCommit then .next ((s.commitCols fun c => c < 1536).mark markCommit)
  else
    let s := (s.commitCols fun c => 1536 ≤ c).settleOps.landCopies
    let s := s.cores.foldl (fun s p => s.testWaita p.1) s
    .next (if s.released then s.serveRings else s)

/-! ## Refresh and retry (R34, R45, R55) -/

/-- REFRESH (R34, R45): the slack window refreshes the stack's next bank group, or with mode 0 every eighth window. -/
def execRefresh (stack : Nat) (s : State) : Host.Outcome State Fault Refusal :=
  .next { s with refreshed := smSet s.refreshed stack (smGet s.refreshed stack + 1) }

/-- RETRY_DETECTED (R55): the first line of a period and stack is retried, and may stay uncorrectable, until a write of the
whole line (R323); another line is SLACK. -/
def execRetryDetected (stack line : Nat) (uncorrectable : Bool) (s : State) : Host.Outcome State Fault Refusal :=
  let mine := s.retried.filter fun r => r.1 == stack
  if mine.any fun r => r.2 == line then .next s
  else if mine.isEmpty then
    .next { s with
      retried := s.retried ++ [(stack, line)]
      badLines := if uncorrectable && !s.badLines.contains line then line :: s.badLines else s.badLines }
  else .next (s.raiseSched .slack stack)

end Sys2Proof.Machine
end

