-- ==== Sys2Proof/Machine/Fabric.lean ====
section
/-! DEFINITION. The Stagamon planes (R248 to R264): flit slots, deliveries, naks and replays, timing flits, records at their home and at the requester, streams, the commit of a fabric period. -/

namespace Sys2Proof.Machine
open Sys2Proof

/-! ## Slots (R34, R46, R49, R251) -/

/-- The Accord frame of the running cycle, its cycle in the frame, and its slot. -/
def State.frame (s : State) : Nat := s.accord / 2048
def State.frameCycle (s : State) : Nat := s.accord % 2048
def State.slotNow (s : State) : Nat := s.frameCycle / 2

/-- The part whose slot maps are in force: the running part's in a slice, else the idle alternate's (R48, R49). -/
def State.mapPart (s : State) : Option Part := if s.sch.active then s.part else aGet s.sch.alts 9

/-- Replay-reserve slots of the built-in idle alternate (R49). -/
def State.reserveMin (s : State) : Nat := match s.sch.main with | some p => smNat p.img (p.section 9).1 2 | none => 0

/-- Kind and index of a slot in the maps of a part, or of the built-in idle alternate (R46, R49). -/
def State.slotUseOf (s : State) (part : Option Part) (plane n : Nat) : Nat × Nat :=
  match part with
  | some p =>
    let x := smNat p.img ((p.section 4).1 + 2048 * plane + 2 * n) 2
    (x / 2 ^ 13, x % 2 ^ 13)
  | none => if n = 0 then (4, 0) else if 1024 - s.reserveMin ≤ n then (5, 0) else (0, 0)

/-- Kind and index of a slot of the running frame. -/
def State.slotUse (s : State) (plane n : Nat) : Nat × Nat := s.slotUseOf s.mapPart plane n

/-- Whether a flit delivered now was sent in the frame before: slot n is delivered 162 cycles after it starts (R251). -/
def State.fromLast (s : State) : Bool := decide (s.frameCycle < 162)

/-- The Accord frame in which a flit delivered now was sent. The frame before keeps the number it had, wherever Accord time goes on
after it (R33). -/
def State.flitFrame (s : State) : Nat := if s.fromLast then s.sch.lastFrame else s.frame

/-- Kind and index of the slot that a flit delivered now went in: by the running frame's maps or those of the frame before (R251). -/
def State.slotUseIn (s : State) (plane n : Nat) : Nat × Nat := s.slotUseOf (if s.fromLast then s.fab.lastMap else s.mapPart) plane n

/-- Whether a plane is live. -/
def State.live (s : State) (p : Nat) : Bool := p < 8 && s.sch.planes.getLsbD p

/-- Whether the package carries data: its slice runs and no schedule fault has been detected here (R58). -/
def State.carries (s : State) : Bool := s.sch.phase == .run && s.sch.raised.isEmpty

/-! ## The 256 bytes of a flit (R4, R248, R250, R253, R257, R261) -/

/-- Bytes filled with zeros to a length. -/
def padTo (n : Nat) (bs : List Byte) : List Byte := bs ++ List.replicate (n - bs.length) 0

/-- The 12-byte descriptor of a record and its 64 bytes of data (R257). -/
def recBytes (r : Rec) : List Byte :=
  bytesOf 12 (r.line ++ r.op ++ r.tag ++ r.mask ++ r.aop ++ r.width ++ 0#4).toNat ++ bytesOf 64 r.data.toNat

/-- The payload of a timing flit (R253). -/
def timingBytes (t : Timing) : List Byte :=
  bytesOf 8 t.frame.toNat ++ bytesOf 8 t.offset.toNat ++ bytesOf 8 t.generation.toNat ++ bytesOf 1 t.sender.toNat
    ++ bytesOf 1 t.planeStatus.toNat ++ bytesOf 1 t.cause.toNat ++ bytesOf 1 0 ++ bytesOf 2 t.detPkg.toNat ++ bytesOf 2 0
    ++ bytesOf 32 t.absentSet.toNat ++ bytesOf 3 t.planeMap.toNat ++ bytesOf 8 t.detAccord.toNat ++ bytesOf 8 t.detTick.toNat

/-- The 236 bytes of a payload: records at 0, 76 and 152 (R257), units at 0, 68 and 136, each a block and its tag (R261); a withheld
flit holds 1 in its first four bytes (R262). -/
def bodyBytes (b : Body) : List Byte :=
  padTo 236 (match b with
    | .idle => []
    | .stream us => us.flatMap fun u => bytesOf 64 u.1.toNat ++ bytesOf 4 u.2.toNat
    | .withheld => bytesOf 4 1
    | .record rs => rs.flatMap recBytes
    | .timing t => timingBytes t)

/-- The kind code of a flit (R250). -/
def bodyKind (b : Body) : BitVec 2 :=
  match b with
  | .idle => 0
  | .stream _ => 1
  | .withheld => 1
  | .record _ => 2
  | .timing _ => 3

/-- The link-layer field (R250). -/
def flitLink (f : Flit) : BitVec 48 :=
  f.slot ++ f.frame ++ bodyKind f.body ++ BitVec.ofBool f.replay ++ BitVec.ofBool f.void ++ BitVec.ofBool f.ready ++ BitVec.ofBool f.fault
    ++ BitVec.ofBool f.absent.isSome ++ f.absent.getD 0 ++ BitVec.ofBool f.nak.isSome ++ f.nak.getD 0

/-- The 256 bytes of a flit (R248): payload, link-layer field, CRC and FEC. -/
def flitBytes (f : Flit) : List Byte :=
  let head := bodyBytes f.body ++ bytesOf 6 (flitLink f).toNat
  head ++ bytesOf 14 (Config.flitCheck head).toNat

/-! ## Sending (R250, R253, R259, R261, R266) -/

/-- Whether an idle alternate is in force. -/
def State.idles (s : State) : Bool := s.sch.inForce == .idle || s.sch.inForce == .alt 9

/-- The slice of the main part that starts in the running frame. -/
def State.mainStart (s : State) : Option Nat :=
  s.sch.main.bind fun p => (List.range p.sliceCount).find? fun i => p.sliceFirst i == s.frame

/-- Whether the idle alternate runs because a member was Hot, and every temperature has been low for a whole slice (R321). -/
def State.cooled (s : State) : Bool := s.plat.coolSlice && (match s.sch.altReq with | some (true, _) => true | _ => false)

/-- The first slice of a part that starts in a frame or later. -/
def Part.sliceFrom (p : Part) (f : Nat) : Option Nat := (List.range p.sliceCount).find? fun i => f ≤ p.sliceFirst i

/-- The frame that the next slice starts in, where one is due (R40, R53, R62, R321). -/
def State.nextFirst (s : State) : Option Nat :=
  let next := s.frame + 1
  let new := s.sch.pending.map fun p => let n := (p.2.2 + 2047) / 2048; if n < next then next else n
  if 0 < s.sch.idleVotes then some s.frame
  else
    match s.part with
    | some p =>
      if s.sch.active then some (p.sliceFirst s.sch.slice + p.sliceFrames s.sch.slice)
      else if s.sch.ended then
        if s.cooled then (s.sch.main.bind fun m => (m.sliceFrom next).map m.sliceFirst) else new
      else some (p.sliceFirst s.sch.slice)
    | none => if s.cooled then (s.sch.main.bind fun m => (m.sliceFrom next).map m.sliceFirst) else new

/-- Whether the running frame is the last before a slice, or an idle frame of the ready vote (R62). -/
def State.voteFrame (s : State) : Bool :=
  match s.nextFirst with
  | some n => s.frame + 1 == n || 0 < s.sch.idleVotes
  | none => false

/-- Whether every period of the slice before has committed so far, on this member and, as far as it knows, on every other
(R38). A contiguous slice's last frame still runs while it is voted on, so this is what its commit can mean in a vote (R62, log
entry 14). -/
def State.committedSoFar (s : State) : Bool := s.carries && s.sch.heard.isEmpty

/-- Whether the launch entries of the slice to come are loaded (R62): they are read with the part, at its installation. -/
def State.entriesLoaded (s : State) : Bool := s.part.isSome || s.sch.main.isSome || s.sch.pending.isSome

/-- Whether this member is ready (R62): the slice before has committed, the entries are loaded, the reference is locked; a package whose
firmware is not verified runs no slice (R311). -/
def State.readyHere (s : State) : Bool := s.committedSoFar && s.entriesLoaded && s.sch.locked && s.released

/-- The code of a cause (R57). -/
def SCause.code (c : SCause) : Nat :=
  match c with
  | .slack => 1 | .fslack => 2 | .stall => 3 | .vote => 4 | .plane => 5 | .clock => 6

/-- The earlier of two faults: frame, then code, then package (R58). -/
def faultBefore (x y : SFault) : Bool :=
  x.frame < y.frame || (x.frame == y.frame && (x.cause.code < y.cause.code || (x.cause.code == y.cause.code && x.pkg < y.pkg)))

/-- The first of some faults. -/
def firstFault (l : List SFault) : Option SFault :=
  l.foldl (fun m f => match m with | none => some f | some x => if faultBefore f x then some f else some x) none

/-- The recorded cause of the slice (R58): the first fault among those known, none of them known only by its bit. -/
def State.recordedFault (s : State) : Option SFault := firstFault (s.sch.faults ++ s.sch.heard.filter fun f => f.pkg != 0xFFFF)

/-- Whether the package exchanges causes: SYNC-A and SYNC-B of R59 (R253). -/
def State.exchanges (s : State) : Bool := s.sch.phase == .syncA || s.sch.phase == .syncB

/-- The payload of a timing flit (R253); in SYNC-A and SYNC-B with the recorded fault as it is known. -/
def State.timing (s : State) : Timing :=
  let f := if s.exchanges then s.recordedFault else none
  let gen := match s.part, s.sch.main with | some p, _ => smNat p.img 8 8 | none, some p => smNat p.img 8 8 | none, none => 0
  { frame := BitVec.ofNat 64 s.frame
    offset := BitVec.ofNat 64 s.sch.offset
    generation := BitVec.ofNat 64 gen
    sender := BitVec.ofNat 8 s.sch.pkgid
    planeStatus := s.sch.planes
    cause := match f with | some x => BitVec.ofNat 8 x.cause.code | none => 0
    detPkg := match f with | some x => BitVec.ofNat 16 x.pkg | none => 0
    absentSet := s.sch.absent
    planeMap := s.sch.planeMap
    detAccord := match f with | some x => BitVec.ofNat 64 x.time | none => 0
    detTick := match f with | some x => BitVec.ofNat 64 x.tick | none => 0 }

/-- The three units of a stream or collective flit: those past the last block are zero (R250, R261). -/
def flitOf (us : List (Block × Tag)) : List (Block × Tag) := us ++ List.replicate (3 - us.length) (0, 0)

/-- The flit a stream slot sends (R261, R262): the payload, whether it is void, and the state after it. -/
def State.streamOut (s : State) (chan peer : Nat) : Body × Bool × State :=
  let mine := s.fab.sends.filter fun x => x.chan == chan && x.peer == peer && x.read && x.left != 0 && x.acc + 64 ≤ s.now && x.floors.headD 0 ≤ s.now
  match sortBy (·.acc) (sortBy (·.core) (sortBy (·.slot) mine)) with
  | [] => (.stream [], true, s)
  | x :: _ =>
    let k := (x.n + 2) / 3 - x.left
    let last := x.left == 1
    let end_ := s.frameEnd (s.frame + 1)
    let y := { x with left := x.left - 1, land := if last then some end_ else x.land, floors := x.floors.drop 1 }
    let s := { s with fab := { s.fab with sends := s.fab.sends.map fun z => if z.seq == x.seq && z.core == x.core then y else z } }
    let s := if last then s.modSlots x.core fun st => st.modOp x.seq fun o => o.landAt end_ else s
    let s := if x.bad then s.failEng x.core x.seq .memunc (scratchAddr x.off) else s
    if x.bad then (.withheld, true, s) else (.stream (flitOf ((x.units.drop (3 * k)).take 3)), false, s)

/-- The MASK record that completes a STOREB (R258). -/
def maskRecord (line : BitVec 33) (m : BitVec 64) : Rec := { recordOf line.toNat opMask with data := m.setWidth 512 }

/-- An unused record position. -/
def noRecord : Rec := recordOf 0 0

/-- Filling the positions of a record flit from the queue, in order (R259): the records, as `f` gives them, and those taken. -/
def fillRecords (f : OutRec → Rec) : List OutRec → List Rec → List OutRec → List Rec × List OutRec
  | [], rs, took => (rs, took)
  | r :: q, rs, took =>
    match r.mask with
    | none => if rs.length < 3 then fillRecords f q (rs ++ [f r]) (took ++ [r]) else (rs, took)
    | some m => if rs.length < 2 then fillRecords f q (rs ++ [f r, maskRecord r.body.line m]) (took ++ [r]) else (rs, took)

/-- Where a horizon leaves this package while accesses that it rests on have no landing yet: those are taken to be sent in the next
frame (log entry 15). -/
def State.horizonGuess (s : State) (h : Nat) (open_ : Bool) : BitVec 64 :=
  BitVec.ofNat 64 (if open_ then max h (s.frameEnd (s.frame + 2)) else h)

/-- A record as it is sent: the horizon of a release narrower than pod as far as it is known (R167, log entry 43). -/
def State.bodyNow (s : State) (r : OutRec) : Rec :=
  match r.body.hor, s.ops.find? fun o => !r.resp && o.seq == r.seq && o.col == r.core && o.narrow with
  | some _, some o =>
    let h := s.horizonNow o
    { r.body with hor := some (s.horizonGuess h.1 h.2.isSome) }
  | _, _ => r.body

/-- The plane a record waits for: a request's by the plane map in force, a RESP's that of its request while it is live (R255,
R256, R260). -/
def State.planeNow (s : State) (r : OutRec) : Nat :=
  if r.resp && s.live r.plane then r.plane else s.planeOf r.body.line.toNat

/-- The records of a queue that may go in the slot that starts now, in order (R259); RESPs go in slots 512 to 942 (R260). -/
def State.recordsFor (s : State) (plane peer : Nat) (resp : Bool) : List OutRec :=
  let mine := s.fab.recq.filter fun r => s.planeNow r == plane && r.peer == peer && r.resp == resp
    && (if resp then 512 ≤ s.slotNow && s.slotNow ≤ 942 else r.acc + 64 ≤ s.now && r.floor ≤ s.now)
  sortBy (·.acc) (sortBy (·.core) (sortBy (·.key) mine))

/-- A record has been sent: its line of the operation, and the landing once every line has been sent (R37). -/
def State.recordSent (s : State) (r : OutRec) : State :=
  if r.resp then s
  else
    let end_ := s.frameEnd (s.frame + 1)
    let sent (o : MemOp) : MemOp :=
      let rem := o.remote.map fun l =>
        if l.pkg == r.peer && l.line == r.body.line.toNat && l.thread == r.thread && l.sent.isNone then { l with sent := some s.now } else l
      { o with remote := rem, rland := if rem.all fun l => l.sent.isSome then some end_ else none }
    let s : State := { s with ops := s.ops.map fun (o : MemOp) => if o.seq == r.seq && o.col == r.core then sent o else o }
    match s.ops.find? fun (o : MemOp) => o.seq == r.seq && o.col == r.core with
    | some o =>
      if o.rland.isSome && o.todo.isEmpty && o.carry.isEmpty && 1 ≤ o.key && o.key ≤ 8 then
        s.modStrand o.col o.slot fun st => st.landAcc o.seq end_
      else s
    | none => s

/-- The requests of a flit that has left, kept until they land (R37, R52). -/
def flownWith (l : List OutRec) (took : List OutRec) : List OutRec := l ++ took.filter fun r => !r.resp

/-- The flit a record slot sends (R257, R259). -/
def State.recordOut (s : State) (plane index : Nat) : Body × Bool × State :=
  let r := fillRecords s.bodyNow (s.recordsFor plane (index % 256) (index / 256 % 2 == 1)) [] []
  let took (q : OutRec) : Bool := r.2.contains q
  let s1 := { s with fab := { s.fab with recq := s.fab.recq.filter fun q => !took q, flown := flownWith s.fab.flown r.2 } }
  (.record (r.1 ++ List.replicate (3 - r.1.length) noRecord), r.1.isEmpty, r.2.foldl State.recordSent s1)

/-- The planes of a mask, in order. -/
def planesOf (mask : Nat) : List Nat := (List.range 8).filter fun p => mask.testBit p

/-- The rank of a package among a tree's, as they are in a chunk's frame. -/
def Chunk.rankOf (k : Chunk) (pkg : Nat) : Option Nat := k.ranks.findIdx? fun x => x == pkg

/-- The kind of a collective, and its combine code (R267). -/
def Chunk.kind (k : Chunk) : Nat := k.op / 16
def Chunk.combine (k : Chunk) : Nat := k.op % 16

/-- The chunk of collective entry i in a frame. -/
def State.entryChunk (s : State) (i frame : Nat) : Option Chunk := s.fab.chunks.find? fun k => k.entry == i && k.frame == frame

/-- The flit a collective slot sends: in the chunk's frame its contribution, else a void flit (R266, R269). -/
def State.collectiveOut (s : State) (plane n i : Nat) : Body × Bool :=
  match s.part with
  | none => (.stream [], true)
  | some p =>
    let planes := planesOf (p.collField i 16 1)
    let k := (n - p.collField i 12 2) * planes.length + (planes.findIdx? fun x => x == plane).getD 0
    match s.entryChunk i s.frame with
    | some c =>
      let units := (c.mine.drop (3 * k)).take 3
      if c.rankOf s.sch.pkgid == some c.rank && c.read && !c.void && !units.isEmpty then (.stream (flitOf units), false) else (.stream [], true)
    | none => (.stream [], true)

/-- The nak a flit of a plane carries (R252): the oldest whose flit failed by now. -/
def State.nakOut (s : State) (plane : Nat) : Option (Nat × Nat × Nat) := s.fab.naks.find? fun n => n.1 == plane && n.2.1 ≤ s.now

/-- The member that the timing source names absent in the running frame (R254). -/
def State.absentOut (s : State) : Option Nat :=
  if s.sch.source then (s.sch.absentDue.find? fun d => d.2 == s.frame).map (·.1) else none

/-- Whether the next flit of a plane carries the fault bit (R58): the package detected a fault in an earlier cycle, and no
flit of the plane has carried the bit since. -/
def State.bitOut (s : State) (plane : Nat) : Bool := s.sch.faultBit.getLsbD plane && decide (s.sch.bitAt < s.now)

/-- The schedule state after a plane's flit has carried the fault bit, or has not. -/
def State.bitSent (s : State) (plane : Nat) : Sched :=
  if s.bitOut plane then { s.sch with faultBit := s.sch.faultBit &&& ~~~(BitVec.ofNat 8 (2 ^ plane)) } else s.sch

/-- What a flit sends beside its bytes: a timing flit of the frame of this member's request for an alternate carries the request,
for which R253 has no field (R321, log entry 33). -/
def State.requestOut (s : State) (plane : Nat) (b : Body) : List Out :=
  match b, s.sch.request with
  | .timing _, some (idle, n) => if n = s.frame then [.request plane idle] else []
  | _, _ => []

/-- Sending a payload in the running slot of a plane: its link-layer field (R250, R252, R254, R62, R58); `replay` where the slot is
one of the replay reserve. -/
def State.sendBody (s : State) (plane : Nat) (body : Body) (void : Bool) (replay : Bool := false) : State :=
  let nak := s.nakOut plane
  let f : Flit :=
    { slot := BitVec.ofNat 10 s.slotNow, frame := BitVec.ofNat 12 s.frame, replay := replay, void := void,
      ready := s.voteFrame && s.readyHere, fault := s.bitOut plane, absent := s.absentOut.map (BitVec.ofNat 8),
      nak := nak.map fun n => BitVec.ofNat 10 n.2.2, body := body }
  { s with
    sch := s.bitSent plane
    out := s.out ++ .flit plane (flitBytes f) :: s.requestOut plane body
    fab := { s.fab with
      sent := s.fab.sent ++ [(plane, f)]
      naks := match nak with | some n => s.fab.naks.erase n | none => s.fab.naks } }

/-- Sending again the flit that a reserve slot replays, its fault bit that of the slot it goes in (R58); else an idle flit
(R250, R252). -/
def State.sendReserve (s : State) (plane : Nat) : State :=
  match s.fab.replays.find? fun r => r.1 == plane && r.2.1 == s.slotNow with
  | none => s.sendBody plane .idle true true
  | some r =>
    let nak := s.nakOut plane
    let f := { r.2.2 with replay := true, fault := s.bitOut plane, nak := nak.map fun n => BitVec.ofNat 10 n.2.2 }
    { s with
      sch := s.bitSent plane
      out := s.out ++ [.flit plane (flitBytes f)]
      fab := { s.fab with
        replays := s.fab.replays.erase r
        naks := match nak with | some n => s.fab.naks.erase n | none => s.fab.naks } }

/-- The flit of the running slot of a live plane (R250): its kind by its use; nothing but timing and idle outside a run. -/
def State.sendSlot (s : State) (plane : Nat) : State :=
  let n := s.slotNow
  let use := s.slotUse plane n
  match use.1 with
  | 1 =>
    let r := if s.carries then s.streamOut (use.2 / 256 % 32) (use.2 % 256) else (.stream [], true, s)
    r.2.2.sendBody plane r.1 r.2.1
  | 2 =>
    let r := if s.carries then s.recordOut plane use.2 else (.record (List.replicate 3 noRecord), true, s)
    r.2.2.sendBody plane r.1 r.2.1
  | 3 =>
    let r := if s.carries then s.collectiveOut plane n use.2 else (.stream [], true)
    s.sendBody plane r.1 r.2
  | 4 => s.sendBody plane (.timing s.timing) false
  | 5 => s.sendReserve plane
  | _ => s.sendBody plane .idle true

/-- FLIT_SLOT (R250, R251): a live plane sends the flit of the slot that starts. -/
def execFlitSlot (plane : Nat) (s : State) : Host.Outcome State Fault Refusal :=
  if s.live plane && s.frameCycle % 2 == 0 then .next (s.sendSlot plane) else .next s

/-- TIMING_FLIT (R253): the timing flit of slot 0. -/
def execTimingFlit (plane : Nat) (s : State) : Host.Outcome State Fault Refusal :=
  if s.live plane then .next (s.sendBody plane (.timing s.timing) false) else .next s

/-! ## Naks (R252, R56) -/

/-- Whether a flit has a delivery deadline: requests, responses and contributions by frame cycle 2,046 (R260, R269). A void flit
carries none of them. -/
def State.hasDeadline (s : State) (plane : Nat) (f : Flit) : Bool :=
  !f.void && match f.body with
  | .record _ => true
  | _ => (s.slotUse plane f.slot.toNat).1 == 3

/-- The first free reserve slot for a replay: it starts now or later in this fabric period and meets a deadline. -/
def State.reserveSlot (s : State) (plane : Nat) (deadline : Bool) : Option Nat :=
  (List.range 1024).find? fun m =>
    (s.slotUse plane m).1 == 5 && s.frameCycle ≤ 2 * m && (!deadline || 2 * m + 162 ≤ 2046)
      && !s.fab.replays.any fun r => r.1 == plane && r.2.1 == m

/-- NAK_RECEIVED (R252): the flit is sent again in a reserve slot, else FSLACK. -/
def execNakReceived (plane slot : Nat) (s : State) : Host.Outcome State Fault Refusal :=
  match s.fab.sent.find? fun x => x.1 == plane && x.2.slot.toNat == slot with
  | none => .next (s.raiseSched .fslack plane)
  | some x =>
    match s.reserveSlot plane (s.hasDeadline plane x.2) with
    | some m => .next { s with fab := { s.fab with replays := s.fab.replays ++ [(plane, m, x.2)] } }
    | none => .next (s.raiseSched .fslack plane)

/-! ## Delivery (R250 to R254, R257, R58) -/

/-- The slot whose flit a plane delivers now (R251). -/
def State.slotDelivered (s : State) : Nat := (s.accord + 2048 - 162) % 2048 / 2

/-- The first frame of the running slice, which an abort would discard; with none running, the next frame. -/
def State.sliceStart (s : State) : Nat := match s.part with | some p => if s.sch.active then p.sliceFirst s.sch.slice else s.frame + 1 | none => s.frame + 1

/-- The waiting entries of earlier slices, loose as they are, which a rewinding leaves alone. -/
def State.adms0 (s : State) (l : List Adm) : List Adm :=
  l.filter fun a => a.stage != 9 && decide (a.fire < 2048 * s.sliceStart)

/-- What is known only in the frame after SYNC-B takes the package back to the end of SYNC-B, which then ends at once in what it would
have ended in (R59, log entry 70). -/
def State.reopen (s : State) : State :=
  match s.sch.synced with
  | some (f, attempts) =>
    if s.sch.lastPhase == .syncB && (s.sch.phase == .run || s.sch.phase == .fault) then
      { s with
        cores := s.cores.map fun p => (p.1, { p.2 with adms := s.adms0 p.2.adms })
        sch := { s.sch with phase := .syncB, faults := [f], heard := [], attempts := attempts } }
    else s
  | none => s

/-- A fault in a resynchronisation that cannot join it: the pod will halt, by path 1 or 2 for SYNC-A or SYNC-B (R59, R61). -/
def State.willHalt (s : State) (path : Nat) : State :=
  if s.sch.haltPath.isSome then s else { s with sch := { s.sch with haltPath := some path } }

/-- Knowing of a schedule fault by the fault bit (R58): the first slot of a frame, sent as itself, carries a fault of the frame before
it. In a run the fault's frame is known and the first tick of that frame; its cause comes with the timing flits, and until then the
package is 0xFFFF. In a resynchronisation it is a fault that does not join, for the one that joins sets no bit (log entry 70). -/
def State.hearBit (s : State) (f : Flit) : State :=
  let back := f.slot == 0 && !f.replay
  match if s.fromLast || back then s.sch.lastPhase else s.sch.phase with
  | .run | .fault | .abort =>
    let n := s.flitFrame - (if back then 1 else 0)
    if !f.fault || s.sch.phase != .run || s.sch.heard.any fun x => x.frame ≤ n then s
    else
      { s with sch := { s.sch with
        heard := s.sch.heard ++ [⟨.stall, 0xFFFF, 0xFF, n, 0, 2048 * ((s.now - 162) / 2048 - (if back then 1 else 0))⟩] } }
  | .halt => s
  | p => if f.fault && s.sch.phase != .halt then (s.willHalt (if p == .syncB then 2 else 1)).reopen else s

/-- A vote delivered in a flit (R62): a plane of a member carries 1 in the frame once some flit does. -/
def State.hearVote (s : State) (plane peer : Nat) (f : Flit) : State :=
  if !s.voteFrame || s.fromLast || !f.ready then s
  else if s.sch.votes.contains (plane, peer, true) then s
  else { s with sch := { s.sch with votes := s.sch.votes ++ [(plane, peer, true)] } }

/-- A cause of R57 by its code. -/
def SCause.ofCode (n : Nat) : Option SCause :=
  match n with
  | 1 => some .slack
  | 2 => some .fslack
  | 3 => some .stall
  | 4 => some .vote
  | 5 => some .plane
  | 6 => some .clock
  | _ => none

/-- The lowest-numbered live plane above p, wrapping from 7 to 0 (R256). -/
def liveAbove (planes : BitVec 8) (p : Nat) : Nat :=
  (((List.range 8).map fun k => (p + 1 + k) % 8).find? fun q => planes.getLsbD q).getD p

/-- The plane map with the entries of a lost plane rewritten (R256). -/
def remap (m : BitVec 24) (planes : BitVec 8) (p : Nat) : BitVec 24 :=
  BitVec.ofNat 24 ((List.range 8).foldl (fun n e =>
    let x := (m.extractLsb' (3 * e) 3).toNat
    n + (if x = p then liveAbove planes p else x) * 2 ^ (3 * e)) 0)

/-- Planes that are not live. -/
def State.downPlanes (s : State) : List Nat := (List.range 8).filter fun p => !s.sch.planes.getLsbD p

/-- Whether a degraded-plane alternate can serve the planes that are down (R59, R60). -/
def State.planeServed (s : State) : Bool :=
  match s.downPlanes with
  | [] => true
  | [p] => (aGet s.sch.alts p).isSome
  | _ => false

/-- The plane map with every plane that is down left out (R256). -/
def State.remapped (s : State) : BitVec 24 := s.downPlanes.foldl (fun m p => remap m s.sch.planes p) s.sch.planeMap

/-- Whether a fault that a resynchronisation meets joins it: PLANE or CLOCK, with at most one plane down and its alternate there (R59). -/
def State.joins (s : State) (cause : SCause) : Bool := (cause == .plane || cause == .clock) && s.planeServed

/-- A fault of a cause and a unit while a resynchronisation runs: it joins, or the pod will halt (R59, R61). The alternate of a joined
PLANE also takes the place of the one a selector names, and of the HALT of selector 0 (log entry 52). -/
def State.joinFault (s : State) (cause : SCause) (unit path : Nat) : State :=
  if s.joins cause then
    if cause = .plane then { s with sch := { s.sch with next := some (.alt unit), downed := some unit, planeMap := s.remapped } }
    else s
  else s.willHalt path

/-- The fault bit goes out in the next flit of every live plane (R58). -/
def State.tellFault (s : State) : State := { s with sch := { s.sch with faultBit := s.sch.planes, bitAt := s.now } }

/-- A timing flit's fault, during resynchronisation (R59, R253). -/
def State.hearCause (s : State) (t : Timing) : State :=
  match SCause.ofCode t.cause.toNat with
  | none => s
  | some c =>
    let unit := if c = .plane then ((List.range 8).find? fun p => !t.planeStatus.getLsbD p).getD 0xFF else 0xFF
    let f : SFault := ⟨c, t.detPkg.toNat, unit, t.detAccord.toNat / 2048, t.detAccord.toNat, t.detTick.toNat⟩
    if s.sch.heard.contains f || s.sch.phase == .run then s
    else { s with sch := { s.sch with heard := s.sch.heard ++ [f] } }

/-- A timing flit's plane status, during resynchronisation (R59, R253, R256): a plane that is down at another member is down here.
One that is new in SYNC-B was lost during SYNC-A, and its fault joins; one that is new in the frame after it was lost in SYNC-B (log
entry 70). -/
def State.hearPlanes (s : State) (t : Timing) : State :=
  let after := s.sch.lastPhase == .syncB && (s.sch.phase == .run || s.sch.phase == .fault)
  let lost := (List.range 8).filter fun p => s.sch.planes.getLsbD p && !t.planeStatus.getLsbD p
  if s.sch.phase == .halt || (s.sch.phase == .run && !after) then s
  else
    let s := { s with sch := { s.sch with planes := s.sch.planes &&& t.planeStatus } }
    if after then if lost.isEmpty then s else (lost.foldl (fun s p => s.joinFault .plane p 2) s).reopen
    else if s.sch.phase == .syncB then lost.foldl (fun s p => s.joinFault .plane p 1) s
    else s

/-- A timing flit that is delivered. -/
def State.hearTiming (s : State) (t : Timing) : State := (s.hearCause t).hearPlanes t

/-- The records of a delivered record flit, each with its place; a STOREB takes the MASK after it (R258). -/
def homeRecords (frame slot plane peer : Nat) : Nat → List Rec → List HomeRec
  | _, [] => []
  | k, r :: rs =>
    let mask : BitVec 64 := match rs with
      | m :: _ => if m.op.toNat = opMask then m.data.extractLsb' 0 64 else 0
      | [] => 0
    let rest := homeRecords frame slot plane peer (k + 1) rs
    if r.op.toNat = 0 || r.op.toNat = opMask then rest
    else ⟨frame, slot, plane, peer, k, r, if r.op.toNat = opStoreb then mask else 0⟩ :: rest

/-- The units a stream or contribution flit carries. -/
def flitUnits (f : Flit) : List (Block × Tag) := match f.body with | .stream us => us | _ => []

/-- A contribution of a collective, in the chunk's own frame (R266, R269). -/
def State.hearContribution (s : State) (plane peer i : Nat) (f : Flit) : State :=
  match s.entryChunk i s.flitFrame with
  | none => s
  | some k =>
    match k.rankOf peer with
    | some r =>
      { s with fab := { s.fab with
        contribs := s.fab.contribs ++ [⟨k.tree, k.c, k.frame, r, f.slot.toNat, plane, (flitUnits f), f.void⟩] } }
    | none => s

/-- The payload of a good flit, for its original slot. A stream flit is bound once the words of its delivery cycle have
issued (R262). -/
def State.hearBody (s : State) (plane peer : Nat) (f : Flit) : State :=
  match f.body with
  | .idle => s
  | .timing t => s.hearTiming t
  | .record rs =>
    if f.void then s
    else { s with fab := { s.fab with home := s.fab.home ++ homeRecords s.flitFrame f.slot.toNat plane peer 0 rs } }
  | _ =>
    let use := s.slotUseIn plane f.slot.toNat
    match use.1 with
    | 1 => { s with inputs := (s.now + 1, .streamFlit plane peer f) :: s.inputs }
    | 3 => s.hearContribution plane peer use.2 f
    | _ => s

/-- Whether a member is in the absent set (R254). -/
def State.isAbsent (s : State) (pkg : Nat) : Bool := s.sch.absent.getLsbD pkg

/-- FLIT_DELIVERY (R250 to R254): a failed flit is naked; a good one hands over its link-layer field and its payload. A
flit of an absent member counts as idle. -/
def execFlitDelivery (plane peer : Nat) (f : Flit) (failed : Bool) (s : State) : Host.Outcome State Fault Refusal :=
  if !s.live plane then .next s
  else if failed || (!f.replay && (f.slot.toNat != s.slotDelivered || f.frame.toNat != s.flitFrame % 4096)) then
    let slot := if f.replay then f.slot.toNat else s.slotDelivered
    .next { s with fab := { s.fab with naks := s.fab.naks ++ [(plane, s.now, slot)] } }
  else if s.isAbsent peer then .next s
  else
    let s := (s.hearBit f).hearVote plane peer f
    let s := match f.absent with
      | some k => if s.sch.absentNew.contains k.toNat then s else { s with sch := { s.sch with absentNew := s.sch.absentNew ++ [k.toNat] } }
      | none => s
    let s := match f.nak with
      | some n => { s with inputs := (s.now, .nakReceived plane n.toNat) :: s.inputs }
      | none => s
    .next (s.hearBody plane peer f)

/-! ## Records at their home (R258, R260) -/

/-- Taking a record from the home queue. -/
def State.takeRecord (s : State) (r : HomeRec) : State := { s with fab := { s.fab with home := s.fab.home.erase r } }

/-- The line of a record. -/
def homeLine (r : HomeRec) : Nat := r.body.line.toNat

/-- Spending one line of column 1,536 for a record; beyond the share SLACK is raised (R260). -/
def State.chargeIngress (s : State) (line : Nat) : State × Bool :=
  let stack := stackOf line
  let n := (aGet s.fab.ingress stack).getD 0
  if n < s.share stack 1536 then
    ({ s with fab := { s.fab with ingress := aSet s.fab.ingress stack (n + 1) } }, true)
  else (s.raiseSched .slack stack, false)

/-- Queueing a RESP on the record's plane (R260). -/
def State.respondTo (s : State) (r : HomeRec) (body : Rec) : State :=
  let q : OutRec := ⟨r.plane, r.sender, true, s.now, 0, 0, s.seq, 0, body, none, 0⟩
  { s with seq := s.seq + 1, fab := { s.fab with recq := s.fab.recq ++ [q] } }

/-- The mark of a RESP whose line is uncorrectable and whose data is not sent (R288, log entry 23). -/
def respBad : BitVec 5 := 31

/-- A RESP of a line. -/
def respOf (line : Nat) : Rec := recordOf line opResp

/-- One record at its home: its line of share, the access count, then its effect. -/
def State.atHome (s : State) (r : HomeRec) (effect : State → State) : State :=
  let p := (s.takeRecord r).chargeIngress (homeLine r)
  if p.2 then effect (p.1.countAccess r.sender (homeLine r)) else p.1

/-- The horizon of a line that its RESP brings, for an acquire of scope pod (R168, log entry 43). -/
def State.horizonSent (s : State) (line : Nat) : BitVec 64 := s.horizonGuess (s.horizon line) (s.horizonFar line).isSome

/-- RECORD_LOAD (R258, R260): the line and its tag, one RESP. -/
def execRecordLoad (r : HomeRec) (s : State) : Host.Outcome State Fault Refusal :=
  .next (s.atHome r fun s =>
    if s.badLines.contains (homeLine r) then s.respondTo r { respOf (homeLine r) with aop := respBad }
    else s.respondTo r { respOf (homeLine r) with
      tag := smGet s.tags (homeLine r), data := smBlock s.mem (64 * (homeLine r)), hor := some (s.horizonSent (homeLine r)) })

/-- Bytes of a block that a byte mask selects, at their addresses in a line. -/
def maskedBytes (line : Nat) (m : BitVec 64) (d : Block) : List (Nat × Byte) :=
  ((List.range 64).filter fun j => m.getLsbD j).map fun j => (64 * line + j, d.extractLsb' (8 * j) 8)

/-- The bytes of a word mask. -/
def wordBytes (m : BitVec 16) : BitVec 64 :=
  BitVec.ofNat 64 ((List.range 64).foldl (fun n j => if m.getLsbD (j / 4) then n + 2 ^ j else n) 0)

/-- A store of bytes to one line at its home, with its horizon: that of a release, 0 of a plain store (R167). -/
def State.homeStore (s : State) (line : Nat) (m : BitVec 64) (d : Block) (hor : Nat) : State :=
  (s.writeMem (maskedBytes line m d)).setHorizons [line] hor

/-- The horizon that a store record writes (R167). -/
def recHor (r : HomeRec) : Nat := (r.body.hor.getD 0).toNat

/-- RECORD_STORE (R258): the masked words; the tag is unchanged. -/
def execRecordStore (r : HomeRec) (s : State) : Host.Outcome State Fault Refusal :=
  .next (s.atHome r fun s => s.homeStore (homeLine r) (wordBytes r.body.mask) r.body.data (recHor r))

/-- RECORD_STOREB (R258): the bytes of its MASK. -/
def execRecordStoreb (r : HomeRec) (s : State) : Host.Outcome State Fault Refusal :=
  .next (s.atHome r fun s => s.homeStore (homeLine r) r.byteMask r.body.data (recHor r))

/-- RECORD_COPYW (R258): the whole line and its tag. -/
def execRecordCopyw (r : HomeRec) (s : State) : Host.Outcome State Fault Refusal :=
  .next (s.atHome r fun s =>
    let s := s.homeStore (homeLine r) (BitVec.ofNat 64 (2 ^ 64 - 1)) r.body.data 0
    { s with tags := smSet s.tags (homeLine r) r.body.tag })

/-- The operation of a record's atomic code (R358). -/
def AtomOp.ofCode (n : Nat) : Option AtomOp :=
  match n with
  | 0 => some .add
  | 1 => some .and
  | 2 => some .or
  | 3 => some .xor
  | 4 => some .min
  | 5 => some .max
  | 6 => some .exch
  | 7 => some .cas
  | 8 => some .fadd
  | 9 => some .fmin
  | 10 => some .fmax
  | 11 => some .sub
  | _ => none

/-- Words of an atomic's elements by the width field (R257). -/
def recordWords (width : BitVec 2) : Nat := 2 ^ width.toNat

/-- Whether an atomic record has an operation and a width that exist (R257, R258). -/
def recAtomOk (r : Rec) : Bool :=
  r.width.toNat < 3 && (if r.width.toNat = 2 then r.aop.toNat == 12 else (AtomOp.ofCode r.aop.toNat).isSome)

/-- The atomics of a record: one for each element its mask names, of the type its width and sign give (R257, R358). -/
def recAtoms (r : Rec) : List AtomReq :=
  let n := recordWords r.width
  ((List.range (16 / n)).filter fun e => r.mask.getLsbD (n * e)).map fun e =>
    let at_ (k : Nat) : Nat := r.data.toNat / 2 ^ (32 * n * (k % (16 / n))) % 2 ^ (32 * n)
    let ty : Ty := match n, r.sgn with | 2, true => .i64 | 2, false => .u64 | _, true => .i32 | _, false => .u32
    { thread := e, pa := 64 * r.line.toNat + 4 * n * e, op := (AtomOp.ofCode r.aop.toNat).getD .exch, ty := ty,
      x := BitVec.ofNat 64 (at_ e), y := BitVec.ofNat 64 (at_ (e + 1)),
      tri := if n = 4 then some (triOf (at_ e)) else none, va := 0 }

/-- The horizon of a line after an atomic at its home: a release writes its own, another atomic leaves it (R167). -/
def State.atomHorizon (s : State) (r : HomeRec) : State :=
  match r.body.hor with
  | some h => s.setHorizons [homeLine r] h.toNat
  | none => s

/-- An atomic at its home (R176, R258): the elements in turn, and one RESP with the old values in the masked words, the line's block
tag (R257) and the horizon that the atomic found. -/
def State.homeAtomic (s : State) (r : HomeRec) : State :=
  if s.badLines.contains (homeLine r) then s.respondTo r { respOf (homeLine r) with mask := r.body.mask, aop := respBad }
  else
    let go := fun (p : Mem × Nat) (a : AtomReq) =>
      let x := atomStep p.1 a
      (smWrites p.1 (addressed a.pa x.2), p.2 + x.1.toNat * 2 ^ (8 * (a.pa % 64)))
    let out := (recAtoms r.body).foldl go (s.mem, 0)
    ({ s with mem := out.1 }.atomHorizon r).respondTo r { respOf (homeLine r) with
      tag := smGet s.tags (homeLine r), mask := r.body.mask, data := BitVec.ofNat 512 out.2, hor := some (s.horizonSent (homeLine r)) }

/-- RECORD_ATOM (R258). -/
def execRecordAtom (r : HomeRec) (s : State) : Host.Outcome State Fault Refusal :=
  .next (s.atHome r fun s => s.homeAtomic r)

/-- RECORD_ATOMTREE (R177, R258): the combined operand as one atomic. -/
def execRecordAtomtree (r : HomeRec) (s : State) : Host.Outcome State Fault Refusal :=
  .next (s.atHome r fun s => s.homeAtomic r)

/-- Whether an operation's remote records are atomics, whose RESPs name words. -/
def MemOp.isAtomic (o : MemOp) : Bool := match o.done with | .fetched .. => true | .fetchedQ .. => true | _ => false

/-- The request that a RESP answers: the oldest unanswered one of its kind to the line on the plane (R260). -/
def State.requestOf (s : State) (r : HomeRec) : Option (MemOp × RemLine) :=
  let open_ := s.ops.flatMap fun o => (o.remote.filter fun l =>
      l.resp && l.sent.isSome && l.data.isNone && l.pkg == r.sender && l.line == (homeLine r) && o.isAtomic == (r.body.mask != 0)).map
    fun l => (o, l)
  (sortBy (fun p => (p.2.sent.getD 0)) (sortBy (fun p => p.1.acc) (sortBy (fun p => p.1.col) (sortBy (fun p => p.1.key) open_)))).head?

/-- RECORD_RESP (R258, R260): the data goes to its operation, which lands at the last cycle of its frame. -/
def execRecordResp (r : HomeRec) (s : State) : Host.Outcome State Fault Refusal :=
  let s := s.takeRecord r
  match s.requestOf r with
  | none => .next s
  | some (o, l) =>
    let rem := (o.remote.foldl (fun (p : List RemLine × Bool) x =>
      if !p.2 && x == l then (p.1 ++ [{ x with data := some (r.body.data, r.body.tag) }], true) else (p.1 ++ [x], p.2)) ([], false)).1
    let bad := if r.body.aop = respBad then o.bad ++ [remoteKey r.sender (homeLine r)] else o.bad
    let got := match r.body.hor with
      | some h => if o.acqPod then o.got ++ [⟨remoteKey r.sender (homeLine r), r.body.data, r.body.tag, h.toNat, none⟩] else o.got
      | none => o.got
    .next (s.putOp { o with remote := rem, bad := bad, got := got })

/-- RECORD_DISCARD (R258): an alert is posted. -/
def execRecordDiscard (r : HomeRec) (s : State) : Host.Outcome State Fault Refusal :=
  .next ((s.takeRecord r).alert 2 1 0xFF r.sender)

/-- The row that a record at its home is: one with a reserved op or a reserved width is discarded (R258). -/
def rowOf (r : HomeRec) : Instr :=
  let ok := recAtomOk r.body
  if r.body.width = 3 then .recordDiscard r
  else
  match r.body.op.toNat with
  | 1 => .recordLoad r
  | 2 => .recordStore r
  | 3 => .recordStoreb r
  | 5 => .recordCopyw r
  | 6 => if ok then .recordAtom r else .recordDiscard r
  | 7 => if ok then .recordAtomtree r else .recordDiscard r
  | 8 => .recordResp r
  | _ => .recordDiscard r

/-- Whether a record waits for a commit: a LOAD, or a write or atomic. -/
def recIsLoad (r : HomeRec) : Bool := match rowOf r with | .recordLoad _ => true | _ => false
def recIsNow (r : HomeRec) : Bool := match rowOf r with | .recordResp _ => true | .recordDiscard _ => true | _ => false

/-- The records in the order of R260: slot, plane, sender, position. -/
def recordOrder (l : List HomeRec) : List HomeRec :=
  sortBy (·.slot) (sortBy (·.plane) (sortBy (·.sender) (sortBy (·.pos) l)))

/-! ## Streams (R262, R263) -/

/-- Whether a flit stands before another in its stream (R261): by frame, slot number and plane. -/
def StreamUnit.before (x y : StreamUnit) : Bool :=
  x.frame < y.frame || (x.frame == y.frame && (x.slot < y.slot || (x.slot == y.slot && x.plane < y.plane)))

/-- Placing a flit among those of its stream; a replay stands where its original stood (R251). -/
def placeUnit (x : StreamUnit) : List StreamUnit → List StreamUnit
  | [] => [x]
  | y :: l => if y.before x then y :: placeUnit x l else x :: y :: l

/-- The flits a RECV binds (R262). -/
def XRecv.room (x : XRecv) : Nat := (x.n + 2) / 3

/-- Binding the flits of a stream to its RECVs in issue order; what is left over is bound to none (R262). -/
def bindFlits : List XRecv → List StreamUnit → List XRecv × List StreamUnit
  | [], us => ([], us)
  | x :: l, us =>
    let r := bindFlits l (us.drop x.room)
    ({ x with flits := us.take x.room } :: r.1, r.2)

/-- The RECVs of a stream in issue order. -/
def State.streamRecvs (s : State) (chan peer : Nat) : List XRecv :=
  sortBy (·.seq) (s.fab.recvs.filter fun x => x.chan == chan && x.peer == peer)

/-- A RECV with the flits now bound to it: once it has all of them it lands at the last cycle of the frame after that of the
last (R262). -/
def State.putRecv (s : State) (x : XRecv) : State :=
  let full := x.flits.length == x.room
  let end_ := s.frameEnd ((x.flits.foldl (fun m u => max m u.frame) 0) + 1)
  let y := { x with land := if full then some end_ else none }
  let s := { s with fab := { s.fab with recvs := s.fab.recvs.map fun z => if z.seq == x.seq && z.core == x.core then y else z } }
  if full then s.modSlots x.core fun st => st.modOp x.seq fun o => o.landAt end_ else s

/-- STREAM_FLIT (R262, R263): a flit with data, or a withheld one, is bound to a RECV of its stream, or is discarded. -/
def execStreamFlit (plane peer : Nat) (f : Flit) (s : State) : Host.Outcome State Fault Refusal :=
  let held := f.body == .withheld
  let chan := (s.slotUseIn plane f.slot.toNat).2 / 256 % 32
  if f.void && !held then .next s
  else
    let rs := s.streamRecvs chan peer
    let u : StreamUnit := ⟨s.flitFrame, f.slot.toNat, plane, held, flitUnits f⟩
    let r := bindFlits rs (placeUnit u (rs.flatMap (·.flits)))
    let s := (r.1.filter fun x => !rs.contains x).foldl State.putRecv s
    .next { s with fab := { s.fab with discarded := s.fab.discarded + r.2.length } }

/-- A RECV lands (R262): its blocks and tags in row 1 of R142, or PARTNER for a withheld flit. -/
def State.landRecv (s : State) (x : XRecv) : State :=
  if x.flits.any (·.held) then s.failEng x.core x.seq .partner 0
  else
    let us := ((x.flits.flatMap (·.units)).take x.n).zipIdx
    s.modCore x.core fun k => k.copyWrite x.seq s.now (us.flatMap fun p => addressed (x.off + 64 * p.2) (bytesOf 64 p.1.1.toNat))
      (us.map fun p => (x.off / 64 + p.2, p.1.2))

/-- Whether a RECV passes its deadline at the end of the running frame (R262). -/
def XRecv.late (x : XRecv) (frame now : Nat) : Bool :=
  match x.limit with
  | some f => f ≤ frame && !(match x.land with | some t => dueBy t now | none => false)
  | none => false

/-- The RESPs a home owes to a peer on a plane for the records of the running frame, and the response slots of that frame (R260). -/
def State.respsOwed (s : State) (plane peer : Nat) : Nat :=
  (s.fab.home.filter fun r => r.plane == plane && r.sender == peer && r.frame == s.frame
    && (r.body.op.toNat == opLoad || r.body.op.toNat == opAtom || r.body.op.toNat == opAtomtree) && !(recIsNow r)).length
def State.respSlots (s : State) (plane peer : Nat) : Nat :=
  ((List.range 431).filter fun k => s.slotUse plane (512 + k) == (2, 256 + peer)).length

/-- The RESPs owed for the records of the frame that ends, by plane and peer. -/
def State.owedNow (s : State) : List (Nat × Nat × Nat) :=
  ((s.fab.home.filter fun r => r.frame == s.frame).map fun r => (r.plane, r.sender, s.respsOwed r.plane r.sender)).eraseDups

/-- The plane on which the home lacks, in the slots of the frame that starts, some for the RESPs of the frame before (R260). -/
def State.respsShort (s : State) : Option Nat :=
  if s.frameCycle = 0 && s.sch.phase == .run && !s.sch.voted then
    (s.fab.owed.find? fun x => 3 * s.respSlots x.1 x.2.1 < x.2.2).map (·.1)
  else none

/-- Whether the operation of a request that has left is still under way. -/
def State.inFlight (s : State) (r : OutRec) : Bool := s.ops.any fun o => o.seq == r.seq && o.col == r.core

/-- FSLACK for response slots that lack in the frame that starts (R260). -/
def State.raiseShort (s : State) : State :=
  match s.respsShort with
  | some p => { s with fab := { s.fab with owed := [] } }.raiseSched .fslack p
  | none => s

/-- The commit of the slice before becomes final (R38, R58): no member has told of a fault in it by the end of the frame after its last,
and the alerts for its error counts are posted (R45, R282). -/
def State.settle (s : State) : State :=
  match s.sch.prior with
  | some m =>
    if m.frame < s.frame && s.committedSoFar then
      m.alerts.foldl (fun s a => s.alert 1 a.2 a.1 0xFF) { s with sch := { s.sch with prior := none } }
    else s
  | none => s

/-- FABRIC_PERIOD_COMMIT (R37, R262): at a frame's last cycle XFERs land (their writes with the copies of the commit of this cycle,
where there is one), RECVs that are late raise STALL, the flits kept
for replay are let go, absent members named in the frame are noted, and discarded flits are reported; the slice before is final. -/
def execFabricPeriodCommit (s : State) : Host.Outcome State Fault Refusal :=
  let s := s.settle
  let landed (t : Option Nat) : Bool := match t with | some n => dueBy n s.now | none => false
  let due := s.fab.recvs.filter fun x => landed x.land
  let s := due.foldl State.landRecv s
  let s := if s.sch.phase == .run then s else s.landCopies
  let late := s.fab.recvs.filter fun x => x.late s.frame s.now
  let s := late.foldl (fun s x => s.stall x.core) s
  let named := match s.absentOut with | some k => if s.sch.absentNew.contains k then [] else [k] | none => []
  let lost := s.fab.discarded
  let s := { s with
    sch := { s.sch with absentNew := s.sch.absentNew ++ named }
    fab := { s.fab with
      sent := []
      replays := []
      flown := s.fab.flown.filter s.inFlight
      discarded := 0
      owed := s.owedNow
      lastMap := s.mapPart
      sends := s.fab.sends.filter fun x => !landed x.land
      recvs := (s.fab.recvs.filter fun x => !landed x.land).map fun x => if x.late s.frame s.now then { x with limit := none } else x } }
  .next (if lost = 0 then s else s.alert 3 lost 0xFF 0xFF)

/-! ## Absent members and planes (R254, R256) -/

/-- ABSENT (R254, R281). -/
def execAbsent (s : State) : Host.Outcome State Fault Refusal :=
  let k := s.req 8 1
  let f := s.req 0x10 8
  if f < s.frame + 4 then .next (s.respond 1 [])
  else if !s.sch.source then .next (s.respond 2 [])
  else if s.podSize ≤ k then .next (s.respond 3 [])
  else .next ({ s with sch := { s.sch with absentDue := s.sch.absentDue ++ [(k, f)] } }.respond 0 [])

/-- PLANE (R57, R256): a plane's link is lost. -/
def execPlane (p : Nat) (s : State) : Host.Outcome State Fault Refusal :=
  if !s.live p then .next s
  else .next ({ s with sch := { s.sch with planes := s.sch.planes &&& ~~~(BitVec.ofNat 8 (2 ^ p)) } }.raiseSched .plane p)

end Sys2Proof.Machine
end

