-- ==== Sys2Proof/Machine/Collective.lean ====
section
/-! DEFINITION. Collectives (R195, R265 to R270): trees, the read of a contribution, the result of a chunk. -/

namespace Sys2Proof.Machine
open Sys2Proof

/-! ## Trees (R265) -/

/-- Whether a tree keeps its identifier in a frame: until its freeing takes effect (R265). -/
def Tree.held (t : Tree) (frame : Nat) : Bool := match t.freed with | some f => decide (frame < f) | none => true

/-- Whether a tree is live in a frame: from F_e + 1 to its freeing (R265). It goes by the frame alone, so a replay finds the trees of
the first attempt (R28). -/
def Tree.liveIn (t : Tree) (frame : Nat) : Bool := decide (t.frame < frame) && t.held frame

/-- The record of a tree in the engine, from its creation to its freeing. -/
def State.tree (s : State) (t : Nat) : Option Tree := s.fab.trees.find? fun x => x.id == t && x.held s.frame

/-- Changing the trees. -/
def State.modTrees (s : State) (f : List Tree → List Tree) : State := { s with fab := { s.fab with trees := f s.fab.trees } }

/-- The requested tree: its identifier, member count, effective frame and ranks (R281). -/
def State.reqTree (s : State) : Nat := s.req 8 1
def State.reqRanks (s : State) : List Nat := (List.range (s.req 0xA 2)).map fun k => (smGet s.host.payload k).toNat

/-- Whether a list holds no number twice. -/
def distinct : List Nat → Bool
  | [] => true
  | x :: l => !l.contains x && distinct l

/-- TREECREATE (R265). -/
def execTreecreate (s : State) : Host.Outcome State Fault Refusal :=
  let id := s.reqTree
  let n := s.req 0xA 2
  let ranks := s.reqRanks
  if 63 < id || 64 ≤ (s.fab.trees.filter fun t => t.held s.frame).length || (s.tree id).isSome then .next (s.respond 1 [])
  else if !within 1 256 n || !ranks.contains s.sch.pkgid || !distinct ranks then .next (s.respond 2 [])
  else if s.req 0x10 8 < s.frame + 4 then .next (s.respond 3 [])
  else .next ((s.modTrees fun l => l ++ [⟨id, ranks, false, s.req 0x10 8, none⟩]).respond 0 [])

/-- TREEFREE (R265). -/
def execTreefree (s : State) : Host.Outcome State Fault Refusal :=
  if !s.fab.trees.any (fun t => t.id == s.reqTree && t.live) then .next (s.respond 2 [])
  else if s.req 0x10 8 < s.frame + 4 then .next (s.respond 3 [])
  else
    .next ((s.modTrees fun l => l.map fun t =>
      if t.id == s.reqTree && t.live then { t with freed := some (s.req 0x10 8) } else t).respond 0 [])

/-- Whether a tree changes its liveness in the running frame (R265). -/
def Tree.due (t : Tree) (frame : Nat) : Bool := t.live != t.liveIn frame

/-- The ranks of a tree in a frame, none where it is not live. -/
def State.ranksIn (s : State) (t frame : Nat) : List Nat :=
  match s.fab.trees.find? fun x => x.id == t && x.liveIn frame with
  | some x => x.ranks
  | none => []

/-- TREE_EFFECTIVE (R265): the trees of an identifier as the running frame has them. -/
def execTreeEffective (id : Nat) (s : State) : Host.Outcome State Fault Refusal :=
  .next (s.modTrees fun l => l.map fun t => if t.id == id then { t with live := t.liveIn s.frame } else t)

/-! ## The contribution (R267, R268) -/

/-- Whether a fixed-discipline block is resident (log entry 25). -/
def State.fixedHere (s : State) : Bool := s.cores.any fun p => match p.2.blk with | some b => !b.loose | none => false

/-- The entries of a tree in the running slice whose frame is a given one: chunk number and entry (R266). -/
def State.chunksAt (s : State) (t frame : Nat) : List (Nat × Nat) :=
  match s.part with
  | none => []
  | some p =>
    if !s.sch.active then []
    else ((p.collEntries t s.sch.slice).zipIdx.filter fun e => p.collFrame e.1 == frame).map fun e => (e.2, e.1)

/-- Changing a chunk: the chunk of its tree, number and frame becomes another. -/
def State.putChunk (s : State) (k : Chunk) : State :=
  { s with fab := { s.fab with chunks := s.fab.chunks.map fun x => if x.tree == k.tree && x.c == k.c && x.frame == k.frame then k else x } }

/-- The lines of a range of a chunk's address space, none where a page is missing or at home elsewhere. The die of the tree's engine
(R17) translates them: the spec names no die for it (DESIGN CHOICE, log entry 42). -/
def State.chunkLines (s : State) (t asid addr n : Nat) (w : Bool) : Option (List Nat) :=
  match s.pageKeys (192 * (t % 8)) asid { w := w } ((List.range (n / 64)).map fun k => (addr + 64 * k) % 2 ^ 57) with
  | .ok ks => if ks.all (fun k => (lineHome (k / 64)).isNone) then some (ks.map fun k => k / 64) else none
  | .error _ => none

/-- Where rank r's part of a chunk lies, from A: by rank for ALLGATHER (R267). -/
def partAddr (kind addr bytes rank : Nat) : Nat := if kind = 1 then addr + rank * bytes else addr

/-- MEMUNC for the strand that fired a chunk, if it is still running (R270). -/
def State.failFirer (s : State) (by_ : Option (Nat × Nat × Nat)) (addr : Addr) : State :=
  match by_ with
  | none => s
  | some (c, i, seq) =>
    s.modStrand c i fun st =>
      if st.ended.isSome || !st.eops.any (fun o => o.seq == seq) then st
      else { st with late := st.late ++ [⟨s.now + 1, st.pc, 8, { cause := .memunc, threads := [], addr := addr }⟩] }

/-- A schedule fault at a tick to come. -/
def State.raiseAt (s : State) (cause : SCause) (unit t : Nat) : State :=
  { s with sch := { s.sch with raised := s.sch.raised ++ [⟨cause, s.sch.pkgid, unit, s.accordOf t / 2048, s.accordOf t, t⟩] } }

/-- Lines of column 1,536 spent by a collective (R268, R269); beyond the share SLACK is raised. -/
def State.chargeLines (s : State) (ls : List Nat) : State := ls.foldl (fun s l => (s.chargeIngress l).1) s

/-- Whether a member sends a contribution: of a BROADCAST rank 0 alone does (R267). -/
def Chunk.sends (k : Chunk) : Bool := k.kind != 2 || k.rank == 0

/-- The generic address of a member's part. -/
def Chunk.partAt (k : Chunk) : Nat := partAddr k.kind (k.addr.getD 0) k.bytes k.rank

/-- A fired chunk's contribution as memory stands (R268); void where a line has no translation or is uncorrectable. -/
def State.readFired (s : State) (k : Chunk) : State :=
  if !k.sends then s.putChunk { k with read := true }
  else
    match s.chunkLines k.tree k.asid k.partAt k.bytes false with
    | none => s.putChunk { k with read := true, void := true }
    | some ls =>
      let s := s.chargeLines ls
      if ls.any s.badLines.contains then
        (s.putChunk { k with read := true, void := true }).failFirer k.firedBy (BitVec.ofNat 64 k.partAt)
      else s.putChunk { k with read := true, mine := ls.map fun l => (smBlock s.mem (64 * l), smGet s.tags l) }

/-- One chunk, by number and entry, before its frame (R268): its contribution, or void; a STALL of the frame's first cycle, at tick
`first`, where it has not been fired in fixed discipline. -/
def State.readChunk (s : State) (t first : Nat) (e : Nat × Nat) : State :=
  match s.part with
  | none => s
  | some p =>
    let ranks := s.ranksIn t (p.collFrame e.2)
    match s.fab.chunks.find? fun k => k.tree == t && k.c == e.1 && k.frame == p.collFrame e.2 && k.addr.isSome with
    | none =>
      let s := if s.fixedHere then s.raiseAt .stall 0xFF first else s
      s.fireChunk { p.chunk t e.1 e.2 0 none none true with void := true, read := true, ranks := ranks }
    | some k => s.readFired { k with ranks := ranks }

/-- COLLECTIVE_READ (R268): the chunks of a tree whose frame is next. -/
def execCollectiveRead (t : Nat) (s : State) : Host.Outcome State Fault Refusal :=
  .next ((s.chunksAt t (s.frame + 1)).foldl (fun s e => s.readChunk t (s.now + 1) e) s)

/-! ## Retries of column 1,536 (R55) -/

/-- Whether a record reads its line at the commit of the running period: a LOAD at the end of its frame, an atomic at the first
commit after it (R260). -/
def State.readsNow (s : State) (r : HomeRec) : Bool :=
  if s.frameCycle < 1024 then r.frame < s.frame && (r.body.op.toNat == opAtom || r.body.op.toNat == opAtomtree)
  else recIsLoad r

/-- The uncorrectable lines that column 1,536 reads in the running period, as they are known in its cycle 1,022: the last by which
their retries are reported (R55, log entry 13). -/
def State.ingressBad (s : State) : List Nat :=
  let chunks := if s.frameCycle < 1024 then []
    else s.fab.chunks.filter fun k => k.frame == s.frame + 1 && k.addr.isSome && !k.read && k.sends
  dedupSorted (((s.fab.home.filter s.readsNow).map homeLine
    ++ chunks.flatMap fun k => (s.chunkLines k.tree k.asid k.partAt k.bytes false).getD []).filter s.badLines.contains)

/-! ## The result (R269, R270) -/

/-- What a rank delivered for a chunk, in slot order, then plane order (R269); none where it sent too little. -/
def State.contribution (s : State) (k : Chunk) (rank n : Nat) : Option (List (Block × Tag)) :=
  let mine := s.fab.contribs.filter fun x => x.tree == k.tree && x.c == k.c && x.frame == k.frame && x.rank == rank && !x.void
  let us := (sortBy (·.slot) (sortBy (·.plane) mine)).flatMap (·.units)
  if us.length < n then none else some (us.take n)

/-- Element i of the result of ALLREDUCE over the ranks' blocks: words, or triples (R195, R269). -/
def reduceBlock (op : Nat) (blocks : List (Option Block)) : Block :=
  if op = 12 then
    let at_ (i : Nat) : Tri :=
      (tree mergeTri (blocks.map fun b => b.map fun x => triOf (x.toNat / 2 ^ (128 * i) % 2 ^ 128))).getD Tri.empty
    BitVec.ofNat 512 (leOf ((List.range 4).flatMap fun i => triBytes (at_ i)))
  else
    match RedOp.ofCode (BitVec.ofNat 4 op) with
    | none => 0
    | some r =>
      let at_ (i : Nat) : Word := (tree (redComb r) (blocks.map fun b => b.map fun x => x.extractLsb' (32 * i) 32)).getD (redIdentity r)
      BitVec.ofNat 512 (leOf ((List.range 16).flatMap fun i => bytesOf 4 (at_ i).toNat))

/-- The tag of ALLREDUCE's result blocks (R269): INT32, FP32 or STAT. -/
def reduceTag (op : Nat) : Tag := mkTag (if op = 12 then 0x0B else if op < 8 then 0x0A else 0x01) 0x7F 0x80

/-- Writing a chunk's result at an address: blocks with their tags, horizons 0, lines of column 1,536 (R269). -/
def State.writeChunk (s : State) (t asid addr : Nat) (units : List (Block × Tag)) : State :=
  match s.chunkLines t asid addr (64 * units.length) true with
  | none => s
  | some ls =>
    let ps := ls.zip units
    let s := (s.chargeLines ls).writeMem (ps.flatMap fun p => addressed (64 * p.1) (bytesOf 64 p.2.1.toNat))
    let tags : List (Nat × Tag) := ps.map fun p => (p.1, p.2.2)
    { s with tags := smWrites s.tags tags }.setHorizons ls 0

/-- The status lands in the COLL's register (R271). -/
def State.collStatus (s : State) (by_ : Option (Nat × Nat × Nat)) (code : Nat) : State :=
  match by_ with
  | none => s
  | some (c, i, seq) =>
    s.modStrand c i fun st =>
      { st with pend := st.pend.map fun q =>
          if q.seq == seq && q.land.isNone then
            { q with land := some s.now, writes := q.writes.map fun w => match w with | .s r _ => .s r (BitVec.ofNat 32 code) | w => w }
          else q }

/-- What a chunk ends with: its status and what it writes, as addresses from A with their units (R267, R269, R270). -/
def State.chunkResult (s : State) (k : Chunk) : Nat × List (Nat × List (Block × Tag)) :=
  let n := k.bytes / 64
  let a := k.addr.getD 0
  let absent (r : Nat) : Bool := match k.ranks[r]? with | some pkg => s.isAbsent pkg | none => true
  let ranks := if k.kind = 2 then [0] else List.range k.ranks.length
  let counted := ranks.filter fun r => !absent r
  let got (r : Nat) : Option (List (Block × Tag)) := if r = k.rank then (if k.void then none else some k.mine) else s.contribution k r n
  let all := counted.map fun r => (r, got r)
  if k.rankOf s.sch.pkgid != some k.rank then (collNotree, [])
  else if all.any (fun x => x.2.isNone) then (collTimeout, [])
  else if all.any (fun x => (x.2.getD []).any fun u => !tagOk u.2) then (collData, [])
  else if k.kind = 0 then
    let blocks := (List.range n).map fun j =>
      (reduceBlock k.combine (ranks.map fun r => (all.find? fun x => x.1 == r).bind fun x => (x.2.getD [])[j]?.map (·.1)), reduceTag k.combine)
    (collDone, [(a, blocks)])
  else (collDone, all.map fun x => (partAddr k.kind a k.bytes x.1, x.2.getD []))

/-- One chunk at the last cycle of the frame after its own. A receiver of a BROADCAST that has not fired it reaches the status of every
other member, with no address to write at (R270, log entry 69). -/
def State.endChunk (s : State) (k : Chunk) : State :=
  let r := s.chunkResult k
  let s := if k.addr.isNone then s else r.2.foldl (fun s w => s.writeChunk k.tree k.asid w.1 w.2) s
  let s := { s with fab := { s.fab with
    contribs := s.fab.contribs.filter fun x => !(x.tree == k.tree && x.c == k.c && x.frame == k.frame) } }
  (s.putChunk { k with status := some r.1 }).collStatus k.firedBy r.1

/-- The chunks whose frame has just passed, and that have not ended: they need no schedule any more (R270). -/
def State.endingChunks (s : State) : List Chunk := s.fab.chunks.filter fun k => k.frame + 1 == s.frame && k.status.isNone

/-- COLLECTIVE_RESULT (R269, R270): the chunks of a tree whose frame has just passed. -/
def execCollectiveResult (t : Nat) (s : State) : Host.Outcome State Fault Refusal :=
  .next ((s.endingChunks.filter fun k => k.tree == t).foldl State.endChunk s)

/-- The trees that entries of the running slice name for a frame. -/
def State.treesAt (s : State) (frame : Nat) : List Nat :=
  match s.part with
  | none => []
  | some p =>
    if !s.sch.active then []
    else dedupSorted (((List.range (p.section 5).2.1).filter fun i =>
      p.collField i 4 4 == s.sch.slice && p.collFrame i == frame).map fun i => p.collField i 0 1)

end Sys2Proof.Machine
end

