-- ==== Sys2Proof/Machine/Slices.lean ====
section
/-! DEFINITION. Slices and schedule faults (R32, R38, R48, R49, R53, R57 to R62, R319, R321): commit and start of a slice, the ready vote, the reference, resynchronisation, alternates, power phases. -/

namespace Sys2Proof.Machine
open Sys2Proof

/-! ## Alternates (R48, R49) -/

/-- The idle alternate: the main part's own, or the built-in one. -/
def State.idleAlt (s : State) : InForce := if (aGet s.sch.alts 9).isSome then .alt 9 else .idle

/-- The slice of an alternate that stands for a main slice. -/
def Part.standIn (p : Part) (m : Nat) : Option Nat := (List.range p.sliceCount).find? fun j => p.sliceStands j == m

/-- The main slice that the slice to run is or stands for. -/
def State.mainSlice (s : State) : Nat :=
  match s.sch.inForce with
  | .alt _ => (match s.part with | some p => p.sliceStands s.sch.slice | none => s.sch.slice)
  | _ => s.sch.slice

/-! ## The commit of a slice (R38, R40, R323) -/

/-- The bank group that each stack's slack declaration has the first window of slice 0 refresh (R45). -/
def Part.refreshStart (p : Part) (m : SMap 16) : SMap 16 :=
  (List.range 8).foldl (fun m d => smSet m d (BitVec.ofNat 16 (smNat p.img ((p.section 3).1 + 16 * d) 2))) m

/-- As an attempt of slice 0 begins, its refresh starts where the part says (R45). -/
def State.startRefresh (s : State) : State :=
  match s.part with
  | some p => if s.sch.slice = 0 then { s with refreshed := p.refreshStart s.refreshed } else s
  | none => s

/-- The alert threshold of a stack's slack declaration (R45). -/
def State.alertThreshold (s : State) (d : Nat) : Nat :=
  match s.part with | some p => smNat p.img ((p.section 3).1 + 16 * d + 4) 4 | none => 0

/-- The alerts for error counts above their thresholds (R45, R282, R323), as die and count: each of a die's five counts is
compared. -/
def State.countAlerts (s : State) : List (Nat × Nat) :=
  (List.range 40).filterMap fun k =>
    let n := (smGet s.plat.counts (8 * (k / 5) + k % 5)).toNat
    let t := s.alertThreshold (k / 5)
    if t ≠ 0 ∧ t < n then some (k / 5, n) else none

/-- Going on to the next slice, or after the last to the idle alternate (R40). -/
def State.nextSlice (s : State) : State :=
  match s.part with
  | none => s
  | some p =>
    if s.sch.slice + 1 < p.sliceCount then { s with sch := { s.sch with slice := s.sch.slice + 1 } }
    else { s with sch := { s.sch with ended := true, inForce := s.idleAlt } }

/-- What is kept of the slice that commits, as long as another member may still report a fault of its last frame. -/
def State.sliceMark (s : State) : SliceMark where
  frame := s.frame
  main := s.sch.main
  alts := s.sch.alts
  pending := s.sch.pending
  partNo := s.sch.partNo
  inForce := s.sch.inForce
  slice := s.sch.slice
  sliceTick := s.sch.sliceTick
  attempts := s.sch.attempts
  recorded := s.sch.recorded
  absent := s.sch.absent
  absentNew := s.sch.absentNew
  altReq := s.sch.altReq
  downed := s.sch.downed
  cool := s.plat.coolSlice
  alerts := s.countAlerts
  counts := s.plat.counts
  lastCounts := s.plat.lastCounts
  resumes := s.host.resumes.filter fun r => r.fixed && r.started
  islands := s.sch.islands
  slopes := s.sch.slopes
  chunks := s.fab.chunks.filter fun k => decide (s.sliceStart ≤ k.frame)

/-- SLICE_COMMIT (R38): the slice is over; a replay is no longer under way (R59); the slice's error counts are kept. Whether
every other member commits too is known by the end of the next frame (R58): until then the slice can be taken up again, and its
alerts wait (`State.settle`). -/
def execSliceCommit (s : State) : Host.Outcome State Fault Refusal :=
  if !s.sch.active || !s.sch.heard.isEmpty then .next s
  else
    let s := { s with
      sch := { s.sch with prior := some s.sliceMark }
      plat := { s.plat with lastCounts := s.plat.counts, counts := [] }
      host := { s.host with resumes := s.host.resumes.filter fun r => !(r.fixed && r.started) } }
    .next ({ s with sch := { s.sch with active := false, attempts := 1, recorded := none } }).nextSlice

/-! ## The ready vote (R62) -/

/-- The members of the pod whose votes count: all but this one and the absent. -/
def State.voters (s : State) : List Nat :=
  let n := match s.sch.pending with | some p => if s.sch.main.isNone then smNat p.1.img 0x12 2 else s.podSize | none => s.podSize
  (List.range n).filter fun k => k != s.sch.pkgid && !s.isAbsent k

/-- Whether every counted member is ready: each live plane carries its vote. -/
def State.allReady (s : State) : Bool :=
  s.readyHere && s.sch.heard.isEmpty && s.voters.all fun k => (List.range 8).all fun p => !s.live p || s.sch.votes.contains (p, k, true)

/-- READY_VOTE (R62): the slice may start, or an idle frame runs, or after three of them VOTE; the offset grows as each idle
frame ends. -/
def execReadyVote (s : State) : Host.Outcome State Fault Refusal :=
  if !s.voteFrame then .next s
  else if s.allReady then
    .next { s with sch := { s.sch with
      voted := true, votes := [], growth := if 0 < s.sch.idleVotes then 2048 else 0, idleVotes := 0 } }
  else if s.sch.idleVotes < 3 then
    .next { s with sch := { s.sch with
      votes := [], growth := if 0 < s.sch.idleVotes then 2048 else 0, idleVotes := s.sch.idleVotes + 1 } }
  else .next ({ s with sch := { s.sch with votes := [], idleVotes := 0, growth := 2048 } }.raiseSched .vote 0xFF)

/-! ## The reference (R32) -/

/-- CLOCK (R32, R57): this member's lock to the reference is lost, which raises CLOCK on any member. -/
def execClock (s : State) : Host.Outcome State Fault Refusal :=
  .next ({ s with sch := { s.sch with locked := false } }.raiseSched .clock 0xFF)

/-- Whether a TAI phase error in ns is larger than the replay policy tolerates (R32, R47); without a policy there is no bound. -/
def State.phaseBad (s : State) (phase : Int) : Bool :=
  match s.sch.main with
  | some p => decide (smNat p.img ((p.section 9).1 + 8) 4 < phase.natAbs)
  | none => false

/-- SERVO_TRIM (R32): at a frame boundary the servo of the timing source has a correction, in ppb from nominal, and its TAI
phase error in ns; a step, a trim beyond 10 ppm or a phase beyond the policy's bound raises CLOCK. -/
def execServoTrim (x : ServoTrim) (s : State) : Host.Outcome State Fault Refusal :=
  if !s.sch.source || s.frameCycle ≠ 0 then .next s
  else if x.step || 10000 < x.ppb.natAbs || s.phaseBad x.phase then .next (s.raiseSched .clock 0xFF)
  else .next { s with sch := { s.sch with trim := x.ppb } }

/-! ## The schedule at a slice boundary (R40, R48, R53, R254, R305, R321) -/

/-- Members newly absent join the absent set (R254). -/
def State.takeAbsent (s : State) : State :=
  let set := s.sch.absentNew.foldl (fun a k => a ||| BitVec.ofNat 256 (2 ^ k)) s.sch.absent
  { s with sch := { s.sch with absent := set, absentNew := [] } }

/-- Bytes of a page by the size code of a residency entry (R40). -/
def residentSize (code : Nat) : Nat := match code with | 0 => 2 ^ 16 | 1 => 2 ^ 21 | _ => 2 ^ 30

/-- The pages of a part's residency list, as page-table entries (R40). -/
def State.residentPages (s : State) (p : Part) : List Page :=
  let sec := p.section 6
  (List.range sec.2.1).flatMap fun i =>
    let o := sec.1 + 16 * i
    let size := residentSize (smNat p.img (o + 14) 1)
    (List.range (smNat p.img (o + 8) 4)).filterMap fun k =>
      s.pages.find? fun g => g.covers (smNat p.img (o + 12) 2) (smNat p.img o 8 + k * size)

/-- Pinning a residency list in every die's unit, at most 1,536 pages each; earlier pins end (R305). -/
def State.pinPages (s : State) (p : Part) : State :=
  let ps := ((s.residentPages p).foldl (fun (l : List Page) g => if l.contains g then l else l ++ [g]) []).take 1536
  let loose := (s.tlb.map fun e => { e with pinned := false }).filter fun e => !ps.contains e.page
  let pins := (List.range 8).flatMap fun d => ps.map fun g => (⟨d, g, true⟩ : TlbEntry)
  let room (d : Nat) : List TlbEntry := (loose.filter fun e => e.die == d).take (2048 - ps.length)
  { s with tlb := pins ++ if ps.isEmpty then loose else (List.range 8).flatMap room }

/-- A part that takes effect while planes are down, as boot may have left them (R314), goes on in the degraded-plane alternate of
the one plane (R256, R60); with none for it, or with more planes down, PLANE is raised and ends as R60 has it (DESIGN CHOICE, log
entry 72). -/
def State.degrade (s : State) : State :=
  match if s.sch.ended then [] else s.downPlanes with
  | [] => s
  | p :: more =>
    match (aGet s.sch.alts p).bind fun a => a.standIn s.sch.slice with
    | some j =>
      if more.isEmpty then { s with sch := { s.sch with inForce := .alt p, slice := j, downed := some p } } else s.raiseSched .plane p
    | none => s.raiseSched .plane p

/-- A newly installed part takes effect (R53): it starts at its first slice from here on, and slices of it whose start has passed are
not run (DESIGN CHOICE, log entry 73); a new generation clears the
absent set (R254). Loose entries of the part before that wait for their core go on waiting (R94). -/
def State.takePart (s : State) (p : Part) (alts : List (Nat × Part)) : State :=
  let old := s.sch.main.map fun m => smNat m.img 8 8
  let absent := if old = some (smNat p.img 8 8) then s.sch.absent else 0
  let first := p.sliceFrom s.frame
  let s := s.pinPages p
  State.degrade { s with
    sch := { s.sch with
      main := some p, alts := alts, pending := none, partNo := s.sch.partNo + 1, inForce := .main, slice := first.getD 0,
      ended := first.isNone, filled := s.sch.filled.filter fun f => decide (s.sch.partNo ≤ f.key.part),
      consumed := s.sch.consumed.filter fun x => decide (s.sch.partNo ≤ x.2.part), downed := none, absent := absent,
      recorded := none, haltPath := none } }

/-- The idle alternate in place of the schedule in force (R48, R49): the main part's own goes on with the slice that stands for main
slice m; the built-in one, or one without such a slice (DESIGN CHOICE, log entry 74), runs frame by frame. -/
def State.enterIdle (s : State) (m : Nat) : State :=
  match (aGet s.sch.alts 9).bind fun p => (p.standIn m).map fun j => (p, j) with
  | some (p, j) =>
    if p.sliceFirst j = s.frame then { s with sch := { s.sch with inForce := .alt 9, slice := j } }
    else { s with sch := { s.sch with inForce := .alt 9, ended := true } }
  | none => { s with sch := { s.sch with inForce := s.idleAlt, ended := true } }

/-- The main slice that starts here when an idle alternate gives way: the one that its next slice stands for, or, where it has none
to run, the one of the running frame (R48, R321). -/
def State.mainNext (s : State) : Option Nat :=
  if s.sch.inForce == .alt 9 && !s.sch.ended then if s.mainSlice = 0xFFFF then none else some s.mainSlice
  else s.mainStart

/-- A requested alternate, two frames or more after its request, in place of the main part, or for the idle one of any other
schedule too; or the return to the main part (R321). -/
def State.substitute (s : State) : State :=
  let m := s.mainSlice
  match s.sch.altReq with
  | some (true, f) =>
    if s.plat.coolSlice && s.idles then
      match s.mainNext with
      | some i => { s with sch := { s.sch with inForce := .main, slice := i, ended := false, altReq := none } }
      | none => s
    else if f + 2 ≤ s.frame && !s.idles then s.enterIdle m
    else s
  | some (false, f) =>
    if s.plat.coolSlice && s.sch.inForce == .alt 8 && m != 0xFFFF then
      { s with sch := { s.sch with inForce := .main, slice := m, altReq := none } }
    else if f + 2 ≤ s.frame && s.sch.inForce == .main then
      match (aGet s.sch.alts 8).bind fun p => p.standIn m with
      | some j => { s with sch := { s.sch with inForce := .alt 8, slice := j } }
      | none => s
    else s
  | none => s

/-- The schedule that a slice boundary takes up (R40, R48, R53, R254, R321): a part whose time has come, a requested alternate or the
return from one. A request made before a part takes effect stands under it. -/
def State.openSchedule (s : State) : State :=
  let s := ({ s with sch := { s.sch with voted := false } }).takeAbsent
  (match s.sch.pending with
    | some (p, alts, t) => if t ≤ s.accord then s.takePart p alts else s
    | none => s).substitute

/-! ## Landings of loose blocks through a schedule fault (R52) -/

/-- Whether a core holds a loose block. -/
def State.looseCore (s : State) (c : Nat) : Bool := match s.blk c with | some b => b.loose | none => false

/-- The share of a column in an Accord period of the schedule in force, were it to run on (R43). -/
def State.shareAt (s : State) (q stack col : Nat) : Nat :=
  match s.part with
  | none => 0
  | some p => match p.sliceAt (1024 * q) with
    | some i => if s.sch.inForce == .alt 9 then 0 else p.share i (q - 2 * p.sliceFirst i) stack col
    | none => 0

/-- Spending one period's shares of a column on lines, in their order: those left, and the spending after them. -/
def spendEach (share : Nat → Nat) (ls : List Nat) (used : List (Nat × Nat)) : List Nat × List (Nat × Nat) :=
  ls.foldl (fun (p : List Nat × List (Nat × Nat)) l =>
    let n := (aGet p.2 (stackOf l)).getD 0
    if n < share (stackOf l) then (p.1, aSet p.2 (stackOf l) (n + 1)) else (p.1 ++ [l], p.2)) ([], used)

/-- What is left of an operation to move: its issue, its lines of data, and the line of a flag that follows them (R153). -/
abbrev Undone := Nat × List Nat × List Nat

/-- Spending one period's shares of a column on what is left of its operations, in their order (R54): a flag moves once its data
has. -/
def spendLines (share : Nat → Nat) : List Undone → List (Nat × Nat) → List Undone
  | [], _ => []
  | (seq, ls, flag) :: rest, used =>
    let r := spendEach share ls used
    let f := if r.1.isEmpty then spendEach share flag r.2 else (flag, r.2)
    (seq, r.1, f.1) :: spendLines share rest f.2

/-- The Accord periods, from q on, in which operations of a column would carry their last lines: by issue. -/
def landingPeriods (share : Nat → Nat → Nat) : Nat → Nat → List Undone → List (Nat × Nat)
  | 0, q, l => l.map fun x => (x.1, q)
  | n + 1, q, l =>
    if l.isEmpty then []
    else
      let r := spendLines (share q) l []
      let moved (x : Undone) : Bool := x.2.1.isEmpty && x.2.2.isEmpty
      (r.filter moved).map (fun x => (x.1, q)) ++ landingPeriods share n (q + 1) (r.filter fun x => !moved x)

/-- What an operation has left to move after the running period: a flag of this package that it does not carry follows its data. -/
def MemOp.undone (o : MemOp) : Undone :=
  (o.seq, o.todo, match o.flag with | some f => if o.carryFlag || (lineHome (f.1 / 64)).isSome then [] else [f.1 / 64] | none => [])

/-- The frame that follows a part's last slice. -/
def Part.endFrame (p : Part) : Nat := (List.range p.sliceCount).foldl (fun m i => max m (p.sliceFirst i + p.sliceFrames i)) 0

/-- The tick of the commit at which each operation of a column would have landed without the fault (R36, R52): its lines of
the running period moved, the rest spent in the schedule's periods after it, to the end of the part. -/
def State.plainLandings (s : State) (c : Nat) : List (Nat × Nat) :=
  let q := s.accord / 1024
  let last := match s.part with | some p => 2 * p.endFrame | none => 0
  let mine := sortOps opBefore (s.ops.filter fun o => o.col == c && !(o.carried && o.todo.isEmpty && o.undone.2.2.isEmpty))
  (landingPeriods (fun q k => s.shareAt q k c) (last - q) (q + 1) (mine.map MemOp.undone)).map fun x =>
    (x.1, s.tickOf (1024 * x.2 + 1023))

/-- The ticks to come of a plane's slots of one use, to the end of the part in force. -/
def State.slotsToCome (s : State) (plane : Nat) (use : Nat × Nat → Bool) : List Nat :=
  let slots := (List.range 1024).filter fun n => use (s.slotUse plane n)
  let frames := match s.part with | some p => p.endFrame - s.frame | none => 0
  ((List.range frames).flatMap fun k => slots.map fun n => s.tickOf (2048 * (s.frame + k) + 2 * n)).filter fun t => s.now < t

/-- The slots in which the requests of a queue would go, by sender; those that find none would go in none of the part. -/
def sendTicks : List Nat → List OutRec → List (OutRec × Nat)
  | [], _ => []
  | t :: ts, q =>
    if q.isEmpty then []
    else
      let took := (fillRecords (·.body) (q.filter fun r => decide (r.acc + 64 ≤ t)) [] []).2
      took.map (fun r => (r, t)) ++ sendTicks ts (q.filter fun r => !took.contains r)

/-- The slots in which the flits of XFER.SENDs of a stream would go, by SEND. -/
def streamTicks : List Nat → List XSend → List (XSend × Nat)
  | [], _ => []
  | t :: ts, q =>
    match q.find? fun x => x.left != 0 && decide (x.acc + 64 ≤ t) with
    | none => if q.all fun x => x.left == 0 then [] else streamTicks ts q
    | some x => (x, t) :: streamTicks ts (q.map fun y => if y.seq == x.seq && y.core == x.core then { y with left := y.left - 1 } else y)

/-- Whether the running operation that a request belongs to is a loose block's. -/
def State.looseRecord (s : State) (r : OutRec) : Bool := !r.resp && s.ops.any fun o => o.seq == r.seq && o.col == r.core && o.loose

/-- The requests that loose blocks have queued go no earlier than they would have gone without the fault (R37, R52). -/
def State.holdRecords (s : State) : State :=
  let mine := s.fab.recq.filter s.looseRecord
  let group (k : Nat × Nat) : List (OutRec × Nat) :=
    let q := s.fab.recq.filter fun r => !r.resp && s.planeNow r == k.1 && r.peer == k.2
    sendTicks (s.slotsToCome k.1 fun u => u.1 == 2 && u.2 % 256 == k.2 && u.2 / 256 % 2 == 0) (sortBy (·.acc) (sortBy (·.core) (sortBy (·.key) q)))
  let ticks := ((mine.map fun r => (s.planeNow r, r.peer)).eraseDups).flatMap group
  let held (r : OutRec) : OutRec :=
    match ticks.find? fun x => s.looseRecord r && x.1 == r with
    | some x => { r with floor := max r.floor x.2 }
    | none => r
  { s with fab := { s.fab with recq := s.fab.recq.map held } }

/-- The streams of loose blocks go on no earlier than they would have without the fault (R37, R52). -/
def State.holdSends (s : State) : State :=
  let mine := s.fab.sends.filter fun x => x.left != 0 && s.looseCore x.core
  let group (k : Nat × Nat) : List (XSend × Nat) :=
    let q := s.fab.sends.filter fun x => x.chan == k.1 && x.peer == k.2
    let slots := ((List.range 8).filter s.live).flatMap fun p => s.slotsToCome p fun u => u.1 == 1 && u.2 / 256 % 32 == k.1 && u.2 % 256 == k.2
    streamTicks (sortBy id slots) (sortBy (·.acc) (sortBy (·.core) (sortBy (·.slot) q)))
  let ticks := ((mine.map fun x => (x.chan, x.peer)).eraseDups).flatMap group
  let held (x : XSend) : XSend :=
    if s.looseCore x.core then
      { x with floors := (ticks.filter fun y => y.1.seq == x.seq && y.1.core == x.core).zipIdx.map fun y => max (x.floors.getD y.2 0) y.1.2 }
    else x
  { s with fab := { s.fab with sends := s.fab.sends.map held } }

/-- The accepted operations of loose blocks land no earlier than they would have landed without the fault (R52): their lines here and
their requests to other packages. -/
def State.holdLandings (s : State) : State :=
  s.cores.foldl (fun s p =>
    if s.ops.any fun o => o.col == p.1 && o.loose then
      let ls := s.plainLandings p.1
      { s with ops := s.ops.map fun o =>
          if o.col == p.1 && o.loose then { o with floor := max o.floor (((ls.find? fun x => x.1 == o.seq).map (·.2)).getD 0) } else o }
    else s) s.holdRecords.holdSends

/-- FAULT_DETECTION (R58, R59): issue stops, nothing more commits, the fault bit goes out; a fault during
resynchronisation joins it, or halts the pod, to which its fault bit tells it (log entry 70). -/
def execFaultDetection (s : State) : Host.Outcome State Fault Refusal :=
  let s := s.raiseShort
  let due := s.sch.raised.filter fun f => dueBy f.tick s.now
  let s := { s with sch := { s.sch with raised := s.sch.raised.filter fun f => !dueBy f.tick s.now } }
  if due.isEmpty then .next s
  else
    match s.sch.phase with
    | .run =>
      let s := s.holdLandings
      .next (State.tellFault { s with sch := { s.sch with phase := .fault, faults := due } })
    | .fault => .next { s with sch := { s.sch with faults := s.sch.faults ++ due } }
    | .halt => .next s
    | p =>
      let t := due.foldl (fun s f => s.joinFault f.cause f.unit (if p == .syncB then 2 else 1)) s
      .next (if due.all fun f => s.joins f.cause then t else t.tellFault)

/-- The tick of the abort boundary (R58, R62): two frames after that of the first detection, for VOTE the next frame. It counts
pod ticks, since Accord time stands still in the idle frames of a ready vote. -/
def State.abortTick (s : State) : Option Nat :=
  match s.sch.phase with
  | .run | .fault =>
    (firstFault (s.sch.faults ++ s.sch.heard)).map fun f => 2048 * (f.tick / 2048 + if f.cause = .vote then 1 else 2)
  | _ => none

/-- Error counts by die and kind, added up. -/
def addCounts (m n : SMap 32) : SMap 32 := (List.range 64).foldl (fun x k => smSet x k (smGet m k + smGet n k)) []

/-- The chunks of a slice taken up again: those kept at its commit that have been dropped since, and those at hand. -/
def State.chunksAgain (s : State) (m : SliceMark) : List Chunk :=
  (m.chunks.filter fun k => (s.chunk k.tree k.c k.frame).isNone) ++ s.fab.chunks

/-- The slice that a fault belongs to, where it is the one before (R38, R58): this package has committed it, the member that
detected the fault in its last frame has not, so it is taken up again as it stood. What loose blocks have filled and the entries they
were admitted by since then stay (R101): both are kept by the number of their Accord. -/
def State.rollBack (s : State) : State :=
  match firstFault (s.sch.faults ++ s.sch.heard), s.sch.prior with
  | some f, some m =>
    if m.frame < f.frame then s
    else
      let t := { s with
        plat := { s.plat with coolSlice := m.cool, counts := addCounts m.counts s.plat.counts, lastCounts := m.lastCounts }
        host := { s.host with resumes := m.resumes ++ s.host.resumes }
        fab := { s.fab with chunks := s.chunksAgain m }
        sch := { s.sch with
          main := m.main, alts := m.alts, pending := if s.sch.pending.isSome then s.sch.pending else m.pending, partNo := m.partNo,
          inForce := m.inForce, slice := m.slice, sliceTick := m.sliceTick, attempts := m.attempts, recorded := m.recorded,
          absent := m.absent, absentNew := m.absentNew ++ s.sch.absentNew.filter fun k => !m.absentNew.contains k,
          altReq := if s.sch.altReq.isSome then s.sch.altReq else m.altReq, downed := m.downed, islands := m.islands,
          slopes := m.slopes, active := true, ended := false, prior := none } }
      match m.main with
      | some p => if m.partNo = s.sch.partNo then t else t.pinPages p
      | none => t
  | _, _ => s

/-- A core after its fixed block has been removed (R59). -/
def Core.clearBlock (k : Core) : Core :=
  { k with blk := none, left := none, runs := [], accLands := [], busy := [], swr := [], accepts := [], fills := [], lastFill := 0, rings := [], tiles := [],
           claspQ := [], vnt := [], freeAt := 0, resEnd := 0, resFixed := none }

/-- A line of a loose block's operation whose request has not landed when a fault is detected counts as not sent (R37, R52). -/
def MemOp.unsend (detected : Nat) (o : MemOp) : MemOp :=
  let open_ (l : RemLine) : Bool := match l.sent with | some t => decide (detected ≤ 2048 * (t / 2048 + 2) - 1) | none => false
  if o.remote.any open_ then
    { o with rland := none, remote := o.remote.map fun l => if open_ l then { l with sent := none, data := none } else l }
  else o

/-- Whether an operation still awaits the sending of a request. -/
def MemOp.awaitsRecord (o : MemOp) (r : OutRec) : Bool :=
  o.remote.any fun l => l.sent.isNone && l.pkg == r.peer && l.line == r.body.line.toNat && l.thread == r.thread

/-- Whether a fixed block's save goes on through an abort (R301): that of a slice before the aborted one. -/
def State.saveKept (s : State) (o : MemOp) : Bool := !s.sch.active || decide (o.acc < s.sch.sliceTick)

/-- Whether an operation goes on through an abort: a loose block's, also one that has exited (R97), the host's, a loose block's
restore, the stage of a waiting entry of an earlier slice, or the save of a fixed block of one (R28, R52, R59, R101, R301). -/
def State.opKept (s : State) (o : MemOp) : Bool :=
  match o.done with
  | .stage key _ _ => (s.adms0 (s.core o.col).adms).any fun a => a.key == key
  | .restore area => !s.host.resumes.any fun r => r.core == o.col && r.area == area && r.fixed
  | .save true => s.saveKept o
  | _ => 1536 ≤ o.col || o.loose

/-- Whether a core's fixed block stays through an abort, since its save does (R301). -/
def State.savedCore (s : State) (c : Nat) : Bool :=
  s.ops.any fun o => o.col == c && (match o.done with | .save true => s.saveKept o | _ => false)

/-- The reservation of a fixed-discipline block of the aborted slice that has exited is void, as its entry fires again (R94,
R101). -/
def State.freeReserved (s : State) (k : Core) : Core :=
  let from_ := match s.part with | some p => 2048 * p.sliceFirst s.sch.slice | none => 0
  match k.resFixed with
  | some t => if from_ ≤ t && k.blk.isNone then { k with resEnd := 0, resFixed := none } else k
  | none => k

/-- A chunk after an abort: one of an earlier slice goes on to its result; one that loose discipline has fired stands to be read again
in the replay (R268); one that fixed discipline has fired fires again. -/
def State.chunkAgain (s : State) (k : Chunk) : Option Chunk :=
  if k.frame < s.sliceStart then some k
  else if k.loose && k.addr.isSome then some { k with read := false, void := false, mine := [], ranks := [], status := none }
  else none

/-- ABORT (R59, R101): the slice is the one the fault belongs to; its fixed blocks are removed, what has not landed is
discarded, here and at the home of remote requests, and entries filled by its fixed blocks are free again. What loose blocks
have under way stays (R52): their requests whose frame has not committed are sent again. -/
def execAbort (s : State) : Host.Outcome State Fault Refusal :=
  let s := (if s.sch.phase == .run then s.holdLandings else s).rollBack
  let detected := match s.sch.faults.head? with | some f => f.tick | none => s.now
  let ops := (s.ops.filter s.opKept).map (MemOp.unsend detected)
  let kept (c : Nat) : Bool := s.looseCore c
  let fab : Fabric := { s.fab with
    recq := (s.fab.recq.filter fun r => !r.resp && (1536 ≤ r.core || ops.any fun o => o.seq == r.seq && o.col == r.core))
      ++ s.fab.flown.filter fun r => ops.any fun o => o.seq == r.seq && o.col == r.core && o.awaitsRecord r
    flown := []
    home := []
    sends := s.fab.sends.filter fun x => kept x.core
    recvs := s.fab.recvs.filter fun x => kept x.core
    replays := []
    sent := []
    owed := []
    chunks := s.fab.chunks.filterMap s.chunkAgain
    contribs := s.fab.contribs.filter fun x => decide (x.frame < s.sliceStart) }
  let clear (p : Nat × Core) : Nat × Core := match p.2.blk with
    | some b => if b.loose || s.savedCore p.1 then p else (p.1, p.2.clearBlock)
    | none => (p.1, s.freeReserved p.2)
  let filled := if s.sch.active then s.sch.filled.filter fun f => !(f.byFixed && s.sch.sliceTick + 64 ≤ f.at_) else s.sch.filled
  .next { s with
    ops := ops
    fab := fab
    cores := s.cores.map clear
    sch := { s.sch with phase := .abort, filled := filled } }

/-- SYNC_A (R59, R256): the exchange starts; entries of the plane map that name a lost plane are rewritten. -/
def execSyncA (s : State) : Host.Outcome State Fault Refusal :=
  .next { s with sch := { s.sch with phase := .syncA, planeMap := s.remapped } }

/-- A selector of the replay policy for a cause (R47). -/
def Part.selector (p : Part) (c : SCause) : Nat :=
  let o := (p.section 9).1
  let w := smNat p.img (o + 2) 2
  match c with
  | .slack => w % 16
  | .fslack => w / 16 % 16
  | .stall => w / 256 % 16
  | .vote => w / 4096
  | .clock => smNat p.img (o + 4) 1 % 16
  | .plane => 0

/-- How a resynchronisation ends (R59, R60): the schedule to enter and a replay, or a halt and its path (R61). -/
inductive Resync where
  | replay
  | alternate (n : InForce)
  | halt (path : Nat)
  deriving DecidableEq, Repr

/-- Whether the slice whose ready vote has failed is one of the main part (R62). -/
def State.opensMain (s : State) : Bool := !s.sch.active && s.openSchedule.sch.inForce == .main

/-- The decision of R59 and R60 for the recorded fault. After the last slice the idle alternate runs (R40), so a fault there
ends in HALT, but VOTE for a slice of the main part that is to start; before any Accord no alternate has replaced anything. A
PLANE fault that joined gives its alternate also where a selector names another, or none (log entry 52). -/
def State.resolve (s : State) (f : SFault) : Resync :=
  match s.sch.haltPath with
  | some n => .halt n
  | none =>
    if s.sch.main.isSome && s.sch.inForce != .main && !(f.cause == .vote && s.opensMain) then .halt 0
    else if f.cause = .plane then
      match s.sch.downed, s.downPlanes with
      | none, [p] => if (aGet s.sch.alts p).isSome then .alternate (.alt p) else .halt 4
      | _, _ => .halt 4
    else
      match s.sch.next with
      | some n => .alternate n
      | none =>
        if s.sch.recorded.isNone then .replay
        else
          match s.sch.main.map fun p => p.selector f.cause with
          | some 1 => if (aGet s.sch.alts 8).isSome then .alternate (.alt 8) else .halt 3
          | some 2 => .alternate s.idleAlt
          | _ => .halt 3

/-- The frame of the slice to run again (R59): the running slice's first; between slices, for VOTE the frame of the slice whose vote
failed (R62), and for another fault that of the slice that was to start by the end of the resynchronisation. -/
def State.againFrame (s : State) : Option Nat :=
  match s.part, s.recordedFault with
  | some p, some f =>
    if s.sch.active then some (p.sliceFirst s.sch.slice)
    else if f.cause = .vote then some f.frame
    else if !s.sch.ended && p.sliceFirst s.sch.slice ≤ s.frame + 1 then some (p.sliceFirst s.sch.slice)
    else none
  | some p, none => if s.sch.active then some (p.sliceFirst s.sch.slice) else none
  | none, some f => if f.cause = .vote then some f.frame else none
  | none, none => none

/-- SYNC_B (R59, R101): relocked, with the recorded cause; cursors are rewound, and the offset grows so that the slice
starts again at its original Accord time. With no slice to run again it grows by 2,048 (DESIGN CHOICE, log entry 51). -/
def execSyncB (s : State) : Host.Outcome State Fault Refusal :=
  let grow := match s.againFrame with
    | some n => s.accord + 2048 - 2048 * n
    | none => 2048
  .next { s with
    cores := s.cores.map fun p => (p.1, { p.2 with adms := s.adms0 p.2.adms })
    sch := { s.sch with
      phase := .syncB
      locked := true
      planeMap := s.remapped
      faults := match s.recordedFault with | some f => [f] | none => s.sch.faults
      growth := grow } }

/-- The chunks of the running slice's first frame: nothing of the slice can have fired them at their read (R268). -/
def State.unfiredChunks (s : State) : State :=
  (s.treesAt s.frame).foldl (fun s t => (s.chunksAt t s.frame).foldl (fun s e => s.readChunk t s.now e) s) s

/-- A slice's attempt begins: its start tick, no votes, the islands and slope limits it starts with, its refresh (R45). -/
def State.enterRun (s : State) (attempts : Nat) : State :=
  (State.startRefresh { s with sch := { s.sch with
    phase := .run, active := true, ended := false, sliceTick := s.now, attempts := attempts,
    next := none, votes := [], idleVotes := 0, voted := false, faultBit := 0,
    islands := s.cores.map fun p => (p.1, p.2.islands), slopes := s.slope } }).unfiredChunks

/-- The islands and slope limits as they stood when the aborted attempt began, but for cores with a loose block, which goes on
(R28, log entry 32). -/
def State.restoreIslands (s : State) : State :=
  { s with
    slope := s.sch.slopes
    cores := s.cores.map fun p =>
      if s.looseCore p.1 then p else (p.1, { p.2 with islands := (aGet s.sch.islands p.1).getD 0 }) }

/-- The saved fixed blocks of the slice are read again in its replay (R28, R302). -/
def State.resumeAgain (s : State) : State :=
  { s with host := { s.host with resumes := s.host.resumes.map fun r => if r.fixed then { r with started := false } else r } }

/-- The faults of a resynchronisation that is over are forgotten, but for the recorded one with the attempt that it ended. -/
def State.clearFaults (s : State) : State :=
  { s with sch := { s.sch with faults := [], heard := [], raised := [], synced := s.recordedFault.map fun f => (f, s.sch.attempts) } }

/-! ## The start of a slice (R38, R40, R53, R62) -/

/-- A slice begins if one of the part in force starts in this frame: its chunks and its attempt are new, and temperatures count from
the frame's own reading (R321). -/
def State.beginSlice (s : State) (attempts : Nat) : State :=
  match s.part with
  | none => s
  | some p =>
    if s.sch.ended || p.sliceFirst s.sch.slice ≠ s.frame then s
    else
      State.enterRun { s with
        cores := s.cores.map fun k => (k.1, { k.2 with adms := k.2.adms.filter fun a => a.stage != 9 })
        fab := { s.fab with chunks := s.fab.chunks.filter fun k => k.read && k.status.isNone }
        host := { s.host with inWindow := false }
        plat := { s.plat with coolSlice := !s.marked markTemp || s.plat.coolFrame } } attempts

/-- SLICE_START (R40, R53, R62, R254, R321). -/
def execSliceStart (s : State) : Host.Outcome State Fault Refusal := .next (s.openSchedule.beginSlice 1)

/-! ## Replay, alternate, halt -/

/-- The schedule runs on after a resynchronisation (R59). -/
def State.resumeRun (s : State) : State := { s with sch := { s.sch with phase := .run, next := none, votes := [], idleVotes := 0, voted := false, faultBit := 0 } }

/-- REPLAY (R59): the slice runs again from its first frame; after VOTE the slice that did not start is opened as a slice is (R62);
with neither, as before any Accord, the schedule runs on. The replay is not voted on, also after VOTE: the spec does not say whether it
is (DESIGN CHOICE, log entry 74). -/
def execReplay (s : State) : Host.Outcome State Fault Refusal :=
  let t := State.clearFaults { s with sch := { s.sch with recorded := s.recordedFault } }
  if s.sch.active then .next (t.restoreIslands.resumeAgain.enterRun 2)
  else if s.againFrame.isSome then
    let t := t.resumeRun.openSchedule
    .next ({ t with sch := { t.sch with recorded := s.recordedFault } }.beginSlice 2)
  else .next t.resumeRun

/-- ALTERNATE (R48, R59, R60): the alternate's slice that stands for the aborted one, and the schedule after it. An alternate without
such a slice is in force as one that has ended: the spec does not say what runs (DESIGN CHOICE, log entry 74). -/
def execAlternate (s : State) : Host.Outcome State Fault Refusal :=
  match s.recordedFault with
  | none => .next (s.clearFaults.enterRun 1)
  | some f =>
    match s.resolve f with
    | .alternate n =>
      let s := if s.sch.active || s.againFrame.isNone then s else s.openSchedule
      let m := s.mainSlice
      let downed := match n with | .alt k => if k < 8 then some k else s.sch.downed | _ => s.sch.downed
      let s := State.clearFaults { s with sch := { s.sch with inForce := n, downed := downed, recorded := none } }
      match s.part.bind fun p => p.standIn m with
      | some j => .next ({ s with sch := { s.sch with slice := j } }.enterRun 1)
      | none =>
        let s := s.enterRun 1
        .next { s with sch := { s.sch with active := false, ended := true } }
    | _ => .next (s.clearFaults.enterRun 1)

/-- The halt fault record (R61). -/
def State.haltRecord (s : State) (f : SFault) (path : Nat) : BitVec 256 :=
  let unit := match f.cause with | .slack | .fslack | .plane => f.unit | _ => 0xFF
  let bytes := bytesOf 1 f.cause.code ++ bytesOf 1 path ++ bytesOf 2 f.pkg ++ bytesOf 1 unit ++ bytesOf 1 s.sch.attempts ++ bytesOf 2 0
    ++ bytesOf 4 s.sch.slice ++ bytesOf 4 s.mainSlice ++ bytesOf 8 f.time ++ bytesOf 8 f.tick
  BitVec.ofNat 256 (leOf bytes)

/-- The exit status word of a strand still running at HALT (R297), written straight into memory, here or in
another package. -/
def State.haltWord (s : State) (c i : Nat) : State :=
  match s.blk c, s.strand c i with
  | some b, some st =>
    if st.ended.isSome then s
    else
      match if 2 ^ 57 ≤ b.field 0x40 8 + 64 * c then .error .xlate else s.pageKey c b.asid (b.field 0x40 8 + 64 * c) { w := true } with
      | .ok k =>
        let word := bytesOf 4 (statusWord 0x10 0 st.regioncnt)
        match lineHome (k / 64) with
        | none => s.writeMem (addressed (k + 4 * i) word)
        | some g => { s with out := s.out ++ [.direct g (addressed (64 * lineAtHome (k / 64) + k % 64 + 4 * i) word)] }
      | .error _ => s
  | _, _ => s

/-- The words of every block at HALT (R97, R297). -/
def State.haltWords (s : State) : State :=
  s.cores.foldl (fun s p => (s.slotsOf p.1).foldl (fun s i => s.haltWord p.1 i) s) s

/-- HALT (R59, R61, R297): every block stops and its exit status words are written; the record is kept for readback and
posted as an event. -/
def execHalt (s : State) : Host.Outcome State Fault Refusal :=
  let s := s.haltWords
  match s.recordedFault with
  | none => .next { s with sch := { s.sch with phase := .halt, active := false } }
  | some f =>
    let path := match s.resolve f with | .halt n => n | _ => 0
    let r := s.haltRecord f path
    let s := { s with sch := { s.sch with phase := .halt, active := false, haltRec := r, haltPath := some path } }
    .next (s.event evHalt (smWrite [] 0 (bytesOf 32 r.toNat)) 0 0)

/-- The row that ends a resynchronisation. -/
def State.resyncRow (s : State) : Instr :=
  match s.recordedFault with
  | none => .replay
  | some f => match s.resolve f with | .replay => .replay | .alternate _ => .alternate | .halt _ => .halt

/-! ## Power phases and requested alternates -/

/-- One power phase: the core's islands and its trio's slope limit (R40, R108, R319). -/
def State.powerEntry (s : State) (p : Part) (i : Nat) : State :=
  let o := (p.section 7).1 + 16 * i
  let c := smNat p.img (o + 8) 2
  let s := s.modCore c fun k => { k with islands := BitVec.ofNat 4 (smNat p.img (o + 10) 1) }
  { s with slope := aSet s.slope (trioOf c) (BitVec.ofNat 16 (smNat p.img (o + 12) 2)) }

/-- The power phases of a frame. -/
def Part.powerAt (p : Part) (frame : Nat) : List Nat :=
  (List.range (p.section 7).2.1).filter fun i => smNat p.img ((p.section 7).1 + 16 * i) 8 == frame

/-- POWER_PHASE (R319): the phases of the running frame, in section order. -/
def execPowerPhase (s : State) : Host.Outcome State Fault Refusal :=
  match s.part with
  | none => .next s
  | some p => .next ((p.powerAt s.frame).foldl (fun s i => s.powerEntry p i) s)

/-- Noting a request for an alternate (R321): idle takes precedence over cool. -/
def State.requestAlt (s : State) (idle : Bool) (frame : Nat) : State :=
  match s.sch.altReq with
  | some (true, _) => s
  | some (false, _) => if idle then { s with sch := { s.sch with altReq := some (true, frame) } } else s
  | none => { s with sch := { s.sch with altReq := some (idle, frame) } }

/-- ALTERNATE_REQUEST (R321): a member's request in its timing flit of the running frame. -/
def execAlternateRequest (member : Nat) (idle : Bool) (s : State) : Host.Outcome State Fault Refusal :=
  if s.isAbsent member then .next s
  else .next ({ s with plat := { s.plat with coolSlice := false } }.requestAlt idle s.frame)

end Sys2Proof.Machine
end

