-- ==== Sys2Proof/Machine/Install.lean ====
section
/-! DEFINITION. INSTALL (R39 to R47, R53, R259, R266, R267, R314): the checks of a part, in the order of their codes. -/

namespace Sys2Proof.Machine
open Sys2Proof

/-- The part at a device address, as memory holds it (R39). -/
def State.partAt (s : State) (base : Nat) : Part :=
  let len := smNat s.mem (base + 0x20) 8
  { base := base, img := (s.mem.filter fun p => base ≤ p.1 && p.1 < base + len).map fun p => (p.1 - base, p.2) }

/-- A header field. -/
def Part.hdr (p : Part) (o n : Nat) : Nat := smNat p.img o n

/-- Entry sizes of the sections (R40); the share table's is its own. -/
def entrySizes : List Nat := [16, 32, 0, 16, 2048, 32, 16, 16, 8, 32]

/-- Entry counts that R40, R45 to R47 fix: slack declarations, slot maps, alternates, replay policy. -/
def entryCounts : List (Nat × Nat) := [(3, 8), (4, 8), (8, 10), (9, 1)]

/-- The section directory (R39): aligned, within the part, of the sizes and counts of R40. -/
def Part.sectionsOk (p : Part) : Bool :=
  let len := p.hdr 0x20 8
  ((List.range 10).zip entrySizes).all (fun k =>
    let x := p.section k.1
    x.1 % 64 == 0 && 256 ≤ x.1 && x.1 ≤ len && (k.1 == 2 || (x.2.2 == k.2 && x.1 + (if k.1 = 1 then 1536 * 8 else 0) + x.2.1 * k.2 ≤ len)))
  && entryCounts.all fun k => (p.section k.1).2.1 == k.2

/-- The replay policy (R47), its reserved fields ignored (R5, log entry 30). -/
def Part.policyOk (p : Part) : Bool :=
  let o := (p.section 9).1
  let f (k n : Nat) : Nat := smNat p.img (o + k) n
  within 8 256 (f 0 2) && (List.range 4).all (fun k => f 2 2 / 16 ^ k % 16 ≤ 2) && f 4 1 % 16 ≤ 2

/-- Whether the launch entries of a core keep R41: class and record alignment; reserved fields are ignored (R5, log entry 30). -/
def Part.entriesOk (p : Part) (c : Nat) : Bool :=
  (List.range (p.coreEntries c).2).all fun i =>
    let e := p.entry c i
    e.cls ≤ 3 && e.recAt.toNat % 128 == 0 && e.asid < 4096

/-- The limits of the slack declarations, the residency list and the power phases (R40, R45): a residency entry's base is
aligned to its page size. Reserved fields are ignored (R5, log entry 30). -/
def Part.listsOk (p : Part) : Bool :=
  (List.range 8).all (fun d =>
    smNat p.img ((p.section 3).1 + 16 * d + 2) 1 ≤ 1)
  && (List.range (p.section 6).2.1).all (fun i =>
    let o := (p.section 6).1 + 16 * i
    let code := smNat p.img (o + 14) 1
    code ≤ 2 && smNat p.img o 8 % residentSize code == 0)
  && (List.range (p.section 7).2.1).all fun i =>
    let o := (p.section 7).1 + 16 * i
    smNat p.img (o + 8) 2 < 1536

/-- Whether the slices of a main part carry stands-for 0xFFFF (R40). -/
def Part.standsOk (p : Part) : Bool := (List.range p.sliceCount).all fun i => p.sliceStands i == 0xFFFF

/-- BADHDR: the header, the directory and the fields whose other values reject (R39, R40, R41, R45, R47). Which code answers
a breach that the table of R53 does not name is the model's choice: it is BADHDR (DESIGN CHOICE, log entry 31). Reserved
fields are ignored (log entry 30). -/
def Part.headerBad (p : Part) (pkgid : Nat) (alternate : Bool) : Bool :=
  !(p.base % 4096 == 0 && p.hdr 0 4 == 0x44524341 && p.hdr 4 2 == 1 && p.hdr 6 2 % 2 == (if alternate then 1 else 0)
    && p.hdr 0x10 2 == pkgid && within 1 256 (p.hdr 0x12 2) && p.hdr 0x14 4 == 2048 && p.hdr 0x18 8 % 2048 == 0
    && (alternate || p.standsOk) && p.sectionsOk && p.policyOk && p.listsOk && (List.range 1536).all p.entriesOk)

/-- The cycles of a slice: first Accord time, and the first after it. -/
def Part.sliceSpan (p : Part) (i : Nat) : Nat × Nat := (2048 * p.sliceFirst i, 2048 * (p.sliceFirst i + p.sliceFrames i))

/-- Whether a list of numbers does not fall. -/
def rising : List Nat → Bool
  | x :: y :: l => x ≤ y && rising (y :: l)
  | _ => true

/-- The launch entries of a core, the ones that LAUNCH may fill among them: R53 checks each. -/
def Part.entriesOf (p : Part) (c : Nat) : List LEntry := (List.range (p.coreEntries c).2).map (p.entry c)

/-- ORDER: slices, launch entries, and fire times past their slices (R40, R41, R53). No check of R53 names a slice's share pattern
index beyond the share table or a core index beyond the entry count, and none is made (DESIGN CHOICE, log entry 50). -/
def Part.orderBad (p : Part) : Bool :=
  let n := p.sliceCount
  n == 0 || 2048 * p.sliceFirst 0 != p.hdr 0x18 8
    || (List.range n).any (fun i =>
      !within 1 (2 ^ 20) (p.sliceFrames i) || (i + 1 < n && p.sliceFirst (i + 1) != p.sliceFirst i + p.sliceFrames i))
    || (List.range 1536).any fun c =>
      !rising ((p.entriesOf c).map fun e => e.fire)
        || (p.entriesOf c).any fun e => n ≤ e.slice || (p.sliceSpan e.slice).2 ≤ e.fire

/-- The lines a stack may move in a period: 24,000, or 19,200 when it was trained by the alternate method (R43, R314). -/
def State.stackLines (s : State) (d : Nat) : Nat := if s.plat.stackAlt.getLsbD d then 19200 else 24000

/-- The shares of a stack in a pattern period. -/
def Part.shareSum (p : Part) (at_ q d : Nat) : Nat :=
  ((p.img.filter fun e =>
    let lo := at_ + 16 + q * patternPeriod + d * 1538 * 2
    lo ≤ e.1 && e.1 < lo + 1538 * 2).map fun e => e.2.toNat * if (e.1 - at_) % 2 = 0 then 1 else 256).foldl (fun n x => n + x) 0

/-- OVERSHARE (R43): some stack's shares exceed its lines; a period count outside 1 to 64, whose shares cannot be summed,
gives the same code (DESIGN CHOICE, log entry 31). -/
def State.overshare (s : State) (p : Part) : Bool :=
  (List.range (p.section 2).2.1).any fun k =>
    let at_ := patternOffset p.img (p.section 2).1 k
    let n := smNat p.img at_ 4
    !within 1 64 n || (List.range n).any fun q => (List.range 8).any fun d => s.stackLines d < p.shareSum at_ q d

/-- A slot-map entry: kind and index (R46). -/
def Part.slotEntry (p : Part) (plane n : Nat) : Nat × Nat :=
  let x := smNat p.img ((p.section 4).1 + 2048 * plane + 2 * n) 2
  (x / 2 ^ 13, x % 2 ^ 13)

/-- Where the reserve of a map begins: its highest-numbered run of reserve slots. -/
def Part.reserveFrom (p : Part) (plane : Nat) : Nat :=
  1024 - ((List.range 1024).reverse.takeWhile fun n => (p.slotEntry plane n).1 == 5).length

/-- Whether one slot entry breaks R46 or R259. A timing slot other than slot 0 is refused: R46 asks for one in slot 0 and does not say
whether others may be (DESIGN CHOICE, log entry 75). -/
def Part.slotBad (p : Part) (plane n : Nat) : Bool :=
  let e := p.slotEntry plane n
  match e.1 with
  | 0 => e.2 != 0
  | 1 => false
  | 2 => 512 ≤ e.2 || !within 1 942 n
  | 3 => (p.section 5).2.1 ≤ e.2
  | 4 => e.2 != 0 || n != 0
  | 5 => e.2 != 0 || n < p.reserveFrom plane
  | _ => true

/-- Whether a collective entry breaks R266 or R267. -/
def Part.collBad (p : Part) (i : Nat) : Bool :=
  let f := p.collField i
  let planes := planesOf (f 16 1)
  let kind := f 1 1 / 16
  let comb := f 1 1 % 16
  let slots := (List.range (f 14 2)).map fun k => f 12 2 + k
  63 < f 0 1 || 2 < kind || 12 < comb || (kind != 0 && comb != 0)
    || f 28 4 % 64 != 0 || !within 64 1048576 (f 28 4) || f 14 2 * planes.length * 192 < f 28 4
    || slots.any fun n => !within 1 942 n || planes.any fun q => p.slotEntry q n != (3, i)

/-- SLOTMAP (R46, R259, R266, R267). -/
def Part.slotmapBad (p : Part) : Bool :=
  (List.range 8).any (fun q =>
    (p.slotEntry q 0).1 != 4 || 1024 < p.reserveFrom q + smNat p.img (p.section 9).1 2
      || (List.range 1024).any fun n => p.slotBad q n)
  || (List.range (p.section 5).2.1).any p.collBad

/-- LATE within a part (R53): a launch entry too early in its slice, a collective that would land after its slice. -/
def Part.lateBad (p : Part) : Bool :=
  (List.range 1536).any (fun c => (p.entriesOf c).any fun e => e.fire < (p.sliceSpan e.slice).1 + 8192)
    || (List.range (p.section 5).2.1).any fun i =>
      let sl := p.collField i 4 4
      p.sliceCount ≤ sl || p.sliceFrames sl ≤ p.collField i 8 4 + 1

/-- The alternates a part names, by index (R40). -/
def State.altsOf (s : State) (p : Part) : List (Nat × Part) :=
  (List.range 10).filterMap fun n =>
    let a := smNat p.img ((p.section 8).1 + 8 * n) 8
    if a = 0 then none else some (n, s.partAt a)

/-- NOALT (R53): a selector names the cool alternate and it is absent. -/
def Part.noAlt (p : Part) (alts : List (Nat × Part)) : Bool :=
  [SCause.slack, .fslack, .stall, .vote, .clock].any fun c => p.selector c == 1 && !(alts.any fun a => a.1 == 8)

/-- The code of R53 for a part whose first slice is to start at an Accord time: the lowest that applies. While the dies are in
reset no image can be read, which is BADHDR (R311, log entry 66). -/
def State.installCode (s : State) (p : Part) (t : Nat) : Nat :=
  let alts := s.altsOf p
  if !s.released || p.headerBad s.sch.pkgid false || alts.any (fun a => a.2.headerBad s.sch.pkgid true) || p.hdr 0x18 8 != t then 1
  else if p.orderBad || alts.any (fun a => a.2.orderBad) then 2
  else if s.overshare p || alts.any (fun a => s.overshare a.2) then 3
  else if p.slotmapBad || alts.any (fun a => a.2.slotmapBad) then 4
  else if t < s.accord + 4 * 2048 || p.lateBad || alts.any (fun a => a.2.lateBad) then 5
  else if p.noAlt alts then 6
  else 0

/-- INSTALL (R53): an accepted part waits for the first slice boundary at or after its time, in the place of one that waits already
(DESIGN CHOICE, log entry 73). -/
def execInstall (s : State) : Host.Outcome State Fault Refusal :=
  let t := s.req 0x10 8
  let p := s.partAt (s.req 8 8)
  let code := s.installCode p t
  if code ≠ 0 then .next (s.respond code [])
  else .next ({ s with sch := { s.sch with pending := some (p, s.altsOf p, t) } }.respond 0 [])

end Sys2Proof.Machine
end

