-- ==== Sys2Proof/Machine/Keccak.lean ====
section
/-! DEFINITION. SHAKE256 (R316): the digest of the running image, as FIPS 202 gives the function (PRESUMED, log entry 10). -/

namespace Sys2Proof.Machine
open Sys2Proof

/-- The 25 lanes of the permutation's state, lane x + 5·y. -/
abbrev Lanes := List (BitVec 64)

/-- A lane. -/
def Lanes.at_ (a : Lanes) (x y : Nat) : BitVec 64 := a.getD (x % 5 + 5 * (y % 5)) 0

/-- Lanes from a function of x and y. -/
def lanesOf (f : Nat → Nat → BitVec 64) : Lanes := (List.range 25).map fun i => f (i % 5) (i / 5)

/-- Rotations of the lanes. -/
def laneTurns : List Nat := [0, 1, 62, 28, 27, 36, 44, 6, 55, 20, 3, 10, 43, 25, 39, 41, 45, 15, 21, 8, 18, 2, 61, 56, 14]

/-- Constants of the 24 rounds. -/
def roundConsts : List (BitVec 64) :=
  [0x0000000000000001, 0x0000000000008082, 0x800000000000808A, 0x8000000080008000, 0x000000000000808B, 0x0000000080000001,
   0x8000000080008081, 0x8000000000008009, 0x000000000000008A, 0x0000000000000088, 0x0000000080008009, 0x000000008000000A]
  ++ [0x000000008000808B, 0x800000000000008B, 0x8000000000008089, 0x8000000000008003, 0x8000000000008002, 0x8000000000000080,
   0x000000000000800A, 0x800000008000000A, 0x8000000080008081, 0x8000000000008080, 0x0000000080000001, 0x8000000080008008]

/-- One round: the column parities, the turns and moves of the lanes, the nonlinear step, the constant. -/
def keccakRound (a : Lanes) (rc : BitVec 64) : Lanes :=
  let col (x : Nat) : BitVec 64 := (List.range 5).foldl (fun m y => m ^^^ a.at_ x y) 0
  let cols := (List.range 5).map col
  let mixed := lanesOf fun x y => a.at_ x y ^^^ cols.getD ((x + 4) % 5) 0 ^^^ (cols.getD ((x + 1) % 5) 0).rotateLeft 1
  let moved := lanesOf fun x y =>
    let x0 := (x + 3 * y) % 5
    (mixed.at_ x0 x).rotateLeft (laneTurns.getD (x0 + 5 * x) 0)
  lanesOf fun x y =>
    let z := moved.at_ x y ^^^ (~~~(moved.at_ (x + 1) y) &&& moved.at_ (x + 2) y)
    if x = 0 ∧ y = 0 then z ^^^ rc else z

/-- The permutation. -/
def keccak (a : Lanes) : Lanes := roundConsts.foldl keccakRound a

/-- A message with the padding of SHAKE, in blocks of 136 bytes. -/
def shakePad (m : List Byte) : List Byte :=
  let q := 136 - m.length % 136
  m ++ if q = 1 then [0x9F] else 0x1F :: (List.replicate (q - 2) 0 ++ [0x80])

/-- Absorbing blocks of 136 bytes, n of them. -/
def absorb : Nat → List Byte → Lanes → Lanes
  | 0, _, a => a
  | n + 1, bs, a =>
    let word (i : Nat) : BitVec 64 := if i < 17 then BitVec.ofNat 64 (leOf ((bs.drop (8 * i)).take 8)) else 0
    absorb n (bs.drop 136) (keccak (lanesOf fun x y => a.at_ x y ^^^ word (x + 5 * y)))

/-- The first n bytes of SHAKE256, at most one block of them. -/
def shake256 (m : List Byte) (n : Nat) : List Byte :=
  let p := shakePad m
  ((absorb (p.length / 136) p (List.replicate 25 0)).flatMap fun w => bytesOf 8 w.toNat).take n

end Sys2Proof.Machine
end

