-- ==== Sys2Proof/Machine/Platform.lean ====
section
/-! DEFINITION. Bring-up, temperature and readback (R311 to R324): firmware, boot steps, resets, attestation, the thermal levels, snapshots, and the reads of BAR0. -/

namespace Sys2Proof.Machine
open Sys2Proof

/-! ## Boot (R311 to R315) -/

/-- Writing the status of a boot step. -/
def Platform.setStatus (p : Platform) (step st : Nat) : Platform := { p with status := aSet p.status step st }

/-- The status of a step. -/
def Platform.statusOf (p : Platform) (step : Nat) : Nat := (aGet p.status step).getD 0

/-- Whether a step is complete by either method (R313). -/
def Platform.complete (p : Platform) (step : Nat) : Bool := p.statusOf step == 1 || p.statusOf step == 2

/-- A BOOT event (R282). -/
def State.bootEvent (s : State) (step : Nat) : State :=
  s.event evBoot (smWrite [] 0 (bytesOf 2 (step + 256 * s.plat.statusOf step))) 0 0

/-- The planes that training has left, with the plane map of R256. -/
def State.planesUp (s : State) (down : BitVec 8) : State :=
  let s := { s with sch := { s.sch with planes := ~~~down } }
  { s with sch := { s.sch with planeMap := s.remapped } }

/-- What a step finds: its status, and the platform and schedule it leaves. -/
def State.bootStep (s : State) (f : BootFindings) (step : Nat) : State :=
  let p := s.plat
  let mask (w : Nat) (l : List Nat) : BitVec w := BitVec.ofNat w (l.foldl (fun n k => n ||| 2 ^ k) 0)
  match step with
  | 4 =>
    let st := if !f.hbmFail.isEmpty then 4 else if f.hbmSlow.isEmpty then 1 else 2
    { s with plat := { p with stackAlt := mask 8 f.hbmSlow }.setStatus 4 st }
  | 5 =>
    let twice := f.badTrios.any fun x => 1 < (f.badTrios.filter fun y => y.1 == x.1).length
    { s with plat := { p with fenced := f.badTrios }.setStatus 5 (if twice then 4 else if f.badTrios.isEmpty then 1 else 2) }
  | 6 => { s with plat := { p with portDown := mask 16 f.badPorts }.setStatus 6 (if f.badPorts.isEmpty then 1 else 2) }
  | 7 =>
    let down := mask 8 f.badPlanes
    { s with plat := { p with planeDown := down }.setStatus 7 (if f.badPlanes.isEmpty then 1 else 2) }.planesUp down
  | 8 =>
    match f.podTick with
    | some t => { s with plat := p.setStatus 8 1, sch := { s.sch with tick := t, locked := true } }
    | none => { s with plat := p.setStatus 8 3 }
  | 9 => { s with plat := p.setStatus 9 1 }.event evReady [] 0 0
  | _ => s

/-- A step that is skipped: the results it recorded stand (R313), the live planes and the lock to the reference among them. -/
def State.bootSkip (s : State) (step : Nat) : State :=
  if step = 7 then s.planesUp s.plat.planeDown
  else if step = 8 then { s with sch := { s.sch with locked := true } }
  else s

/-- Running the steps of a list: those already complete are skipped, and the first that fails ends the boot (R313). -/
def State.bootFrom (s : State) (f : BootFindings) : List Nat → State
  | [] => s
  | n :: l =>
    if n ≠ 9 && s.plat.complete n then (s.bootSkip n).bootFrom f l
    else
      let s := s.bootStep f n
      if s.plat.complete n then { s with plat := { s.plat with step := n + 1 } }.bootFrom f l
      else { s with plat := { s.plat with step := n } }.bootEvent n

/-- Steps 1 and 2 (R312, R283), with what the host sets in configuration space, the size of BAR2 and the Page Request
allocation (R277, R278, log entry 35); step 3 waits for the firmware. -/
def State.bootHead (s : State) (f : BootFindings) : State :=
  let p := { s.plat with powered := f.rails, findings := some f }
  if !f.rails then { s with plat := { p.setStatus 1 3 with step := 1 } }.bootEvent 1
  else if !f.link then { s with plat := { (p.setStatus 1 1).setStatus 2 3 with step := 2 } }.bootEvent 2
  else
    let flit := if 6 ≤ f.gen then 512 else 0
    { s with
      plat := { (p.setStatus 1 1).setStatus 2 1 with step := 3 }
      host := { s.host with
        hlstat := BitVec.ofNat 64 (f.gen % 16 + 16 * (f.width % 32) + flit)
        barLog := if within 30 39 f.barLog then f.barLog else 30
        priMax := f.priMax } }

/-- POWER_ON (R312, R313): the boot-step record is cleared, and boot runs to step 3. -/
def execPowerOn (f : BootFindings) (s : State) : Host.Outcome State Fault Refusal :=
  let plat := { Platform.reset with minVersion := s.plat.minVersion }
  .next (({ State.reset with plat := plat, inputs := s.inputs, upsets := s.upsets, arrivals := s.arrivals, pages := s.pages }).bootHead f)

/-- WARM_RESET (R313): steps 1 to 3 run again; the always-on record and package memory stay (log entry 28). No plane is live and
no reference locked until the firmware is verified (R311) and the steps that follow have run or stand. Where the step of pod join
then stands, the pod tick has counted on and the replay offset is 0 as after any reset (R33), so Accord time jumps by the offset
that was: the spec does not say what becomes of it (DESIGN CHOICE, log entry 36). -/
def execWarmReset (f : BootFindings) (s : State) : Host.Outcome State Fault Refusal :=
  let plat := { s.plat with warm := s.plat.warm + 1, image := [], imageLen := 0, running := [], runLen := 0 }
  let t := { State.reset with
    plat := plat.setStatus 3 0, inputs := s.inputs, upsets := s.upsets, arrivals := s.arrivals, pages := s.pages, mem := s.mem, tags := s.tags, badLines := s.badLines
    sch := { Sched.reset with tick := s.sch.tick, pkgid := s.sch.pkgid, source := s.sch.source } }
  .next (t.bootHead f)

/-! ## Firmware (R311, R281) -/

/-- Bytes of the firmware's signature. -/
def signatureLen : Nat := 29792

/-- Whether a whole image may run (R311): its header, its length, its signature, its version. -/
def Platform.imageOk (p : Platform) : Bool :=
  let payload := smNat p.image 8 4
  smNat p.image 0 4 == 0x574D524A && payload ≤ 2 ^ 26 && p.imageLen == 64 + payload + signatureLen
    && p.minVersion ≤ smNat p.image 4 4 && Config.signatureOk (smBytes p.image 0 p.imageLen)

/-- The image with the chunk that the payload area holds. -/
def State.chunkedImage (s : State) : SMap 8 :=
  smWrites s.plat.image ((s.host.payload.filter fun e => e.1 < s.req 0xC 4).map fun e => (s.req 8 4 + e.1, e.2))

/-- Whether a chunk has a wrong offset or length, or the image would exceed its header's length. -/
def State.chunkBad (s : State) : Bool :=
  let off := s.req 8 4
  let len := s.req 0xC 4
  off != s.plat.imageLen || !within 1 (2 ^ 24) len
    || (12 ≤ off + len && 64 + smNat s.chunkedImage 8 4 + signatureLen < off + len)

/-- FWLOAD (R311, R281): the chunk is taken; after the last one the image is verified, and boot goes on. -/
def execFwload (s : State) : Host.Outcome State Fault Refusal :=
  let off := s.req 8 4
  let len := s.req 0xC 4
  if s.chunkBad then .next (s.respond 2 [])
  else
    let p := { s.plat with image := s.chunkedImage, imageLen := off + len }
    if s.req 0x10 4 % 2 = 0 then .next ({ s with plat := p }.respond 0 [])
    else if !p.imageOk then .next ({ s with plat := { p with image := [], imageLen := 0 } }.respond 1 [])
    else
      let q : Platform := { p with image := [], imageLen := 0, running := p.image, runLen := p.imageLen, version := smNat p.image 4 4 }
      let s := ({ s with plat := q.setStatus 3 1 }).respond 0 []
      if q.step ≠ 3 then .next s
      else match q.findings with
        | some f => .next (s.bootFrom f [4, 5, 6, 7, 8, 9])
        | none => .next s

/-- The boot-step record of 64 bytes (R315). -/
def Platform.bootRecord (p : Platform) : List Byte :=
  let fence (d : Nat) : Nat := match p.fenced.find? fun x => x.1 == d with | some x => 128 + x.2 % 64 | none => 0
  bytesOf 4 p.warm ++ (List.range 9).flatMap (fun k => bytesOf 1 (p.statusOf (k + 1)))
    ++ bytesOf 1 p.stackAlt.toNat ++ bytesOf 1 p.planeDown.toNat ++ bytesOf 1 0 ++ bytesOf 2 p.portDown.toNat
    ++ (List.range 8).flatMap (fun d => bytesOf 1 (fence d)) ++ bytesOf 2 0
    ++ bytesOf 4 p.cutT.toNat ++ bytesOf 8 p.cutTime.toNat ++ bytesOf 1 (if p.saveIncomplete then 1 else 0) ++ bytesOf 23 0

/-- The generation of the installed Accord. -/
def State.generation (s : State) : Nat := match s.sch.main with | some p => p.hdr 8 8 | none => 0

/-- ATTEST (R316, R281): the message and its signature in the payload area. -/
def execAttest (s : State) : Host.Outcome State Fault Refusal :=
  let nonce := (List.range 32).map fun k => smGet s.host.req (8 + k)
  let digest := shake256 (smBytes s.plat.running 0 s.plat.runLen) 64
  let msg := nonce ++ digest ++ bytesOf 4 s.plat.minVersion ++ bytesOf 8 s.generation ++ s.plat.bootRecord
  let all := msg ++ bytesOf signatureLen (Config.sign msg).toNat
  .next ({ s with host := { s.host with payload := smWrite s.host.payload 0 all } }.respond 0 (bytesOf 4 all.length))

/-! ## Temperature (R320 to R322) -/

/-- The level of a package temperature in units of 1/16 degree; 4 is Trip (R320). -/
def levelOf (t : Nat) : Nat :=
  if 120 * 16 ≤ t then 4 else if 112 * 16 ≤ t then 3 else if 105 * 16 ≤ t then 2 else if 95 * 16 ≤ t then 1 else 0

/-- The cores that hold loose blocks. -/
def State.looseCores (s : State) : List Nat := (s.cores.map (·.1)).filter s.looseCore

/-- The emergency save: a stop of every loose block, or ALERT 6 (R320). -/
def State.emergency (s : State) (first : Bool) : State :=
  match s.host.emerg with
  | none => if first then s.alert 6 1 0xFF 0xFF else s
  | some (base, stride, limit) =>
    if s.host.cut.isSome || s.looseCores.isEmpty then s
    else
      let k : Cut := ⟨s.looseCores, s.maxStep s.looseCores + 1, base, stride, s.now + 2048 * limit, false, false⟩
      { s with host := { s.host with cut := some k } }

/-- This member's own request, sent in the timing flits of the next frame (R321). -/
def State.askAlt (s : State) (idle : Bool) : State :=
  let s := s.requestAlt idle (s.frame + 1)
  { s with sch := { s.sch with request := some (idle, s.frame + 1) } }

/-- Requesting the cool alternate in the next frame, or ALERT 5 without one (R321). -/
def State.requestCool (s : State) : State :=
  if (aGet s.sch.alts 8).isSome then s.askAlt false else s.alert 5 1 0xFF 0xFF

/-- Core power is removed; a save that is not complete is marked (R322). -/
def State.trip (s : State) : State :=
  let saving := s.ops.any fun o => match o.done with | .save _ => true | _ => false
  { s with plat := { s.plat with powered := false, saveIncomplete := s.plat.saveIncomplete || s.host.cut.isSome || saving } }

/-- Whether a request is to be made at Warm: as the level is reached, and later where none stands and there is a cool alternate, as
after a reset or under a part that has taken effect since (R320, R321). -/
def State.asksCool (s : State) (old : Nat) : Bool := old < 1 || (s.sch.altReq.isNone && (aGet s.sch.alts 8).isSome)

/-- Whether the idle alternate has been requested. -/
def State.idleAsked (s : State) : Bool := match s.sch.altReq with | some (idle, _) => idle | none => false

/-- The actions of a level, then the emergency save (R320). -/
def State.thermal (s : State) (old new : Nat) : State :=
  let s := if 1 ≤ new && s.asksCool old then s.requestCool else s
  let s := if 2 ≤ new && (old < 2 || !s.idleAsked) then s.askAlt true else s
  let s := if 3 ≤ new then s.emergency (old < 3) else s
  if 4 ≤ new then s.trip else s

/-- What the 32 sensors showed when they were last read. -/
def State.readings (s : State) : List Nat := (List.range 32).map fun i => (smGet s.plat.sensors i).toNat

/-- Whether a slice of the main part would start in the running frame while an idle alternate runs: a slice of cool
temperatures can begin there (R321). -/
def State.coolFrom (s : State) : Bool :=
  (s.sch.inForce == .idle || (s.sch.inForce == .alt 9 && s.sch.ended)) && !s.sch.active && s.mainStart.isSome

/-- What the other members' temperatures are is not known here: while an alternate is asked for, whether each has stayed below
90 degrees is a free value (R321, log entry 33). -/
def State.othersCool (s : State) : Bool × State :=
  if s.sch.altReq.isSome && !s.voters.isEmpty then let r := s.draw; (r.1.getLsbD 0, r.2) else (true, s)

/-- The sensors as read in a frame, sensor i of die d at 4·d + i, with the level and the thermal record (R320, R324). A reading at a
boundary, before its slice starts, counts for the slice that starts (R321). -/
def State.readSensors (s : State) (readings : List Nat) (top : Nat) (others : Bool) : State :=
  let new := levelOf top
  let p := s.plat
  let cool := others && decide (top < 90 * 16)
  let sensors : List (Nat × BitVec 16) := readings.zipIdx.map fun x => (x.2, BitVec.ofNat 16 x.1)
  { s with plat := { p with
    sensors := smWrites [] sensors
    level := if new = 4 then 3 else new
    tempFrame := s.frame
    levelFrame := if new = p.level then p.levelFrame else s.frame
    warmFrames := if 1 ≤ new then p.warmFrames + 1 else p.warmFrames
    coolSlice := if s.sch.voted then p.coolSlice else (p.coolSlice || s.coolFrom) && cool
    coolFrame := cool } }

/-- TEMPERATURE_READ (R320, R324): the 32 sensors are read once, in the first cycle of a frame. -/
def execTemperatureRead (readings : List Nat) (s : State) : Host.Outcome State Fault Refusal :=
  if s.frameCycle ≠ 0 || readings.length ≠ 32 || s.marked markTemp then .next s
  else
    let top := readings.foldl (fun m x => if m < x then x else m) 0
    let r := (s.mark markTemp).othersCool
    .next ((r.2.readSensors readings top r.1).thermal s.plat.level (levelOf top))

/-! ## Readback (R317, R318, R324) -/

/-- The register file of a core, words by allotment (R20, log entry 29): for each strand slot the current allotment, then
the other: vector registers, scalars, statistics. -/
def Core.regSpace (k : Core) : List Byte :=
  let one (r : Regs) : List Byte := r.vectorBytes 0 r.nv ++ r.scalarBytes ++ r.statBytes
  match k.shown with
  | none => []
  | some b => b.slots.flatMap fun st => one st.cur ++ (match st.alt with | some r => one r | none => [])

/-- The access counts of a page in 12 bytes, u16 each: this package's, then those of the first five others (log entry 29). -/
def HostIf.countField (h : HostIf) (pkg : Nat) (p : Page) : List Byte :=
  let l := h.countsOf p
  padTo 12 (bytesOf 2 ((aGet l pkg).getD 0) ++ ((l.filter fun x => x.1 != pkg).take 5).flatMap fun x => bytesOf 2 x.2)

/-- A translation entry in 32 bytes (log entry 29). -/
def TlbEntry.bytes (e : TlbEntry) (counts : List Byte) : List Byte :=
  let size := if e.page.size = 2 ^ 16 then 0 else if e.page.size = 2 ^ 21 then 1 else 2
  bytesOf 8 e.page.va ++ bytesOf 8 e.page.pa ++ bytesOf 2 e.page.asid ++ bytesOf 1 size ++ bytesOf 1 (if e.pinned then 1 else 0)
    ++ counts

/-- The schedule in force as readback names it (R324). -/
def Sched.inForceCode (s : Sched) : Nat :=
  match s.inForce with
  | .main => 0
  | .alt 9 => 2
  | .alt _ => 1
  | .idle => 3

/-- The thermal record of 128 bytes (R324). -/
def State.thermalRecord (s : State) : List Byte :=
  let p := s.plat
  let top := p.sensors.foldl (fun m x => if m < x.2.toNat then x.2.toNat else m) 0
  (List.range 32).flatMap (fun i => bytesOf 2 (smGet p.sensors i).toNat) ++ bytesOf 2 top ++ bytesOf 1 p.level
    ++ bytesOf 1 s.sch.inForceCode ++ bytesOf 4 0 ++ bytesOf 8 p.tempFrame ++ bytesOf 8 p.levelFrame ++ bytesOf 8 p.warmFrames ++ bytesOf 32 0

/-- Error counts of the eight dies in 256 bytes (R324). -/
def countBytes (m : SMap 32) : List Byte :=
  (List.range 8).flatMap fun d => (List.range 5).flatMap (fun k => bytesOf 4 (smGet m (8 * d + k)).toNat) ++ bytesOf 12 0

/-- A collective record of 1,024 bytes (R324). -/
def State.collRecord (s : State) (t : Nat) : List Byte :=
  let x := s.tree t
  let mine := s.fab.chunks.filter fun k => k.tree == t && s.sliceStart ≤ k.frame
  let st (c : Nat) : Nat := match mine.find? fun k => k.c == c with | some k => k.status.getD 0xFF | none => 0xFF
  bytesOf 4 (match x with | some x => if x.live then 1 else 0 | none => 0) ++ bytesOf 4 (match x with | some x => x.ranks.length | none => 0) ++ bytesOf 4 (mine.filter fun k => k.addr.isSome).length
    ++ bytesOf 4 0 ++ (List.range 1008).flatMap fun c => bytesOf 1 (st c)

/-- A core's Accord cursor (R41, R93): the place of the first of its entries, from the running slice on, that has not been consumed, nor,
where it is empty, passed. -/
def State.cursorOf (s : State) (c : Nat) : Nat :=
  let es := s.entries c s.now
  let done (e : LEntry) : Bool :=
    ((s.core c).adms.any fun a => a.key == s.key e.ix && a.stage == 9) || s.sch.consumed.contains (c, s.key e.ix) || (!e.valid && decide (e.fire < s.accord))
  (es.findIdx? fun e => decide (s.sch.slice ≤ e.slice) && !done e).getD es.length

/-- An allotment without its uncorrectable words, which read 0. -/
def Regs.hide (r : Regs) (bad : List BadReg) : Regs :=
  bad.foldl (fun r b =>
    if b.file = 0 then { r with v := smSet r.v (96 * b.index + b.thread) 0 }
    else if b.file = 1 then { r with s := smSet r.s b.index 0 }
    else { r with q := aDel r.q (96 * b.index + b.thread) }) r

/-- A strand without the uncorrectable words of its allotments. -/
def Strand.hide (st : Strand) (bad : List BadReg) : Strand :=
  { st with
    cur := st.cur.hide (bad.filter fun b => b.allot == st.curIx)
    alt := st.alt.map fun r => r.hide (bad.filter fun b => b.allot != st.curIx) }

/-- What readback shows of a core: words known to be bad do not leave the device (R288); they read 0 (log entry 65). -/
def Core.masked (k : Core) : Core :=
  { k.modShown (fun b => { b with slots := b.slots.zipIdx.map fun p => p.1.hide (k.badRegs.filter fun w => w.slot == p.2) }) with
    scratch := k.badScratch.foldl (fun m u => smWrite m (8 * u) (bytesOf 8 0)) k.scratch
    stags := k.badTags.foldl (fun m t => smSet m t 0) k.stags
    crown := k.badCrown.foldl (fun m u => smWrite m (8 * u) (bytesOf 8 0)) k.crown
    ctags := k.badCTags.foldl (fun m t => smSet m t 0) k.ctags }

/-- The contents of a space and index (R317) as bytes from offset 0; a core of a fenced trio reads as absent (R314). -/
def State.space (s : State) (sp ix : Nat) : List Byte :=
  let absent := sp < 5 && s.fencedCore ix
  if absent then []
  else
  let k := (s.core ix).masked
  match sp with
  | 0 => k.regSpace
  | 1 => match k.shown with
    | some b => pad64 (k.blockContext b false false []) ++ b.slots.flatMap fun st => pad64 (st.context (BitVec.ofNat 32 (2 ^ 32 - 1)))
    | none => []
  | 2 => smBytes k.scratch 0 scratchSize ++ wordsBytes ((List.range 4096).map fun i => smGet k.stags i)
  | 3 => (List.range 128).flatMap k.slotBytes
  | 4 => k.accBytes
  | 5 => (s.tlb.filter fun e => e.die == ix).flatMap fun e => e.bytes (s.host.countField s.sch.pkgid e.page)
  | 6 =>
    (List.range 192).flatMap (fun c => bytesOf 4 (s.cursorOf (192 * ix + c)))
      ++ bytesOf 8 s.sch.offset ++ bytesOf 8 s.now ++ bytesOf 32 s.sch.haltRec.toNat
  | 7 =>
    s.plat.bootRecord ++ s.thermalRecord ++ bytesOf 64 0 ++ countBytes s.plat.counts ++ countBytes s.plat.lastCounts ++ bytesOf 3328 0
      ++ (List.range 64).flatMap s.collRecord
  | _ => []

/-- The space and the index RBSEL names, and the offset of its view. -/
def HostIf.selected (h : HostIf) : Nat × Nat × Nat :=
  ((h.rbsel.extractLsb' 56 4).toNat, (h.rbsel.extractLsb' 45 11).toNat, (h.rbsel.extractLsb' 25 20).toNat * 2 ^ 25)

/-- What readback shows of the package as it stands. -/
def State.frozen (s : State) : Frozen := ⟨s.frame, s.cores, s.tlb, s.sch, s.plat, s.fab.trees, s.fab.chunks, s.host.pageCounts⟩

/-- The package as a snapshot shows it. -/
def State.thawed (s : State) (f : Frozen) : State :=
  { s with
    cores := f.cores
    tlb := f.tlb
    sch := f.sch
    plat := f.plat
    fab := { s.fab with trees := f.trees, chunks := f.chunks }
    host := { s.host with pageCounts := f.counts } }

/-- READBACK_SNAPSHOT (R318): the state of every space and index at the first cycle of the frame. -/
def execReadbackSnapshot (s : State) : Host.Outcome State Fault Refusal :=
  .next { s with host := { s.host with rbreq := none }, snap := some s.frozen }

/-- Whether a readback read returns the live state: the package is halted, or no block is resident (R318). -/
def State.liveReadback (s : State) : Bool := s.sch.phase == .halt || s.cores.all fun p => p.2.blk.isNone

/-- A byte of the readback window (R318). -/
def State.readbackByte (s : State) (off : Nat) : Byte :=
  let sel := s.host.selected
  let byte (t : State) : Byte := ((t.space sel.1 sel.2.1)[sel.2.2 + off]?).getD 0
  if s.liveReadback then byte s
  else match s.snap with | some f => byte (s.thawed f) | none => 0

/-- MBSTAT (R280): bit 2 shows whether MBLOST is not zero. -/
def HostIf.mbstat (h : HostIf) : BitVec 64 := (h.stat &&& ~~~4#64) ||| (if h.lost = 0 then 0 else 4#64)

/-- A byte of BAR0 as a host reads it (R279 to R284, R317). -/
def State.barByte (s : State) (off : Nat) : Byte :=
  let h := s.host
  let at_ (base x : Nat) : Byte := BitVec.ofNat 8 (x / 256 ^ (off - base))
  if off < 8 then 0
  else if off < 0x10 then at_ 8 h.mbstat.toNat
  else if off < 0x14 then at_ 0x10 h.evp.toNat
  else if 0x18 ≤ off ∧ off < 0x1C then at_ 0x18 h.evc.toNat
  else if 0x20 ≤ off ∧ off < 0x28 then at_ 0x20 h.lost.toNat
  else if 0x200 ≤ off ∧ off < 0x300 then smGet h.rsp (off - 0x200)
  else if 0x800 ≤ off ∧ off < 0x1000 then smGet h.evq (off - 0x800)
  else if 0x1000 ≤ off ∧ off < 0x1008 then at_ 0x1000 h.window
  else if 0x1008 ≤ off ∧ off < 0x1010 then at_ 0x1008 h.hlstat.toNat
  else if 0x10000 ≤ off ∧ off < 0x18000 then at_ (off / 8 * 8) (smGet h.pasid ((off - 0x10000) / 8)).toNat
  else if 0x20000 ≤ off ∧ off < 0x24000 then smGet h.rings (off - 0x20000)
  else if 0xF00000 ≤ off ∧ off < 0xF00008 then at_ 0xF00000 h.rbsel.toNat
  else if 0xF00008 ≤ off ∧ off < 0xF00010 then at_ 0xF00008 (match s.snap with | some f => 2 + 2 ^ 32 * (f.frame % 2 ^ 32) | none => 0)
  else if 0x1000000 ≤ off ∧ off < 0x3000000 then s.readbackByte (off - 0x1000000)
  else if 0x3000000 ≤ off ∧ off < 0x4000000 then smGet h.payload (off - 0x3000000)
  else 0

/-- A BAR0 read (R279): 4 or 8 bytes, aligned; any other reads 0. -/
def State.barRead (s : State) (off size : Nat) : BitVec 64 :=
  if (size = 4 ∨ size = 8) ∧ off % size = 0 then BitVec.ofNat 64 (leOf ((List.range size).map fun i => s.barByte (off + i))) else 0

end Sys2Proof.Machine
end

