-- ==== Sys2Proof/Machine/Schedule.lean ====
section
/-! DEFINITION. What happens next: the events due in the running cycle in their order, the inputs, and the end of a cycle (log entries 1, 6, 7, 8). -/

namespace Sys2Proof.Machine
open Sys2Proof

/-! ## Due events -/

/-- An event that is due, with the mark that it has occurred in the running cycle; 0 for one that ends its own cause. -/
abbrev Due := Nat × Instr

/-- The mark of the issue phase: no event of the first part of the cycle comes after an issue. -/
def markIssue : Nat := 0

/-- A mark of the running cycle for an event of a kind. -/
def markOf (kind arg : Nat) : Nat := 65536 * kind + arg + 2

/-- One event if a condition holds. -/
def dueIf (p : Bool) (mark : Nat) (i : Instr) : List Due := if p then [(mark, i)] else []

/-- Whether the schedule runs (R59). -/
def State.running (s : State) : Bool := s.sch.phase == .run

/-- Whether the running cycle is the first, or the last of a frame; the last of a memory period (R34). -/
def State.frameFirst (s : State) : Bool := s.frameCycle == 0
def State.frameLast (s : State) : Bool := s.frameCycle == 2047
def State.periodCycle (s : State) : Nat := s.accord % 1024
def State.commits (s : State) : Bool := s.running && s.periodCycle == 1023

/-- Schedule faults detected by now (R57, R58). -/
def State.dueFaults (s : State) : List Due := dueIf ((s.sch.raised.any fun f => dueBy f.tick s.now) || s.respsShort.isSome) 0 .faultDetection

/-- What a resynchronisation does at the start of a frame, and its end, once the frame of SYNC-B is over (R59). -/
def State.dueResync (s : State) : List Due :=
  let a := markOf 1 0
  (if s.frameFirst then
      dueIf (match s.abortTick with | some t => decide (t ≤ s.now) | none => false) 0 .abort
        ++ dueIf (s.sch.phase == .abort) a .syncA
        ++ dueIf (s.sch.phase == .syncA && !s.marked a) 0 .syncB
    else [])
    ++ if s.sch.phase == .syncB && s.sch.lastPhase == .syncB then [(0, s.resyncRow)] else []

/-- Whether a launch record names the fixed discipline, bit 7 of its mode 0 (R89), as memory holds it. -/
def State.namesFixed (s : State) (c : Nat) (e : LEntry) : Bool :=
  if 2 ^ 57 ≤ e.recAt.toNat then false
  else
    match s.pageKey c e.asid e.recAt.toNat {} with
    | .ok k => decide ((smGet s.mem (k + 13)).toNat < 128)
    | .error _ => false

/-- The cores that have launch entries in a part: those whose place in its index is not all zero. -/
def Part.launchCores (p : Part) : List Nat :=
  let o := (p.section 1).1
  dedupSorted ((p.img.filter fun e => o ≤ e.1 && e.1 < o + 8 * 1536).map fun e => (e.1 - o) / 8)

/-- The cores with launch entries in the part in force; an idle alternate fires none (R48). -/
def State.launchCores (s : State) : List Nat :=
  match s.part with
  | some p => if s.sch.inForce == .alt 9 then [] else p.launchCores
  | none => []

/-- Whether a migration window starts (R308): a slice without fixed work, or one of the idle alternate. -/
def State.windowStarts (s : State) : Bool :=
  let starts := s.sch.active && s.sch.sliceTick == s.now
  match s.sch.inForce with
  | .idle => true
  | .alt 9 => starts
  | _ =>
    starts && !s.fixedHere && !s.launchCores.any fun c =>
      (s.entries c s.now).any fun e => e.valid && e.slice == s.sch.slice && s.namesFixed c e

/-- The start of a frame (R40, R62, R265, R305, R308, R318, R319). -/
def State.dueFrame (s : State) : List Due :=
  if !s.frameFirst then []
  else
    ((s.fab.trees.filter fun t => t.due s.frame).map fun t => (markOf 3 t.id, .treeEffective t.id))
      ++ dueIf (s.sch.voted && s.running) 0 .sliceStart
      ++ dueIf (s.sch.active && (match s.part with | some p => !(p.powerAt s.frame).isEmpty | none => false)) (markOf 4 0) .powerPhase
      ++ dueIf (s.released && (!s.pages.isEmpty || !s.host.migMoved.isEmpty) && s.windowStarts) (markOf 5 0) .pageMigration
      ++ dueIf (!s.marked markTemp) 0 (.temperatureRead s.readings)
      ++ dueIf (match s.host.rbreq with | some t => decide (t < s.now) | none => false) 0 .readbackSnapshot

/-- The flits of a slot that starts (R251), refresh (R34, R45), and records that do not wait for a commit (R260). -/
def State.dueSlots (s : State) : List Due :=
  (if s.frameCycle % 2 = 0 then
      ((List.range 8).filter s.live).map fun p =>
        (markOf 6 p, if (s.slotUse p s.slotNow).1 = 4 then .timingFlit p else .flitSlot p)
    else [])
    ++ (if s.periodCycle = 960 then
      ((List.range 8).filter fun d =>
        match s.part.or s.sch.main with
        | some p => smNat p.img ((p.section 3).1 + 16 * d + 2) 1 == 1 || s.accord / 1024 % 8 == 0
        | none => true).map fun d => (markOf 7 d, .refresh d)
    else [])
    ++ (s.fab.home.filter recIsNow).map fun r => (0, rowOf r)

/-- The retries of the uncorrectable lines that column 1,536 reads in the running period (R55, log entry 13). -/
def State.dueRetries (s : State) : List Due :=
  if s.running && s.periodCycle = 1022 then s.ingressBad.map fun l => (markOf 40 l, .retryDetected (stackOf l) l true) else []

/-- The first part of a commit: the cores' columns, then the records of column 1,536 delivered in earlier frames. -/
def State.dueCommit (s : State) : List Due :=
  if !s.commits then []
  else
    dueIf (!s.marked markCommit) 0 .commit
      ++ ((recordOrder (s.fab.home.filter fun r => decide (r.frame < s.frame) && !recIsNow r && !recIsLoad r)).map fun r => (0, rowOf r))
      ++ if s.frameLast then (dedupSorted (s.endingChunks.map (·.tree))).map fun t => (markOf 8 t, .collectiveResult t) else []

/-- The end of a fabric period, the second part of a commit, and the reads of LOAD records at a frame's last commit (R37, R260). -/
def State.dueEnd (s : State) : List Due :=
  dueIf (s.frameLast && s.sch.phase != .fault) (markOf 9 0) .fabricPeriodCommit
    ++ dueIf s.commits (markOf 10 0) .commit
    ++ if s.commits && s.frameLast then
        (recordOrder (s.fab.home.filter recIsLoad)).map fun r => (0, rowOf r)
      else []

/-! ## Due events of a core -/

/-- Whether a register result, or a late fault, of a strand is due. -/
def Strand.resultDue (st : Strand) (now : Nat) : Bool :=
  st.pend.any (fun p => match p.land with | some t => dueBy t now | none => false) || st.late.any fun l => dueBy l.at_ now

/-- The landings of a core (R73, R142, R144, R146, R228, R237). -/
def State.dueLandings (s : State) (c : Nat) (k : Core) : List Due :=
  let row (n : Nat) : Bool := k.swr.any fun w => w.row == n && dueBy w.land s.now
  let strands := match k.blk with | some b => b.slots.any fun st => st.resultDue s.now | none => false
  dueIf (k.rings.any fun o => s.ringDo c o != .wait) (markOf 12 c) (.ringLanding c)
    ++ dueIf (row 3) (markOf 13 c) (.drainLanding c)
    ++ dueIf (row 4) (markOf 14 c) (.gatherStoreLanding c)
    ++ dueIf (k.fills.any fun f => dueBy f.land s.now) (markOf 15 c) (.crownFill c)
    ++ dueIf (strands || row 5 || k.vnt.any fun x => dueBy x.1 s.now) (markOf 16 c) (.resultLanding c)
    ++ dueIf ((k.accLands.any fun l => dueBy l.land s.now) || k.runs.any fun r => dueBy r.land s.now) (markOf 17 c) (.accumulatorLanding c)
    ++ dueIf (k.runs.any fun r => !r.delivered && match r.failed with | some f => decide (f < s.now) | none => false)
        (markOf 18 c) (.partnerFailure c)

/-- Whether a strand's departure, or the store of its exit word, is due (R109). -/
def Strand.departureDue (st : Strand) (now : Nat) : Bool :=
  match st.ended with
  | none => false
  | some e =>
    (!e.departed && dueBy (e.at_ + 4) now)
      || (!e.stored && match st.exitStoreAt with | some t => dueBy t now | none => false)

/-- Departures and clasp openings of a core (R104, R109). -/
def State.dueClasps (s : State) (c : Nat) (k : Core) : List Due :=
  match k.shown with
  | none => []
  | some b =>
    ((List.range b.slots.length).filter fun i => match b.slots[i]? with | some st => st.departureDue s.now | none => false).map
        (fun i => (markOf 19 (8 * c + i), Instr.strandDeparture c i))
      ++ dueIf ((k.claspQ.any fun q => dueBy q.land s.now) || b.clasps.any fun p => p.2.opens) (markOf 20 c) (.claspWaveRelease c)

/-- Whether a clasp wait of a strand has passed its deadline (R107). -/
def Strand.stallDue (st : Strand) (now : Nat) : Bool :=
  st.waits.any fun w => match w with | .clasp _ (some d) .. => dueBy d now | _ => false

/-- The clasp waits of a core that raise STALL. -/
def Core.dueStalls (c : Nat) (k : Core) (now : Nat) : List Due :=
  match k.blk with
  | none => []
  | some b => ((List.range b.slots.length).filter fun i => match b.slots[i]? with | some st => st.stallDue now | none => false).map
      fun i => (0, .stall c i)

/-- Whether the deadline of a strand's WAITA has come (R272). -/
def Strand.deadlineDue (st : Strand) (now : Nat) : Bool :=
  st.waits.any fun w => match w with | .waita _ _ _ _ (some t) .. => dueBy t now | _ => false

/-- The releases of one strand. -/
def State.dueRelease (s : State) (c i : Nat) (st : Strand) : List Due :=
  dueIf (st.deadlineDue s.now) (markOf 21 (8 * c + i)) (.waitaDeadline c i)
    ++ dueIf (st.waits.any fun w => match w with | .until t => decide (t ≤ s.accord) | _ => false) 0 (.untilRelease c i)
    ++ dueIf (st.waits.any (s.waitOver c st)) (markOf 22 (8 * c + i)) (.holdRelease c i)

/-- The releases of parked strands of a core (R74, R107, R272, R428). -/
def State.dueReleases (s : State) (c : Nat) (k : Core) : List Due :=
  match k.blk with
  | none => []
  | some b =>
    k.dueStalls c s.now
      ++ (List.range b.slots.length).flatMap fun i => match b.slots[i]? with | some st => s.dueRelease c i st | none => []

/-- Whether the exit cycle of a core's block is the running one (R109). -/
def Core.exits (k : Core) (now : Nat) : Bool :=
  match k.blk with
  | none => false
  | some b => b.exitAt.isNone && b.slots.all (fun st => st.ended.isSome) && k.quiet b now

/-- The life of blocks on a core (R93, R94, R96, R109). -/
def State.dueBlock (s : State) (c : Nat) (k : Core) : List Due :=
  let left := match k.blk with
    | none => false
    | some b => match b.exitAt with | some x => decide (x < s.now) | none => false
  dueIf left (markOf 23 c) (.blockExit c)
    ++ dueIf (k.resEnd != 0 && decide (k.resEnd ≤ s.accord)) 0 (.coreReservationEnd c)
    ++ dueIf (s.running && k.adms.any fun a => (s.stageDue a).isSome) (markOf 24 c) (.admissionStage c)
    ++ dueIf (s.running && s.fireDo c != .wait) 0 (.launchEntryFire c)
    ++ dueIf (match k.blk with | some b => b.start == s.now | none => false) (markOf 25 c) (.blockStart c)

/-- Cores whose cursor has entries to take up (R93). -/
def State.dueEntries (s : State) : List Due :=
  if !(s.running && s.sch.active) then []
  else (s.launchCores.filter fun c => !(s.newEntries c).isEmpty).map fun c => (markOf 24 c, .admissionStage c)

/-! ## Due events of the host link -/

/-- The mailbox, page walks, cuts and the scale-out engine (R275, R280, R300, R305). -/
def State.dueHost (s : State) : List Due :=
  let cutRuns := match s.host.cut with | some k => k.mailbox | none => false
  let rings := dedupSorted ((s.host.descs.filter fun d => d.tries == 0).map (·.ring))
  (if s.host.busy && !cutRuns then [(markOf 26 0, s.requestRow)] else [])
    ++ (s.walks.map fun w => (0, .pageWalkComplete w.1 w.2.1 w.2.2))
    ++ (match s.host.cut with
      | some k => dueIf (!k.saving && s.cutReady k) (markOf 27 0) .cutComplete
          ++ dueIf (!k.saving && decide (k.limit ≤ s.now)) (markOf 28 0) .stopLimitExpiry
      | none => [])
    ++ rings.flatMap fun i =>
        dueIf (s.nextDesc i 1).isSome (markOf 29 i) (.scaleoutPut i) ++ dueIf (s.nextDesc i 2).isSome (markOf 30 i) (.scaleoutGet i)

/-! ## The order of a cycle (log entry 6) -/

/-- The first of some groups with an event that has not occurred in this cycle. -/
def State.firstDue (s : State) : List (State → List Due) → Option Due
  | [] => none
  | g :: gs =>
    match (g s).find? fun e => e.1 == 0 || !s.marked e.1 with
    | some e => some e
    | none => s.firstDue gs

/-- Events over all listed cores. -/
def overCores (f : State → Nat → Core → List Due) (s : State) : List Due := s.cores.flatMap fun p => f s p.1 p.2

/-- What comes before the words of the cycle issue. -/
def earlyGroups : List (State → List Due) :=
  [State.dueFaults, State.dueResync, State.dueFrame, State.dueSlots, State.dueRetries, State.dueCommit, State.dueEnd,
   overCores State.dueLandings, overCores State.dueClasps, State.dueHost, overCores State.dueReleases,
   State.dueEntries, overCores State.dueBlock, State.dueFaults]

/-- What comes after the words of the cycle have issued: the contributions of the next frame, which a COLL of this cycle still fires
(R268, R370), waits that end in their issue cycle, faults, the end of a slice
and the vote for the next (R38, R62, R301), and events for the host. -/
def State.dueLate (s : State) : List Due :=
  let last := s.frameLast && s.running
  let sliceEnds := last && s.sch.active && s.lastFrame && s.sch.heard.isEmpty
  (if s.commits && s.frameLast then (s.treesAt (s.frame + 1)).map fun t => (markOf 11 t, .collectiveRead t) else [])
    ++ dueIf (sliceEnds && !s.fixedCores.isEmpty) (markOf 31 0) .fixedSave
    ++ dueIf sliceEnds (markOf 32 0) .sliceCommit
    ++ dueIf (last && s.voteFrame) (markOf 33 0) .readyVote
    ++ dueIf s.host.nextEvent.isSome (markOf 34 0) .eventPost

/-- The deadlines of WAITA that come in the cycle of their word's issue (R272). -/
def State.dueDeadlines (s : State) (c : Nat) (k : Core) : List Due :=
  match k.blk with
  | none => []
  | some b => (List.range b.slots.length).flatMap fun i =>
      match b.slots[i]? with
      | some st => dueIf (st.deadlineDue s.now) (markOf 21 (8 * c + i)) (.waitaDeadline c i)
      | none => []

def lateGroups : List (State → List Due) :=
  [overCores fun s c k => k.dueStalls c s.now, overCores State.dueDeadlines, overCores fun s c k => dueIf (k.exits s.now && !s.savingCore c) (markOf 35 c) (.blockExit c), State.dueFaults, State.dueLate, State.dueFaults]

/-- Marking an event as having occurred. -/
def State.after (s : State) (e : Due) : State := if e.1 = 0 then s else s.mark e.1

/-- The event to run next before the issue phase, and after it. -/
def State.nextEarly (s : State) : Option Due := if s.marked markIssue then none else s.firstDue earlyGroups
def State.nextLate (s : State) : Option Due := s.firstDue lateGroups

/-! ## Inputs (log entry 7) -/

/-- The first input of a list that a test accepts, and the others. -/
def takeInput (p : Nat × Instr → Bool) : List (Nat × Instr) → Option (Instr × List (Nat × Instr))
  | [] => none
  | x :: l =>
    if p x then some (x.2, l)
    else match takeInput p l with | some (i, r) => some (i, x :: r) | none => none

/-- Whether an input switches the package on: without power nothing else acts. -/
def isPower (i : Instr) : Bool := match i with | .powerOn _ => true | .warmReset _ => true | _ => false

/-- Whether an input goes to memory by way of a die that leaves reset only after the firmware is verified (R311). -/
def needsDies (i : Instr) : Bool := match i with | .hostMemoryWrite .. => true | .hostMemoryRead .. => true | _ => false

/-- The input that acts now; an access to memory waits while the dies are in reset (R311, log entry 66). -/
def State.dueInput (s : State) : Option (Instr × List (Nat × Instr)) :=
  takeInput (fun x => if s.plat.powered then dueBy x.1 s.now && (s.released || !needsDies x.2) else isPower x.2) s.inputs

/-! ## The end of a cycle -/

/-- Reads at acceptance, and the rows that running products read (R152, R226). -/
def State.endCores (s : State) : State :=
  let s := s.cores.foldl (fun s p => s.acceptCore p.1) s
  { s with cores := s.cores.map fun p => (p.1, p.2.matrixCycle s.now) }

/-- The lines of a period are chosen in its first cycle (R54). -/
def State.endChoice (s : State) : State := if s.periodCycle = 0 && s.running then s.choosePeriod else s

/-- What ends with a frame: the offset grows where the schedule was held (R33, R59, R62). -/
def State.endFrame (s : State) : State :=
  if s.frameLast then
    { s with sch := { s.sch with
      offset := s.sch.offset + s.sch.growth, growth := 0, lastFrame := s.frame, lastPhase := s.sch.phase } }
  else s

/-- What ends with a memory period: its retries, and the records counted against column 1,536. -/
def State.endPeriod (s : State) : State :=
  if s.periodCycle = 1023 then { s with retried := [], fab := { s.fab with ingress := [] } } else s

/-- A soft error of storage (R323, log entry 7): a corrected one is counted, a double one leaves its word uncorrectable. -/
def State.upset (s : State) (u : Upset) : State :=
  match u with
  | .corrected d k =>
    if 8 ≤ d || 5 ≤ k then s else { s with plat := { s.plat with counts := smSet s.plat.counts (8 * d + k) (smGet s.plat.counts (8 * d + k) + 1) } }
  | .scratch c n => s.modCore c fun k => { k with badScratch := n :: k.badScratch.erase n }
  | .crown c n => s.modCore c fun k => { k with badCrown := n :: k.badCrown.erase n }
  | .tag c n => s.modCore c fun k => { k with badTags := n :: k.badTags.erase n }
  | .crownTag c n => s.modCore c fun k => { k with badCTags := n :: k.badCTags.erase n }
  | .reg c b => s.modCore c fun k => { k with badRegs := b :: k.badRegs.erase b }

/-- The soft errors of the cycle that ends. -/
def State.endUpsets (s : State) : State :=
  let due := s.upsets.filter fun u => dueBy u.1 s.now
  due.foldl (fun s u => s.upset u.2) { s with upsets := s.upsets.filter fun u => !dueBy u.1 s.now }

/-- What another package does here outside the fabric's slots (R297, R308); nothing, where the dies are still in reset (R311). -/
def State.arrive (s : State) (a : Arrival) : State :=
  if !s.released then s
  else
    match a with
    | .page asid va base lines => s.takePage asid va base lines
    | .moved asid va pkg base => s.remapPage asid va (some pkg) base
    | .direct bytes => s.writeMem (bytes.filter fun p => p.1 < memEnd)

/-- The arrivals of the cycle that ends. -/
def State.endArrivals (s : State) : State :=
  let due := s.arrivals.filter fun a => dueBy a.1 s.now
  due.foldl (fun s a => s.arrive a.2) { s with arrivals := s.arrivals.filter fun a => !dueBy a.1 s.now }

/-- The end of a cycle: the next pod tick, with nothing sent, issued or marked yet. -/
def State.endCycle (s : State) : State :=
  let s := s.endCores.startResumes.endChoice.endPeriod.endFrame.endUpsets.endArrivals
  { s with out := [], served := [], swept := [], sel := none, sch := { s.sch with tick := s.sch.tick + 1 } }

/-! ## The issue phase -/

/-- The word to run next in the running cycle (R70); outside a running schedule no strand issues (R52, R58). -/
def State.nextWord (s : State) : Option Pick := if s.running then s.nextIssue else none

/-- The state in which a word of the cycle is run: the first part of the cycle is over. -/
def State.issuing (s : State) : State := if s.marked markIssue then s else s.mark markIssue

/-! ## Placing an instruction (log entry 1) -/

/-- The page that holds a placed instruction, its address, and its translation in die 0. -/
def placedPage : Page := ⟨0, 0x10000, 0x10000, 0x10000, none, false, true, true, true⟩
def placedAt : Nat := 0x10000

/-- The launch record of the block that runs a placed instruction: one strand of 96 threads in loose discipline with two
full allotments, 16 clasps, all of scratch and crown, and its status area in the same page. -/
def placedRecord : SMap 8 :=
  smWrites [] [(2, 1), (8, 1), (9, 96), (10, 248), (11, 64), (12, 4), (13, 0x81), (14, 16), (15, 1),
    (0x13, 0x10), (0x21, 128), (0x41, 0x80), (0x42, 1), (0x62, 1), (0x68, 248), (0x69, 64), (0x6A, 4)]

/-- The entry that has launched it. -/
def placedAdm (fire : Nat) : Adm where
  key := ⟨0, .main, 0⟩
  fire := fire
  asid := 0
  cls := 0
  hold := 0
  recAt := 0
  stage := 9
  landed := 0
  busy := false
  record := placedRecord
  preload := []
  headers := []
  table := []
  arena := 0
  result := none
  known := true
  slow := false
  late := false

/-- The block whose strand stands before the placed instruction. -/
def placedBlk (s : State) (mem : Mem) : Blk :=
  { launchBlk (placedAdm s.accord) s.now with fresh := false, code := mem, pages := [placedPage] }

/-- The state with the bytes of an instruction where the next step fetches: in memory, and as the code of a block of
core 0 whose issue frame the running cycle is. -/
def State.place (s : State) (bytes : List Byte) : State :=
  let mem := smWrite s.mem placedAt bytes
  { s.setCore 0 { Core.idle with blk := some (placedBlk s mem) } with
    mem := mem
    tlb := ⟨0, placedPage, true⟩ :: s.tlb
    pages := placedPage :: s.pages
    held := s.held.filter fun v => v != (placedPage.asid, placedPage.va)
    inputs := s.inputs.filter fun x => !dueBy x.1 s.now
    served := s.served.filter fun c => c != 0
    swept := markIssue :: s.swept
    plat := { s.plat with powered := true }
    sch := { s.sch with phase := .run } }

end Sys2Proof.Machine
end

