-- ==== Sys2Proof/Machine/Dispatch.lean ====
section
/-! DEFINITION. What each instruction and event does: one arm per row of spec/opcode_table.json. -/

namespace Sys2Proof.Machine
open Sys2Proof

def exec (i : Instr) (s : State) : Host.Outcome State Fault Refusal :=
  match i with
  | .abs c ty sat d a => Sys2Proof.Machine.execAbs c ty sat d a s
  | .add c ty sat d a b => Sys2Proof.Machine.execAdd c ty sat d a b s
  | .and c ty nb d a b => Sys2Proof.Machine.execAnd c ty nb d a b s
  | .atom c op ty kind sc d a b => Sys2Proof.Machine.execAtom c op ty kind sc d a b s
  | .atomTree c op ty kind sc d a b => Sys2Proof.Machine.execAtomTree c op ty kind sc d a b s
  | .atomq c kind sc d a b => Sys2Proof.Machine.execAtomq c kind sc d a b s
  | .bfi c ty d a b e => Sys2Proof.Machine.execBfi c ty d a b e s
  | .bfx c ty d a b => Sys2Proof.Machine.execBfx c ty d a b s
  | .bra c disp => Sys2Proof.Machine.execBra c disp s
  | .bxch c mode d a b => Sys2Proof.Machine.execBxch c mode d a b s
  | .call c d a => Sys2Proof.Machine.execCall c d a s
  | .claspInit c a b e => Sys2Proof.Machine.execClaspInit c a b e s
  | .claspArr c a => Sys2Proof.Machine.execClaspArr c a s
  | .claspWait c a b => Sys2Proof.Machine.execClaspWait c a b s
  | .clz c ty d a => Sys2Proof.Machine.execClz c ty d a s
  | .cmp c cond ty d a b => Sys2Proof.Machine.execCmp c cond ty d a b s
  | .coll c d a b e => Sys2Proof.Machine.execColl c d a b e s
  | .cpy1d c flag a b e => Sys2Proof.Machine.execCpy1d c flag a b e s
  | .cpy2d c shape flag a b e => Sys2Proof.Machine.execCpy2d c shape flag a b e s
  | .cpyTm c out flag a b e => Sys2Proof.Machine.execCpyTm c out flag a b e s
  | .cpyb c a b => Sys2Proof.Machine.execCpyb c a b s
  | .cvt c rnd dty sty d a => Sys2Proof.Machine.execCvt c rnd dty sty d a s
  | .dot4 c bs as u d a b e => Sys2Proof.Machine.execDot4 c bs as u d a b e s
  | .exit c => Sys2Proof.Machine.execExit c s
  | .fadd c d a b => Sys2Proof.Machine.execFadd c d a b s
  | .fsub c d a b => Sys2Proof.Machine.execFsub c d a b s
  | .fmul c d a b => Sys2Proof.Machine.execFmul c d a b s
  | .fma c d a b e => Sys2Proof.Machine.execFma c d a b e s
  | .fmin c d a b => Sys2Proof.Machine.execFmin c d a b s
  | .fmax c d a b => Sys2Proof.Machine.execFmax c d a b s
  | .fcmp c cond d a b => Sys2Proof.Machine.execFcmp c cond d a b s
  | .fclass c d a b => Sys2Proof.Machine.execFclass c d a b s
  | .fscl c d a b => Sys2Proof.Machine.execFscl c d a b s
  | .frnd c rnd d a => Sys2Proof.Machine.execFrnd c rnd d a s
  | .frcp c d a => Sys2Proof.Machine.execFrcp c d a s
  | .fsqrt c d a => Sys2Proof.Machine.execFsqrt c d a s
  | .frsq c d a => Sys2Proof.Machine.execFrsq c d a s
  | .fdiv c d a b => Sys2Proof.Machine.execFdiv c d a b s
  | .fexp2 c d a => Sys2Proof.Machine.execFexp2 c d a s
  | .flog2 c d a => Sys2Proof.Machine.execFlog2 c d a s
  | .ftanh c d a => Sys2Proof.Machine.execFtanh c d a s
  | .fsin c d a => Sys2Proof.Machine.execFsin c d a s
  | .fcos c d a => Sys2Proof.Machine.execFcos c d a s
  | .fence c sc => Sys2Proof.Machine.execFence c sc s
  | .gathLd c sx sz d a b => Sys2Proof.Machine.execGathLd c sx sz d a b s
  | .gathSt c sz a b e => Sys2Proof.Machine.execGathSt c sz a b e s
  | .jmp c a => Sys2Proof.Machine.execJmp c a s
  | .kop c op d a b => Sys2Proof.Machine.execKop c op d a b s
  | .kopGet c d a b => Sys2Proof.Machine.execKopGet c d a b s
  | .kopPut c d a b => Sys2Proof.Machine.execKopPut c d a b s
  | .launch c d a b e => Sys2Proof.Machine.execLaunch c d a b e s
  | .lbrk c => Sys2Proof.Machine.execLbrk c s
  | .ld c dec kind sc shape ty d a b => Sys2Proof.Machine.execLd c dec kind sc shape ty d a b s
  | .loop c d a disp => Sys2Proof.Machine.execLoop c d a disp s
  | .lred c seg op d a b => Sys2Proof.Machine.execLred c seg op d a b s
  | .mad c ty wide d a b e => Sys2Proof.Machine.execMad c ty wide d a b e s
  | .max c ty d a b => Sys2Proof.Machine.execMax c ty d a b s
  | .mdrn c seq clr t norm stats a b e => Sys2Proof.Machine.execMdrn c seq clr t norm stats a b e s
  | .min c ty d a b => Sys2Proof.Machine.execMin c ty d a b s
  | .mlda c d a => Sys2Proof.Machine.execMlda c d a s
  | .mma c cls d a b => Sys2Proof.Machine.execMma c cls d a b s
  | .mmaTrio c cls d a b e => Sys2Proof.Machine.execMmaTrio c cls d a b e s
  | .mmag c cls d a b => Sys2Proof.Machine.execMmag c cls d a b s
  | .mov c ty d a => Sys2Proof.Machine.execMov c ty d a s
  | .mul c ty wide hi d a b => Sys2Proof.Machine.execMul c ty wide hi d a b s
  | .mzero c d => Sys2Proof.Machine.execMzero c d s
  | .mzeroAll c => Sys2Proof.Machine.execMzeroAll c s
  | .neg c ty sat d a => Sys2Proof.Machine.execNeg c ty sat d a s
  | .nop c => Sys2Proof.Machine.execNop c s
  | .not c ty d a => Sys2Proof.Machine.execNot c ty d a s
  | .or c ty nb d a b => Sys2Proof.Machine.execOr c ty nb d a b s
  | .pack c fmt d a b => Sys2Proof.Machine.execPack c fmt d a b s
  | .packBlk c fmt a b => Sys2Proof.Machine.execPackBlk c fmt a b s
  | .popc c ty d a => Sys2Proof.Machine.execPopc c ty d a s
  | .prem c crown acc n a b => Sys2Proof.Machine.execPrem c crown acc n a b s
  | .region c => Sys2Proof.Machine.execRegion c s
  | .ret c a => Sys2Proof.Machine.execRet c a s
  | .rettRegion c => Sys2Proof.Machine.execRettRegion c s
  | .rettNext c => Sys2Proof.Machine.execRettNext c s
  | .role c => Sys2Proof.Machine.execRole c s
  | .rot c ty right d a b => Sys2Proof.Machine.execRot c ty right d a b s
  | .rrot c a b => Sys2Proof.Machine.execRrot c a b s
  | .scan c seg op d a b e => Sys2Proof.Machine.execScan c seg op d a b e s
  | .scanlr c seg d a b e => Sys2Proof.Machine.execScanlr c seg d a b e s
  | .sel c ty d a b e => Sys2Proof.Machine.execSel c ty d a b e s
  | .shfl c s96 mode d a b => Sys2Proof.Machine.execShfl c s96 mode d a b s
  | .shl c ty d a b => Sys2Proof.Machine.execShl c ty d a b s
  | .shld c d a => Sys2Proof.Machine.execShld c d a s
  | .shputEnt c d a b => Sys2Proof.Machine.execShputEnt c d a b s
  | .shputOrg c d b => Sys2Proof.Machine.execShputOrg c d b s
  | .shputAdv c d b => Sys2Proof.Machine.execShputAdv c d b s
  | .shq c qy d a b => Sys2Proof.Machine.execShq c qy d a b s
  | .shr c ty d a b => Sys2Proof.Machine.execShr c ty d a b s
  | .shseg c form d a => Sys2Proof.Machine.execShseg c form d a s
  | .shwin c d a => Sys2Proof.Machine.execShwin c d a s
  | .st c kind sc shape ty d a b => Sys2Proof.Machine.execSt c kind sc shape ty d a b s
  | .step c => Sys2Proof.Machine.execStep c s
  | .stacc c d a b => Sys2Proof.Machine.execStacc c d a b s
  | .staccw c d a b e => Sys2Proof.Machine.execStaccw c d a b e s
  | .stfin c d a b => Sys2Proof.Machine.execStfin c d a b s
  | .stinit c d a => Sys2Proof.Machine.execStinit c d a s
  | .stld c d a b => Sys2Proof.Machine.execStld c d a b s
  | .stmrg c d a b => Sys2Proof.Machine.execStmrg c d a b s
  | .stnorm c g d a b e => Sys2Proof.Machine.execStnorm c g d a b e s
  | .stred c seg d a b => Sys2Proof.Machine.execStred c seg d a b s
  | .stst c a b e => Sys2Proof.Machine.execStst c a b e s
  | .sub c ty sat d a b => Sys2Proof.Machine.execSub c ty sat d a b s
  | .sysr c d a => Sys2Proof.Machine.execSysr c d a s
  | .sysw c d a => Sys2Proof.Machine.execSysw c d a s
  | .tagr c d a b => Sys2Proof.Machine.execTagr c d a b s
  | .tagw c a b e => Sys2Proof.Machine.execTagw c a b e s
  | .tnext c d a => Sys2Proof.Machine.execTnext c d a s
  | .trap c a => Sys2Proof.Machine.execTrap c a s
  | .unpack c fmt d a b => Sys2Proof.Machine.execUnpack c fmt d a b s
  | .unpackBlk c fmt d a => Sys2Proof.Machine.execUnpackBlk c fmt d a s
  | .until c a => Sys2Proof.Machine.execUntil c a s
  | .vnt c a => Sys2Proof.Machine.execVnt c a s
  | .vote c form d a => Sys2Proof.Machine.execVote c form d a s
  | .waita c cond acq sc d a b e => Sys2Proof.Machine.execWaita c cond acq sc d a b e s
  | .waitt c e b => Sys2Proof.Machine.execWaitt c e b s
  | .xferSend c a b => Sys2Proof.Machine.execXferSend c a b s
  | .xferRecv c a b e => Sys2Proof.Machine.execXferRecv c a b e s
  | .xor c ty nb d a b => Sys2Proof.Machine.execXor c ty nb d a b s
  | .pair hold x y => Sys2Proof.Machine.execPair hold x y s
  | .holdRelease core slot => Sys2Proof.Machine.execHoldRelease core slot s
  | .resultLanding core => Sys2Proof.Machine.execResultLanding core s
  | .accumulatorLanding core => Sys2Proof.Machine.execAccumulatorLanding core s
  | .partnerFailure core => Sys2Proof.Machine.execPartnerFailure core s
  | .ringLanding core => Sys2Proof.Machine.execRingLanding core s
  | .crownFill core => Sys2Proof.Machine.execCrownFill core s
  | .drainLanding core => Sys2Proof.Machine.execDrainLanding core s
  | .gatherStoreLanding core => Sys2Proof.Machine.execGatherStoreLanding core s
  | .claspWaveRelease core => Sys2Proof.Machine.execClaspWaveRelease core s
  | .strandDeparture core slot => Sys2Proof.Machine.execStrandDeparture core slot s
  | .blockExit core => Sys2Proof.Machine.execBlockExit core s
  | .launchEntryFire core => Sys2Proof.Machine.execLaunchEntryFire core s
  | .admissionStage core => Sys2Proof.Machine.execAdmissionStage core s
  | .blockStart core => Sys2Proof.Machine.execBlockStart core s
  | .commit => Sys2Proof.Machine.execCommit s
  | .refresh stack => Sys2Proof.Machine.execRefresh stack s
  | .retryDetected stack line uncorrectable => Sys2Proof.Machine.execRetryDetected stack line uncorrectable s
  | .waitaDeadline core slot => Sys2Proof.Machine.execWaitaDeadline core slot s
  | .untilRelease core slot => Sys2Proof.Machine.execUntilRelease core slot s
  | .stall core slot => Sys2Proof.Machine.execStall core slot s
  | .flitSlot plane => Sys2Proof.Machine.execFlitSlot plane s
  | .flitDelivery plane peer f failed => Sys2Proof.Machine.execFlitDelivery plane peer f failed s
  | .nakReceived plane slot => Sys2Proof.Machine.execNakReceived plane slot s
  | .timingFlit plane => Sys2Proof.Machine.execTimingFlit plane s
  | .fabricPeriodCommit => Sys2Proof.Machine.execFabricPeriodCommit s
  | .recordLoad r => Sys2Proof.Machine.execRecordLoad r s
  | .recordStore r => Sys2Proof.Machine.execRecordStore r s
  | .recordStoreb r => Sys2Proof.Machine.execRecordStoreb r s
  | .recordCopyw r => Sys2Proof.Machine.execRecordCopyw r s
  | .recordAtom r => Sys2Proof.Machine.execRecordAtom r s
  | .recordAtomtree r => Sys2Proof.Machine.execRecordAtomtree r s
  | .recordResp r => Sys2Proof.Machine.execRecordResp r s
  | .recordDiscard r => Sys2Proof.Machine.execRecordDiscard r s
  | .streamFlit plane peer f => Sys2Proof.Machine.execStreamFlit plane peer f s
  | .collectiveRead tree => Sys2Proof.Machine.execCollectiveRead tree s
  | .collectiveResult tree => Sys2Proof.Machine.execCollectiveResult tree s
  | .sliceCommit => Sys2Proof.Machine.execSliceCommit s
  | .readyVote => Sys2Proof.Machine.execReadyVote s
  | .plane p => Sys2Proof.Machine.execPlane p s
  | .clock => Sys2Proof.Machine.execClock s
  | .servoTrim trim => Sys2Proof.Machine.execServoTrim trim s
  | .faultDetection => Sys2Proof.Machine.execFaultDetection s
  | .abort => Sys2Proof.Machine.execAbort s
  | .syncA => Sys2Proof.Machine.execSyncA s
  | .syncB => Sys2Proof.Machine.execSyncB s
  | .replay => Sys2Proof.Machine.execReplay s
  | .alternate => Sys2Proof.Machine.execAlternate s
  | .halt => Sys2Proof.Machine.execHalt s
  | .sliceStart => Sys2Proof.Machine.execSliceStart s
  | .powerPhase => Sys2Proof.Machine.execPowerPhase s
  | .temperatureRead readings => Sys2Proof.Machine.execTemperatureRead readings s
  | .alternateRequest member idle => Sys2Proof.Machine.execAlternateRequest member idle s
  | .fwload => Sys2Proof.Machine.execFwload s
  | .install => Sys2Proof.Machine.execInstall s
  | .absent => Sys2Proof.Machine.execAbsent s
  | .treecreate => Sys2Proof.Machine.execTreecreate s
  | .treefree => Sys2Proof.Machine.execTreefree s
  | .treeEffective tree => Sys2Proof.Machine.execTreeEffective tree s
  | .stop => Sys2Proof.Machine.execStop s
  | .cutComplete => Sys2Proof.Machine.execCutComplete s
  | .stopLimitExpiry => Sys2Proof.Machine.execStopLimitExpiry s
  | .fixedSave => Sys2Proof.Machine.execFixedSave s
  | .resume => Sys2Proof.Machine.execResume s
  | .shootdown => Sys2Proof.Machine.execShootdown s
  | .xlatereply => Sys2Proof.Machine.execXlatereply s
  | .attest => Sys2Proof.Machine.execAttest s
  | .migrate => Sys2Proof.Machine.execMigrate s
  | .emergcfg => Sys2Proof.Machine.execEmergcfg s
  | .mailboxBadop => Sys2Proof.Machine.execMailboxBadop s
  | .mbevcWrite x => Sys2Proof.Machine.execMbevcWrite x s
  | .mblostClear => Sys2Proof.Machine.execMblostClear s
  | .eventPost => Sys2Proof.Machine.execEventPost s
  | .snapshotRequest => Sys2Proof.Machine.execSnapshotRequest s
  | .readbackSnapshot => Sys2Proof.Machine.execReadbackSnapshot s
  | .ringEnable ix => Sys2Proof.Machine.execRingEnable ix s
  | .registerWrite off size x => Sys2Proof.Machine.execRegisterWrite off size x s
  | .hostMemoryWrite off bytes => Sys2Proof.Machine.execHostMemoryWrite off bytes s
  | .hostMemoryRead off len => Sys2Proof.Machine.execHostMemoryRead off len s
  | .priResponse group ans => Sys2Proof.Machine.execPriResponse group ans s
  | .pageWalkComplete die asid va => Sys2Proof.Machine.execPageWalkComplete die asid va s
  | .scaleoutPut ring => Sys2Proof.Machine.execScaleoutPut ring s
  | .scaleoutGet ring => Sys2Proof.Machine.execScaleoutGet ring s
  | .scaleoutCompletion id status bytes => Sys2Proof.Machine.execScaleoutCompletion id status bytes s
  | .ethernetFrame port bytes ptp => Sys2Proof.Machine.execEthernetFrame port bytes ptp s
  | .pageMigration => Sys2Proof.Machine.execPageMigration s
  | .powerOn f => Sys2Proof.Machine.execPowerOn f s
  | .warmReset f => Sys2Proof.Machine.execWarmReset f s
  | .coreReservationEnd core => Sys2Proof.Machine.execCoreReservationEnd core s
  | .scaleoutRetransmission id giveUp => Sys2Proof.Machine.execScaleoutRetransmission id giveUp s

end Sys2Proof.Machine
end

