-- ==== Sys2Proof/Machine/Step.lean ====
section
/-! DEFINITION. One step: an input, an event of the running cycle, the issue of a word, or the end of the cycle. -/

namespace Sys2Proof.Machine
open Sys2Proof

/-- ONE STEP (log entry 6). An input whose tick has come acts first. Then the events due before the issue phase run, one a
step, in their order; then the words of the cycle, one a step; then the events after them; then the cycle ends.
A package without power runs no cycle and stays as it is until POWER_ON (R312, R322). -/
def step (s : State) : Host.Outcome State Fault Refusal :=
  match s.dueInput with
  | some (i, rest) => exec i { s with inputs := rest }
  | none =>
    if !s.plat.powered then .next s
    else
      match s.nextEarly with
      | some e => exec e.2 (s.after e)
      | none =>
        match s.nextWord with
        | some (.run i t) => exec i t.issuing
        | some (.took t) => .next t.issuing
        | none =>
          match s.nextLate with
          | some e => exec e.2 (s.after e)
          | none => .next s.endCycle

/-- The state in which the next step fetches and runs the instruction of these bits: its word, and above it the literal,
as little-endian bytes (R4, R325). -/
def State.withFetchWord (s : State) (_nbits w : Nat) : State := s.place (toBytes 16 w)

end Sys2Proof.Machine
end

