-- ==== Sys2Proof/WellFormed.lean ====
section
/-! DEFINITION. Which terms of `Instr` are instructions that a word can hold. -/

namespace Sys2Proof

/-- A word instruction whose operands, literals, predicate and modifier the encoding rules accept (R328 to R341).
An event is not a word and is not well formed. -/
def Instr.wellFormed (i : Instr) : Bool :=
  match i.form with
  | .full f => f.ok && i.opsOk && i.modOk
  | .pair _ x y => x.ok && y.ok && pairOk x y
  | .event => false

end Sys2Proof
end

