-- ==== Sys2Proof/Safety.lean ====
section
/-! DEFINITION. What a safe run is, the data invariants of a state, and the words in which claims say what an instruction leaves. -/

namespace Sys2Proof.Machine
open Sys2Proof

/-- A run of any length ends in a next state: no step stops. -/
def State.Safe (s : State) : Prop := ∀ k, ∃ t, Sys2Proof.core.run k s = .next t

/-- The canonical form of everything keyed by memory addresses and lines: bytes, tags and horizons. -/
def State.memoryOk (s : State) : Prop := Memory.wf s.mem = true ∧ smWf s.tags = true ∧ smWf s.horizons = true

/-- Memory, tags and horizons of two states agree: every byte, tag and horizon reads as before. -/
def State.sameMemory (s t : State) : Prop := t.mem = s.mem ∧ t.tags = s.tags ∧ t.horizons = s.horizons

/-- Whether an instruction is a word of the instruction set rather than an event. -/
def isWord (i : Instr) : Bool := i.form != .event

/-! ## The strand that issues -/

/-- The strand that the running word issues from, where nothing keeps the word from acting: a live strand is selected, its
allotment holds every register the word names (R66), a word of R67 has a thread to execute for, and no register word it
reads is uncorrectable (R287). -/
def State.issuer (s : State) (c : Ctl) (uni : Bool) (us : List Use) : Option View :=
  match s.view c with
  | none => none
  | some v => if us.all v.st.cur.holds && (!uni || v.runs) && (v.badThreads uni us).isEmpty then some v else none

/-- The operands of an instruction's word, with how many registers each names (R66, R112, R353). -/
def wordUses (i : Instr) : List Use :=
  match i.form with
  | .full f => ([f.d, f.a, f.b, f.c].zip (fieldSpans f.op f.m f.d f.b f.c)).map fun p => ⟨p.1, p.2, true⟩
  | .pair _ x y => slotUses x ++ slotUses y
  | .event => []

/-- Whether slot X of a pair holds no operand outside an allotment; no other word has a slot X. -/
def slotXHeld (r : Regs) (i : Instr) : Bool :=
  match i.form with
  | .pair _ x _ => (slotUses x).all r.holds
  | _ => false

/-- Whether an instruction's word is a uniform or control word (R67, R338): it runs at most once for its strand. -/
def uniformWord (i : Instr) : Bool :=
  match i.form with
  | .full f =>
    (0xE0 ≤ f.op.toNat && f.op.toNat ≤ 0xF4) || f.op.toNat ∈ [0x98, 0x99, 0x9A, 0xBC, 0xC0, 0xC1, 0xC8]
      || (f.op == 0xF6 && f.d != .sp 0x4E) || (runsOnce f.d && f.op != 0xC9)
  | _ => false

/-! ## What a word leaves -/

/-- The state after a word that touches nothing but its own core: `g` the core beside its block, `h` the block beside its
strands, `f` the issuing strand. All else of the package, memory and the other cores and strands among it, is as before. -/
def View.after (v : View) (g : Core → Core) (h : Blk → Blk) (f : Strand → Strand) : State :=
  { v.s with
    seq := v.s.seq + 1
    cores := aSet v.s.cores v.c { g v.core with blk := some (h { v.b with slots := v.b.slots.modify v.i f }) } }

/-- The strand past a word of `len` bytes: the next word's address, the loop unit of R83 and the hold bit of R74. -/
def View.moved (v : View) (len : Nat) (st : Strand) : Strand := st.advance v.now v.seq v.ctl.hold len none

/-- The strand past a word that transfers control to an address. -/
def View.jumped (v : View) (len : Nat) (a : Addr) (st : Strand) : Strand := st.advance v.now v.seq v.ctl.hold len (some a)

/-- Results of the word in flight (R73): they land at a cycle, in issue order. -/
def View.owes (v : View) (land : Nat) (ws : List RegW) (st : Strand) : Strand :=
  if ws.isEmpty then st else { st with pend := st.pend ++ [⟨v.seq, some land, true, ws⟩] }

/-- A result in flight whose landing is not known yet (R134). -/
def View.owesLater (v : View) (ws : List RegW) (st : Strand) : Strand := { st with pend := st.pend ++ [⟨v.seq, none, true, ws⟩] }

/-- The strand parked for a further reason. -/
def Strand.parked (w : Wait) (st : Strand) : Strand := { st with waits := st.waits ++ [w] }

/-- An access of the word in flight (R165): its landing if known, and whether it goes to another package. -/
def View.accesses (v : View) (land : Option Nat) (remote : Bool) (st : Strand) : Strand := st.addAcc v.now ⟨v.seq, land, remote⟩

/-- The next command of an engine under way (R148): its timeline counts it, and its context waits to be acquired. -/
def View.commands (v : View) (e : Engine) (land : Option Nat) (fail : Option (Cause × BitVec 64)) (st : Strand) : Strand :=
  let n := smGet st.tl (Engine.index e) + 1
  { st with tl := smSet st.tl (Engine.index e) n, eops := st.eops ++ [⟨e, n.toNat, v.seq, land, fail⟩] }

/-- A late fault of the word (R287). -/
def View.fails (v : View) (at_ len : Nat) (f : Trap) (st : Strand) : Strand := { st with late := st.late ++ [⟨at_, v.st.pc, len, f⟩] }

/-- A unit taken for some cycles from issue (R76). -/
def View.takes (v : View) (u n : Nat) (k : Core) : Core := k.occupy u (v.now + n)

/-- 4 where an active thread lies in an island at 0.42 V, else 1 (R80). -/
def View.slowdown (v : View) : Nat := if v.slow then 4 else 1

/-- What a lane-executed word leaves (R76, R77, R80): its results in flight and its unit taken, with the latency and occupancy
of its class, or those of the uniform form where it runs once. -/
def View.laneDone (v : View) (once : Bool) (us : List Use) (unit lat occ uLat uOcc : Nat) (ws : List RegW) : State :=
  let n := if once then uOcc else occ * v.slowdown
  v.after (fun k => if n = 0 then k else v.takes unit n k) id
    (fun st => v.owes (v.now + if once then uLat else lat * v.slowdown) ws (v.moved (wordLen us) st))

/-- What a structured load of degree n leaves (R139): its results after 11 + 3n cycles, the scratch port for 3n. -/
def View.scratchLoaded (v : View) (once : Bool) (n : Nat) (us : List Use) (ws : List RegW) (f : Strand → Strand) : State :=
  let k := if once then 1 else v.slowdown
  let land := v.now + (11 + 3 * n) * k
  v.after (v.takes uScratch (3 * n * k)) id
    (fun st => f (v.accesses (some land) false (v.owes land ws (v.moved (wordLen us) st))))

/-- What a structured store of degree n leaves: its bytes and tags land after 11 + 3n cycles, in row 5 of R142. -/
def View.scratchStored (v : View) (once : Bool) (n : Nat) (us : List Use) (bytes : List (Nat × Byte)) (tags : List (Nat × Tag)) : State :=
  let k := if once then 1 else v.slowdown
  let land := v.now + (11 + 3 * n) * k
  v.after (fun x =>
      let x := v.takes uScratch (3 * n * k) x
      if bytes.isEmpty && tags.isEmpty then x else { x with swr := x.swr ++ [⟨v.seq, land, 5, bytes, tags⟩] }) id
    (fun st => v.accesses (some land) false (v.moved (wordLen us) st))

/-- The strand after a matrix word that lands after `lat` cycles (R148, R228): its command, and the result the hold bit
waits for. -/
def View.matrixStrand (v : View) (us : List Use) (lat : Nat) (st : Strand) : Strand :=
  { v.commands .matrix (some (v.now + lat)) none (v.moved (wordLen us) st) with
    pend := (v.moved (wordLen us) st).pend ++ [⟨v.seq, some (v.now + lat), true, []⟩] }

/-- The register writes of a value for each thread that takes part, the leader alone where the word runs once. -/
def View.results (v : View) (d : Opd) (wide : Bool) (f : Nat → BitVec 64) : List RegW :=
  (v.doers d).flatMap fun t => writeTo d wide t (f t)

/-- The same for an FP32 result with its flags (R118). -/
def View.flagged (v : View) (d : Opd) (f : Nat → Word × Flags) : List RegW :=
  (v.doers d).flatMap fun t => writeTo d false t ((f t).1.setWidth 64) ++ flagW t (f t).2

/-! ## Operands in scratch and memory -/

/-- Every launched thread is active and predicated on, as a word that requires the whole strand needs (R87). -/
def View.entire (v : View) : Prop := v.threads = List.range v.st.threads

/-- A tag that can be used: protected, correct and of an accepted format (R124). -/
def goodTag (bad : Bool) (accepts : Byte → Bool) (t : Tag) : Prop := bad = false ∧ tagOk t = true ∧ accepts (tagFormat t) = true

/-- An A tile that a product accepts on some of its rows (R224 to R226). -/
def goodTile (b : Blk) (k : Core) (cls : MClass) (off : Nat) (rows : List Nat) : Prop :=
  b.oneSegment off 2048 = true ∧ off % 64 = 0
    ∧ ∀ i ∈ rows, goodTag (k.badTags.contains (off / 64 + i)) (mAccepts cls) (smGet k.stags (off / 64 + i))

/-- A crown slot that a product accepts (R143, R226); `own` where its data is read from the issuing core. -/
def goodCrown (b : Blk) (k : Core) (cls : MClass) (slot : Nat) (own : Bool) : Prop :=
  b.heldSlot slot = true ∧ (own = true → k.badCrownData slot = false)
    ∧ ∀ j, j < 32 → goodTag (k.badCrownTag slot j) (mAccepts cls) (k.crownTag slot j)

/-- A tile of 2 KiB in scratch (R408). -/
def View.goodRange (v : View) (off : Nat) : Prop := v.b.oneSegment off 2048 = true ∧ off % 64 = 0

/-- `key` gives the translation of every address, all of the global aperture (R305, R306). -/
def View.keyed (v : View) (need : Need) (key : Addr → Nat) (as : List Addr) : Prop :=
  ∀ a ∈ as, ∃ va, apertureOf a = .glob va ∧ v.s.translate v.c v.b.asid va need = .ok (key a)

/-- A copy's flag that lies where R151 and R374 want it: in the destination's aperture, 4-byte aligned. -/
def View.goodFlag (v : View) (into : Bool) (f : Flag) : Prop :=
  f.addr.toNat % 4 = 0 ∧ if into then ∃ o, apertureOf f.addr = .scratch o ∧ v.b.okScratch o 4 = true else ∃ va, apertureOf f.addr = .glob va

/-- The lines of a copy's global side. -/
def copyLines (blocks : List (Nat × Option Addr)) (bytes : List (Nat × Addr)) (key : Addr → Nat) : List Nat :=
  (blocks.filterMap (·.2) ++ bytes.map (·.2)).map fun a => key a / 64

/-- Whether a copy or its flag in memory has a line of another package: its release is then of scope pod (R175). -/
def copyFar (into : Bool) (lines : List Nat) (f : Option Flag) (key : Addr → Nat) : Bool :=
  lines.any (fun l => (lineHome l).isSome) || (!into && f.any fun f => (lineHome (key f.addr / 64)).isSome)

/-- A copy under way (R148, R152, R153): its number taken, its lines waiting for commits, an outward one also for its
acceptance at issue + 1. -/
def View.copyStarted (v : View) (us : List Use) (into : Bool) (blocks : List (Nat × Option Addr)) (fill : Tag) (bytes : List (Nat × Addr))
    (fmt : Option Byte) (f : Option Flag) (key : Addr → Nat) : State :=
  let lines := copyLines blocks bytes key
  let num := v.nextNum .copy
  let strand := fun st => v.commands .copy none none (v.moved (wordLen us) st)
  if into then
    (v.after (v.takes uCopyQ 3) id strand).launchOp
      { v.memOp lines (.copyIn num (blocks.map fun b => (b.1, b.2.map fun a => (key a, a))) fill (bytes.map fun p => (p.1, key p.2, p.2)) fmt
          (f.map fun f => (f.addr.toNat % 2 ^ 56, f.value))) with atEnd := true } (remoteLoads lines)
  else
    (v.after (fun k => { v.takes uCopyQ 3 k with accepts := k.accepts ++ [(v.now + 1, .copy v.seq)] }) id strand).launchOp
      { v.memOp lines (.copyOut num (blocks.filterMap fun b => b.2.map fun a => (key a, b.1))) with
        atEnd := true, reads := false, flag := f.map fun f => (key f.addr, f.value)
        horizon := some (if copyFar into lines f key then 0 else v.horizonOf .pkg)
        narrow := f.isSome && !copyFar into lines f key } []

/-- The strand after an access of memory (R165, R168, R360): the access is counted, a result awaited, an acquire parks. -/
def View.awaits (v : View) (us : List Use) (remote result : Bool) (kind : Kind) (sc : Scope) (st : Strand) : Strand :=
  let st := v.accesses none remote (v.moved (wordLen us) st)
  let st := if result then v.owesLater [] st else st
  if acquires kind sc then st.parked (.acq v.seq) else st

/-- Atomics under way (R167, R168, R360): one operation for all, with the records of those at home in another package. -/
def View.atomStarted (v : View) (us : List Use) (kind : Kind) (sc : Scope) (tree result : Bool) (done : Done) (rs : List AtomReq) : State :=
  let lines := rs.map fun r => r.pa / 64
  (v.after (v.takes uMemory 3) id (v.awaits us (farOnly lines) result kind sc)).launchOp
    { v.memOp lines done with
      atoms := rs
      horizon := if releases kind sc then some (v.horizonOf sc) else none
      keepHor := !releases kind sc
      narrow := narrowRelease kind sc
      acqPod := acquires kind sc && sc == .pod } (withHorizon (releases kind sc) (v.horizonOf sc) (remoteAtoms tree rs))

/-- A write to scratch put in flight (R141), where there is something to write. -/
def Core.writesLater (k : Core) (seq land row : Nat) (bytes : List (Nat × Byte)) (tags : List (Nat × Tag)) : Core :=
  if bytes.isEmpty && tags.isEmpty then k else { k with swr := k.swr ++ [⟨seq, land, row, bytes, tags⟩] }

/-! ## Events -/

/-- `x` is the one entry of a list that a test accepts; `rest` are the others, in order. -/
def onlyOne {α : Type} (p : α → Bool) (l : List α) (x : α) (rest : List α) : Prop :=
  l.filter p = [x] ∧ l.filter (fun y => !p y) = rest

/-- Whether a result in flight is due in a cycle. -/
def Pend.due (now : Nat) (p : Pend) : Bool := p.land.any fun t => decide (t ≤ now)

/-- The flit a plane sends in the running slot with a payload (R250), where it has no nak to carry; with the fault bit of R58 and
the absence of R254, where the package has them to report. -/
def State.plainFlit (s : State) (plane : Nat) (body : Body) (void : Bool) : Flit where
  slot := BitVec.ofNat 10 (s.accord % 2048 / 2)
  frame := BitVec.ofNat 12 (s.accord / 2048)
  replay := false
  void := void
  ready := s.voteFrame && s.readyHere
  fault := s.bitOut plane
  absent := s.absentOut.map (BitVec.ofNat 8)
  nak := none
  body := body

/-- The state after the bytes of that flit have left (R4, R248), and it is kept for a replay (R252). -/
def State.sentPlain (s : State) (plane : Nat) (body : Body) (void : Bool) : State :=
  { s with
    sch := s.bitSent plane
    out := s.out ++ .flit plane (flitBytes (s.plainFlit plane body void)) :: s.requestOut plane body
    fab := { s.fab with sent := s.fab.sent ++ [(plane, s.plainFlit plane body void)] } }

/-- A part's slice has no collective chunk in a frame. -/
def Part.noChunks (p : Part) (slice frame : Nat) : Prop :=
  ∀ i, i < (p.section 5).2.1 → p.collField i 4 4 = slice → p.collFrame i ≠ frame

/-- The state after a schedule fault of a cause and unit has been detected (R57). -/
def State.faulted (s : State) (cause : SCause) (unit : Nat) : State :=
  { s with sch := { s.sch with raised := s.sch.raised ++ [⟨cause, s.sch.pkgid, unit, s.accord / 2048, s.accord, s.now⟩] } }

/-- The state after an ALERT of this package with a code has been queued (R282): count 1, no unit, no port. -/
def State.alerted (s : State) (code : Nat) : State :=
  { s with host := { s.host with
      waiting := s.host.waiting ++ [(2, smWrite [] 0 (bytesOf 2 code ++ bytesOf 2 0 ++ bytesOf 4 1 ++ bytesOf 1 0xFF ++ bytesOf 1 0xFF), 0, 0)] } }

/-- A strand whose XLATE was not served (R291, R307): it enters its handler at the vector with the fault of its word in the record, and
issues from the next cycle on. -/
def Strand.reraised (st : Strand) (now : Nat) (word : Addr) (len : Nat) (f : Trap) : Strand :=
  { st with
    frec := faultRecord st word { f with serviced := true }, inHandler := true, fword := word, flen := len, pc := st.tvec
    waits := [.tick (now + 1)] }

/-- What an operation saves (R300, R301, R303): the context of a core's block goes to an area in the core's shares, the complete flag
after all of it. -/
def State.savesTo (s : State) (o : MemOp) (b : Blk) (base target : Nat) : Prop :=
  o.done = .save (!b.loose) ∧ o.writes = addressed base ((s.core o.col).saveArea o.col b s.accord target)
    ∧ o.flag = some (base + 4, BitVec.ofNat 32 (saveFlags (!b.loose) b.savesAcc b.savesCrown true))

/-- Memory with the complete flag of an area cleared, for the block of an operation's core (R303, R322, log entry 63). -/
def State.flagCleared (s : State) (m : Mem) (o : MemOp) (base : Nat) : Mem :=
  match (s.core o.col).blk with
  | some b => smWrites m (addressed (base + 4) (bytesOf 4 (saveFlags (!b.loose) b.savesAcc b.savesCrown false)))
  | none => m

/-- The answer to the request in the mailbox (R280, R281): done, its code and tag in MBSTAT, the response, and the interrupt of
vector 0. -/
def State.answered (s : State) (code : Nat) (results : List Byte) : State :=
  { s with
    out := s.out ++ [.msix 0]
    host := { s.host with
      busy := false
      stat := BitVec.ofNat 64 (2 + 2 ^ 8 * code + 2 ^ 32 * smNat s.host.req 4 4)
      rsp := smWrite [] 0 (bytesOf 4 code ++ bytesOf 4 (smNat s.host.req 4 4) ++ results) } }

/-! ## Values -/

/-- An exact integer as a type of w bits holds it: wrapped modulo 2^w, or saturated (R111, R7). -/
def heldValue (signed : Bool) (w : Nat) (sat : Bool) (x : Int) : Int :=
  let lo : Int := if signed then -(2 ^ (w - 1)) else 0
  let hi : Int := if signed then 2 ^ (w - 1) - 1 else 2 ^ w - 1
  if sat then (if x < lo then lo else if hi < x then hi else x)
  else (x - lo) % 2 ^ w + lo

/-- The integer types of R336. -/
def intType (t : Ty) : Bool := t ∈ [.i32, .u32, .i64, .u64, .i16, .u16, .i8, .u8]

end Sys2Proof.Machine
end

