-- ==== Sys2Proof/Certificates/Slice0/Obligations.lean ====
section
/-! DEFINITION. The statements about the Jukasil 9 model that are to be proved. -/

open Sys2Proof Sys2Proof.Machine

/-! ## The machine as a whole -/

/-- The model's machine right after reset: offset 0, the built-in idle alternate, each line on the plane of its own number modulo 8 (R33,
R49 and R255 give these for other moments; that they hold at reset is the model's inference, log entry 2), and by R108, R280 and R283 the
slope limit 0x0802 on every trio and 0 in MBEVC and HBWIN. -/
def Obligations.ResetValues : Prop :=
  State.reset.sch.offset = 0 ∧ State.reset.sch.inForce = .idle ∧ (∀ l, State.reset.planeOf l = l % 8)
    ∧ (∀ c, State.reset.slopeOf c = 0x0802) ∧ State.reset.barRead 0x18 4 = 0 ∧ State.reset.barRead 0x1000 8 = 0

/-- The model's memory at reset lists nothing (log entry 4) and is in its canonical form. -/
def Obligations.ResetMemoryCanonical : Prop :=
  State.reset.memoryOk

/-- From every state whose memory, tags and horizons are in canonical form, a step that gives a next state keeps that form. -/
def Obligations.StepKeepsMemoryCanonical : Prop :=
  ∀ s t : State, s.memoryOk → step s = .next t → t.memoryOk

/-- R36, R54, R176: no instruction word writes package memory, its tags or its horizons as it issues: what it stores moves at commits. R64,
R65: no instruction word changes another strand: its registers, predicates, flags, loops and parks are as before. R19, R146, R234: no
instruction word but MMA.TRIO and RROT changes another core in any way. -/
def Obligations.WordsFrame : Prop :=
  (∀ (i : Instr) (s t : State), isWord i = true → exec i s = .next t → s.sameMemory t)
  ∧ (∀ (i : Instr) (s t : State) (c j : Nat), isWord i = true → exec i s = .next t → s.sel ≠ some (c, j) → t.strand c j = s.strand c j)
  ∧ (∀ (i : Instr) (s t : State) (c : Nat), isWord i = true → (∀ x m d a b e, i ≠ .mmaTrio x m d a b e) → (∀ x a b, i ≠ .rrot x a b) →
    exec i s = .next t → s.sel.map (·.1) ≠ some c → t.core c = s.core c)

/-- R70, R325, R326: in the issue frame of a strand that is ready, a step whose cycle has no event left before its words runs exactly the
instruction that the word at the strand's address decodes to, in the state that selects the strand and counts the frame used. -/
def Obligations.StepRunsDecodedWord : Prop :=
  ∀ (s : State) (pre post : List (Nat × Core)) (c i : Nat) (k : Core) (b : Blk) (st : Strand) (w lit : BitVec 64) (ins : Instr) (v : View),
    let s1 : State := { s with sel := some (c, i), served := c :: s.served }
    s.dueInput = none → s.plat.powered = true → s.nextEarly = none → s.running = true →
    s.cores = pre ++ (c, k) :: post → (∀ p ∈ pre, s.pickCore false p.1 p.2 = none) →
    k.blk = some b → s.served.contains c = false → b.exitAt = none → b.start ≤ s.now → (s.now - b.start) % 3 = 0 →
    i = (s.now - b.start) / 3 % b.rot → b.slots[i]? = some st → st.ended = none → st.waits = [] →
    s.fetch c b st.pc = .word w lit → decode w lit = .ok ins → s1.view (ctlOf ins) = some v → heldBeforeIssue v ins = false →
    (∀ x m d a b e, ins ≠ .mmaTrio x m d a b e) →
    (b.loose = true → b.rot ≠ 0) →
    step s = exec ins s1.issuing

/-- R4, R325, R326: where the four-byte pieces of a word and of its literal have translations, what is fetched is the little-endian bytes of
the block's code there: this package's memory as it stood when the block started, at the addresses its pages had then. -/
def Obligations.FetchReadsCode : Prop :=
  ∀ (s : State) (c : Nat) (b : Blk) (a : Addr) (k : Nat),
    let key (j : Nat) : Xl := s.translate c b.asid ((a.toNat + 4 * j) % 2 ^ 57) { x := true }
    let lit (j : Nat) : Xl := s.translate c b.asid (((a + 8).toNat + 4 * j) % 2 ^ 57) { x := true }
    let was (x : Addr) (j : Nat) (n : Nat) : Prop := b.codeKey ((x.toNat + 4 * j) % 2 ^ 57) n = k + 4 * j + (x.toNat - a.toNat)
    let w := BitVec.ofNat 64 (smNat b.code k 8)
    a.toNat % 4 = 0 → a.toNat + 16 < 2 ^ 57 → k + 16 ≤ 2 ^ 39 →
    (∃ n0 n1, key 0 = .ok n0 ∧ key 1 = .ok n1 ∧ was a 0 n0 ∧ was a 1 n1) →
    (litLen w = 0 → s.fetch c b a = .word w 0)
    ∧ (litLen w = 4 → (∃ n0, lit 0 = .ok n0 ∧ was (a + 8) 0 n0) → s.fetch c b a = .word w (BitVec.ofNat 64 (smNat b.code (k + 8) 4)))
    ∧ (litLen w = 8 → (∃ n0 n1, lit 0 = .ok n0 ∧ lit 1 = .ok n1 ∧ was (a + 8) 0 n0 ∧ was (a + 8) 1 n1) →
        s.fetch c b a = .word w (BitVec.ofNat 64 (smNat b.code (k + 8) 8)))

/-! ## Decoding -/

/-- Words written out from the encodings of the spec decode to the instructions they stand for, one of each class. -/
def Obligations.DecodeWords : Prop :=
  let k0 : Ctl := ⟨false, false, 0⟩
  decode 0x3800_0E01_C038_0700 0 = .ok (.nop k0)
    ∧ decode 0x2004_0004_00E0_0700 0 = .ok (.shfl k0 true .idx (.v 2) (.v 3) (.inl 0))
    ∧ decode 0x12C6_0004_0138_0700 0 = .ok (.pack k0 .bf16 (.v 2) (.v 4) .none)
    ∧ decode 0x2700_0406_C8B8_0700 0 = .ok (.shseg k0 .head (.k 3) (.g 2))
    ∧ decode 0x3200_0E00_4108_2F00 0 = .ok (.xferSend k0 (.s 4) (.s 5))
    ∧ decode 0x3400_0622_4120_3700 0 = .ok (.mma k0 .w16 (.acc 1) (.s 4) (.inl 6))
    ∧ decode 0x3404_0620_4120_3402 0 = .ok (.mmaTrio k0 .w16 (.acc 0) (.s 4) (.inl 6) (.inl 2))
    ∧ decode 0x3440_0624_4119_1700 0 = .ok (.mmag k0 .w16 (.acc 2) (.s 4) (.g 2))

/-- R325 to R341: every instruction that a word can hold is read back whole from its bytes: no operand, modifier, predicate, hold bit or
literal of it is lost. -/
def Obligations.DecodeEncode : Prop :=
  ∀ i : Instr, i.wellFormed = true → decodeBytes (encodeBytes i) = .ok (i, [])

/-- R325, R326: what a word decodes to is well formed, has that word and no other as its encoding, and takes the literal's length. -/
def Obligations.EncodeDecode : Prop :=
  ∀ (w lit : BitVec 64) (i : Instr), decode w lit = .ok i →
    i.wellFormed = true ∧ ∃ x, encode i = some (w, litLen w, x) ∧ (litLen w = 8 → x = lit)

/-- R326, R335, R343, R344: a full word with an unassigned opcode, or with the predicate "never", is ILLOP, and so is a pair word with an
unassigned slot opcode. -/
def Obligations.RefusedWords : Prop :=
  ∀ w lit : BitVec 64,
    (w.getLsbD 62 = false → opAssigned (w.extractLsb' 54 8) = false → decode w lit = .error .illop)
    ∧ (w.getLsbD 62 = false → w.extractLsb' 44 4 = 8#4 → decode w lit = .error .illop)
    ∧ (w.getLsbD 62 = true → slotAssigned (slotBitsOf (w.extractLsb' 31 31)).op = false ∨ slotAssigned (slotBitsOf (w.extractLsb' 0 31)).op = false →
        decode w lit = .error .illop)

/-! ## Integer and floating-point words -/

/-- R76, R77, R80, R353: ABS, NEG, NOT, MOV, ADD, SUB, AND, OR, XOR, MIN and MAX complete; their results land 6 cycles after issue (4 where
the word runs once), the lane unit is taken for 3, and nothing else changes. -/
def Obligations.IntegerWordsComplete : Prop :=
  ∀ (s : State) (c : Ctl) (ty : Ty) (x : Bool) (d a b : Opd) (v : View),
    let us1 := [wrT ty.wide d, rdT ty.wide a]
    let us2 := [wrT ty.wide d, rdT ty.wide a, rdT ty.wide b]
    let one (f : BitVec 64 → BitVec 64) : Host.Outcome State Fault Refusal :=
      .next (v.laneDone (runsOnce d) us1 uLane 6 3 4 0 (v.results d ty.wide fun t => f (v.src ty a t)))
    let two (f : BitVec 64 → BitVec 64 → BitVec 64) : Host.Outcome State Fault Refusal :=
      .next (v.laneDone (runsOnce d) us2 uLane 6 3 4 0 (v.results d ty.wide fun t => f (v.src ty a t) (v.src ty b t)))
    (s.issuer c (runsOnce d) us1 = some v →
      exec (.abs c ty x d a) s = one (vAbs ty x) ∧ exec (.neg c ty x d a) s = one (vNeg ty x)
        ∧ exec (.not c ty d a) s = one (fun p => ~~~p) ∧ exec (.mov c ty d a) s = one (fun p => p))
    ∧ (s.issuer c (runsOnce d) us2 = some v →
      exec (.add c ty x d a b) s = two (vAdd ty x) ∧ exec (.sub c ty x d a b) s = two (vSub ty x)
        ∧ exec (.and c ty x d a b) s = two (fun p q => p &&& if x then ~~~q else q)
        ∧ exec (.or c ty x d a b) s = two (fun p q => p ||| if x then ~~~q else q)
        ∧ exec (.xor c ty x d a b) s = two (fun p q => p ^^^ if x then ~~~q else q)
        ∧ exec (.min c ty d a b) s = two (vMin ty) ∧ exec (.max c ty d a b) s = two (vMax ty))

/-- R363, R364, R368, R397, R412: BFI, BFX, CLZ, POPC, ROT, SHL and SHR complete, in the class of the integer words. R369, R389, R412: CMP,
SEL and the forms of KOP complete, in the class of the integer words: a comparison writes 1 or 0, SEL chooses by each thread's predicate,
KOP combines predicates, KOP.GET reads one beat's bits and KOP.PUT writes one beat's. R398, R401, R378: MUL and MAD complete in 6 cycles
with 24-bit factors and in 15 with 32-bit ones, DOT4 in 9. -/
def Obligations.BitAndMultiplyWordsComplete : Prop :=
  (∀ (s : State) (c : Ctl) (ty : Ty) (right : Bool) (d a b e : Opd) (v : View),
    let fin (us : List Use) (wide : Bool) (f : Nat → BitVec 64) : Host.Outcome State Fault Refusal :=
      .next (v.laneDone (runsOnce d) us uLane 6 3 4 0 (v.results d wide f))
    let w (o : Opd) (t : Nat) : Word := v.word o t
    (s.issuer c (runsOnce d) [wr d, rd a, rd b, rd e] = some v →
      exec (.bfi c ty d a b e) s = fin [wr d, rd a, rd b, rd e] false fun t => (vBfi (w a t) (w b t) (w e t)).setWidth 64)
    ∧ (s.issuer c (runsOnce d) [wr d, rd a, rd b] = some v →
      (exec (.bfx c ty d a b) s = fin [wr d, rd a, rd b] false fun t => (vBfx ty (w a t) (w b t)).setWidth 64)
        ∧ exec (.rot c ty right d a b) s = fin [wr d, rd a, rd b] false fun t => (vRot right (w a t) (w b t).toNat).setWidth 64)
    ∧ (s.issuer c (runsOnce d) [wr d, rdT ty.wide a] = some v →
      (exec (.clz c ty d a) s = fin [wr d, rdT ty.wide a] false fun t => BitVec.ofNat 64 (vClz ty (v.src ty a t)))
        ∧ exec (.popc c ty d a) s = fin [wr d, rdT ty.wide a] false fun t => BitVec.ofNat 64 (popCount 64 (v.src ty a t).toNat))
    ∧ (s.issuer c (runsOnce d) [wrT ty.wide d, rdT ty.wide a, rd b] = some v →
      (exec (.shl c ty d a b) s = fin [wrT ty.wide d, rdT ty.wide a, rd b] ty.wide fun t => vShl ty (v.src ty a t) (w b t).toNat)
        ∧ exec (.shr c ty d a b) s = fin [wrT ty.wide d, rdT ty.wide a, rd b] ty.wide fun t => vShr ty (v.src ty a t) (w b t).toNat))
  ∧ (∀ (s : State) (c : Ctl) (ty : Ty) (q : Cond) (op : KopOp) (d a b e : Opd) (v : View),
    let fin (us : List Use) (ws : List RegW) : Host.Outcome State Fault Refusal := .next (v.laneDone (runsOnce d) us uLane 6 3 4 0 ws)
    (s.issuer c (runsOnce d) [wr d, rdT ty.wide a, rdT ty.wide b] = some v →
      exec (.cmp c q ty d a b) s = fin [wr d, rdT ty.wide a, rdT ty.wide b]
        (v.results d false fun t => if vCmp q ty (v.src ty a t) (v.src ty b t) then 1 else 0))
    ∧ (s.issuer c (runsOnce d) [wrT ty.wide d, rdT ty.wide a, rdT ty.wide b, rd e] = some v →
      exec (.sel c ty d a b e) s = fin [wrT ty.wide d, rdT ty.wide a, rdT ty.wide b, rd e]
        (v.results d ty.wide fun t => if v.kbit e t then v.src ty a t else v.src ty b t))
    ∧ (s.issuer c (runsOnce d) [wr d, rd a, rd b] = some v →
      exec (.kop c op d a b) s = fin [wr d, rd a, rd b]
        (v.results d false fun t => if kopBit op (v.kbit a t) (v.kbit b t) then 1 else 0))
    ∧ (s.issuer c (runsOnce d) [wr d, rd a] = some v →
      exec (.kopGet c d a b) s = fin [wr d, rd a] (v.results d false fun _ =>
        BitVec.ofNat 64 ((List.range 32).foldl (fun m l => if v.kbit a (32 * (v.word b 0).toNat + l) then m + 2 ^ l else m) 0)))
    ∧ (s.issuer c false [wr d, rd a, rd b] = some v →
      exec (.kopPut c d a b) s = .next (v.laneDone false [wr d, rd a, rd b] uLane 6 3 4 0
        ((v.threads.filter fun t => t / 32 == (v.word b 0).toNat).flatMap fun t =>
          writeTo d false t (if (v.word a t).getLsbD (t % 32) then 1 else 0)))))
  ∧ (∀ (s : State) (c : Ctl) (ty : Ty) (wide hi bs as u : Bool) (d a b e : Opd) (v : View),
    let w (o : Opd) (t : Nat) : Word := v.word o t
    (s.issuer c (runsOnce d) [wr d, rd a, rd b] = some v →
      exec (.mul c ty wide hi d a b) s = .next (v.laneDone (runsOnce d) [wr d, rd a, rd b] uLane (if wide then 15 else 6) (if wide then 12 else 3) 4 0
        (v.results d false fun t => (vMul ty wide hi (w a t) (w b t)).setWidth 64)))
    ∧ (s.issuer c (runsOnce d) [wr d, rd a, rd b, rd e] = some v →
      (exec (.mad c ty wide d a b e) s = .next (v.laneDone (runsOnce d) [wr d, rd a, rd b, rd e] uLane (if wide then 15 else 6) (if wide then 12 else 3) 4 0
        (v.results d false fun t => (vMul ty wide false (w a t) (w b t) + w e t).setWidth 64)))
      ∧ exec (.dot4 c bs as u d a b e) s = .next (v.laneDone (runsOnce d) [wr d, rd a, rd b, rd e] uLane 9 3 4 0
        (v.results d false fun t => (vDot4 bs as u (w a t) (w b t) (w e t)).setWidth 64))))

/-- R111, R355, R397, R412: in each element of every integer type, ADD and SUB give the exact sum and difference wrapped or saturated, NEG
and ABS the exact negation and magnitude so held, MIN and MAX the lesser and the greater element. R364, R368, R397, R398, R401, R412: shifts
and rotates are those of the word, a count of the width or more included; 32-bit products keep the low or the high word; CLZ counts the
zeros above the highest 1; a bit field is read with its sign. -/
def Obligations.IntegerValues : Prop :=
  (∀ (ty : Ty) (sat : Bool) (x y : BitVec 64) (i : Nat), intType ty = true → i < elemCount ty →
    let a := elemInt ty x i
    let b := elemInt ty y i
    let held := heldValue (tySigned ty) (tyBits ty) sat
    elemInt ty (vAdd ty sat x y) i = held (a + b) ∧ elemInt ty (vSub ty sat x y) i = held (a - b)
      ∧ elemInt ty (vNeg ty sat x) i = held (-a) ∧ elemInt ty (vAbs ty sat x) i = held (a.natAbs : Int)
      ∧ elemInt ty (vMin ty x y) i = min a b ∧ elemInt ty (vMax ty x y) i = max a b)
  ∧ (∀ (x y : Word) (q : BitVec 64) (n : Nat),
    vShl .u32 (x.setWidth 64) n = (x <<< n).setWidth 64 ∧ vShl .u64 q n = q <<< n
      ∧ vShr .u32 (x.setWidth 64) n = (x >>> n).setWidth 64 ∧ vShr .i32 (x.setWidth 64) n = (x.sshiftRight n).setWidth 64
      ∧ vShr .u64 q n = q >>> n ∧ vShr .i64 q n = q.sshiftRight n
      ∧ vRot true x n = x.rotateRight n ∧ vRot false x n = x.rotateLeft n
      ∧ vMul .u32 true false x y = x * y ∧ vMul .i32 true false x y = x * y
      ∧ vMul .u32 true true x y = (x.setWidth 64 * y.setWidth 64).extractLsb' 32 32
      ∧ vMul .i32 true true x y = (x.signExtend 64 * y.signExtend 64).extractLsb' 32 32
      ∧ (vClz .u32 (x.setWidth 64) = 32 ↔ x = 0)
      ∧ (x ≠ 0 → x.getLsbD (31 - vClz .u32 (x.setWidth 64)) = true ∧ ∀ k, 31 - vClz .u32 (x.setWidth 64) < k → x.getLsbD k = false)
      ∧ popCount 64 q.toNat = ((List.range 64).filter fun k => q.getLsbD k).length
      ∧ (0 < n → n ≤ 32 → vBfx .u32 x (BitVec.ofNat 32 (256 * n)) = (x.setWidth n).setWidth 32
          ∧ vBfx .i32 x (BitVec.ofNat 32 (256 * n)) = (x.setWidth n).signExtend 32))

/-- R380 to R386: the FP words of the lanes complete: FADD, FSUB, FMUL, FMA, FRND and CVT in 9 cycles, FMIN, FMAX, FCMP, FCLASS and FSCL in
6 (4 where the word runs once). Results and flags land together (R118). R76, R77, R119, R381: the special-function words complete: 24
cycles, FSIN and FCOS 30, in both forms; the unit is taken for 12, or 4 where the word runs once. -/
def Obligations.FloatWordsComplete : Prop :=
  (∀ (s : State) (c : Ctl) (q : Cond) (r : Rnd) (dty sty : Ty) (d a b e : Opd) (v : View),
    let x (o : Opd) (t : Nat) : Word := v.float o t
    let fin (us : List Use) (lat : Nat) (f : Nat → Word × Flags) : Host.Outcome State Fault Refusal :=
      .next (v.laneDone (runsOnce d) us uLane lat 3 4 0 (v.flagged d f))
    let one := [wr d, rd a]
    let two := [wr d, rd a, rd b]
    let three := [wr d, rd a, rd b, rd e]
    (s.issuer c (runsOnce d) two = some v →
      exec (.fadd c d a b) s = fin two 9 (fun t => add32 (x a t) (x b t)) ∧ exec (.fsub c d a b) s = fin two 9 (fun t => sub32 (x a t) (x b t))
        ∧ exec (.fmul c d a b) s = fin two 9 (fun t => mul32 (x a t) (x b t))
        ∧ exec (.fmin c d a b) s = fin two 6 (fun t => fmin32 (x a t) (x b t)) ∧ exec (.fmax c d a b) s = fin two 6 (fun t => fmax32 (x a t) (x b t))
        ∧ exec (.fcmp c q d a b) s = fin two 6 (fun t => (if (fcmp32 q (x a t) (x b t)).1 then 1 else 0, (fcmp32 q (x a t) (x b t)).2))
        ∧ exec (.fscl c d a b) s = fin two 6 (fun t => scl32 (x a t) (v.word b t).toInt)
        ∧ exec (.fclass c d a b) s = fin two 6 (fun t =>
            (if d.isK then (if fclass32 (x a t) &&& v.word b t = 0 then 0 else 1) else fclass32 (x a t), 0)))
    ∧ (s.issuer c (runsOnce d) three = some v → exec (.fma c d a b e) s = fin three 9 fun t => fma32 (x a t) (x b t) (x e t))
    ∧ (s.issuer c (runsOnce d) one = some v → exec (.frnd c r d a) s = fin one 9 fun t => frnd32 r (x a t))
    ∧ (s.issuer c (runsOnce d) [wrT dty.wide d, rdT sty.wide a] = some v →
        exec (.cvt c r dty sty d a) s = .next (v.laneDone (runsOnce d) [wrT dty.wide d, rdT sty.wide a] uLane 9 3 4 0
          ((v.doers d).flatMap fun t =>
            writeTo d dty.wide t (cvtElem r dty sty (v.cvtSrc sty a t)).1 ++ flagW t (cvtElem r dty sty (v.cvtSrc sty a t)).2))))
  ∧ (∀ (s : State) (c : Ctl) (d a b : Opd) (v : View),
    let fin (us : List Use) (lat : Nat) (f : Nat → Word × Flags) : Host.Outcome State Fault Refusal :=
      .next (v.laneDone (runsOnce d) us uSfu lat 12 lat 4 (v.flagged d f))
    let one (lat : Nat) (f : Word → Word × Flags) := fin [wr d, rd a] lat fun t => f (v.float a t)
    (s.issuer c (runsOnce d) [wr d, rd a] = some v →
      exec (.frcp c d a) s = one 24 rcp32 ∧ exec (.fsqrt c d a) s = one 24 sqrt32 ∧ exec (.frsq c d a) s = one 24 rsqrt32
        ∧ exec (.fexp2 c d a) s = one 24 exp2_32 ∧ exec (.flog2 c d a) s = one 24 log2_32 ∧ exec (.ftanh c d a) s = one 24 tanh32
        ∧ exec (.fsin c d a) s = one 30 (trig32 false) ∧ exec (.fcos c d a) s = one 30 (trig32 true))
    ∧ (s.issuer c (runsOnce d) [wr d, rd a, rd b] = some v →
      exec (.fdiv c d a b) s = fin [wr d, rd a, rd b] 24 fun t => div32 (v.float a t) (v.float b t)))

/-- R114, R120, R377, R384: an FP result that is a NaN is the canonical one of its format, and a NaN operand gives it in every word but FMIN
and FMAX, which return the other operand, and the canonical NaN for two NaNs; CVT of a NaN to E2M1 or an integer type gives 0. IV is raised
for a signalling NaN, and −0 is the lesser zero. -/
def Obligations.FloatNaNs : Prop :=
  (∀ (x y z : Word) (k : Int) (r : Rnd),
    (∀ f ∈ [sqrt32, rcp32, rsqrt32, exp2_32, log2_32, tanh32, trig32 false, trig32 true, frnd32 r, fun a => scl32 a k],
      (isNaN x = true → f x = (cnan, if isSNaN x = true then fIV else 0)) ∧ (isNaN (f x).1 = true → (f x).1 = cnan))
    ∧ (∀ f ∈ [add32, sub32, mul32, div32, fun a b => fma32 a b z, fun a b => fma32 z a b],
      (isNaN x = true ∨ isNaN y = true → (f x y).1 = cnan) ∧ (isNaN (f x y).1 = true → (f x y).1 = cnan)
        ∧ (isSNaN x = true ∨ isSNaN y = true → (f x y).2 = fIV))
    ∧ (∀ f ∈ [fmin32, fmax32],
      (isNaN x = true → isNaN y = true → (f x y).1 = cnan) ∧ (isNaN x = true → isNaN y = false → (f x y).1 = y ∧ (f y x).1 = y)
        ∧ (isNaN x = false → isNaN y = false → (f x y).1 = x ∨ (f x y).1 = y)
        ∧ (f x y).2 = if isSNaN x = true ∨ isSNaN y = true then fIV else 0)
    ∧ ∀ c : Cond, (fcmp32 c x y).2 = if isSNaN x = true ∨ isSNaN y = true then fIV else 0)
  ∧ (fmin32 0x80000000 0).1 = 0x80000000 ∧ (fmin32 0 0x80000000).1 = 0x80000000
  ∧ (fmax32 0x80000000 0).1 = 0 ∧ (fmax32 0 0x80000000).1 = 0
  ∧ (∀ (r : Rnd) (sty dty : Ty) (g : Fmt) (b : Bool) (q : BitVec 64), tyFmt sty = some g → g.value (q.toNat % 2 ^ tyBits sty) = .nan b →
    (cvtElem r .f32 sty q).1 = 0x7FC00000 ∧ (cvtElem r .f16 sty q).1 = 0x7E00 ∧ (cvtElem r .bf16 sty q).1 = 0x7FC0
      ∧ (cvtElem r .e5m2 sty q).1 = 0x7E ∧ (cvtElem r .e4m3 sty q).1 = 0x7F ∧ cvtElem r .e2m1 sty q = (0, fIV)
      ∧ (tyFmt dty = none → cvtElem r dty sty q = (0, fIV)))
  ∧ ∀ (r : Rnd) (sty dty : Ty) (f : Fmt) (b : Bool) (q : BitVec 64), tyFmt dty = some f → f.value (cvtElem r dty sty q).1.toNat = .nan b →
    (cvtElem r dty sty q).1 = BitVec.ofNat 64 f.nanCode

/-! ## Issue, faults, traps and returns -/

/-- R9, R65, R68, R335: the threads of a word are the launched ones that are active and predicated on; its leader is the lowest of them, and
thread 0 without one; a word whose destination is scalar runs for its leader alone. -/
def Obligations.LeaderOfAWord : Prop :=
  ∀ (s : State) (c : Ctl) (v : View), s.view c = some v →
    (∀ t, t ∈ v.threads ↔ t < v.st.threads ∧ v.st.cur.am.getLsbD t = true ∧ (v.st.getK c.k.toNat t != c.neg) = true)
    ∧ v.threads.Pairwise (fun x y => x < y)
    ∧ (∀ t ∈ v.threads, v.leader ∈ v.threads ∧ v.leader ≤ t) ∧ (v.threads = [] → v.leader = 0)
    ∧ ∀ n wide f, v.results (.s n) wide f = writeTo (.s n) wide v.leader (f v.leader)

/-- R66: a strand holds v0 to v(nv − 1), s0 to s(ns − 4) with s61 to s63, q0 to q(nq − 1), and every predicate, counter, accumulator and
shape register; a word that names another register takes ILLOP, whatever it is, and the record names every lane. -/
def Obligations.OutsideAllotment : Prop :=
  (∀ (r : Regs) (n : BitVec 8) (m : BitVec 6) (q : BitVec 2) (g : BitVec 3) (k : Nat) (p : Bool),
      r.holds ⟨.v n, k, p⟩ = decide (n.toNat + k ≤ r.nv) ∧ r.holds ⟨.s m, k, p⟩ = decide (61 ≤ m.toNat ∨ m.toNat + k + 3 ≤ r.ns)
        ∧ r.holds ⟨.q q, k, p⟩ = decide (q.toNat < r.nq) ∧ r.holds ⟨.k g, k, p⟩ = true ∧ r.holds ⟨.lc q, k, p⟩ = true
        ∧ r.holds ⟨.acc q, k, p⟩ = true ∧ r.holds ⟨.g g, k, p⟩ = true)
  ∧ (∀ (st : Strand) (w : Addr),
      (faultRecord st w { cause := .illop, threads := List.range 96 }).extractLsb' 32 32 = 0xFFFFFFFF
        ∧ (faultRecord st w { cause := .illop, threads := List.range 96 }).extractLsb' 0 8 = 1)
  ∧ (∀ (s : State) (c : Ctl) (uni : Bool) (us : List Use) (body : View → Except Trap Act) (v : View),
      s.view c = some v → us.all v.st.cur.holds = false →
      issue s c uni us body = .next (({ s with seq := s.seq + 1 } : State).trap v.c v.i v.st.pc (wordLen us)
        { cause := .illop, threads := List.range 96 }))
  ∧ ∀ (s : State) (i : Instr) (v : View), i.wellFormed = true → s.view (ctlOf i) = some v → (wordUses i).all v.st.cur.holds = false →
      exec i s = .next (({ s with seq := s.seq + 1 } : State).trap v.c v.i v.st.pc (encodeBytes i).length
        { cause := .illop, threads := List.range 96, slotY := slotXHeld v.st.cur i })

/-- R67: under k0 a uniform or control word always executes, under another predicate if and only if it is true for some active thread; one
that does not execute has no effect but its issue. A word with a scalar destination runs once. -/
def Obligations.UniformWordsSkip : Prop :=
  ∀ (s : State) (c : Ctl) (us : List Use) (body : View → Except Trap Act) (v : View),
    s.view c = some v → us.all v.st.cur.holds = true →
    (v.threads = [] → ¬(c.k = 0 ∧ c.neg = false) → issue s c true us body = .next (v.after id id (v.moved (wordLen us))))
    ∧ (v.threads ≠ [] ∨ c.k = 0 ∧ c.neg = false → v.badThreads true us = [] → s.issuer c true us = some v)
    ∧ (∀ n, v.doers (.s n) = [v.leader] ∧ runsOnce (.s n) = true)
    ∧ ∀ i : Instr, i.wellFormed = true → uniformWord i = true → ctlOf i = c → (wordUses i).all v.st.cur.holds = true →
        v.threads = [] → ¬(c.k = 0 ∧ c.neg = false) → exec i s = .next (v.after id id (v.moved (encodeBytes i).length))

/-- R74, R82, R83: at the last word of an active loop's body a count above 1 falls by 1 and the first body word is next; else the count
becomes 0, the loop is over, and an enclosing loop that ends at the same word takes its turn. The writes land together at issue + 1. At any
other word of the body, and in a handler, no loop acts; a loop whose body the word lies beyond is over. A word with the hold bit also parks
its strand. -/
def Obligations.LoopBack : Prop :=
  ∀ (v : View) (len : Nat) (st : Strand) (l : LoopSt) (ls : List LoopSt), st.loops = l :: ls → 0 < len →
    let count (x : LoopSt) : Word := smGet st.lc x.ctr
    let held (x : Strand) : Strand := if v.ctl.hold then x.parked .hold else x
    let next : Addr := st.pc + BitVec.ofNat 64 len
    let goes (pc : Addr) (loops : List LoopSt) (ws : List RegW) : Strand :=
      held { st with lastWord := st.pc, pc := pc, loops := loops, pend := st.pend ++ [⟨v.seq, some (v.now + 1), true, ws⟩] }
    let beyond (xs : List LoopSt) : Prop := ∀ x ∈ xs, st.pc.toNat + len ≤ x.last.toNat
    (st.inHandler = false → l.last = st.pc →
      (1 < (count l).toNat → v.moved len st = goes l.first (l :: ls) [.lc l.ctr (count l - 1)])
      ∧ ((count l).toNat ≤ 1 → beyond ls → v.moved len st = goes next ls [.lc l.ctr 0])
      ∧ ∀ m rest, (count l).toNat ≤ 1 → ls = m :: rest → m.last = st.pc →
        (1 < (count m).toNat → v.moved len st = goes m.first ls [.lc l.ctr 0, .lc m.ctr (count m - 1)])
        ∧ ((count m).toNat ≤ 1 → beyond rest → v.moved len st = goes next rest [.lc l.ctr 0, .lc m.ctr 0]))
    ∧ (st.inHandler = false → l.last.toNat < st.pc.toNat → v.moved len st = v.moved len { st with loops := ls })
    ∧ (st.inHandler = false → beyond (l :: ls) → v.moved len st = held { st with lastWord := st.pc, pc := next })
    ∧ (st.inHandler = true → v.moved len st = held { st with lastWord := st.pc, pc := next })

/-- R289: the bytes of the fault record. -/
def Obligations.FaultRecordLayout : Prop :=
  ∀ (st : Strand) (w : Addr) (f : Trap),
    let r := faultRecord st w f
    r.extractLsb' 0 8 = BitVec.ofNat 8 f.cause.code
      ∧ r.getLsbD 8 = f.engine.isSome ∧ r.getLsbD 9 = st.inHandler ∧ r.getLsbD 10 = f.slotY ∧ r.extractLsb' 11 5 = 0
      ∧ r.extractLsb' 19 5 = 0
      ∧ r.extractLsb' 24 8 = (match f.engine with
          | some .copy => 0 | some .gather => 1 | some .ring => 2 | some .matrix => 3 | some .coll => 4 | some .fabric => 5 | none => 0xFF)
      ∧ r.extractLsb' 64 32 = st.regioncnt ∧ r.extractLsb' 96 32 = f.code ∧ r.extractLsb' 128 64 = w
      ∧ r.extractLsb' 192 64 = (if f.cause ∈ [.apert, .misalign, .perm, .xlate, .memunc] then f.addr else 0)
      ∧ ((∀ t ∈ f.threads, t < 96) →
          (∀ l, l < 32 → r.getLsbD (32 + l) = f.threads.any fun t => t % 32 == l)
          ∧ ∀ b, b < 3 → r.getLsbD (16 + b) = f.threads.any fun t => t / 32 == b)

/-- R285, R286: among the faults of single threads the cause of the lowest priority number is recorded, with exactly the threads that raised
it and the address of the first of them. -/
def Obligations.WorstFaultRecorded : Prop :=
  ∀ (fs : List (Nat × Cause × Addr)), fs ≠ [] → ∃ f : Trap, worst fs = .error f
    ∧ (∀ x ∈ fs, f.cause.priority ≤ x.2.1.priority) ∧ (∃ x ∈ fs, x.2.1 = f.cause)
    ∧ f.threads = (fs.filter fun x => x.2.1 = f.cause).map (·.1)
    ∧ (fs.filter fun x => x.2.1 = f.cause).head?.map (·.2.2) = some f.addr

/-- R291, R292: TRAP takes TRAPSW: with a trap vector and outside a handler the strand enters the handler at the vector, its record holding
the cause 14, the leader and the code's low byte; inside a handler, or without a vector, the strand ends. R283, R291, R307: a fault taken by a
strand: MEMUNC ends it; a loose strand's first XLATE parks it for service and posts the event, unless its page is host memory of an address
space without a PASID; any other, outside a handler and with a vector, enters the handler. Memory and every other strand are as before. -/
def Obligations.FaultsTaken : Prop :=
  (∀ (s : State) (c : Ctl) (a : Opd) (v : View), s.issuer c true [rd a] = some v →
    let f : Trap := { cause := .trapsw, threads := [v.leader], code := v.word a v.leader &&& 0xFF }
    let r := faultRecord v.st v.st.pc f
    (v.st.inHandler = false → v.st.tvec ≠ 0 →
      exec (.trap c a) s = .next (v.after id id fun st =>
        { st with frec := r, inHandler := true, fword := v.st.pc, flen := wordLen [rd a], waits := [], pc := v.st.tvec }))
    ∧ (v.st.inHandler = true ∨ v.st.tvec = 0 →
      exec (.trap c a) s = .next (v.after id id fun st =>
        { st with
          frec := r, waits := [], late := []
          ended := some { at_ := s.now, region := v.st.regioncnt, code := 14, beats := BitVec.ofNat 3 (2 ^ (v.leader / 32)), byExit := false,
                          word := v.st.pc, departed := false, stored := false } })))
  ∧ (∀ (s : State) (c i : Nat) (b : Blk) (st : Strand) (w : Addr) (len : Nat) (f : Trap),
    s.blk c = some b → s.strand c i = some st → st.inHandler = false → st.tvec ≠ 0 →
    let t := s.trap c i w len f
    (f.cause = .memunc → ∃ u, t.strand c i = some u ∧ u.ended.isSome = true ∧ u.frec = faultRecord st w f ∧ u.pend = st.pend)
    ∧ (f.cause = .xlate → b.loose = true → f.serviced = false → s.unserved b.asid f.addr = false →
        t.strand c i = some { st with waits := [.xlate none w len f], lastWord := w }
        ∧ ∃ e, t.host.waiting = s.host.waiting ++ [e] ∧ e.1 = 1 ∧ e.2.2 = (c, i))
    ∧ (f.cause ≠ .memunc → f.cause ≠ .xlate ∨ b.loose = false ∨ f.serviced = true ∨ s.unserved b.asid f.addr = true →
        t.strand c i = some { st with frec := faultRecord st w f, inHandler := true, fword := w, flen := len, waits := [], pc := st.tvec }
        ∧ t.host = s.host)
    ∧ s.sameMemory t ∧ ∀ x j, (x, j) ≠ (c, i) → t.strand x j = s.strand x j)

/-- R292, R293: in a handler RETT.NEXT goes on after the faulting word and RETT.REGION parks for the region's restart; outside one REGION
records its entry and snapshot; each in the wrong place is ILLMOD. R85, R86, R109, R379: EXIT ends its strand, results in flight still to
land; ROLE changes to the other allotment at its resume address, the one left keeping its registers and the next word's address; without
another allotment it is ILLOP, in a handler or a loop ILLMOD. -/
def Obligations.HandlerExitRoleWordsComplete : Prop :=
  (∀ (s : State) (c : Ctl) (v : View), s.issuer c true [] = some v →
    let fault : Host.Outcome State Fault Refusal :=
      .next (({ s with seq := s.seq + 1 } : State).trap v.c v.i v.st.pc 8 { cause := .illmod, threads := [v.leader] })
    (v.st.inHandler = true →
      exec (.rettNext c) s = .next (v.after id id fun st =>
        { v.moved 8 st with inHandler := false, pc := v.st.fword + BitVec.ofNat 64 v.st.flen })
      ∧ exec (.rettRegion c) s = .next (v.after id id fun st => { (v.moved 8 st).parked .region with inHandler := false })
      ∧ exec (.region c) s = fault)
    ∧ (v.st.inHandler = false →
      exec (.rettNext c) s = fault ∧ exec (.rettRegion c) s = fault
      ∧ exec (.region c) s = .next (v.after id id fun st =>
          v.owes (v.now + 4) [.regionInc] { v.moved 8 st with entry := v.st.pc + 8, snap := ⟨v.st.lc, v.st.enclosing, v.st.tl⟩ })))
  ∧ (∀ (s : State) (c : Ctl) (v : View), s.issuer c true [] = some v →
    exec (.exit c) s = .next (v.after id id fun st =>
      { v.moved 8 st with
        waits := [], late := []
        ended := some { at_ := v.now, region := (v.moved 8 st).regioncnt, code := 0, beats := 0, byExit := true, word := v.st.pc,
                        departed := false, stored := false } })
    ∧ (∀ other, v.st.alt = some other → v.st.inHandler = false → v.st.enclosing = [] →
      exec (.role c) s = .next (v.after id id fun st =>
        let u := v.moved 8 st
        { u with alt := some { u.cur with resume := v.st.pc + 8 }, cur := other, curIx := !u.curIx, pc := other.resume, entry := other.resume }))
    ∧ (v.st.alt = none →
      exec (.role c) s = .next (({ s with seq := s.seq + 1 } : State).trap v.c v.i v.st.pc 8 { cause := .illop, threads := [v.leader] }))
    ∧ (v.st.alt ≠ none → v.st.inHandler = true ∨ v.st.enclosing ≠ [] →
      exec (.role c) s = .next (({ s with seq := s.seq + 1 } : State).trap v.c v.i v.st.pc 8 { cause := .illmod, threads := [v.leader] })))

/-- R298: STEP raises stepcnt by 1 at issue + 4 and takes no unit; without a thread to execute for it does nothing; a strand starts with 0. -/
def Obligations.StepCounts : Prop :=
  ∀ (s : State) (c : Ctl) (v : View),
    (s.issuer c true [] = some v → exec (.step c) s = .next (v.after id id fun st => v.owes (v.now + 4) [.stepInc] (v.moved 8 st)))
    ∧ (s.view c = some v → v.threads = [] → ¬(c.k = 0 ∧ c.neg = false) → exec (.step c) s = .next (v.after id id (v.moved 8)))
    ∧ (∀ st : Strand, st.apply .stepInc = { st with stepcnt := st.stepcnt + 1 })
    ∧ ∀ threads cur alt g, (initStrand threads cur alt g).stepcnt = 0

/-! ## Control and system words -/

/-- R343, R365, R367, R388, R405: NOP only advances; BRA, JMP, CALL and RET go to their targets, and CALL's return address lands at issue +
4. R81, R83, R84, R394: LOOP writes its count at issue + 1 and makes its body active, or with a count of 0 goes past it; LBRK ends the
innermost loop and goes past its body; a LOOP or LBRK that R83 forbids is ILLMOD. -/
def Obligations.JumpAndLoopWordsComplete : Prop :=
  (∀ (s : State) (c : Ctl) (disp : Word) (d a : Opd) (v : View),
    (s.issuer c true [] = some v → exec (.nop c) s = .next (v.after id id (v.moved 8)))
    ∧ (s.issuer c true [rd (.lit32 disp)] = some v →
        exec (.bra c disp) s = .next (v.after id id (v.jumped 12 (v.st.pc + disp.signExtend 64))))
    ∧ (s.issuer c true [rd2 a] = some v →
        exec (.jmp c a) s = .next (v.after id id (v.jumped (wordLen [rd2 a]) (v.quad false a v.leader)))
        ∧ exec (.ret c a) s = .next (v.after id id (v.jumped (wordLen [rd2 a]) (v.quad false a v.leader))))
    ∧ (s.issuer c true [wrN d 2, rd2 a] = some v →
        let len := wordLen [wrN d 2, rd2 a]
        let dest := match a with | .lit32 x => v.st.pc + x.signExtend 64 | o => v.quad false o v.leader
        exec (.call c d a) s = .next (v.after id id fun st =>
          v.owes (v.now + 4) (writeTo d true v.leader (v.st.pc + BitVec.ofNat 64 len)) (v.jumped len dest st))))
  ∧ (∀ (s : State) (c : Ctl) (n : BitVec 2) (a : Opd) (disp : Word) (v : View),
    let us := [wr (.lc n), rd a, rd (.lit32 disp)]
    let first := v.st.pc + BitVec.ofNat 64 (wordLen us)
    let last := v.st.pc + disp.signExtend 64
    let after := last + BitVec.ofNat 64 (v.codeLen last)
    let fits := match v.st.enclosing with | [] => after.toNat - first.toNat ≤ 2048 | l :: _ => last.toNat ≤ l.last.toNat
    let fault (len : Nat) : Host.Outcome State Fault Refusal :=
      .next (({ s with seq := s.seq + 1 } : State).trap v.c v.i v.st.pc len { cause := .illmod, threads := [v.leader] })
    (s.issuer c true us = some v → v.st.inHandler = false → first.toNat ≤ last.toNat → v.st.enclosing.length < 3 →
        (∀ l ∈ v.st.enclosing, l.ctr ≠ n.toNat) → fits →
        (v.word a v.leader ≠ 0 → exec (.loop c (.lc n) a disp) s = .next (v.after id id fun st =>
            let u := v.owes (v.now + 1) [.lc n.toNat (v.word a v.leader)] (v.moved (wordLen us) st)
            { u with loops := ⟨n.toNat, first, last⟩ :: u.loops }))
        ∧ (v.word a v.leader = 0 → exec (.loop c (.lc n) a disp) s = .next (v.after id id fun st =>
            v.owes (v.now + 1) [.lc n.toNat 0] (v.jumped (wordLen us) after st))))
    ∧ (s.issuer c true us = some v →
        v.st.inHandler = true ∨ last.toNat < first.toNat ∨ 3 ≤ v.st.enclosing.length ∨ (∃ l ∈ v.st.enclosing, l.ctr = n.toNat) ∨ ¬ fits →
        exec (.loop c (.lc n) a disp) s = fault (wordLen us))
    ∧ (s.issuer c true [] = some v →
        (∀ l ls, v.st.inHandler = false → v.st.enclosing = l :: ls → exec (.lbrk c) s = .next (v.after id id fun st =>
            v.owes (v.now + 1) [.lc l.ctr 0] (v.jumped 8 (l.last + BitVec.ofNat 64 (v.codeLen l.last)) st)))
        ∧ (v.st.inHandler = true ∨ v.st.enclosing = [] → exec (.lbrk c) s = fault 8)))

/-- R105 to R107: the clasp words take effect at issue + 4, and CLASP.WAIT parks its strand, in fixed discipline with the deadline of its
limit. An INIT of a clasp in use, or with a mask or count that R105 does not allow, is ILLMOD, as is an arrival that the clasp does not await,
of CLASP.ARR and CLASP.WAIT alike (what a strand's own arrival in flight makes of that is the model's reading, log entry 62), and any word of
a clasp that the block does not hold. R103, R428, R429: TNEXT gives its strand the next entry of the block's table, or writes 1 to its
predicate after the last; UNTIL parks for an Accord time still to come; VNT changes the named islands at issue + 4. R299 to R301, R422, R423:
PREM does nothing unless a cut is pending at its strand's step count, or in fixed discipline in the last frame of the slice, where the strand
parks before it; the PREM that a restored strand reissues does nothing (R302); SYSR and SYSW land at issue + 4. -/
def Obligations.ClaspAndSystemWordsComplete : Prop :=
  (∀ (s : State) (c : Ctl) (a b e : Opd) (v : View) (k : Clasp),
    let n := (v.word a v.leader).toNat
    let mask := v.word b v.leader
    let extra := (v.word e v.leader).toNat
    let queue (x : ClaspEff) (k : Core) : Core := { k with claspQ := k.claspQ ++ [⟨v.seq, v.now + 4, n, x⟩] }
    let live (i : Nat) : Bool := match v.b.slots[i]? with | some st => st.ended.isNone | none => false
    let fault (len : Nat) : Host.Outcome State Fault Refusal :=
      .next (({ s with seq := s.seq + 1 } : State).trap v.c v.i v.st.pc len { cause := .illmod, threads := [v.leader] })
    (aGet v.b.clasps n = none →
      (s.issuer c true [rd a, rd b, rd e] = some v → exec (.claspInit c a b e) s = fault (wordLen [rd a, rd b, rd e]))
      ∧ (s.issuer c true [rd a] = some v → exec (.claspArr c a) s = fault (wordLen [rd a]))
      ∧ (s.issuer c true [rd a, rd b] = some v → exec (.claspWait c a b) s = fault (wordLen [rd a, rd b])))
    ∧ (aGet v.b.clasps n = some k →
    (s.issuer c true [rd a, rd b, rd e] = some v →
        256 ≤ mask.toNat ∨ 16 ≤ extra ∨ (mask = 0 ∧ extra = 0) ∨ (∃ i, i < 8 ∧ mask.getLsbD i = true ∧ live i = false)
          ∨ k.a ≠ 0 ∨ (∃ st ∈ v.b.slots, st.waitsAt n = true) →
        exec (.claspInit c a b e) s = fault (wordLen [rd a, rd b, rd e]))
    ∧ (s.issuer c true [rd a, rd b, rd e] = some v → k.a = 0 → (∀ st ∈ v.b.slots, st.waitsAt n = false) →
        mask.toNat < 256 → extra < 16 → (mask ≠ 0 ∨ extra ≠ 0) → (∀ i, i < 8 → mask.getLsbD i = true → live i = true) →
        exec (.claspInit c a b e) s = .next (v.after (queue (.init (mask.setWidth 8) extra)) id (v.moved (wordLen [rd a, rd b, rd e]))))
    ∧ (s.issuer c true [rd a] = some v → v.mayArrive n k = true →
        exec (.claspArr c a) s = .next (v.after (queue (.arrive v.i)) id (v.moved (wordLen [rd a]))))
    ∧ (s.issuer c true [rd a] = some v → v.mayArrive n k = false →
        exec (.claspArr c a) s = fault (wordLen [rd a]))
    ∧ (s.issuer c true [rd a, rd b] = some v → v.mayArrive n k = false → exec (.claspWait c a b) s = fault (wordLen [rd a, rd b]))
    ∧ (k.m.getLsbD v.i = false ∨ k.a.getLsbD v.i = true → v.mayArrive n k = false)
    ∧ (k.m.getLsbD v.i = true → k.a.getLsbD v.i = false → (∀ q ∈ v.core.claspQ, q.c = n → q.eff ≠ .arrive v.i) → v.mayArrive n k = true)
    ∧ (s.issuer c true [rd a, rd b] = some v → v.mayArrive n k = true →
        let len := wordLen [rd a, rd b]
        let limit := if v.b.loose then none else some (v.now + (v.word b v.leader).toNat)
        exec (.claspWait c a b) s = .next (v.after (queue (.arrive v.i)) id fun st =>
          (v.moved len st).parked (.clasp n limit v.st.pc len v.leader)))))
  ∧ (∀ (s : State) (c : Ctl) (d p a : Opd) (v : View),
    let field (j : Nat) : Nat := smNat v.b.table (8 + 8 * v.b.cursor + 2 * j) 2
    let done (x : BitVec 64) : List RegW := (List.range 96).flatMap fun t => writeTo p false t x
    (s.issuer c true [wrN d 2] = some v →
      (v.b.cursor = v.b.tableN → exec (.tnext c d p) s = .next (v.after id id fun st => v.owes (v.now + 4) (done 1) (v.moved (wordLen [wrN d 2]) st)))
      ∧ (v.b.cursor ≠ v.b.tableN → exec (.tnext c d p) s = .next (v.after id
          (fun b => { b with cursor := b.cursor + 1, coords := some (BitVec.ofNat 16 (field 0), BitVec.ofNat 16 (field 1)) })
          fun st => v.owes (v.now + 4)
            (writeRun d v.leader [BitVec.ofNat 32 (field 0 + 2 ^ 16 * field 1), BitVec.ofNat 32 (field 2 + 2 ^ 16 * field 3)] ++ done 0) (v.moved (wordLen [wrN d 2]) st))))
    ∧ (s.issuer c true [rd2 a] = some v →
      let t := (v.quad false a v.leader).toNat
      (t ≤ s.accord + 1 → exec (.until c a) s = .next (v.after id id (v.moved (wordLen [rd2 a]))))
      ∧ (s.accord + 1 < t → exec (.until c a) s = .next (v.after id id fun st => (v.moved (wordLen [rd2 a]) st).parked (.until t))))
    ∧ (s.issuer c true [rd a] = some v →
      let x := v.word a v.leader
      exec (.vnt c a) s = .next (v.after (fun k => { k with vnt := k.vnt ++ [(v.now + 4, x.extractLsb' 4 4, x.extractLsb' 0 4)] }) id
        (v.moved (wordLen [rd a])))))
  ∧ (∀ (s : State) (c : Ctl) (crown acc : Bool) (n : BitVec 3) (d a b : Opd) (m : BitVec 8) (v : View),
    let x := v.word a v.leader
    (s.issuer c true [rd a, rd2 b] = some v →
      let rs := premRanges n.toNat (v.quad false b v.leader)
      let parks := if v.b.loose then (match s.cutFor v.c with | some k => v.st.stepcnt.toNat == k.target | none => false) else s.lastFrame
      (∀ r ∈ rs, (r.extractLsb' 8 8).toNat + (r.extractLsb' 0 8).toNat + 1 ≤ 256) →
      (parks = false ∨ v.st.passPrem = true → exec (.prem c crown acc n a b) s = .next (v.after id id fun st =>
          { v.moved (wordLen [rd a, rd2 b]) st with passPrem := false }))
      ∧ (parks = true → v.st.passPrem = false → exec (.prem c crown acc n a b) s = .next (v.after id id fun st =>
          (v.jumped (wordLen [rd a, rd2 b]) v.st.pc st).parked (.prem (wordLen [rd a, rd2 b]) c.hold x rs acc crown (!v.b.loose)))))
    ∧ (s.issuer c (runsOnce d) [wr d, rd a] = some v → exec (.sysr c d a) s = .next (v.after id id fun st =>
        v.owes (v.now + 4) (v.results d false fun t => (v.special x.toNat t).setWidth 64) (v.moved (wordLen [wr d, rd a]) st)))
    ∧ (s.issuer c (m != 0x4E) [rd a] = some v →
        let ws : List RegW :=
          if m = 0x4E then v.threads.map fun t => .fstatSet t ((v.word a t).setWidth 6)
          else if m = 0x5C then [.tvecLo x] else if m = 0x5D then [.tvecHi x] else []
        exec (.sysw c (.sp m) a) s = .next (v.after id id fun st => v.owes (v.now + 4) ws (v.moved (wordLen [rd a]) st))))

/-! ## Cross-lane, statistics and shape words -/

/-- R414: each active thread of SHFL takes a from its source thread, and its own where that lies outside the span; results land at issue +
10, the unit is taken for 3 cycles, and the rule's example word is its encoding. -/
def Obligations.ShflMovesValues : Prop :=
  ∀ (s : State) (c : Ctl) (s96 : Bool) (mode : ShflMode) (d a b : Opd) (v : View),
    s.issuer c (runsOnce d) [wr d, rd a, rd b] = some v →
    let source (t : Nat) : Nat :=
      let base := if s96 then 0 else 32 * (t / 32)
      let span := if s96 then 96 else 32
      let i := if s96 then t else t % 32
      let n := (v.word b t).toNat
      let j : Int := match mode with | .idx => n | .up => (i : Int) - n | .down => (i : Int) + n | .xor => ((i ^^^ n : Nat) : Int)
      if 0 ≤ j ∧ j < span then base + j.toNat else t
    exec (.shfl c s96 mode d a b) s = .next (v.laneDone (runsOnce d) [wr d, rd a, rd b] uCross 10 3 10 3
      (v.results d false fun t => (v.word a (source t)).setWidth 64))
    ∧ decode 0x2004_0004_00E0_0700 0 = .ok (.shfl ⟨false, false, 0⟩ true .idx (.v 2) (.v 3) (.inl 0))

/-- R366, R430: BXCH moves values among the three threads of a column; VOTE gives the active threads the vote of those whose predicate is
true, a predicate result going to all 96 threads. Both land at issue + 10. R189 to R192, R197 to R199, R395, R409 to R411, R420: LRED, SCAN,
SCANLR and STRED complete over the segments that R189 and R214 give, each thread with the fixed order's result over its own segment: 22
cycles, SCANLR 26, STRED 40. -/
def Obligations.CrossLaneWordsComplete : Prop :=
  (∀ (s : State) (c : Ctl) (mode : BxMode) (d a b : Opd) (k : BitVec 3) (n : BitVec 8) (v : View),
    let beat (t : Nat) : Nat := match mode with
      | .rot1 => (t / 32 + 1) % 3
      | .rot2 => (t / 32 + 2) % 3
      | .idx => if (v.word b t).toNat ≤ 2 then (v.word b t).toNat else t / 32
    let p := v.threads.filter fun t => v.kbit a t
    (s.issuer c (runsOnce d) [wr d, rd a, rd b] = some v →
      exec (.bxch c mode d a b) s = .next (v.laneDone (runsOnce d) [wr d, rd a, rd b] uCross 10 3 10 3
        (v.results d false fun t => (v.word a (32 * beat t + t % 32)).setWidth 64)))
    ∧ (let value (form : VoteForm) (t : Nat) : Word := match form with
        | .any => if p = [] then 0 else 1
        | .all => if p.length = v.threads.length then 1 else 0
        | .bal => ballot p (t / 32)
        | .cnt => BitVec.ofNat 32 p.length
      ∀ form : VoteForm,
        (s.issuer c false [wr (.k k), rd a] = some v → (form = .any ∨ form = .all) →
          exec (.vote c form (.k k) a) s = .next (v.laneDone false [wr (.k k), rd a] uCross 10 3 10 3
            ((List.range 96).map fun t => .k k.toNat t (value form t == 1))))
        ∧ (s.issuer c false [wr (.v n), rd a] = some v →
          exec (.vote c form (.v n) a) s = .next (v.laneDone false [wr (.v n), rd a] uCross 10 3 10 3
            (v.threads.map fun t => .v n.toNat t (value form t))))
        ∧ ∀ m : BitVec 6,
          (s.issuer c true [wr (.s m), rd a] = some v → form ≠ .bal →
            exec (.vote c form (.s m) a) s = .next (v.laneDone true [wr (.s m), rd a] uCross 10 3 10 3 [.s m.toNat (value form 0)]))
          ∧ (s.issuer c true [wrN (.s m) 3, rd a] = some v →
            exec (.vote c .bal (.s m) a) s = .next (v.laneDone true [wrN (.s m) 3, rd a] uCross 10 3 10 3
              [.s m.toNat (ballot p 0), .s (m.toNat + 1) (ballot p 1), .s (m.toNat + 2) (ballot p 2)]))))
  ∧ (∀ (s : State) (c : Ctl) (g : Seg) (op : RedOp) (d a b e : Opd) (sg : Segs) (v : View),
    let carry : Option Word := if e.isNone then none else some (match op with
      | .fadd => v.float e v.leader | .fmul => v.float e v.leader | .fmin => v.float e v.leader | .fmax => v.float e v.leader
      | _ => v.word e v.leader)
    let pairOf (o : Opd) (t : Nat) : Word × Word := ((v.quad false o t).setWidth 32, (v.quad false o t).extractLsb' 32 32)
    let carry2 : Option (Word × Word) := if e.isNone then none else some (pairOf e v.leader)
    (s.issuer c false [wr d, rd a, rd b] = some v → runsOnce d = false → v.segs g b false = .ok sg →
      exec (.lred c g op d a b) s = .next (v.laneDone false [wr d, rd a, rd b] uCross 22 6 22 6
        ((bySegment sg.head (v.segThreads sg) (v.word a) (tree (redComb op))).flatMap fun p =>
          writeTo d false p.1 ((p.2.getD (redIdentity op)).setWidth 64))))
    ∧ (s.issuer c true [wr d, rd a, rd b] = some v → runsOnce d = true → v.segs g b false = .ok sg →
      exec (.lred c g op d a b) s = .next (v.laneDone true [wr d, rd a, rd b] uCross 22 6 22 6
        (writeTo d false 0 (((tree (redComb op) ((List.range 96).map fun u => if v.on u && u < v.st.threads then some (v.word a u) else none)).getD
          (redIdentity op)).setWidth 64))))
    ∧ (s.issuer c false [wr d, rd a, rd b, rd e] = some v → v.segs g b carry.isSome = .ok sg →
      exec (.scan c g op d a b e) s = .next (v.laneDone false [wr d, rd a, rd b, rd e] uCross 22 6 22 6
        ((bySegment sg.head (v.segThreads sg) (v.word a) (ksScan (redComb op))).flatMap fun p =>
          writeTo d false p.1 (((ext (redComb op) (View.carryFor sg carry p.1) (p.2[p.1]?.join)).getD 0).setWidth 64))))
    ∧ (s.issuer c false [wrN d 2, rd2 a, rd b, rd2 e] = some v → v.segs g b carry2.isSome = .ok sg →
      exec (.scanlr c g d a b e) s = .next (v.laneDone false [wrN d 2, rd2 a, rd b, rd2 e] uCross 26 6 26 6
        ((bySegment sg.head (v.segThreads sg) (pairOf a) (ksScan lrComb)).flatMap fun p =>
          let y := (ext lrComb (View.carryFor sg carry2 p.1) (p.2[p.1]?.join)).getD (0, 0)
          writeRun d p.1 [y.1, y.2])))
    ∧ (s.issuer c false [wr d, rd a, rd b] = some v → v.segs g b false = .ok sg →
      exec (.stred c g d a b) s = .next (v.laneDone false [wr d, rd a, rd b] uStat 40 12 40 12
        ((bySegment sg.head (v.segThreads sg) (v.triple a) (tree mergeTri)).flatMap fun p => writeQ d p.1 (p.2.getD Tri.empty)))))

/-- R188, R197: for an operation that is associative the pairwise tree and the scan give the plain fold: the tree of all the values present,
and at each position of the scan the fold of those up to it. -/
def Obligations.FixedOrdersFold : Prop :=
  ∀ (comb : Word → Word → Word) (xs : List (Option Word)), (∀ x y z, comb (comb x y) z = comb x (comb y z)) → xs.length ≤ 96 →
    tree comb xs = xs.foldl (ext comb) none
    ∧ (ksScan comb xs).length = xs.length
    ∧ ∀ t, t < xs.length → (ksScan comb xs)[t]? = some ((xs.take (t + 1)).foldl (ext comb) none)

/-- R178 to R187, R417 to R419: the statistics words of registers complete: STINIT in 6 cycles, STACC, STACCW, STMRG and STNORM in 18, STFIN
in 30; each active thread's triple is that of its rule. R180, R185, R188: the empty triple is the identity of MERGE on either side, reads as
such, and a triple with a weight of 0 is left alone by STACCW. -/
def Obligations.StatisticsWordsComplete : Prop :=
  (∀ (s : State) (c : Ctl) (d a b e : Opd) (v : View),
    let fin (us : List Use) (f : Nat → Tri) : Host.Outcome State Fault Refusal :=
      .next (v.laneDone false us uStat 18 6 18 6 (v.threads.flatMap fun t => writeQ d t (f t)))
    let norm (t : Nat) : Word :=
      let q := v.triple b t
      normElem (v.float a t) q.mean (triRstd q (v.nth e 2 t)) (v.nth e 0 t) (v.nth e 1 t)
    (s.issuer c false [wr d, rd a] = some v →
      exec (.stinit c d a) s = .next (v.laneDone false [wr d, rd a] uLane 6 3 4 0
        (v.threads.flatMap fun t => writeQ d t (if a.isNone then Tri.empty else stacc Tri.empty (v.float a t)))))
    ∧ (s.issuer c false [wr d, rd a, rd b] = some v →
      exec (.stacc c d a b) s = fin [wr d, rd a, rd b] (fun t => stacc (v.triple a t) (v.float b t))
        ∧ exec (.stmrg c d a b) s = fin [wr d, rd a, rd b] (fun t => mergeTri (v.triple a t) (v.triple b t)))
    ∧ (s.issuer c false [wr d, rd a, rd b, rd e] = some v →
      exec (.staccw c d a b e) s = fin [wr d, rd a, rd b, rd e] fun t => staccw (v.triple a t) (v.float b t) (v.float e t))
    ∧ (s.issuer c (runsOnce d) [wrN d 4, rd a, rd b] = some v →
      exec (.stfin c d a b) s = .next (v.laneDone (runsOnce d) [wrN d 4, rd a, rd b] uStat 30 12 30 12
        ((v.doers d).flatMap fun t => writeRun d t (stfin (v.triple a t) (v.float b t)))))
    ∧ (s.issuer c false [wr d, rd a, rd b, rdN e 3] = some v →
      (runsOnce d = false → exec (.stnorm c none d a b e) s = .next (v.laneDone false [wr d, rd a, rd b, rdN e 3] uStat 18 6 18 6
        (v.threads.flatMap fun t => writeTo d false t ((norm t).setWidth 64))))
      ∧ ∀ g : BitVec 3, let r := v.st.getG g.toNat
        r.valid = true → exec (.stnorm c (some g) d a b e) s = .next (v.laneDone false [wr d, rd a, rd b, rdN e 3] uStat 18 6 18 6
          ((v.threads.filter fun t => r.o.toNat + t < r.total.toNat).flatMap fun t => writeTo d false t ((norm t).setWidth 64)))))
  ∧ (∀ (q : Tri) (x : Word),
    (q.st.getLsbD 3 = true → ∀ p, mergeTri q p = p ∧ (p.st.getLsbD 3 = false → mergeTri p q = p))
    ∧ staccw q x 0 = q ∧ staccw q x 0x80000000 = q
    ∧ (q.st.getLsbD 3 = true → stacc q x = stacc Tri.empty x ∧ ∀ eps, stfin q eps = [cnan, cnan, cnan, cnan])
    ∧ (stacc q x).st.getLsbD 3 = false)

/-- R208, R209, R219 to R222: SHPUT writes an entry or the origin at issue + 4, its origin read as it issues; an entry above S is dropped and
one above 63 is BOUND; SHQ and SHSEG complete where no thread's query faults or is lost. -/
def Obligations.ShapeWordsComplete : Prop :=
  ∀ (s : State) (c : Ctl) (q : ShQuery) (form : ShForm) (n : BitVec 3) (d a b : Opd) (v : View),
    let g := v.st.getG n.toNat
    (s.issuer c true [rd a, rd b] = some v →
      let k := (v.word a v.leader).toNat
      (k ≤ 63 → g.w.toNat + k ≤ g.seqs.toNat → exec (.shputEnt c (.g n) a b) s = .next (v.after id id fun st =>
        v.owes (v.now + 4) [.shEnt n.toNat k (v.word b v.leader)] (v.moved (wordLen [rd a, rd b]) st)))
      ∧ (k ≤ 63 → g.seqs.toNat < g.w.toNat + k → exec (.shputEnt c (.g n) a b) s = .next (v.after id id (v.moved (wordLen [rd a, rd b]))))
      ∧ (63 < k → exec (.shputEnt c (.g n) a b) s = .next
          (({ s with seq := s.seq + 1 } : State).trap v.c v.i v.st.pc (wordLen [rd a, rd b]) { cause := .bound, threads := [v.leader] })))
    ∧ (s.issuer c true [rd b] = some v →
      exec (.shputOrg c (.g n) b) s = .next (v.after id id fun st =>
        v.owes (v.now + 4) [.shOrg n.toNat (v.word b v.leader)] (v.moved (wordLen [rd b]) st))
      ∧ exec (.shputAdv c (.g n) b) s = .next (v.after id id fun st =>
        v.owes (v.now + 4) [.shOrg n.toNat (g.o + v.word b v.leader)] (v.moved (wordLen [rd b]) st)))
    ∧ (∀ f : Nat → Word, s.issuer c (runsOnce d) [wr d, rd b] = some v → (∀ t ∈ v.doers d, g.query q (v.word b t) = .ok (f t)) →
      exec (.shq c q d (.g n) b) s = .next (v.laneDone (runsOnce d) [wr d, rd b] uLane 6 3 4 0 (v.results d false fun t => (f t).setWidth 64)))
    ∧ (s.issuer c false [wr d] = some v → g.valid = true → (∀ t ∈ v.threads, g.row t ≠ .lost) →
      exec (.shseg c form d (.g n)) s = .next (v.laneDone false [wr d] uCross 10 3 10 3 (v.threads.flatMap fun t =>
        let x : Bool := match form with | .head => (g.row t).isFirst | .last => (g.row t).isLast | .inT => g.row t != .beyond
        writeTo d false t (if x then 1 else 0))))

/-- R205, R209: in a shape register that passes its check, every packed row of its window lies in exactly the sequence whose boundaries
enclose it, and rows from T on lie beyond. -/
def Obligations.ShapeRows : Prop :=
  ∀ (g : ShapeReg) (r : Nat), g.consistent = true → g.fresh = false →
    (g.total.toNat ≤ r ↔ g.packed r = .beyond)
    ∧ ∀ j f n x, g.packed r = .inSeq j f n x →
      x = r ∧ f ≤ r ∧ r < n ∧ n ≤ g.total.toNat ∧ g.w.toNat ≤ j ∧ j < g.seqs.toNat ∧ f = g.entry (j - g.w.toNat) ∧ n = g.entry (j - g.w.toNat + 1)

/-! ## Words of scratch -/

/-- R178 to R180, R196, R421, R424: STLD, STST, TAGR and TAGW complete: loads read at issue and land, with stores, after 11 + 3n cycles for
the degree n; a triple is stored in 16 bytes, an empty one as all zero but its E bit; TAGW sets the named tags. R157, R387: GATH.LD reads
each active thread's element as it issues and lands at issue + 48; GATH.ST stores each at its landing then, in row 4 of R142. Both number a
command of the gather engine. -/
def Obligations.ScratchWordsComplete : Prop :=
  (∀ (s : State) (c : Ctl) (d a b e : Opd) (n : Nat) (v : View),
    let at_ (t : Nat) : Nat := (v.word a t + v.word b t).toNat
    let xs := v.threads.map fun t => (t, at_ t)
    let ys := (v.doers d).map fun t => (t, at_ t)
    let ok (p : Nat × Nat) : Prop := p.2 < scratchSize ∧ v.b.heldByte p.2 = true
    (s.issuer c false [wr d, rd a, rd b] = some v → v.structured 16 xs = .ok n → (∀ p ∈ xs, v.core.badBytes p.2 16 = false) →
      exec (.stld c d a b) s = .next (v.scratchLoaded false n [wr d, rd a, rd b]
        (xs.flatMap fun p => writeQ d p.1 (triOf (smNat v.core.scratch p.2 16))) id))
    ∧ (s.issuer c false [rd a, rd b, rd e] = some v → v.structured 16 xs = .ok n →
      exec (.stst c a b e) s = .next (v.scratchStored false n [rd a, rd b, rd e] (xs.flatMap fun p =>
        let q := v.triple e p.1
        addressed p.2 (if q.st.getLsbD 3 then bytesOf 16 (8 * 2 ^ 96) else triBytes q)) []))
    ∧ (s.issuer c (runsOnce d) [wr d, rd a, rd b] = some v → (∀ p ∈ ys, ok p ∧ v.core.badTags.contains (p.2 / 64) = false) →
      exec (.tagr c d a b) s = .next (v.scratchLoaded (runsOnce d) 1 [wr d, rd a, rd b]
        (ys.flatMap fun p => writeTo d false p.1 ((smGet v.core.stags (p.2 / 64)).setWidth 64)) id))
    ∧ (s.issuer c false [rd a, rd b, rd e] = some v → (∀ p ∈ xs, ok p) →
      exec (.tagw c a b e) s = .next (v.scratchStored false 1 [rd a, rd b, rd e] []
        (xs.map fun p => (p.2 / 64, mkTag ((v.word e p.1).extractLsb' 0 8) ((v.word e p.1).extractLsb' 8 8) ((v.word e p.1).extractLsb' 16 8))))))
  ∧ (∀ (s : State) (c : Ctl) (sx : Bool) (z : GSize) (d a b e : Opd) (v : View),
    let xs := v.threads.map fun t => (t, (v.word a t + v.word b t).toNat)
    let n := gsBytes z
    let land := v.now + 48 * v.slowdown
    let take := v.takes uGather (12 * v.slowdown)
    (s.issuer c false [wrT (z == .b64) d, rd a, rd b] = some v → v.gathChecks n xs = .ok () → (∀ p ∈ xs, v.core.badBytes p.2 n = false) →
      exec (.gathLd c sx z d a b) s = .next (v.after take id fun st =>
        v.owes land (xs.flatMap fun p => writeTo d (z == .b64) p.1 (BitVec.ofInt 64 (intOf sx (8 * n) (smNat v.core.scratch p.2 n))))
          (v.commands .gather (some land) none (v.moved (wordLen [wrT (z == .b64) d, rd a, rd b]) st))))
    ∧ (let bytes := xs.flatMap fun p => addressed p.2 (bytesOf n (if z == .b64 then (v.quad false e p.1).toNat else (v.word e p.1).toNat))
       s.issuer c false [rd a, rd b, rdT (z == .b64) e] = some v → v.gathChecks n xs = .ok () → bytes ≠ [] →
       exec (.gathSt c z a b e) s = .next (v.after (fun k => { take k with swr := (take k).swr ++ [⟨v.seq, land, 4, bytes, []⟩] }) id fun st =>
         v.commands .gather (some land) none (v.moved (wordLen [rd a, rd b, rdT (z == .b64) e]) st))))

/-- R402 to R404, R425 to R427: PACK and UNPACK complete, in the register forms after 9 cycles, in the block forms as a structured access of
degree 1: PACK quantises each beat's elements into one block with its tag, UNPACK decodes each beat's block by its tag. -/
def Obligations.PackWordsComplete : Prop :=
  ∀ (s : State) (c : Ctl) (f : PFmt) (d a b : Opd) (v : View),
    let flags (es : List (Nat × Flags)) : Flags := es.foldl (fun m p => m ||| p.2) 0
    let packed (t : Nat) : List (Nat × Flags) := (List.range f.e).map fun i => packElem (pfmt f) (v.nth a i t) (v.word b t).toInt
    let unpacked (t : Nat) : List (Word × Flags) :=
      (List.range f.e).map fun i => unpackElem (pfmt f) (elemAt (v.word a t).toNat (pfmt f).width i) (v.word b t).toInt
    (s.issuer c (runsOnce d) [wr d, rdN a f.e, rd b] = some v →
      exec (.pack c f d a b) s = .next (v.laneDone (runsOnce d) [wr d, rdN a f.e, rd b] uLane 9 3 4 0
        ((v.doers d).flatMap fun t =>
          writeTo d false t (BitVec.ofNat 64 (concatElems (pfmt f).width ((packed t).map (·.1)))) ++ flagW t (flags (packed t)))))
    ∧ (s.issuer c false [wrN d f.e, rd a, rd b] = some v →
      exec (.unpack c f d a b) s = .next (v.laneDone false [wrN d f.e, rd a, rd b] uLane 9 3 4 0
        (v.threads.flatMap fun t => writeRun d t ((unpacked t).map (·.1)) ++ flagW t ((unpacked t).foldl (fun m p => m ||| p.2) 0))))
    ∧ (let off := (v.word b v.leader).toNat
       let one (beat : Nat) : List (Nat × Flags) × Tag := quantise (pfmt f) (pfmtCode f)
         ((List.range f.r).flatMap fun m => (List.range 32).map fun l => if v.on (32 * beat + l) then v.nth a m (32 * beat + l) else 0)
       s.issuer c false [rdN a f.r, rd b] = some v → v.blkFaults off = [] →
       exec (.packBlk c f a b) s = .next (v.after (fun k =>
          v.takes uLane (3 * v.slowdown) ((v.takes uScratch (3 * v.slowdown) k).writesLater v.seq (v.now + 14 * v.slowdown) 5
            (v.beats.flatMap fun beat => addressed (off + 64 * beat) (bytesOf 64 (blockOf (pfmt f).width ((one beat).1.map (·.1)))))
            (v.beats.map fun beat => ((off + 64 * beat) / 64, (one beat).2)))) id
        fun st => v.owes (v.now + 14 * v.slowdown)
          (v.beats.flatMap fun beat => (one beat).1.zipIdx.flatMap fun q =>
            if v.on (32 * beat + q.2 % 32) then flagW (32 * beat + q.2 % 32) q.1.2 else [])
          (v.accesses (some (v.now + 14 * v.slowdown)) false (v.moved (wordLen [rdN a f.r, rd b]) st))))
    ∧ (let off := (v.word a v.leader).toNat
       let tag (beat : Nat) : Tag := smGet v.core.stags ((off + 64 * beat) / 64)
       s.issuer c false [wrN d f.r, rd a] = some v → v.blkFaults off = [] →
       (∀ beat ∈ v.beats, tagOk (tag beat) = true ∧ tagFormat (tag beat) = pfmtCode f ∧ v.core.badBlocks (off + 64 * beat) 64 = false) →
       exec (.unpackBlk c f d a) s = .next (v.after (fun k => v.takes uLane (3 * v.slowdown) (v.takes uScratch (3 * v.slowdown) k)) id
        fun st => v.accesses (some (v.now + 14 * v.slowdown)) false (v.owes (v.now + 14 * v.slowdown)
          (v.beats.flatMap fun beat => (v.threads.filter fun t => t / 32 == beat).flatMap fun t =>
            let es := (List.range f.r).map fun m => toF32 (decodeElem (tag beat) (pfmt f)
              (elemAt (smNat v.core.scratch (off + 64 * beat) 64) (pfmt f).width (32 * m + t % 32)))
            writeRun d t (es.map (·.1)) ++ flagW t (es.foldl (fun m p => m ||| p.2) 0))
          (v.moved (wordLen [wrN d f.r, rd a]) st))))

/-! ## Words of memory -/

/-- R391 to R393, R415, R416: where every row lies in scratch, LD reads its elements at issue and ST stores them; both land after 11 + 3n
cycles for the degree n, and zero rows load zeros. That a word with no active thread takes scratch timing of degree 0 is log entry 14, the
model's choice. -/
def Obligations.ScratchAccessesComplete : Prop :=
  ∀ (s : State) (c : Ctl) (dec : Bool) (kind : Kind) (sc : Scope) (shape : Option ShMode) (ty : LdTy) (d a b : Opd) (n : Nat) (v : View),
    let es := v.elems shape d a b
    let xs : List (Nat × Nat) := es.filterMap fun e => match e.2 with | .at_ x => some (e.1, x.toNat % 2 ^ 56) | _ => none
    let w := ldBytes ty
    (shape.isSome = true → es = [] ∨ (v.st.getG (gIx b)).valid = true) →
    (∀ e ∈ es, e.2 = .zero ∧ xs ≠ [] ∨ ∃ off, e.2 = .at_ (scratchAddr off) ∧ off < scratchSize) →
    v.structured w xs = .ok n →
    (s.issuer c (runsOnce d) [wrN d (ldRegs ty), rd2 a, rd b] = some v → (∀ p ∈ xs, v.core.badBytes p.2 w = false) →
      (dec = true → ∀ p ∈ xs, v.core.badTags.contains (p.2 / 64) = false ∧ decCheck ty (smGet v.core.stags (p.2 / 64)) = none) →
      exec (.ld c dec kind sc shape ty d a b) s = .next (v.scratchLoaded (runsOnce d) n [wrN d (ldRegs ty), rd2 a, rd b]
        ((es.flatMap fun e => if e.2 = .zero then writeRun d e.1 (ldWords ty 0) else [])
          ++ xs.flatMap fun p => writeRun d p.1 (ldWords ty (smNat v.core.scratch p.2 w)))
        fun st => if acquires kind sc then st.parked (.acq v.seq) else st))
    ∧ (s.issuer c (runsOnce d) [rdN d (ldRegs ty), rd2 a, rd b] = some v →
      exec (.st c kind sc shape ty d a b) s = .next (v.scratchStored (runsOnce d) n [rdN d (ldRegs ty), rd2 a, rd b]
        (xs.flatMap fun p => addressed p.2 (v.stBytes ty d p.1)) []))

/-- R36, R134, R391 to R393, R415, R416: where the rows lie in memory and have translations, LD and ST put one operation under way, accepted
at issue + 1, with the lines it reads and, for ST, exactly the bytes of its threads' elements and the horizon of R167, which also goes with
its records to other packages (the model's choice, log entry 43); an acquire parks. -/
def Obligations.MemoryAccessesComplete : Prop :=
  ∀ (s : State) (c : Ctl) (dec : Bool) (kind : Kind) (sc : Scope) (shape : Option ShMode) (ty : LdTy) (d a b : Opd) (store : Bool) (v : View),
    let es := v.elems shape d a b
    let found (e : Nat × Elem) : Option (Nat × Addr) := match e.2 with
      | .at_ x => (match (v.lookup (ldBytes ty) { w := store } true e.1 x).xl with | .ok k => some (k, x) | _ => none)
      | _ => none
    let lines := es.filterMap fun e => (found e).map fun p => p.1 / 64
    es ≠ [] → (shape.isSome = true → (v.st.getG (gIx b)).valid = true) →
    (∀ e ∈ es, e.2 = .zero ∨ (found e).isSome = true) →
    (s.issuer c (runsOnce d) [wrN d (ldRegs ty), rd2 a, rd b] = some v → store = false →
      exec (.ld c dec kind sc shape ty d a b) s = .next
        ((v.after (v.takes uMemory 3) id (v.awaits [wrN d (ldRegs ty), rd2 a, rd b] (farOnly lines) true kind sc)).launchOp
          { v.memOp lines (.load (runsOnce d) (match d with | .v n => n.toNat | .s n => n.toNat | _ => 0) ty dec
              (es.map fun e => (e.1, found e)) v.st.pc (wordLen [wrN d (ldRegs ty), rd2 a, rd b])) with
            acqPod := acquires kind sc && sc == .pod } (remoteLoads lines)))
    ∧ (let bytes := es.flatMap fun e => match found e with | some p => addressed p.1 (v.stBytes ty d e.1) | none => []
       s.issuer c (runsOnce d) [rdN d (ldRegs ty), rd2 a, rd b] = some v → store = true →
      exec (.st c kind sc shape ty d a b) s = .next
        ((v.after (v.takes uMemory 3) id (v.awaits [rdN d (ldRegs ty), rd2 a, rd b] (farOnly lines) false .plain sc)).launchOp
          { v.memOp lines .nothing with
            writes := bytes.filter fun p => (lineHome (p.1 / 64)).isNone
            horizon := some (if releases kind sc then v.horizonOf sc else 0), narrow := releases kind sc && sc != .pod, reads := false }
          (withHorizon (releases kind sc) (if releases kind sc then v.horizonOf sc else 0) (remoteStores lines bytes))))

/-- R357 to R362: ATOM, ATOM.TREE and ATOMQ put one atomic for each active thread, or one for all, under way; fetched values land with it.
That a release's horizon goes with its remote records is log entry 43, the model's choice. -/
def Obligations.AtomicWordsComplete : Prop :=
  ∀ (s : State) (c : Ctl) (op : AtomOp) (ty : Ty) (kind : Kind) (sc : Scope) (d a b : Opd) (key : Nat → Nat) (v : View),
    let us := atomUses op ty d a b
    let at_ (t : Nat) : Addr := v.quad false a t
    let result : Option Nat := match d with | .v n => some n.toNat | .s n => some n.toNat | .q n => some n.toNat | _ => none
    let found (w : Nat) : Prop := ∀ t ∈ v.doers d, (v.lookup w { a := true } false t (at_ t)).xl = .ok (key t)
    (s.issuer c (runsOnce d) us = some v → v.doers d ≠ [] → found (if ty.wide then 8 else 4) →
      ((match d with | .q _ => False | _ => True) → exec (.atom c op ty kind sc d a b) s = .next (v.atomStarted us kind sc false result.isSome
        (.fetched (runsOnce d) result ty.wide none v.st.pc (wordLen us))
        ((v.doers d).map fun t => ⟨t, key t, op, ty, (v.atomOperand op ty b t).1, (v.atomOperand op ty b t).2, none, at_ t⟩)))
      ∧ ((match d with | .v _ => True | .none => True | _ => False) → (∀ t ∈ v.threads, at_ t = at_ v.leader) →
        let comb (x y : BitVec 64) : BitVec 64 := atomValue op ty x y 0
        let scan := ksScan comb ((List.range 96).map fun t => if v.on t then some (v.src ty b t) else none)
        let excl := (v.threads.zip (v.threads.drop 1)).filterMap fun p => (scan[p.1]?.join).map fun x => (p.2, x)
        ∀ x, scan[95]? = some (some x) →
        exec (.atomTree c op ty kind sc d a b) s = .next (v.atomStarted us kind sc true result.isSome
          (.fetched false result ty.wide (some (op, ty, (v.leader, 0) :: excl)) v.st.pc (wordLen us))
          [⟨v.leader, key v.leader, op, ty, x, 0, none, at_ v.leader⟩])))
    ∧ (s.issuer c false [wr d, rd2 a, rd b] = some v → v.threads ≠ [] → (match d with | .q _ => True | .none => True | _ => False) → found 16 →
      exec (.atomq c kind sc d a b) s = .next (v.atomStarted [wr d, rd2 a, rd b] kind sc false result.isSome
        (.fetchedQ result v.st.pc (wordLen [wr d, rd2 a, rd b]))
        (v.threads.map fun t => ⟨t, key t, .add, .u32, 0, 0, some (v.triple b t), at_ t⟩)))

/-- R165, R217, R218, R223, R272, R273: SHLD reads a header's line and SHWIN the lines of a window, without an access that a FENCE awaits;
WAITA parks for its word with its deadline, FENCE parks for the strand's earlier accesses; FENCE of scope thread only advances. R100, R149,
R150, R338 to R342, R431: WAITT goes on where its operations have landed without a fault and parks where one has not; LAUNCH fills an entry
for each core of its set, or writes a code, at issue + 64; the slots of PAIR act together. -/
def Obligations.WaitsLaunchPairComplete : Prop :=
  (∀ (s : State) (c : Ctl) (q : WCond) (acq : Bool) (sc : Scope) (d a b e : Opd) (key : Addr → Nat) (v : View),
    let reads (us : List Use) (lines : List Nat) (done : Done) : Host.Outcome State Fault Refusal :=
      .next ((v.after (v.takes uMemory 3) id fun st => v.owesLater [] (v.moved (wordLen us) st)).launchOp (v.memOp lines done) (remoteLoads lines))
    let x := v.quad false a v.leader
    (s.issuer c true [wr d, rd2 a] = some v → (v.lineLookup x).xl = .ok (key x) →
      exec (.shld c d a) s = reads [wr d, rd2 a] [key x / 64] (.shHeader (gIx d) (key x, x) v.leader v.st.pc (wordLen [wr d, rd2 a])))
    ∧ (s.issuer c true [wr d, rd a] = some v →
      let g := v.st.getG (gIx d)
      let w := (v.word a v.leader).toNat
      let lines := windowLines g.btab w g.seqs.toNat
      g.valid = true → w % 16 = 0 → w ≤ g.seqs.toNat → (∀ y ∈ lines, (v.lineLookup y).xl = .ok (key y)) →
      exec (.shwin c d a) s = reads [wr d, rd a] (lines.map fun y => key y / 64)
        (.shReload (gIx d) g (BitVec.ofNat 32 w) (lines.map fun y => (key y, y)) v.leader v.st.pc (wordLen [wr d, rd a])))
    ∧ (let us := [wr d, rd2 a, rd b, rd e]
       s.issuer c true us = some v → (v.lookup 4 {} false v.leader x).xl = .ok (key x) → lineHome (key x / 64) = none →
       exec (.waita c q acq sc d a b e) s = .next (v.after id id fun st =>
         let u := (v.moved (wordLen us) st).parked
           (.waita (key x) (v.word b v.leader) q (match d with | .s n => some n.toNat | _ => none)
             (if v.b.loose then none else some (v.now + (v.word e v.leader).toNat)) (v.now + 1) (acq && sc == .pod) v.seq)
         if acq && sc != .thread then u.parked .hold else u))
    ∧ (s.issuer c true [] = some v →
      exec (.fence c sc) s = .next (v.after id id fun st =>
        if sc = .thread then v.moved 8 st else (v.moved 8 st).parked (.fence v.seq (sc == .pod)))))
  ∧ (∀ (s : State) (c : Ctl) (g : Engine) (hold : Bool) (x y : Slot) (d a b e : Opd) (v : View),
    (s.issuer c true [rd b] = some v →
      let n : Nat := match b with
        | .sp k => (v.special (k.toNat + 1) v.leader ++ v.special k.toNat v.leader).toNat
        | .lit64 z => z.toNat
        | o => (v.word o v.leader).toNat
      let mine := v.st.eops.filter fun o => o.eng == g && o.num ≤ n
      n ≤ (smGet v.st.tl (Engine.index g)).toNat →
      ((∀ o ∈ mine, o.fail = none ∧ ∃ t, o.land = some t ∧ t ≤ s.now) →
        exec (.waitt c g b) s = .next (v.after id id fun st =>
          { v.moved (wordLen [rd b]) st with eops := (v.moved (wordLen [rd b]) st).eops.filter fun o => !(o.eng == g && o.num ≤ n) }))
      ∧ ((∃ o ∈ mine, ∀ t, o.land = some t → s.now < t) →
        exec (.waitt c g b) s = .next (v.after id id fun st =>
          (v.moved (wordLen [rd b]) st).parked (.waitt g n v.st.pc (wordLen [rd b]) v.leader))))
    ∧ (let us := [wr d, rd2 a, rd2 b, rd e]
       s.issuer c true us = some v →
       let at_ := (v.quad false a v.leader).toNat
       let set := v.word e v.leader
       let cls := if (set.extractLsb' 16 2).toNat < v.st.cur.cls then v.st.cur.cls else (set.extractLsb' 16 2).toNat
       let found := s.launchCheck (dieOf v.c) (set.extractLsb' 0 8).toNat (set.extractLsb' 8 8).toNat at_ (set.extractLsb' 18 14 != 0)
       let give (code : Nat) : State := v.after id id fun st =>
         v.owes (v.now + 64) (writeTo d false v.leader (BitVec.ofNat 64 code)) (v.moved (wordLen us) st)
       (∀ code, found = .error code → exec (.launch c d a b e) s = .next (give code))
       ∧ ∀ es, found = .ok es →
         let fills : List Filled := es.map fun p => ⟨s.key p.2.ix, p.1, at_, v.quad false b v.leader, v.b.asid, cls, !v.b.loose, v.now + 64⟩
         exec (.launch c d a b e) s = .next ({ give 0 with sch := { s.sch with filled := s.sch.filled ++ fills } }))
    ∧ (s.issuer ⟨hold, false, 0⟩ false ((slotUses x ++ slotUses y).map fun u => { u with rd := false }) = some v →
       v.slotBad x = [] → v.slotBad y = [] →
       let scale (once : Bool) : Nat := if once then 1 else v.slowdown
       let lane := v.takes uLane (3 * scale (!(slotVector x || slotVector y)))
       let gives (z : Slot) (st : Strand) : Strand := match slotOp z with
         | none => st
         | some o => v.owes (v.now + if runsOnce o.d then o.ln.uLat else o.ln.lat * v.slowdown)
             ((v.doers o.d).flatMap fun t => writeTo o.d false t (o.f v o.d o.s t).1 ++ flagW t (o.f v o.d o.s t).2) st
       (slotLd x = none → exec (.pair hold x y) s = .next (v.after lane id fun st => gives y (gives x (v.moved 8 st))))
       ∧ ∀ p o n, slotLd x = some (p, o) →
         let xs := (v.doers p).map fun t => (t, (v.word o t).toNat)
         v.structured 4 xs = .ok n → (∀ q ∈ xs, v.core.badBytes q.2 4 = false) →
         let land := v.now + (11 + 3 * n) * scale (runsOnce p)
         exec (.pair hold x y) s = .next (v.after (fun k => lane (v.takes uScratch (3 * n * scale (runsOnce p)) k)) id fun st =>
           gives y (gives x (v.accesses (some land) false
             (v.owes land (xs.flatMap fun q => writeTo p false q.1 (BitVec.ofNat 64 (smNat v.core.scratch q.2 4))) (v.moved 8 st)))))))

/-! ## Matrix words -/

/-- R225, R226, R231, R233 to R235, R247: MMA, MMAG and MMA.TRIO start their products where their tiles, slots, tags and marks allow: the
array is taken for 32 cycles, the product lands after 72; MMA.TRIO starts one on every core of its trio. R229, R230, R239 to R246: MLDA,
MZERO, MZERO.ALL and MDRN complete: an accumulator's new value lands after 46 or 6 cycles, a drain's copies after 64 and 96, its triples with
the first. -/
def Obligations.MatrixWordsComplete : Prop :=
  (∀ (s : State) (c : Ctl) (cls : MClass) (d a b e : Opd) (v : View),
    let off := (v.word a v.leader).toNat
    let slot := (v.word b v.leader).toNat
    let n := (v.word e v.leader).toNat
    v.entire → v.core.inc.getLsbD (accIx d) = false →
    (s.issuer c false [rd a, rd b] = some v → slot ≤ 127 → goodTile v.b v.core cls off (List.range 32) → goodCrown v.b v.core cls slot true →
      exec (.mma c cls d a b) s = .next (v.after (fun k => k.startRun v cls (accIx d) off (allRows slot) none none) id (v.matrixStrand [rd a, rd b] 72)))
    ∧ (s.issuer c false [rd a] = some v →
      let g := v.st.getG (gIx b)
      let rows := (List.range 32).filter fun i => g.row i != .beyond
      ∀ entry : Nat → Nat,
        (∀ i ∈ rows, ∃ j f m r, g.row i = .inSeq j f m r ∧ entry i = g.gtab.toNat % 2 ^ 56 + j) →
        (∀ i ∈ rows, entry i < scratchSize ∧ v.b.heldByte (entry i) = true ∧ v.core.badBytes (entry i) 1 = false
          ∧ goodCrown v.b v.core cls (smGet v.core.scratch (entry i)).toNat true) →
        g.valid = true → g.flags.getLsbD 0 = true → goodTile v.b v.core cls off rows →
        exec (.mmag c cls d a b) s = .next (v.after (fun k =>
            k.startRun v cls (accIx d) off (rows.map fun i => (i, (smGet v.core.scratch (entry i)).toNat)) none none) id
          (v.matrixStrand [rd a] 72)))
    ∧ (s.issuer c false [rd a, rd b, rd e] = some v → slot ≤ 127 →
      (∀ x ∈ trioCores v.c, ∃ y, (s.core x).blk = some y ∧ (aGet y.clasps n).isSome = true ∧ (s.core x).inc.getLsbD (accIx d) = false
        ∧ goodTile y (s.core x) cls off (List.range 32) ∧ goodCrown y (s.core x) cls slot (x == v.c)) →
      exec (.mmaTrio c cls d a b e) s = .next ((trioCores v.c).foldl (fun t x => t.modCore x fun k =>
          k.startRun v cls (accIx d) off (allRows slot) (some n) (if x ≠ v.c ∧ k.badCrownData slot = true then some v.now else none))
        (v.after id id (v.matrixStrand [rd a, rd b, rd e] 72)))))
  ∧ (∀ (s : State) (c : Ctl) (sq clr t norm stats : Bool) (d a b e : Opd) (v : View), v.entire →
    (let off := (v.word a v.leader).toNat
     let value : SMap 32 := (List.range 1024).filterMap fun i =>
       let x : Word := BitVec.ofNat 32 (smNat v.core.scratch (off + 4 * i) 4)
       if x = 0 then none else some (1024 * accIx d + i, x)
     s.issuer c false [rd a] = some v → off % 64 = 0 → off + 4096 ≤ scratchSize → v.b.heldRange off 4096 = true →
     v.core.badBytes off 4096 = false →
     (∀ i, i < 64 → goodTag (v.core.badTags.contains (off / 64 + i)) (fun f => f == 0 || f == 1) (smGet v.core.stags (off / 64 + i))) →
     exec (.mlda c d a) s = .next (v.after (fun k =>
        let k := k.occupy uMatrix (v.now + 32)
        ({ k with inc := k.inc &&& ~~~(1#4 <<< accIx d) }.setAcc (accIx d) value).landAcc v.seq (v.now + 46) (accIx d) v.i true) id
      (v.matrixStrand [rd a] 46)))
    ∧ (s.issuer c false [] = some v →
      let zeros (as : List Nat) : Host.Outcome State Fault Refusal :=
        .next (v.after (fun k => (k.occupy uMatrix (v.now + 3)).zeroAccs v (v.now + 6) true as) id (v.matrixStrand [] 6))
      exec (.mzero c d) s = zeros [accIx d] ∧ exec (.mzeroAll c) s = zeros [0, 1, 2, 3])
    ∧ (let desc := (v.word b v.leader).toNat
       let g := if e.isNone then none else some (v.st.getG (gIx e))
       let dr := v.drain sq clr t norm stats (accIx a) desc g
       let values := if stats then v.slotValues dr else []
       let y := v.drained dr (if stats then values else dr.slots.map fun u => (u, v.slotTriple dr u))
       let inSlots := if dr.inScratch then values.flatMap fun p => addressed (dr.slotBase + 16 * p.1) (triBytes p.2) else []
       s.issuer c false [rd b] = some v → desc % 64 = 0 → v.b.okScratch desc 64 = true → v.core.badBytes desc 64 = false →
       (∀ r, g = some r → r.valid = true ∧ ∀ i, i < dr.rows → r.row i ≠ .lost) →
       dr.bad v.st.cur.nq v.st.threads = false → dr.held v.b = true → v.drainUnc dr = false →
       (∀ x ∈ layoutAccs dr.layout dr.acc, v.core.inc.getLsbD x = false) →
       exec (.mdrn c sq clr t norm stats a b e) s = .next (v.after (fun k =>
          let k := k.occupy uMatrix (v.now + if t then 64 else 32)
          let k := k.writesLater v.seq (v.now + 64) 3 ((dr.direct y).1 ++ inSlots) (dr.direct y).2
          let k := if t then k.writesLater v.seq (v.now + 96) 3 (dr.transposed y).1 (dr.transposed y).2 else k
          if clr then k.zeroAccs v (v.now + 64) false (layoutAccs dr.layout dr.acc) else k) id
        fun st =>
          let u := v.owes (v.now + 64) (if dr.inScratch then [] else values.map fun p => .q dr.q p.1 p.2)
            (v.commands .matrix (some (v.now + if t then 96 else 64)) none (v.moved (wordLen [rd b]) st))
          if clr then { u with pend := u.pend ++ [⟨v.seq, some (v.now + 64), true, []⟩] } else u)))

/-! ## Engine words -/

/-- R145, R151 to R156, R371 to R375: the copies complete where their ranges, alignments and flags are good and every page translates, and,
for one with .FLAG on another package, where the strand's accesses have landed (R167, R175; log entry 44): the blocks, rows, tensor boxes and
windows they name, in order (a tensor's coordinates are signed: the model's reading, log entry 19); CPYB fills a crown slot from scratch after
40 cycles or from 32 lines. -/
def Obligations.CopyWordsComplete : Prop :=
  ∀ (s : State) (c : Ctl) (out flag : Bool) (shape : Option ShMode) (a b e : Opd) (key : Addr → Nat) (v : View),
    let dst := v.quad false a v.leader
    let src := v.quad false b v.leader
    let f := v.flagOf flag e
    let inScratch (o : Nat) : Prop := o + 64 ≤ scratchSize ∧ v.b.heldByte o = true ∧ v.b.heldByte (o + 63) = true
    let goodBlocks (into : Bool) (xs : List (Nat × Option Addr)) : Prop :=
      (∀ p ∈ xs, inScratch p.1)
        ∧ (∀ x, f = some x → v.goodFlag into x) ∧ v.keyed { w := !into } key (xs.filterMap (·.2))
        ∧ (∀ x, f = some x → into = false → v.keyed { w := true } key [x.addr])
    let free (into : Bool) (blocks : List (Nat × Option Addr)) (bytes : List (Nat × Addr)) : Prop :=
      f.isSome = true → copyFar into (copyLines blocks bytes key) f key = true → v.st.accsLanded v.now v.seq true = true
    (let us := rd2 a :: rd2 b :: if flag then groupUses e true [0] else [rd e]
     let n := (if flag then v.group e 0 else v.word e v.leader).toNat
     s.issuer c true us = some v → 0 < n → n ≤ 4096 → dst.toNat % 64 = 0 → src.toNat % 64 = 0 →
     ∀ off g into, copySides dst src = some (off, g, into) →
     let blocks := (List.range n).map fun k => (off + 64 * k, some (g + BitVec.ofNat 64 (64 * k)))
     goodBlocks into blocks → free into blocks [] → exec (.cpy1d c flag a b e) s = .next (v.copyStarted us into blocks 0 [] none f key))
    ∧ (let us := rd2 a :: rd2 b :: groupUses e flag (if shape.isSome then [0, 3] else [0, 1, 2])
       let rows := ((v.group e 0).extractLsb' 0 16).toNat
       let rb := ((v.group e 0).extractLsb' 16 16).toNat
       let g := shape.map fun m => (v.st.getG ((v.group e 3).extractLsb' 0 3).toNat, m)
       s.issuer c true us = some v → 0 < rows * rb → rows * rb ≤ 4096 → (shape.isSome = true → rows ≤ 32) →
       (∀ p, g = some p → p.1.valid = true) → dst.toNat % 64 = 0 → src.toNat % 64 = 0 →
       ∀ off x into, copySides dst src = some (off, x, into) →
       let sStride := (if into then v.group e 1 else v.group e 2).toNat
       let gStride := (if into then v.group e 2 else v.group e 1).toNat
       let blocks := copy2d g off x into rows rb sStride gStride
       (shape.isSome = true → v.badGroup e [if into then 1 else 2] = false) →
       (∀ r k, r < rows → k < rb → inScratch (off + r * sStride + 64 * k)) →
       sStride % 64 = 0 → (shape = none → gStride % 64 = 0) → blocks.2 = [] → goodBlocks into blocks.1 → free into blocks.1 [] →
       exec (.cpy2d c shape flag a b e) s = .next (v.copyStarted us into blocks.1 (match g with | some p => p.1.fillTag | none => 0) [] none f key))
    ∧ (let us := rd2 a :: rd b :: groupUses e flag [0, 1, 2]
       let mo := (v.word b v.leader).toNat
       let m := readMap v.core.scratch mo
       let coords : List Int := (List.range 5).map fun i => (v.group e i).toInt
       let rows := (v.group e 2).toNat
       ∀ off, apertureOf dst = .scratch off → s.issuer c true us = some v → mo + 128 ≤ scratchSize → mo % 64 = 0 → v.b.heldRange mo 128 = true →
       v.core.badBytes mo 128 = false → dst.toNat % 64 = 0 → m.bad out (coords.getD 0 0) = false →
       (m.window = false → v.badGroup e [3, 4] = false →
         let boxed := m.blockMode off coords
         let blocks := if out then boxed.filter fun p => p.2.isSome else boxed
         goodBlocks (!out) boxed → free (!out) blocks [] →
         exec (.cpyTm c out flag a b e) s = .next (v.copyStarted us (!out) blocks m.fill [] none f key))
       ∧ (m.window = true → 1 ≤ rows → rows ≤ 32 →
         let blocks := (List.range rows).map fun r => (off + 64 * r, (none : Option Addr))
         let bytes := m.windowMode off (v.group e 0).toNat (v.group e 1).toNat rows
         goodBlocks true blocks → v.keyed {} key (bytes.map (·.2)) → free true blocks bytes →
         exec (.cpyTm c out flag a b e) s = .next (v.copyStarted us true blocks m.fill bytes (some (BitVec.ofNat 8 m.format)) f key)))
    ∧ (let us := [rd a, rd2 b]
       let slot := (v.word a v.leader).toNat
       let num := v.nextNum .copy
       s.issuer c true us = some v → v.b.heldSlot slot = true → src.toNat % 64 = 0 →
       (∀ off, apertureOf src = .scratch off → v.goodRange off →
         let land := if v.core.lastFill + 32 < v.now + 40 then v.now + 40 else v.core.lastFill + 32
         exec (.cpyb c a b) s = .next (v.after (fun k =>
             { v.takes uCopyQ 3 k with lastFill := land, accepts := k.accepts ++ [(v.now + 1, .fill v.i num off slot land)] }) id
           fun st => v.commands .copy (some land) none (v.moved (wordLen us) st)))
       ∧ (let lines := (List.range 32).map fun j => src + BitVec.ofNat 64 (64 * j)
          (∃ va, apertureOf src = .glob va) → v.keyed {} key lines →
          exec (.cpyb c a b) s = .next ((v.after (v.takes uCopyQ 3) id fun st => v.commands .copy none none (v.moved (wordLen us) st)).launchOp
            (v.memOp (lines.map fun x => key x / 64) (.crown num slot (lines.map fun x => (key x / 64, x)))) (remoteLoads (lines.map fun x => key x / 64)))))

/-- R146, R261 to R263, R266, R271, R370, R407, R408: RROT sends its tile to the successor's block, XFER queues a message of a stream, and
COLL fires a chunk of its tree, each as a numbered command of its engine; COLL answers at once where its tree, entry or time is missing. -/
def Obligations.ExchangeWordsComplete : Prop :=
  ∀ (s : State) (c : Ctl) (d a b e : Opd) (v : View),
    (let dst := (v.word a v.leader).toNat
     let src := (v.word b v.leader).toNat
     let k := v.core.ringK + 1
     let succ := trioCore v.c (v.c % 3 + 1)
     let alone := !(v.core.tiles.any fun t => t.k == k) && s.predExited v.c k v.now
     let tile : Tile := ⟨k, v.now, false, smWrites [] (addressed 0 (smBytes v.core.scratch src 2048)),
       smWrites [] ((List.range 32).map fun i => (i, smGet v.core.stags (src / 64 + i)))⟩
     let sent := v.after (fun x => { v.takes uRing 32 x with ringK := k }) id fun st =>
       v.commands .ring (if v.b.loose then none else some (v.now + 40)) none (v.moved (wordLen [rd a, rd b]) st)
     let given := match (s.core succ).blk with
       | some sb => if sb.exitAt.isSome then sent else sent.modCore succ fun x => { x with tiles := x.tiles ++ [tile] }
       | none => sent
     s.issuer c false [rd a, rd b] = some v → v.entire → v.goodRange dst → v.goodRange src → v.core.badBlocks src 2048 = false →
     exec (.rrot c a b) s = .next (given.modCore v.c fun x =>
       { x with rings := x.rings ++ [⟨v.seq, k, v.now, v.i, v.nextNum .ring, dst, !v.b.loose, false, alone⟩] }))
    ∧ (let w := v.word a v.leader
       let off := (v.word b v.leader).toNat
       let n := xferN w
       let slots := match s.part with | some p => p.streamSlots (xferChan w) (xferPeer w) | none => []
       let strand (us : List Use) := fun st => v.commands .fabric none none (v.moved (wordLen us) st)
       0 < n → n ≤ 4096 → w.extractLsb' 13 3 = 0#3 → xferPeer w ≠ s.sch.pkgid → xferPeer w < s.podSize → slots ≠ [] →
       v.b.oneSegment off (64 * n) = true → off % 64 = 0 →
       (s.issuer c true [rd a, rd b] = some v →
         let left := (n + 2) / 3
         let queued := (s.fab.sends.filter fun x => x.chan == xferChan w && x.peer == xferPeer w).foldl (fun m x => m + x.left) 0
         let t := v.after (fun k => { v.takes uFabricQ 3 k with accepts := k.accepts ++ [(v.now + 1, .send v.seq)] }) id (strand [rd a, rd b])
         let t : State := { t with fab := { t.fab with sends := t.fab.sends ++
           [⟨v.seq, v.c, v.i, v.nextNum .fabric, v.now + 1, xferChan w, xferPeer w, off, n, [], left, false, false, none, []⟩] } }
         exec (.xferSend c a b) s = .next
           (if v.b.loose = false ∧ s.slotsLeft (xferChan w) (xferPeer w) (s.accord + 65) < left + queued then t.stall v.c else t))
       ∧ (s.issuer c true [rd a, rd b, rd e] = some v →
         let t := v.after (v.takes uFabricQ 3) id (strand [rd a, rd b, rd e])
         exec (.xferRecv c a b e) s = .next ({ t with fab := { t.fab with recvs := t.fab.recvs ++
           [⟨v.seq, v.c, v.i, v.nextNum .fabric, xferChan w, xferPeer w, off, n, [], none,
             if v.b.loose then none else some ((s.accord + (v.word e v.leader).toNat) / 2048)⟩] } })))
    ∧ (let us := [wr d, rd a, rd b, rd2 e]
       let t := (v.word a v.leader).toNat
       let ch := (v.word b v.leader).toNat
       let addr := v.quad false e v.leader
       let ends (land : Nat) := fun st => v.commands .coll (some land) none st
       let answer (code land : Nat) : Host.Outcome State Fault Refusal := .next (v.after (v.takes uCollQ 3) id fun st =>
         ends land (v.owes land (writeTo d false v.leader (BitVec.ofNat 64 code)) (v.moved (wordLen us) st)))
       s.issuer c false us = some v → v.entire → (∃ va, apertureOf addr = .glob va) → addr.toNat % 64 = 0 →
       (63 < t → exec (.coll c d a b e) s = answer 2 (v.now + 4))
       ∧ (t ≤ 63 → (∀ p, s.part = some p → (p.collEntries t s.sch.slice)[ch]? = none) → exec (.coll c d a b e) s = answer 3 (v.now + 4))
       ∧ ∀ p i, t ≤ 63 → s.part = some p → (p.collEntries t s.sch.slice)[ch]? = some i →
         let f := p.collFrame i
         let land := s.frameEnd (f + 1)
         (s.firedAt t ch f = true → exec (.coll c d a b e) s = answer 3 (v.now + 4))
         ∧ (s.firedAt t ch f = false →
           (2048 * f - 1 < s.accord → exec (.coll c d a b e) s = answer 1 (if land ≤ v.now then v.now + 4 else land))
           ∧ (let bytes := p.collField i 28 4
              let base := addr.toNat + (if p.collField i 1 1 / 16 = 1 then p.collField i 2 2 * bytes else 0)
              ∀ key : Addr → Nat, s.accord ≤ 2048 * f - 1 →
              v.keyed { w := true } key (((List.range ((bytes + 65535) / 65536)).map fun k => BitVec.ofNat 64 (base + 65536 * k))
                ++ [BitVec.ofNat 64 (base + bytes - 1)]) →
              exec (.coll c d a b e) s = .next ((v.after (v.takes uCollQ 3) id fun st =>
                v.owesLater (writeTo d false v.leader 0) (ends land (v.moved (wordLen us) st))).fireChunk
                  (p.chunk t ch i v.b.asid (some addr.toNat) (some (v.c, v.i, v.seq)) v.b.loose)))))

/-! ## Events of a core -/

/-- R73, R142, R144 to R146, R228, R237, R246, R323: what is due on a core lands, and nothing else changes: the one result of a strand that is
due, which ends the errors of the register words it covers, a drain, a gather's store, a crown fill, a ring tile, an accumulator value; a
failed product is undone and ends its strand with MEMUNC. -/
def Obligations.LandingsComplete : Prop :=
  ∀ (s : State) (c : Nat),
    let k := s.core c
    (∀ (b : Blk) (i : Nat) (st : Strand) (p : Pend) (rest : List Pend),
      k.blk = some b → b.slots[i]? = some st → onlyOne (Pend.due s.now) st.pend p rest →
      (∀ j x, j ≠ i → b.slots[j]? = some x → ∀ q ∈ x.pend, q.due s.now = false) →
      (∀ x ∈ b.slots, ∀ l ∈ x.late, s.now < l.at_) → k.vnt = [] → (∀ w ∈ k.swr, w.row = 5 → s.now < w.land) → s.cutFor c = none →
      exec (.resultLanding c) s = .next (
        (s.modCore c fun k => { k with badRegs := k.badRegs.filter fun r => !(r.slot == i && r.allot == st.curIx && p.writes.any (·.overwrites r)) }).modStrand
          c i fun x => { p.writes.foldl Strand.apply x with pend := rest }))
    ∧ (∀ w rest, onlyOne (fun x => x.row == 3 && decide (x.land ≤ s.now)) k.swr w rest →
      exec (.drainLanding c) s = .next (s.setCore c { k.putScratch w.bytes w.tags with swr := rest }))
    ∧ (∀ w rest, onlyOne (fun x => x.row == 4 && decide (x.land ≤ s.now)) k.swr w rest →
      exec (.gatherStoreLanding c) s = .next (s.setCore c { k.putScratch w.bytes w.tags with swr := rest }))
    ∧ (∀ f rest, onlyOne (fun x => decide (x.land ≤ s.now)) k.fills f rest →
      let t := (s.setCore c { k with fills := rest }).landEng c f.seq
      exec (.crownFill c) s = .next (if f.bad then t.failEng c f.seq .memunc 0 else t.modCore c fun k => k.putCrown f))
    ∧ (∀ (o : RingOp) (t : Tile), k.rings = [o] → k.tiles = [t] → t.k = o.k → t.issue ≤ o.issue → o.issue + 40 ≤ s.now → t.bad = false → o.mute = false →
      exec (.ringLanding c) s = .next (((s.setCore c { k with rings := [], tiles := [] }).landEng c o.seq).modCore c fun k =>
        k.putScratch ((List.range 2048).map fun i => (o.dst + i, smGet t.bytes i)) ((List.range 32).map fun i => (o.dst / 64 + i, smGet t.tags i))))
    ∧ (∀ l rest, onlyOne (fun x => decide (x.land ≤ s.now)) k.accLands l rest → (∀ m ∈ rest, m.acc = l.acc → l.seq < m.seq) →
      (∀ r ∈ k.runs, s.now < r.land) →
      exec (.accumulatorLanding c) s = .next (s.setCore c { k with
        acc := smReplace k.acc (1024 * l.acc) 1024 l.value, accLands := rest
        marks := if l.clears then (k.marks &&& ~~~(1#4 <<< l.acc)) ||| (k.inc &&& (1#4 <<< l.acc)) else k.marks }))
    ∧ (∀ (b : Blk) (st : Strand) (r : MRun) (f : Nat), k.blk = some b → k.runs.find? (fun x => x.failed.isSome && !x.delivered) = some r →
      r.failed = some f → r.trio = none → r.issuer = c → b.slots[r.slot]? = some st → st.ended = none →
      let undone (k : Core) : Core := { k.undoRun r.seq f with
        runs := (k.undoRun r.seq f).runs.map fun x => if x.seq == r.seq then { x with delivered := true } else x }
      exec (.partnerFailure c) s = .next ((s.modCore c undone).modStrand c r.slot fun x =>
        let y := x.failOp r.seq .memunc r.badAt
        y.finish s.now 12 0 false r.word (faultRecord y r.word (memuncNoThread r))))

/-- R74, R149, R165, R168, R272, R294, R428: a parked strand whose reason is over is released: a hold, fence, tick or walk; a WAITT that
acquires its operations; a restart of the region; UNTIL; a WAITA at its deadline whose condition holds. A clasp or WAITA deadline that
passes unmet is STALL. -/
def Obligations.ReleasesComplete : Prop :=
  ∀ (s : State) (c i : Nat) (st : Strand), s.strand c i = some st →
    let parked (ws : List Wait) := s.modStrand c i fun x => { x with waits := ws }
    let stalled (t : State) : State := t.faulted .stall c
    (∀ w rest, onlyOne (s.waitOver c st) st.waits w rest →
      (w = .region → exec (.holdRelease c i) s = .next ((parked rest).modStrand c i Strand.restart))
      ∧ (∀ e n a len l, w = .waitt e n a len l → waittFault (st.acquired e n) = none →
        exec (.holdRelease c i) s = .next ((parked rest).modStrand c i fun x => { x with eops := x.eops.filter fun o => !(o.eng == e && o.num ≤ n) }))
      ∧ ((∀ e n a len l, w ≠ .waitt e n a len l) → w ≠ .region → exec (.holdRelease c i) s = .next (parked rest)))
    ∧ (∀ t rest, onlyOne (fun w => match w with | .until t => decide (t ≤ s.accord) | _ => false) st.waits (.until t) rest →
      exec (.untilRelease c i) s = .next (parked rest))
    ∧ (∀ pa x q d t f pod seq, st.waits = [.waita pa x q d (some t) f pod seq] → t ≤ s.now →
      (waitaHolds q (s.memWord pa) x = true → exec (.waitaDeadline c i) s = .next (s.modStrand c i fun y =>
        { y with
          waits := .tick (s.now + 1) :: if pod then horizonWaits (s.horizon (pa / 64)) (s.horizonFar (pa / 64)) else []
          pend := y.pend ++ match d with | some r => [⟨seq, some (s.now + 1), true, [.s r (s.memWord pa)]⟩] | none => [] }))
      ∧ (waitaHolds q (s.memWord pa) x = false → exec (.waitaDeadline c i) s = .next (stalled (parked [.waita pa x q d none f pod seq]))))
    ∧ (∀ n d a len l, st.waits = [.clasp n (some d) a len l] → d ≤ s.now →
      exec (.stall c i) s = .next (stalled (parked [.clasp n none a len l])))

/-- R104 to R108, R237: the initialisations and arrivals that are due act on their clasps, those of words in the order of issue and then the
hardware's. Each clasp whose condition then holds opens: its generation advances, and the strands that wait at it, ranked by clasp and slot
over all that open, are released in their waves, with STALL for a release later than its deadline. A clasp without participants and without
extra count does not open so (the model's choice, log entry 39); PARTNER is raised where a failed arrival completes an opening (log entry
14); a strand whose own arrival is still to land is not released (log entry 62). -/
def Obligations.ClaspOpens : Prop :=
  ∀ (s : State) (c : Nat) (k : Core) (b : Blk), k = s.core c → k.blk = some b →
    let due := k.claspQ.filter fun q => decide (q.land ≤ s.now)
    let rest := k.claspQ.filter fun q => !decide (q.land ≤ s.now)
    let isHard (q : ClaspLand) : Bool := match q.eff with | .hardware _ => true | _ => false
    let land (x : Clasp) (q : ClaspLand) : Clasp := match q.eff with
      | .init m e => { x with m := m, e := e, a := 0, h := 0 }
      | .arrive i => { x with a := x.a ||| BitVec.ofNat 8 (2 ^ i) }
      | .hardware _ => { x with h := x.h + 1 }
    let y (p : Nat × Clasp) : Clasp :=
      ((due.filter fun q => !isHard q) ++ due.filter isHard).foldl (fun x q => if q.c = p.1 then land x q else x) p.2
    let opens (p : Nat × Clasp) : Bool := (y p).a = (y p).m ∧ (y p).e ≤ (y p).h ∧ ((y p).m ≠ 0 ∨ (y p).e ≠ 0)
    let freed (n i : Nat) : Bool := !rest.any fun q => q.c == n && q.eff == .arrive i
    let waiters : List (Nat × Nat) := (b.clasps.filter opens).flatMap fun p =>
      ((List.range b.slots.length).filter fun i => (b.slots[i]?.any fun st => st.waitsAt p.1) && freed p.1 i).map fun i => (p.1, i)
    let release (n i : Nat) : Nat := waveRelease (s.slopeOf c) s.now
      (waiters.filter fun w => decide (w.1 < n ∨ w.1 = n ∧ w.2 < i)).length
    let stalls : List SFault := waiters.filterMap fun w =>
      ((b.slots[w.2]?.bind fun st => st.claspDeadline w.1).filter fun d => decide (d < release w.1 w.2)).map fun d =>
        ⟨.stall, s.sch.pkgid, c, s.accordOf d / 2048, s.accordOf d, d⟩
    (b.clasps.map (·.1)).Pairwise (· < ·) → (due.filter fun q => !isHard q).Pairwise (fun p q => p.seq ≤ q.seq) →
    (∀ st ∈ b.slots, ∀ n m, st.waitsAt n = true → st.waitsAt m = true → n = m) →
    exec (.claspWaveRelease c) s = .next { s.setCore c { k with
        claspQ := rest
        blk := some { b with
          clasps := b.clasps.map fun p => (p.1, if opens p then { y p with a := 0, h := (y p).h - (y p).e, gen := (y p).gen + 1 } else y p)
          slots := b.slots.mapIdx fun i st => match waiters.find? fun w => w.2 == i with
            | some w => st.releaseAt w.1 (release w.1 i) (due.any fun q => q.c == w.1 && q.eff == .hardware true)
            | none => st } } with
      sch := { s.sch with raised := s.sch.raised ++ stalls } }

/-! ## The life of blocks -/

/-- R93, R94, R96, R97, R326: an entry whose four stages have landed fires at its fire time on a free core: its block is resident, starts
1,088 cycles later with the registers of R96, and the other cores are as they were. An entry with a result already known is consumed and
leaves the core free (also a fixed one with a late stage, which is the model's choice, log entry 54); a fixed one that cannot fire raises
STALL. Each stage, once it is due, reads its lines (of an unaligned record those at its address, log entry 38; of stage 4 all four lines
of a window, log entry 14), stage 2 with the arena's translation and the preload line first. A reservation ends, and a block's start clears
what it holds and takes its code and pages as they stand. -/
def Obligations.BlockStartsComplete : Prop :=
  ∀ (s : State) (c : Nat),
    let k := s.core c
    (∀ (a : Adm) (l : List Adm), s.waitingAdms c = a :: l → a.late = false → a.known = true → a.fire ≤ s.accord →
      k.adms.find? (fun x => x.key == a.key) = some a →
      let b := launchBlk a (s.now + 1088)
      (a.stage = 4 → a.busy = false → a.landed < s.now → a.result = none → recWords a.record ≤ 65536 → s.coreFree c = true →
        (recLoose a.record = false → a.fire = s.accord ∧ a.slow = false) →
        ∃ t, exec (.launchEntryFire c) s = .next t
          ∧ t.core c = { k with
              adms := k.adms.map fun x => if x.key = a.key then { x with stage := 9 } else x
              blk := some b, left := none, claspQ := [], ringK := 0, rings := [], tiles := [] }
          ∧ b.start = s.now + 1088 ∧ b.fresh = true ∧ b.slots.length = smNat a.record 8 1
          ∧ (∀ st ∈ b.slots, st.pc = BitVec.ofNat 64 (smNat a.record 0 8) ∧ st.cur.am = threadMask (smNat a.record 9 1) ∧ st.cur.v = [])
          ∧ (∀ x, x ≠ c → t.core x = s.core x) ∧ s.sameMemory t)
      ∧ (∀ n, a.result = some n → n ≠ 0 → a.landed < s.now → ∃ t, exec (.launchEntryFire c) s = .next t
          ∧ t.core c = { k with adms := k.adms.map fun x => if x.key = a.key then { x with stage := 9 } else x }
          ∧ (∀ x, x ≠ c → t.core x = s.core x) ∧ s.sameMemory t)
      ∧ (recLoose a.record = false → a.result = none → a.stage < 4 → exec (.launchEntryFire c) s = .next (
          (s.setCore c { k with adms := k.adms.map fun x => if x.key = a.key then { x with late := true } else x }).faulted .stall c)))
    ∧ (∀ (a : Adm) (ks : List Nat) (base : Nat), s.newEntries c = [] → k.adms = [a] → a.busy = false → a.result = none → a.stage < 4 →
        (if a.stage = 1 then s.arenaKey a.asid a.record c = .ok base else a.arena = base) →
        a.fire ≤ s.accord + (8192 - 2048 * a.stage) → (a.stage ≠ 0 → a.landed < s.now) →
        (∀ x ∈ a.stageLines c (a.stage + 1), x < 2 ^ 57) → s.pageKeys c a.asid {} (a.stageLines c (a.stage + 1)) = .ok ks →
        exec (.admissionStage c) s = .next ((s.setCore c { k with adms := [{ a with stage := a.stage + 1, busy := true, arena := base }] }).startRead
          c 0 s.now (ks.map fun x => x / 64)
          (.stage a.key (if a.stage = 1 ∧ recFlag a.record 2 = true then ks.head?.map fun x => x / 64 else none) (ks.map some))))
    ∧ exec (.coreReservationEnd c) s = .next (s.setCore c { k with resEnd := 0, resFixed := none })
    ∧ ∀ b, k.blk = some b →
      let started : Blk := { b with fresh := false, code := s.mem, pages := s.pages.filter fun p => p.asid == b.asid }
      (b.fresh = true → exec (.blockStart c) s = .next (s.setCore c { k.initStorage b with blk := some started }))
      ∧ (b.fresh = false → exec (.blockStart c) s = .next (s.setCore c { k with blk := some started }))

/-- R94, R109, R150, R290: four cycles after a strand's end it leaves every clasp (one that it leaves empty opens then, log entry 39) and its
exit status word is stored, once its engine operations have landed: for a strand that EXIT ended with the first in rank of their faults, and
its fault record, if one of them failed. A block's exit cycle is noted, and in the cycle after it the block is gone: the core is free from
then on, or reserved until its hold is over, counted from the entry's fire field also where a loose entry was admitted late (the model's
choice, log entry 53), and shows what the block left. -/
def Obligations.BlockEndsComplete : Prop :=
  ∀ (s : State) (c : Nat) (k : Core) (b : Blk), k = s.core c → k.blk = some b →
    (∀ (i : Nat) (st : Strand) (e : Ending) (key : Nat), b.slots[i]? = some st → st.ended = some e → e.departed = false → e.stored = false →
      e.at_ + 4 ≤ s.now →
      smNat b.record 0x40 8 + 64 * c < 2 ^ 57 → s.pageKey c b.asid (smNat b.record 0x40 8 + 64 * c) { w := true } = .ok key →
      let left (f : Strand → Strand) : State := s.setCore c { k with blk := some { b with
        clasps := b.clasps.map fun p => (p.1, p.2.leave (BitVec.ofNat 8 (2 ^ i))), slots := b.slots.modify i f } }
      let stored (f : Strand → Strand) (code : BitVec 8) : State := (left fun x =>
          { f x with ended := some { e with departed := true, stored := true, byExit := false, code := code } }).startStore c 16 s.now
        (addressed (key + 4 * i) (bytesOf 4 (e.region.toNat % 2 ^ 21 * 2048 + e.beats.toNat * 256 + code.toNat))) b.loose
      let landed (o : EngOp) : Prop := ∃ t, o.land = some t ∧ (t ≤ e.at_ + 4 ∨ t < s.now)
      ((∃ o ∈ st.eops, ¬landed o) →
        exec (.strandDeparture c i) s = .next (left fun x => { x with ended := some { e with departed := true } }))
      ∧ ((∀ o ∈ st.eops, landed o) → e.byExit = false ∨ (∀ o ∈ st.eops, o.fail = none) →
        exec (.strandDeparture c i) s = .next (stored id e.code))
      ∧ ∀ o x, (∀ o ∈ st.eops, landed o) → e.byExit = true → o ∈ st.eops → o.fail = some x →
        (∀ p ∈ st.eops, ∀ y, p.fail = some y → p = o ∨ x.1.priority < y.1.priority ∨ x.1.priority = y.1.priority
          ∧ (Engine.index o.eng < Engine.index p.eng ∨ o.eng = p.eng ∧ o.num < p.num)) →
        exec (.strandDeparture c i) s = .next (stored
          (fun y => { y with frec := faultRecord st e.word { cause := x.1, threads := [], addr := x.2, engine := some o.eng } })
          (BitVec.ofNat 8 x.1.code)))
    ∧ (b.exitAt = none → exec (.blockExit c) s = .next (s.setCore c { k with blk := some { b with exitAt := some s.now } }))
    ∧ (∀ x, b.exitAt = some x → ∃ t y, exec (.blockExit c) s = .next t ∧ (t.core c).blk = none ∧ (t.core c).freeAt = x + 1
        ∧ (t.core c).left = some y ∧ y.clasps = b.clasps ∧ y.record = b.record ∧ (∀ i : Nat, (y.slots[i]?).map (·.cur) = (b.slots[i]?).map (·.cur))
        ∧ (t.core c).resEnd = (if s.accord < b.fire + 2048 * b.hold then b.fire + 2048 * b.hold else 0)
        ∧ (∀ z, z ≠ c → t.core z = s.core z) ∧ s.sameMemory t)

/-! ## Commits and records -/

/-- R36, R152, R167, R176: a commit writes the lines that its operations carry, in their bytes and horizons alone, where several write one
byte the last of them in the commit's order; then it lands the operations with nothing left to move, in that order, and a write of row 1 of
R142 that is due on a core. That a commit has these two parts is the model's choice (log entry 6), as is the horizon of a write that R167 does
not name (log entry 56). R55: the first line of a stack and period that fails is retried, another is SLACK. R34, R45: a slack window counts. -/
def Obligations.CommitEventsComplete : Prop :=
  (∀ s : State, s.memoryOk → (s.ops.map fun o => (o.col, o.seq)).Nodup → (∀ o ∈ s.ops, o.col < 1536 ∧ o.carried = true) →
    (s.marked 1 = false →
      (∀ o ∈ s.ops, o.reads = false ∧ o.atEnd = false ∧ o.atoms = [] ∧ o.flag = none ∧ o.wtags = []
        ∧ ∀ x d ty lanes w n, o.done ≠ .load x d ty true lanes w n) →
      let puts (o : MemOp) (a : Nat) : Prop := a / 64 ∈ o.carry ∧ ∃ x, (a, x) ∈ o.writes
      ∃ t, exec .commit s = .next t ∧ t.ops = s.ops.map (fun o => { o with carry := [], carryFlag := false })
        ∧ (∀ a, (∀ o ∈ s.ops, ¬puts o a) → smGet t.mem a = smGet s.mem a)
        ∧ (∀ o ∈ s.ops, ∀ a x, a / 64 ∈ o.carry → (a, x) ∈ o.writes → (∀ y, (a, y) ∈ o.writes → y = x) →
            (∀ p ∈ s.ops, puts p a → p = o ∨ commitBefore p o = true) → smGet t.mem a = x)
        ∧ (∀ o ∈ s.ops, ∀ a, puts o a → (∀ p ∈ s.ops, (∃ k, k < 64 ∧ puts p (a / 64 * 64 + k)) → p = o ∨ commitBefore p o = true) →
            smGet t.horizons (a / 64) = BitVec.ofNat 64 (s.horizonNow o).1)
        ∧ (∀ l, (∀ o ∈ s.ops, ∀ k, k < 64 → ¬puts o (64 * l + k)) → smGet t.horizons l = smGet s.horizons l)
        ∧ t.tags = s.tags ∧ t.cores = s.cores ∧ t.swept = 1 :: s.swept)
    ∧ (s.marked 1 = true →
      (∀ o ∈ s.ops, o.todo = [] ∧ o.carry = [] ∧ o.remote = [] ∧ o.flag = none ∧ o.bad = [] ∧ o.done = .nothing ∧ o.acqPod = false
        ∧ 1 ≤ o.key ∧ o.key ≤ 8) → s.host.rings = [] →
      (∀ p ∈ s.cores, ∀ w ∈ p.2.swr, w.row = 1 → s.now < w.land) →
      (∀ c i st, s.strand c i = some st → ∀ pa x q d l f g n, Wait.waita pa x q d l f g n ∉ st.waits) →
      exec .commit s = .next { (sortOps commitBefore s.ops).foldl (fun t o =>
        t.modStrand o.col (o.key - 1) fun st => (st.landAcc o.seq s.now).landPend o.seq s.now []) s with ops := [] }))
  ∧ ∀ s : State,
    (∀ (c : Nat) (k : Core) (w : SWrite) (rest : List SWrite), s.ops = [] → s.marked 1 = true → s.cores = [(c, k)] → s.host.rings = [] →
      onlyOne (fun x => x.row == 1 && decide (x.land ≤ s.now)) k.swr w rest →
      (∀ i st, s.strand c i = some st → ∀ pa x q d l f g n, Wait.waita pa x q d l f g n ∉ st.waits) →
      exec .commit s = .next { s with cores := [(c, { k.putScratch w.bytes w.tags with swr := rest })] })
    ∧ (∀ d l u, (∀ r ∈ s.retried, r.1 ≠ d) → exec (.retryDetected d l u) s = .next { s with
        retried := s.retried ++ [(d, l)]
        badLines := if u && !s.badLines.contains l then l :: s.badLines else s.badLines })
    ∧ (∀ d l m u, (d, m) ∈ s.retried → (d, l) ∉ s.retried → exec (.retryDetected d l u) s = .next (s.faulted .slack d))
    ∧ ∀ d, exec (.refresh d) s = .next { s with refreshed := smSet s.refreshed d (smGet s.refreshed d + 1) }

/-- R167, R176, R258, R260: a record at its home that its column's share covers: LOAD answers with the line and its tag, STORE writes the
words its mask names, STOREB the bytes of its MASK and COPYW the whole line with its tag, with the horizon the record brings (the model's
choice, log entry 43), COPYW with 0 (log entry 56, the model's choice too); beyond the share a record only raises SLACK. -/
def Obligations.HomeStoresComplete : Prop :=
  ∀ (s : State) (r : HomeRec), s.memoryOk →
    let l := r.body.line.toNat
    let n := (aGet s.fab.ingress (stackOf l)).getD 0
    let at_ (a : Nat) : Byte := r.body.data.extractLsb' (8 * (a - 64 * l)) 8
    let writes (i : Instr) (p : Nat → Bool) (tag : Tag) (hor : BitVec 64) : Prop := ∃ t, exec i s = .next t
      ∧ (∀ a, smGet t.mem a = if a / 64 = l ∧ p (a - 64 * l) then at_ a else smGet s.mem a)
      ∧ (∀ x, smGet t.tags x = if x = l then tag else smGet s.tags x)
      ∧ (∀ x, smGet t.horizons x = if x = l then hor else smGet s.horizons x)
      ∧ t.cores = s.cores ∧ t.ops = s.ops ∧ t.fab = { s.fab with home := s.fab.home.erase r, ingress := aSet s.fab.ingress (stackOf l) (n + 1) }
    (n < s.share (stackOf l) 1536 →
      writes (.recordStore r) (fun j => r.body.mask.getLsbD (j / 4)) (smGet s.tags l) (r.body.hor.getD 0)
      ∧ writes (.recordStoreb r) (fun j => r.byteMask.getLsbD j) (smGet s.tags l) (r.body.hor.getD 0)
      ∧ writes (.recordCopyw r) (fun _ => true) r.body.tag 0
      ∧ (l ∉ s.badLines → ∃ t, exec (.recordLoad r) s = .next t ∧ s.sameMemory t ∧ t.cores = s.cores ∧ t.ops = s.ops
          ∧ t.fab.home = s.fab.home.erase r
          ∧ t.fab.recq = s.fab.recq ++ [⟨r.plane, r.sender, true, s.now, 0, 0, s.seq, 0,
              { recordOf l 8 with tag := smGet s.tags l, data := smBlock s.mem (64 * l), hor := some (s.horizonSent l) }, none, 0⟩]))
    ∧ (s.share (stackOf l) 1536 ≤ n → ∀ i ∈ [Instr.recordLoad r, .recordStore r, .recordStoreb r, .recordCopyw r, .recordAtom r, .recordAtomtree r],
        exec i s = .next (State.faulted { s with fab := { s.fab with home := s.fab.home.erase r } } .slack (stackOf l)))

/-- R176, R177, R258, R260: a 32-bit ADD of one word at its home leaves the sum there, with the horizon the record brings (the model's choice,
log entry 43), and answers with the old word, from ATOM and ATOM.TREE alike; a RESP hands its line to the request that waits for it; a record
of no assigned opcode is taken away with ALERT 2. -/
def Obligations.HomeAtomicsComplete : Prop :=
  ∀ (s : State) (r : HomeRec), s.memoryOk →
    let l := r.body.line.toNat
    let n := (aGet s.fab.ingress (stackOf l)).getD 0
    (∀ w, w < 16 → r.body.mask = 1#16 <<< w → r.body.aop = 0 → r.body.width = 0 → l ∉ s.badLines → n < s.share (stackOf l) 1536 →
      let old := BitVec.ofNat 32 (smNat s.mem (64 * l + 4 * w) 4)
      ∀ i ∈ [Instr.recordAtom r, .recordAtomtree r], ∃ t, exec i s = .next t
        ∧ BitVec.ofNat 32 (smNat t.mem (64 * l + 4 * w) 4) = old + r.body.data.extractLsb' (32 * w) 32
        ∧ (∀ a, a < 64 * l + 4 * w ∨ 64 * l + 4 * w + 4 ≤ a → smGet t.mem a = smGet s.mem a)
        ∧ t.tags = s.tags ∧ t.horizons = (match r.body.hor with | some h => smSet s.horizons l h | none => s.horizons)
        ∧ t.cores = s.cores ∧ t.ops = s.ops
        ∧ ∃ q, t.fab.recq = s.fab.recq ++ [q] ∧ q.peer = r.sender ∧ q.resp = true ∧ q.body.mask = r.body.mask
          ∧ q.body.data.extractLsb' (32 * w) 32 = old ∧ q.body.op = 8 ∧ q.body.tag = smGet s.tags l)
    ∧ (∀ (o : MemOp) (x : RemLine), s.ops = [o] → o.remote = [x] → x.resp = true → x.sent.isSome = true → x.data = none → x.pkg = r.sender → x.line = l →
        o.isAtomic = (r.body.mask != 0) → r.body.aop ≠ 31#5 →
        exec (.recordResp r) s = .next { s with
          fab := { s.fab with home := s.fab.home.erase r }
          ops := [{ o with
            remote := [{ x with data := some (r.body.data, r.body.tag) }]
            got := o.got ++ match r.body.hor with
              | some h => if o.acqPod then [⟨remoteKey r.sender l, r.body.data, r.body.tag, h.toNat, none⟩] else []
              | none => [] }] })
    ∧ ∃ p, exec (.recordDiscard r) s = .next { s with
        fab := { s.fab with home := s.fab.home.erase r }, host := { s.host with waiting := s.host.waiting ++ [(2, p, 0, 0)] } }
      ∧ smNat p 0 2 = 2 ∧ smNat p 4 4 = 1

/-! ## The fabric -/

/-- R248, R250, R252, R253, R259, R260, R261: in a slot a live plane sends the 256 bytes of the flit of the slot's use: an idle flit; a record
flit, void where no record waits; a stream flit of the oldest SEND, which lands at the end of the next frame with its last flit; the replay
due in a reserve slot, or an idle flit with the replay bit; and in slot 0 a timing flit with the frame, the offset, the planes and the absent
set. That the CRC and FEC bytes are a free function of the others (log entry 11), that a request for an alternate leaves beside the timing
flit (log entry 33) and which flit carries the fault bit (log entry 14) are the model's choices. -/
def Obligations.FlitSlotsComplete : Prop :=
  ∀ (s : State) (p : Nat), p < 8 → s.sch.planes.getLsbD p = true → s.sch.phase = .run → s.sch.raised = [] → s.fab.naks = [] →
    (s.accord % 2 = 0 →
      let use := s.slotUse p (s.accord % 2048 / 2)
      (use.1 = 0 → exec (.flitSlot p) s = .next (s.sentPlain p .idle true))
      ∧ (use.1 = 2 → s.fab.recq = [] → exec (.flitSlot p) s = .next (s.sentPlain p (.record [recordOf 0 0, recordOf 0 0, recordOf 0 0]) true))
      ∧ (∀ r, use.1 = 2 → 512 ≤ s.accord % 2048 / 2 → s.accord % 2048 / 2 ≤ 942 →
          s.fab.recq = [r] → r.plane = p → r.peer = use.2 % 256 → use.2 / 256 % 2 = 1 → r.resp = true → r.mask = none →
          exec (.flitSlot p) s = .next (State.sentPlain { s with fab := { s.fab with recq := [] } } p
            (.record [r.body, recordOf 0 0, recordOf 0 0]) false))
      ∧ (∀ x, use.1 = 1 → s.fab.sends = [x] → x.chan = use.2 / 256 % 32 → x.peer = use.2 % 256 → x.read = true → x.bad = false → x.left = 1 →
          x.n = 3 → x.units.length = 3 → x.acc + 64 ≤ s.now → x.floors.headD 0 ≤ s.now →
          let end_ := 2048 * (s.accord / 2048 + 2) - 1 + s.sch.offset
          exec (.flitSlot p) s = .next ((State.modSlots { s with fab := { s.fab with
              sends := [{ x with left := 0, land := some end_, floors := x.floors.drop 1 }] } }
            x.core fun st => st.modOp x.seq fun o => o.landAt end_).sentPlain p (.stream x.units) false))
      ∧ (∀ f, use.1 = 5 → s.fab.replays = [(p, s.accord % 2048 / 2, f)] → exec (.flitSlot p) s = .next { s with
          sch := s.bitSent p
          out := s.out ++ [.flit p (flitBytes { f with replay := true, fault := s.bitOut p, nak := none })]
          fab := { s.fab with replays := [] } })
      ∧ (use.1 = 5 → s.fab.replays = [] →
          let f := { s.plainFlit p .idle true with replay := true }
          exec (.flitSlot p) s = .next { s with
            sch := s.bitSent p, out := s.out ++ [.flit p (flitBytes f)], fab := { s.fab with sent := s.fab.sent ++ [(p, f)] } }))
    ∧ ∃ t : Timing, exec (.timingFlit p) s = .next (s.sentPlain p (.timing t) false) ∧ t.frame = BitVec.ofNat 64 (s.accord / 2048)
        ∧ t.offset = BitVec.ofNat 64 s.sch.offset ∧ t.sender = BitVec.ofNat 8 s.sch.pkgid ∧ t.planeStatus = s.sch.planes ∧ t.cause = 0
        ∧ t.absentSet = s.sch.absent ∧ t.planeMap = s.sch.planeMap

/-- R250 to R252, R257, R262: a flit that fails is naked; a good one of a present member hands over its payload: nothing of an idle flit, its
records to the home queue, a stream flit to its stream. A nak has the flit sent again in a free reserve slot, else it is FSLACK. -/
def Obligations.FlitDeliveriesComplete : Prop :=
  ∀ (s : State) (p peer : Nat) (f : Flit), p < 8 → s.sch.planes.getLsbD p = true →
    (exec (.flitDelivery p peer f true) s = .next { s with fab := { s.fab with
      naks := s.fab.naks ++ [(p, s.now, if f.replay then f.slot.toNat else (s.accord + 2048 - 162) % 2048 / 2)] } })
    ∧ (let frame := if s.accord % 2048 < 162 then s.sch.lastFrame else s.accord / 2048
       f.slot.toNat = (s.accord + 2048 - 162) % 2048 / 2 → f.frame.toNat = frame % 4096 →
        s.sch.absent.getLsbD peer = false → f.fault = false → f.ready = false → f.absent = none → f.nak = none →
      (f.body = .idle → exec (.flitDelivery p peer f false) s = .next s)
      ∧ (∀ r, f.body = .record [r] → f.void = false → r.op.toNat ≠ 0 → r.op.toNat ≠ 3 → r.op.toNat ≠ 4 →
          exec (.flitDelivery p peer f false) s = .next { s with fab := { s.fab with
            home := s.fab.home ++ [⟨frame, f.slot.toNat, p, peer, 0, r, 0⟩] } })
      ∧ (∀ us, f.body = .stream us → (s.slotUseIn p f.slot.toNat).1 = 1 → exec (.flitDelivery p peer f false) s =
          .next { s with inputs := (s.now + 1, .streamFlit p peer f) :: s.inputs }))
    ∧ (∀ n, s.fab.sent = [(p, f)] → f.slot.toNat = n →
      (∀ m, s.reserveSlot p (s.hasDeadline p f) = some m →
        exec (.nakReceived p n) s = .next { s with fab := { s.fab with replays := s.fab.replays ++ [(p, m, f)] } })
      ∧ (s.reserveSlot p (s.hasDeadline p f) = none → exec (.nakReceived p n) s = .next (s.faulted .fslack p)))
    ∧ (∀ m d, s.reserveSlot p d = some m → (s.slotUse p m).1 = 5 ∧ s.accord % 2048 ≤ 2 * m ∧ m < 1024 ∧ (d = true → 2 * m + 162 ≤ 2046)
        ∧ ∀ r ∈ s.fab.replays, r.1 = p → r.2.1 ≠ m)

/-- R37, R262, R263: a stream's flit with data, or a withheld one, is bound to the RECV that waits for it, after those of its flits that stand
before it; with the last of them the RECV lands at the end of the next frame. Other void flits do nothing, and flits that no RECV takes are
discarded. At the end of a fabric period a RECV whose time has come hands its blocks and tags to the commit of the cycle as a write of row 1,
or, where a flit was withheld, writes nothing and gives its operation PARTNER; what was kept for replay is let go. -/
def Obligations.StreamsComplete : Prop :=
  ∀ (s : State) (p peer : Nat) (f : Flit) (us : List (Block × Tag)), (f.body = .stream us ∨ f.body = .withheld ∧ us = []) →
    let frame := if s.accord % 2048 < 162 then s.sch.lastFrame else s.accord / 2048
    let chan := (s.slotUseIn p f.slot.toNat).2 / 256 % 32
    let end_ := 2048 * (frame + 2) - 1 + s.sch.offset
    let held := f.body == .withheld
    let u : StreamUnit := ⟨frame, f.slot.toNat, p, held, us⟩
    (f.void = true → f.body = .stream us → exec (.streamFlit p peer f) s = .next s)
    ∧ ((f.void = false ∨ held = true) → s.fab.recvs = [] →
        exec (.streamFlit p peer f) s = .next { s with fab := { s.fab with discarded := s.fab.discarded + 1 } })
    ∧ (∀ x, (f.void = false ∨ held = true) → s.fab.recvs = [x] → x.chan = chan → x.peer = peer → (∀ y ∈ x.flits, y.before u = true) →
        (x.flits.length + 1 < (x.n + 2) / 3 → exec (.streamFlit p peer f) s = .next
          { s with fab := { s.fab with recvs := [{ x with flits := x.flits ++ [u], land := none }] } })
        ∧ (x.flits.length + 1 = (x.n + 2) / 3 → exec (.streamFlit p peer f) s = .next (State.modSlots
          { s with fab := { s.fab with recvs := [{ x with flits := x.flits ++ [u], land := some end_ }] } }
          x.core fun st => st.modOp x.seq fun o => o.landAt end_)))
    ∧ (s.sch.phase = .run → s.fab.recvs = [] → s.fab.home = [] → s.sch.source = false → s.fab.discarded = 0 → s.sch.prior = none →
      exec .fabricPeriodCommit s = .next { s with fab := { s.fab with
          owed := [], lastMap := s.mapPart, sent := [], replays := [], sends := s.fab.sends.filter fun x => !x.land.any fun t => decide (t ≤ s.now)
          flown := s.fab.flown.filter s.inFlight } })
    ∧ (∀ x v, s.sch.phase = .run → s.fab.recvs = [x] → x.land = some v → v ≤ s.now →
        ∃ t, exec .fabricPeriodCommit s = .next t ∧ t.fab.recvs = [] ∧ s.sameMemory t ∧ (∀ c, c ≠ x.core → t.core c = s.core c)
          ∧ ((∃ y ∈ x.flits, y.held = true) → t.core x.core = (s.failEng x.core x.seq .partner 0).core x.core)
          ∧ ((∀ y ∈ x.flits, y.held = false) →
            let units := ((x.flits.flatMap (·.units)).take x.n).zipIdx
            t.core x.core = (s.core x.core).copyWrite x.seq s.now (units.flatMap fun y => addressed (x.off + 64 * y.2) (bytesOf 64 y.1.1.toNat))
              (units.map fun y => (x.off / 64 + y.2, y.1.2))))

/-- R274, R275, R314: a descriptor outside its limits is completed with BADOP, one for a port that boot has marked down with PEER (the model's
reading, log entry 46); a put's lines are read and a get goes to its peer, the message being the descriptor's 64 bytes (the model's choice,
log entry 21); a completion is stored with the tag and the status, for a get once its data has landed (log entry 64), and no second answer
counts meanwhile; a retransmission that is given up completes with PEER; only PTP event messages are timestamped. -/
def Obligations.ScaleoutComplete : Prop :=
  ∀ (s : State) (d : Desc) (port : Nat) (bytes : List Byte),
    let done (t : State) (status k : Nat) : State :=
      State.startStore { t with host := { t.host with descs := t.host.descs.filter fun x => x.id != d.id } } 1537 0 t.now
        (addressed k (bytesOf 8 (smNat d.bytes 0x28 8) ++ bytesOf 4 status ++ bytesOf 4 0))
    let again : State := { s with host := { s.host with descs := s.host.descs.map fun x => if x.id == d.id then { x with tries := x.tries + 1 } else x } }
    (∀ k, s.hostKey d.asid (smNat d.bytes 0x20 8 % 2 ^ 57) { w := true } = some k →
      (s.descBad d = true → (s.nextDesc d.ring 1 = some d → exec (.scaleoutPut d.ring) s = .next (done s 1 k))
        ∧ (s.nextDesc d.ring 2 = some d → exec (.scaleoutGet d.ring) s = .next (done s 1 k)))
      ∧ (s.descBad d = false → s.portLost d = true → (s.nextDesc d.ring 1 = some d → exec (.scaleoutPut d.ring) s = .next (done s 2 k))
        ∧ (s.nextDesc d.ring 2 = some d → exec (.scaleoutGet d.ring) s = .next (done s 2 k)))
      ∧ ((s.host.descs.find? fun x => x.id == d.id) = some d → s.completing d.id = false →
        exec (.scaleoutRetransmission d.id true) s = .next (done s 2 k)
        ∧ (smNat d.bytes 0 1 = 1 → exec (.scaleoutCompletion d.id 0 []) s = .next (done s 0 k))
        ∧ (∀ x a, smNat d.bytes 0 1 = 2 → smNat d.bytes 0x18 8 = 1 → s.hostKey d.asid (smNat d.bytes 8 8 % 2 ^ 57) { w := true } = some a →
            exec (.scaleoutCompletion d.id 0 [x]) s = .next (s.startStore 1537 0 s.now [(a, x)] false (.complete d.id 0))))
      ∧ ((s.host.descs.find? fun x => x.id == d.id) = some d → s.completing d.id = true →
        exec (.scaleoutRetransmission d.id true) s = .next s ∧ exec (.scaleoutCompletion d.id 0 bytes) s = .next s)
      ∧ (∀ o, (s.host.descs.find? fun x => x.id == d.id) = some d → s.memoryOk → s.marked 1 = true → s.ops = [o] → o.done = .complete d.id 0 →
        o.col = 1537 → o.carried = true → o.todo = [] → o.reads = false → o.atEnd = false → o.atoms = [] → o.remote = [] → o.flag = none →
        o.bad = [] → o.acqPod = false → s.host.rings = [] → s.cores = [] →
        ∃ u, exec .commit s = .next (done u 0 k) ∧ u.ops = [] ∧ u.host.descs = s.host.descs
          ∧ ∀ a x, a / 64 ∈ o.carry → (a, x) ∈ o.writes → (∀ y, (a, y) ∈ o.writes → y = x) → smGet u.mem a = x))
    ∧ (∀ ls, s.descBad d = false → s.portLost d = false →
      (s.nextDesc d.ring 1 = some d → s.descLines d {} = some ls →
        exec (.scaleoutPut d.ring) s = .next (again.startRead 1537 0 s.now ls (.putRead d.id)))
      ∧ (s.nextDesc d.ring 2 = some d → s.descLines d { w := true } = some ls →
        exec (.scaleoutGet d.ring) s = .next { again with out := s.out ++ [.port (smNat d.bytes 1 1) (smBytes d.bytes 0 64)] }))
    ∧ (port ≤ 9 → bytes.length ≤ 9216 → s.plat.portDown.getLsbD port = false →
        exec (.ethernetFrame port bytes true) s = .next { s with host := { s.host with stamps := s.host.stamps ++ [(port, s.now)] } })
    ∧ exec (.ethernetFrame port bytes false) s = .next s

/-- R265, R268 to R270: a tree is created, freed and takes effect at its frame; a chunk that was fired reads its lines at the commit before
its frame, and one that was not is void, with STALL while a fixed block is resident (the model's choice, log entry 25). A chunk that has come
whole ends DONE: an ALLREDUCE is written as the pairwise tree over the ranks' elements, absent ranks left out, with its tag, an ALLGATHER and
a BROADCAST as their senders' blocks and tags, with horizons 0 (an engine's write: the model's choice, log entry 56). One whose tree is not
live ends NOTREE, one that a counted rank did not send TIMEOUT, one with a tag that fails its check DATA; they write nothing. -/
def Obligations.CollectivesComplete : Prop :=
  ∀ (s : State),
    (∀ id n f, smNat s.host.req 8 1 = id → smNat s.host.req 0xA 2 = n → smNat s.host.req 0x10 8 = f → id ≤ 63 → s.fab.trees = [] → 1 ≤ n → n ≤ 256 →
      let ranks := (List.range n).map fun k => (smGet s.host.payload k).toNat
      s.sch.pkgid ∈ ranks → ranks.Nodup → s.accord / 2048 + 4 ≤ f →
      exec .treecreate s = .next (State.answered { s with fab := { s.fab with trees := [⟨id, ranks, false, f, none⟩] } } 0 []))
    ∧ (∀ t, s.fab.trees = [t] → t.live = true → smNat s.host.req 8 1 = t.id → s.accord / 2048 + 4 ≤ smNat s.host.req 0x10 8 →
      exec .treefree s = .next (State.answered
        { s with fab := { s.fab with trees := [{ t with freed := some (smNat s.host.req 0x10 8) }] } } 0 []))
    ∧ (∀ t, s.fab.trees = [t] →
      exec (.treeEffective t.id) s = .next { s with fab := { s.fab with trees := [{ t with
        live := decide (t.frame < s.accord / 2048 ∧ ∀ f ∈ t.freed, s.accord / 2048 < f) }] } })
    ∧ (∀ (p : Part) (t c e : Nat), s.part = some p → s.chunksAt t (s.accord / 2048 + 1) = [(c, e)] →
      let ranks := s.ranksIn t (p.collFrame e)
      (s.firedAt t c (p.collFrame e) = false → exec (.collectiveRead t) s = .next ((if s.fixedHere then s.raiseAt .stall 0xFF (s.now + 1) else s).fireChunk
          { p.chunk t c e 0 none none true with void := true, read := true, ranks := ranks }))
      ∧ (∀ k a ls, s.fab.chunks = [k] → k.tree = t → k.c = c → k.frame = p.collFrame e → k.addr = some a → k.sends = true →
          s.chunkLines t k.asid k.partAt k.bytes false = some ls → s.badLines = [] →
          exec (.collectiveRead t) s = .next { s.chargeLines ls with fab := { (s.chargeLines ls).fab with
            chunks := [{ k with ranks := ranks, read := true, mine := ls.map fun l => (smBlock s.mem (64 * l), smGet s.tags l) }] } }))
    ∧ (∀ (k : Chunk) (a : Nat), s.fab.chunks = [k] → k.frame + 1 = s.accord / 2048 → k.status = none → k.firedBy = none → k.addr = some a →
      (k.rankOf s.sch.pkgid ≠ some k.rank → exec (.collectiveResult k.tree) s = .next { s with fab := { s.fab with
          chunks := [{ k with status := some 2 }]
          contribs := s.fab.contribs.filter fun x => !(x.tree == k.tree && x.c == k.c && x.frame == k.frame) } })
      ∧ (∀ (us : Nat → List (Block × Tag)) (ls : Nat → List Nat), k.rankOf s.sch.pkgid = some k.rank →
        let n := k.bytes / 64
        let senders := if k.op / 16 = 2 then [0] else List.range k.ranks.length
        let counted := senders.filter fun r => match k.ranks[r]? with | some q => !s.sch.absent.getLsbD q | none => false
        let sent (r : Nat) : Option (List (Block × Tag)) := if r = k.rank then (if k.void = true then none else some k.mine) else s.contribution k r n
        let ended (code : Nat) : State := { s with fab := { s.fab with
          chunks := [{ k with status := some code }]
          contribs := s.fab.contribs.filter fun x => !(x.tree == k.tree && x.c == k.c && x.frame == k.frame) } }
        let wrote (ws : List (List Nat × List (Block × Tag))) : Prop := ∃ u, exec (.collectiveResult k.tree) s = .next u
          ∧ u.mem = ws.foldl (fun m w => smWrites m ((w.1.zip w.2).flatMap fun x => addressed (64 * x.1) (bytesOf 64 x.2.1.toNat))) s.mem
          ∧ u.tags = ws.foldl (fun m w => smWrites m ((w.1.zip w.2).map fun x => (x.1, x.2.2))) s.tags
          ∧ (smWf s.horizons = true → ∀ w ∈ ws, ∀ l ∈ w.1, smGet u.horizons l = 0)
          ∧ u.fab.chunks = [{ k with status := some 0 }] ∧ u.cores = s.cores ∧ u.ops = s.ops
        ((∃ r ∈ counted, sent r = none) → exec (.collectiveResult k.tree) s = .next (ended 1))
        ∧ ((∀ r ∈ counted, sent r = some (us r)) → (∃ r ∈ counted, ∃ u ∈ us r, tagOk u.2 = false) →
            exec (.collectiveResult k.tree) s = .next (ended 4))
        ∧ ((∀ r ∈ counted, sent r = some (us r) ∧ ∀ u ∈ us r, tagOk u.2 = true) →
          (k.op / 16 = 0 → s.chunkLines k.tree k.asid a (64 * n) true = some (ls 0) →
            wrote [(ls 0, (List.range n).map fun j =>
              (reduceBlock (k.op % 16) (senders.map fun r => if r ∈ counted then (us r)[j]?.map (·.1) else none), reduceTag (k.op % 16)))])
          ∧ (k.op / 16 ≠ 0 →
            (∀ r ∈ counted, s.chunkLines k.tree k.asid (if k.op / 16 = 1 then a + r * k.bytes else a) (64 * (us r).length) true = some (ls r)) →
            wrote (counted.map fun r => (ls r, us r))))))

/-! ## Slices and schedule faults -/

/-- R32, R38, R40, R45, R47, R57, R62, R319 to R321, R324: a slice commits, its error counts and schedule kept as those before, and the next
is named, or after the last the idle alternate; the ready vote opens the next slice, waits in idle frames, and after three of them is VOTE
(that the offset grows as each idle frame ends is log entry 26); a slice that starts is active from its first cycle, slice 0 with the refresh
groups that the part declares; CLOCK, the servo's trim with the policy's phase bound, a power phase, a requested alternate, and the levels of
a reading of the 32 sensors: Warm asks for the cool alternate, or is ALERT 5 without one; Hot asks for the idle one; Emergency starts the save,
or is ALERT 6 without areas; Trip removes power, at once (log entry 8, the model's choice: R320 says within 1 ms). -/
def Obligations.SlicesComplete : Prop :=
  ∀ (s : State),
    (∀ p, s.sch.active = true → s.sch.heard = [] → s.part = some p → (∀ d, d < 8 → smNat p.img ((p.section 3).1 + 16 * d + 4) 4 = 0) →
      let plat := { s.plat with lastCounts := s.plat.counts, counts := [] }
      let host := { s.host with resumes := s.host.resumes.filter fun r => !(r.fixed && r.started) }
      let sch := { s.sch with prior := some s.sliceMark, active := false, attempts := 1, recorded := none }
      (s.sch.slice + 1 < p.sliceCount → exec .sliceCommit s =
          .next { s with plat := plat, host := host, sch := { sch with slice := s.sch.slice + 1 } })
      ∧ (p.sliceCount ≤ s.sch.slice + 1 → aGet s.sch.alts 9 = none →
          exec .sliceCommit s = .next { s with plat := plat, host := host, sch := { sch with ended := true, inForce := .idle } }))
    ∧ (s.voteFrame = true →
      (s.allReady = true → exec .readyVote s = .next { s with sch := { s.sch with
          voted := true, votes := [], growth := if 0 < s.sch.idleVotes then 2048 else 0, idleVotes := 0 } })
      ∧ (s.allReady = false → s.sch.idleVotes < 3 → exec .readyVote s = .next { s with sch := { s.sch with
          votes := [], growth := if 0 < s.sch.idleVotes then 2048 else 0, idleVotes := s.sch.idleVotes + 1 } })
      ∧ (s.allReady = false → s.sch.idleVotes = 3 →
          exec .readyVote s = .next (State.faulted { s with sch := { s.sch with votes := [], idleVotes := 0, growth := 2048 } } .vote 0xFF)))
    ∧ (∀ p, s.sch.pending = none → s.sch.altReq = none → s.part = some p → s.sch.ended = false → p.sliceFirst s.sch.slice = s.accord / 2048 →
      p.noChunks s.sch.slice (s.accord / 2048) →
      ∃ t, exec .sliceStart s = .next t ∧ t.sch.active = true ∧ t.sch.phase = .run ∧ t.sch.sliceTick = s.now ∧ t.sch.attempts = 1
        ∧ t.sch.consumed = s.sch.consumed ∧ t.sch.slice = s.sch.slice ∧ t.sch.inForce = s.sch.inForce
        ∧ (∀ c, t.core c = { s.core c with adms := (s.core c).adms.filter fun a => a.stage != 9 })
        ∧ (s.sch.slice = 0 → t.refreshed = p.refreshStart s.refreshed) ∧ (s.sch.slice ≠ 0 → t.refreshed = s.refreshed)
        ∧ s.sameMemory t ∧ t.ops = s.ops)
    ∧ exec .clock s = .next (State.faulted { s with sch := { s.sch with locked := false } } .clock 0xFF)
    ∧ (∀ (ppb phase : Int) (step : Bool), s.sch.source = true → s.accord % 2048 = 0 →
      (step = false → s.phaseBad phase = false → -10000 ≤ ppb → ppb ≤ 10000 →
          exec (.servoTrim ⟨ppb, phase, step⟩) s = .next { s with sch := { s.sch with trim := ppb } })
      ∧ (step = true ∨ ppb < -10000 ∨ 10000 < ppb ∨ (∃ p, s.sch.main = some p ∧
            (phase < -(smNat p.img ((p.section 9).1 + 8) 4 : Int) ∨ (smNat p.img ((p.section 9).1 + 8) 4 : Int) < phase)) →
          exec (.servoTrim ⟨ppb, phase, step⟩) s = .next (s.faulted .clock 0xFF)))
    ∧ (∀ p i, s.part = some p → p.powerAt (s.accord / 2048) = [i] →
      let o := (p.section 7).1 + 16 * i
      let c := smNat p.img (o + 8) 2
      exec .powerPhase s = .next { s.setCore c { s.core c with islands := BitVec.ofNat 4 (smNat p.img (o + 10) 1) } with
        slope := aSet s.slope (c / 3) (BitVec.ofNat 16 (smNat p.img (o + 12) 2)) })
    ∧ (∀ m idle, s.sch.absent.getLsbD m = false → s.sch.altReq = none → exec (.alternateRequest m idle) s = .next { s with
        plat := { s.plat with coolSlice := false }, sch := { s.sch with altReq := some (idle, s.accord / 2048) } })
    ∧ (∀ (xs : List Nat) (x : Nat), xs.length = 32 → x ∈ xs → (∀ y ∈ xs, y ≤ x) → s.accord % 2048 = 0 → s.marked (65536 * 36 + 2) = false →
      s.plat.level = 0 → s.sch.altReq = none →
      let asked (idle : Bool) : Sched :=
        { s.sch with altReq := some (idle, s.accord / 2048 + 1), request := some (idle, s.accord / 2048 + 1) }
      let u := { s with swept := (65536 * 36 + 2) :: s.swept, plat := { s.plat with
        sensors := smWrites [] (xs.zipIdx.map fun y => (y.2, BitVec.ofNat 16 y.1)), level := if x < 1520 then 0 else if x < 1680 then 1 else if x < 1792 then 2 else 3
        tempFrame := s.accord / 2048, levelFrame := if x < 1520 then s.plat.levelFrame else s.accord / 2048
        warmFrames := if x < 1520 then s.plat.warmFrames else s.plat.warmFrames + 1, coolSlice := if s.sch.voted then s.plat.coolSlice else (s.plat.coolSlice || s.coolFrom) && decide (x < 1440)
        coolFrame := decide (x < 1440) } }
      (x < 1520 → exec (.temperatureRead xs) s = .next u)
      ∧ (1520 ≤ x → x < 1680 → (aGet s.sch.alts 8).isSome = true → exec (.temperatureRead xs) s = .next { u with sch := asked false })
      ∧ (1520 ≤ x → x < 1680 → aGet s.sch.alts 8 = none → exec (.temperatureRead xs) s = .next (u.alerted 5))
      ∧ (1680 ≤ x → x < 1792 → (aGet s.sch.alts 8).isSome = true → exec (.temperatureRead xs) s = .next { u with sch := asked true })
      ∧ (1680 ≤ x → x < 1792 → aGet s.sch.alts 8 = none → exec (.temperatureRead xs) s = .next { u.alerted 5 with sch := asked true })
      ∧ (1792 ≤ x → x < 1920 → (aGet s.sch.alts 8).isSome = true →
        (s.host.emerg = none → exec (.temperatureRead xs) s = .next { u.alerted 6 with sch := asked true })
        ∧ (∀ base stride limit, s.host.emerg = some (base, stride, limit) → s.host.cut = none → s.looseCores ≠ [] →
          exec (.temperatureRead xs) s = .next { u with
            sch := asked true
            host := { s.host with cut := some ⟨s.looseCores, s.maxStep s.looseCores + 1, base, stride, s.now + 2048 * limit, false, false⟩ } }))
      ∧ (1920 ≤ x → ∃ t, exec (.temperatureRead xs) s = .next t ∧ t.plat.powered = false))

/-- R28, R38, R45, R52, R57 to R62, R97, R101, R254, R256: a detected fault stops the run, with landings of loose blocks held to their times; the
abort takes up again a slice that committed here alone, removes fixed blocks and what they had under way, also at this home (log entry 27), and
leaves loose blocks with their operations, those that have exited too; SYNC-B relocks (log entry 14) and the offset grows to the frame of the
slice to run again, or by one frame where there is none (log entry 51, the model's choice); the slice is replayed as attempt 2 with the islands
and slope limits it began with (for a core with a loose block the model's choice, log entry 32), a slice whose vote failed starts as attempt 2,
or the alternate's slice that stands for the aborted one runs, or the package halts with the record and its event. PLANE takes a plane out.
ABSENT is noted by the timing source. -/
def Obligations.ResyncComplete : Prop :=
  ∀ (s : State),
    let restarted (p : Option Part) (slice : Nat) : SMap 16 :=
      match p with | some q => if slice = 0 then q.refreshStart s.refreshed else s.refreshed | none => s.refreshed
    let synced := s.recordedFault.map fun f => (f, s.sch.attempts)
    let entered (cores : List (Nat × Core)) (slopes : List (Nat × BitVec 16)) (x : Sched) : Sched := { x with
      phase := .run, active := true, ended := false, sliceTick := s.now, next := none, votes := [], idleVotes := 0, voted := false
      faults := [], heard := [], raised := [], synced := synced, faultBit := 0, islands := cores.map fun q => (q.1, q.2.islands), slopes := slopes }
    (∀ f, s.sch.raised = [f] → f.tick ≤ s.now → s.fab.owed = [] →
      (s.sch.phase = .run → exec .faultDetection s = .next { s.holdLandings with sch := { s.sch with
          raised := [], phase := .fault, faults := [f], faultBit := s.sch.planes, bitAt := s.now } })
      ∧ (s.sch.phase = .fault → exec .faultDetection s = .next { s with sch := { s.sch with raised := [], faults := s.sch.faults ++ [f] } })
      ∧ (s.sch.phase = .halt → exec .faultDetection s = .next { s with sch := { s.sch with raised := [] } }))
    ∧ (∃ t, exec .abort s = .next t ∧ t.sch.phase = .abort ∧ s.sameMemory t ∧ t.fab.replays = [] ∧ t.fab.home = []
      ∧ (∀ c b, (s.core c).blk = some b → b.loose = true → t.core c = s.core c)
      ∧ (∀ c b, c < 1536 → (s.core c).blk = some b → b.loose = false → (∀ o ∈ s.ops, o.col = c → o.done ≠ .save true) →
          (t.core c).blk = none ∧ (t.core c).scratch = (s.core c).scratch ∧ (t.core c).runs = [] ∧ (t.core c).swr = []
          ∧ ∀ o ∈ t.ops, o.col = c → o.loose = true ∨ (∃ a, o.done = .restore a) ∨ ∃ n f l, o.done = .stage n f l)
      ∧ (s.sch.phase = .fault → ∀ o, o.done = .nothing → o.remote = [] → (o ∈ t.ops ↔ o ∈ s.ops ∧ (1536 ≤ o.col ∨ o.loose = true)))
      ∧ (∀ f m, firstFault (s.sch.faults ++ s.sch.heard) = some f → s.sch.prior = some m →
        (m.frame < f.frame → t.sch.active = s.sch.active ∧ t.sch.slice = s.sch.slice ∧ t.sch.inForce = s.sch.inForce ∧ t.sch.prior = some m)
        ∧ (f.frame ≤ m.frame → t.sch.active = true ∧ t.sch.slice = m.slice ∧ t.sch.inForce = m.inForce ∧ t.sch.attempts = m.attempts
          ∧ t.sch.sliceTick = m.sliceTick ∧ t.sch.main = m.main ∧ t.plat.lastCounts = m.lastCounts ∧ t.host.resumes = m.resumes ++ s.host.resumes
          ∧ t.sch.consumed = s.sch.consumed)))
    ∧ (s.sch.planes = 0xFF → exec .syncA s = .next { s with sch := { s.sch with phase := .syncA } })
    ∧ (∀ q, q < 8 → s.sch.planes = ~~~(1#8 <<< q) → ∃ m, exec .syncA s = .next { s with sch := { s.sch with phase := .syncA, planeMap := m } }
      ∧ ∀ e, e < 8 → m.extractLsb' (3 * e) 3 =
          if s.sch.planeMap.extractLsb' (3 * e) 3 = BitVec.ofNat 3 q then BitVec.ofNat 3 ((q + 1) % 8) else s.sch.planeMap.extractLsb' (3 * e) 3)
    ∧ (s.part = none → s.sch.planes = 0xFF → s.sch.faults = [] → s.sch.heard = [] → s.cores = [] →
      exec .syncB s = .next { s with sch := { s.sch with phase := .syncB, locked := true, growth := 2048 } })
    ∧ (∀ f, s.recordedFault = some f → ∃ t, exec .syncB s = .next t ∧ t.sch.phase = .syncB ∧ t.sch.locked = true ∧ t.sch.faults = [f]
      ∧ (∀ p, s.part = some p → s.sch.active = true → t.sch.growth = s.accord + 2048 - 2048 * p.sliceFirst s.sch.slice)
      ∧ (s.sch.active = false → f.cause = .vote → t.sch.growth = s.accord + 2048 - 2048 * f.frame)
      ∧ s.sameMemory t ∧ t.ops = s.ops ∧ ∀ c, { t.core c with adms := (s.core c).adms } = s.core c)
    ∧ (s.sch.active = false → (∀ f, s.recordedFault = some f → f.cause ≠ .vote) →
      (∀ p, s.part = some p → s.sch.ended = true ∨ s.accord / 2048 + 1 < p.sliceFirst s.sch.slice) →
      exec .replay s = .next { s with sch := { s.sch with phase := .run, next := none, votes := [], idleVotes := 0, voted := false, faultBit := 0
                                                          faults := [], heard := [], raised := [], synced := synced, recorded := s.recordedFault } })
    ∧ (∀ f p, s.sch.active = false → s.recordedFault = some f → f.cause = .vote → s.part = some p → s.sch.pending = none → s.sch.altReq = none →
      s.sch.ended = false → p.sliceFirst s.sch.slice = s.accord / 2048 → p.noChunks s.sch.slice (s.accord / 2048) →
      ∃ t, exec .replay s = .next t ∧ t.sch.phase = .run ∧ t.sch.active = true ∧ t.sch.attempts = 2 ∧ t.sch.slice = s.sch.slice ∧ t.sch.recorded = some f
        ∧ t.sch.sliceTick = s.now ∧ t.sch.faults = [] ∧ s.sameMemory t ∧ t.ops = s.ops)
    ∧ (s.sch.active = true → (∀ p, s.part = some p → p.noChunks s.sch.slice (s.accord / 2048)) →
      let cores := s.cores.map fun q => if s.looseCore q.1 then q else (q.1, { q.2 with islands := (aGet s.sch.islands q.1).getD 0 })
      exec .replay s = .next { s with
        cores := cores, slope := s.sch.slopes, refreshed := restarted s.part s.sch.slice
        host := { s.host with resumes := s.host.resumes.map fun r => if r.fixed then { r with started := false } else r }
        sch := entered cores s.sch.slopes { s.sch with attempts := 2, recorded := s.recordedFault } })
    ∧ (∀ f n p j, s.sch.active = true → s.recordedFault = some f → s.resolve f = .alternate (.alt n) → aGet s.sch.alts n = some p →
      p.standIn s.mainSlice = some j → p.noChunks j (s.accord / 2048) →
      exec .alternate s = .next { s with
        refreshed := restarted (some p) j
        sch := entered s.cores s.slope { s.sch with inForce := .alt n, slice := j, recorded := none, attempts := 1, downed := if n < 8 then some n else s.sch.downed } })
    ∧ (∀ f n, s.recordedFault = some f → s.resolve f = .halt n → s.cores = [] → ∃ r p, exec .halt s = .next { s with
        sch := { s.sch with phase := .halt, active := false, haltRec := r, haltPath := some n }, host := { s.host with waiting := s.host.waiting ++ [(3, p, 0, 0)] } }
      ∧ r.extractLsb' 0 8 = BitVec.ofNat 8 f.cause.code ∧ r.extractLsb' 8 8 = BitVec.ofNat 8 n ∧ r.extractLsb' 16 16 = BitVec.ofNat 16 f.pkg
      ∧ r.extractLsb' 64 32 = BitVec.ofNat 32 s.sch.slice ∧ r.extractLsb' 128 64 = BitVec.ofNat 64 f.time ∧ r.extractLsb' 192 64 = BitVec.ofNat 64 f.tick)
    ∧ (∀ p, p < 8 → s.sch.planes.getLsbD p = true → exec (.plane p) s = .next (State.faulted
        { s with sch := { s.sch with planes := s.sch.planes &&& ~~~BitVec.ofNat 8 (2 ^ p) } } .plane p))
    ∧ (∀ k f, smNat s.host.req 8 1 = k → smNat s.host.req 0x10 8 = f →
      (f < s.accord / 2048 + 4 → exec .absent s = .next (s.answered 1 []))
      ∧ (s.accord / 2048 + 4 ≤ f → s.sch.source = false → exec .absent s = .next (s.answered 2 []))
      ∧ (s.accord / 2048 + 4 ≤ f → s.sch.source = true → k < s.podSize →
          exec .absent s = .next (State.answered { s with sch := { s.sch with absentDue := s.sch.absentDue ++ [(k, f)] } } 0 [])))

/-! ## Bring-up and pre-emption -/

/-- R53, R311 to R313, R316: power-on runs boot to step 3 or ends it at the step that fails, with its event (memory and schedule then as log
entries 2 to 4 say); a warm reset does so too and counts, keeping the package's memory (log entry 28, the model's choice); FWLOAD takes every
next chunk that keeps the image within its header's length, refuses one out of place, and after the last one refuses the image or lets the
boot go on; steps 4 to 9 each complete by their first method or their alternate, or end the boot with status and event, and those that a warm
reset finds complete are skipped; INSTALL accepts a part that passes its checks, or answers the lowest code of those that apply (that it is
the lowest is log entry 14; that no header can be read before the firmware is verified, log entry 66); ATTEST answers a message that begins
with the nonce and the running image's digest, and its signature of 29,792 bytes (that signatures and their check are free functions is log
entry 10). -/
def Obligations.BootComplete : Prop :=
  ∀ (s : State) (f : BootFindings),
    (f.rails = false → ∃ t p, exec (.powerOn f) s = .next t ∧ t.plat.powered = false ∧ t.plat.step = 1 ∧ t.plat.status = [(1, 3)]
      ∧ t.host.waiting = [(4, p, 0, 0)] ∧ smNat p 0 1 = 1 ∧ smNat p 1 1 = 3 ∧ t.cores = [] ∧ t.mem = [])
    ∧ (f.rails = true → f.link = true → ∃ t, exec (.powerOn f) s = .next t ∧ t.plat.powered = true ∧ t.plat.step = 3
      ∧ t.plat.status = [(1, 1), (2, 1)] ∧ t.plat.minVersion = s.plat.minVersion ∧ t.cores = [] ∧ t.mem = [] ∧ t.sch = Sched.reset)
    ∧ (f.rails = true → f.link = true → ∃ t, exec (.warmReset f) s = .next t ∧ t.plat.step = 3 ∧ t.plat.warm = s.plat.warm + 1
      ∧ t.plat.stackAlt = s.plat.stackAlt ∧ t.cores = [] ∧ t.ops = [] ∧ t.mem = s.mem ∧ t.tags = s.tags)
    ∧ (∀ n, smNat s.host.req 8 4 = s.plat.imageLen → smNat s.host.req 0xC 4 = n → 1 ≤ n → n ≤ 2 ^ 24 →
      let image := smWrites s.plat.image ((s.host.payload.filter fun e => e.1 < n).map fun e => (s.plat.imageLen + e.1, e.2))
      let len := s.plat.imageLen + n
      let header := smNat image 0 4 = 0x574D524A ∧ smNat image 8 4 ≤ 2 ^ 26 ∧ len = 64 + smNat image 8 4 + 29792 ∧ s.plat.minVersion ≤ smNat image 4 4
      let signed := Config.signatureOk (smBytes image 0 len)
      let refused := State.answered { s with plat := { s.plat with image := [], imageLen := 0 } } 1 []
      let loaded : Platform := { s.plat with
        image := [], imageLen := 0, running := image, runLen := len, version := smNat image 4 4, status := aSet s.plat.status 3 1 }
      (12 ≤ len → 64 + smNat image 8 4 + 29792 < len → exec .fwload s = .next (s.answered 2 []))
      ∧ ((12 ≤ len → len ≤ 64 + smNat image 8 4 + 29792) →
        (smNat s.host.req 0x10 4 % 2 = 0 → exec .fwload s = .next (State.answered { s with plat := { s.plat with image := image, imageLen := len } } 0 []))
        ∧ (smNat s.host.req 0x10 4 % 2 = 1 → ¬header → exec .fwload s = .next refused)
        ∧ (smNat s.host.req 0x10 4 % 2 = 1 → header →
          (s.plat.step ≠ 3 → exec .fwload s = .next (if signed then State.answered { s with plat := loaded } 0 [] else refused))
          ∧ (∀ g, s.plat.step = 3 → s.plat.findings = some g → exec .fwload s = .next
              (if signed then (State.answered { s with plat := loaded } 0 []).bootFrom g [4, 5, 6, 7, 8, 9] else refused)))))
    ∧ (smNat s.host.req 8 4 ≠ s.plat.imageLen → exec .fwload s = .next (s.answered 2 []))
    ∧ (let u := s.bootFrom f [4, 5, 6, 7, 8, 9];
      let alternate (n : Nat) (ok : Bool) : Prop := u.plat.statusOf n = if ok then 1 else 2;
      let stopped (n code : Nat) : Prop := u.plat.step = n ∧ u.plat.statusOf n = code
        ∧ ∃ p, u.host.waiting = s.host.waiting ++ [(4, p, 0, 0)] ∧ smNat p 0 1 = n ∧ smNat p 1 1 = code;
      let again (l : List (Nat × Nat)) : Prop := ∃ x ∈ l, 1 < (l.filter fun y => y.1 == x.1).length;
      ((∀ n, 4 ≤ n → n ≤ 8 → s.plat.complete n = false) →
        (f.hbmFail ≠ [] → stopped 4 4)
        ∧ (f.hbmFail = [] → again f.badTrios → stopped 5 4)
        ∧ (f.hbmFail = [] → ¬again f.badTrios → f.podTick = none → stopped 8 3)
        ∧ (∀ t, f.hbmFail = [] → ¬again f.badTrios → f.podTick = some t → u.plat.step = 10
          ∧ alternate 4 f.hbmSlow.isEmpty ∧ alternate 5 f.badTrios.isEmpty ∧ alternate 6 f.badPorts.isEmpty ∧ alternate 7 f.badPlanes.isEmpty
          ∧ u.plat.statusOf 8 = 1 ∧ u.plat.statusOf 9 = 1
          ∧ (∀ d, d < 8 → (u.plat.stackAlt.getLsbD d = true ↔ d ∈ f.hbmSlow) ∧ (u.sch.planes.getLsbD d = true ↔ d ∉ f.badPlanes))
          ∧ u.plat.planeDown = ~~~u.sch.planes ∧ (∀ d, d < 16 → (u.plat.portDown.getLsbD d = true ↔ d ∈ f.badPorts))
          ∧ u.plat.fenced = f.badTrios ∧ u.sch.tick = t ∧ u.sch.locked = true ∧ u.host.waiting = s.host.waiting ++ [(6, [], 0, 0)]))
      ∧ ((∀ n, 4 ≤ n → n ≤ 8 → s.plat.complete n = true) → u.plat.step = 10 ∧ (∀ n, n ≠ 9 → u.plat.statusOf n = s.plat.statusOf n)
          ∧ u.plat.stackAlt = s.plat.stackAlt ∧ u.plat.portDown = s.plat.portDown ∧ u.plat.fenced = s.plat.fenced
          ∧ u.sch.planes = ~~~s.plat.planeDown ∧ u.sch.tick = s.sch.tick ∧ u.sch.locked = true))
    ∧ (∀ t p, smNat s.host.req 0x10 8 = t → s.partAt (smNat s.host.req 8 8) = p →
      let applies (k : Nat) : Prop :=
        k = 1 ∧ (s.plat.step ≤ 3 ∨ p.headerBad s.sch.pkgid false = true ∨ (∃ a ∈ s.altsOf p, a.2.headerBad s.sch.pkgid true = true) ∨ p.hdr 0x18 8 ≠ t)
        ∨ k = 2 ∧ (p.orderBad = true ∨ ∃ a ∈ s.altsOf p, a.2.orderBad = true)
        ∨ k = 3 ∧ (s.overshare p = true ∨ ∃ a ∈ s.altsOf p, s.overshare a.2 = true)
        ∨ k = 4 ∧ (p.slotmapBad = true ∨ ∃ a ∈ s.altsOf p, a.2.slotmapBad = true)
        ∨ k = 5 ∧ (t < s.accord + 8192 ∨ p.lateBad = true ∨ ∃ a ∈ s.altsOf p, a.2.lateBad = true)
        ∨ k = 6 ∧ p.noAlt (s.altsOf p) = true
      (∀ k, applies k → (∀ j, j < k → ¬applies j) → exec .install s = .next (s.answered k []))
      ∧ ((∀ k, ¬applies k) → exec .install s = .next (State.answered { s with sch := { s.sch with pending := some (p, s.altsOf p, t) } } 0 [])))
    ∧ (∃ m : List Byte, exec .attest s = .next (State.answered { s with host := { s.host with
          payload := smWrite s.host.payload 0 (m ++ bytesOf 29792 (Config.sign m).toNat) } } 0 (bytesOf 4 (m.length + 29792)))
      ∧ m.take 32 = (List.range 32).map (fun k => smGet s.host.req (8 + k))
      ∧ (m.drop 32).take 64 = shake256 (smBytes s.plat.running 0 s.plat.runLen) 64)

/-- R299 to R302, R320: STOP of loose blocks starts a cut one step past the furthest strand, of a fixed one answers FIXED; a cut whose cores
hold no live strand is recorded and DONE at once, and one whose strands are parked at its step is recorded and stores each block's area, with
the complete flag last; a limit that expires releases the parked strands and answers NOCUT; RESUME answers BADSAVE to an area whose complete flag
is 0 or whose coreid differs, LATE under 4 frames ahead or, for a fixed block, at a time that starts no slice free of the core's entries, and else
keeps its request (that an area is also tested for its magic, version and an existing core is log entry 71, that none is read before the firmware
is verified log entry 66, the model's choices);
EMERGCFG keeps its areas; a fixed block that is not parked at its slice's end is STALL, and one that is goes to its area (of EMERGCFG, the model's
choice, log entry 20). That areas are physical addresses and that the limit of STOP counts from its arrival is log entry 14, and that an area's
complete flag becomes 0 as its save begins is log entry 63. -/
def Obligations.PreemptionComplete : Prop :=
  ∀ (s : State),
    (let cs := (List.range 1536).filter fun c => (smGet s.host.req (8 + c / 8)).getLsbD (c % 8);
      ((∀ c ∈ cs, ∀ b, (s.core c).blk = some b → b.loose = true) → ∃ k, exec .stop s = .next { s with host := { s.host with cut := some k } }
        ∧ k.cores = cs ∧ k.target = s.maxStep cs + 1 ∧ k.base = smNat s.host.req 0xD0 8 ∧ k.stride = smNat s.host.req 0xD8 8
        ∧ k.limit = s.now + 2048 * smNat s.host.req 0xC8 4 ∧ k.mailbox = true ∧ k.saving = false
        ∧ ∀ c ∈ cs, ∀ b st, (s.core c).blk = some b → st ∈ b.slots → st.ended = none → st.stepcnt.toNat < k.target)
      ∧ ((∃ c ∈ cs, ∃ b, (s.core c).blk = some b ∧ b.loose = false) → exec .stop s = .next (s.answered 2 [0, 0, 0, 0])))
    ∧ (∀ k, s.host.cut = some k → k.saving = false →
      ((∀ c ∈ k.cores, (s.core c).blk = none) → k.mailbox = true → exec .cutComplete s = .next (State.answered { s with
          plat := { s.plat with cutT := BitVec.ofNat 32 k.target, cutTime := BitVec.ofNat 64 s.accord }
          host := { s.host with cut := none } } 0 (bytesOf 4 k.target)))
      ∧ (k.limit ≤ s.now → k.mailbox = true → exec .stopLimitExpiry s =
          .next (State.answered { s.releaseSet k.cores with host := { s.host with cut := none } } 1 (bytesOf 4 k.target)))
      ∧ (let live (c : Nat) : Prop := ∃ b st, (s.core c).blk = some b ∧ st ∈ b.slots ∧ st.ended = none;
        (∃ c ∈ k.cores, live c) →
        (∀ c ∈ k.cores, ∀ b, (s.core c).blk = some b → b.loose = true ∧ (s.core c).saveBad b = false
          ∧ ∀ st ∈ b.slots, (st.ended.isSome = true ∨ st.atPrem = true ∧ st.stepcnt.toNat = k.target) ∧ ∀ e ∈ st.eops, e.landed s.now = true) →
        ∃ t os, exec .cutComplete s = .next t ∧ t.host.cut = some { k with saving := true }
          ∧ t.plat = { s.plat with cutT := BitVec.ofNat 32 k.target, cutTime := BitVec.ofNat 64 s.accord } ∧ t.ops = s.ops ++ os ∧ t.cores = s.cores
          ∧ (∀ c, c ∈ os.map MemOp.col ↔ c ∈ k.cores ∧ live c)
          ∧ (∀ o ∈ os, ∃ b, (s.core o.col).blk = some b ∧ s.savesTo o b (k.base + k.stride * o.col) k.target)
          ∧ t.mem = os.foldl (fun m o => s.flagCleared m o (k.base + k.stride * o.col)) s.mem ∧ t.tags = s.tags ∧ t.horizons = s.horizons))
    ∧ (s.fixedCores = [] → exec .fixedSave s = .next s)
    ∧ (∀ c b, s.fixedCores = [c] → (s.core c).blk = some b →
      (∀ st, st ∈ b.slots → st.ended = none → st.atPrem = false → exec .fixedSave s = .next (s.faulted .stall c))
      ∧ ((∀ st ∈ b.slots, st.ended.isSome = true ∨ st.atPrem = true) →
        (∀ base stride limit, s.host.emerg = some (base, stride, limit) → (s.core c).saveBad b = false →
          ∃ t o, exec .fixedSave s = .next t ∧ t.ops = s.ops ++ [o] ∧ o.col = c ∧ s.savesTo o b (base + stride * c) 0
            ∧ t.mem = s.flagCleared s.mem o (base + stride * c) ∧ t.cores = s.cores ∧ t.tags = s.tags ∧ t.horizons = s.horizons)
        ∧ (s.host.emerg = none → ∃ t, exec .fixedSave s = .next t ∧ (t.core c).blk = none ∧ (t.core c).freeAt = s.now + 1
            ∧ (∀ x, x ≠ c → t.core x = s.core x) ∧ s.sameMemory t)))
    ∧ (let c := smNat s.host.req 8 2;
      let area := smNat s.host.req 0x10 8;
      let t := smNat s.host.req 0x18 8;
      let fixed := smNat s.mem (area + 6) 2 / 8 % 2;
      (smNat s.mem (area + 6) 2 % 2 = 0 → exec .resume s = .next (s.answered 1 []))
      ∧ (smNat s.mem (area + 0x14) 2 ≠ c → exec .resume s = .next (s.answered 1 []))
      ∧ (smNat s.mem area 4 = 0x45564153 → smNat s.mem (area + 4) 2 = 1 → 3 < s.plat.step → c < 1536 →
        smNat s.mem (area + 6) 2 % 2 = 1 → smNat s.mem (area + 0x14) 2 = c →
        (t < s.accord + 8192 → exec .resume s = .next (s.answered 2 []))
        ∧ (fixed = 1 → s.emptySliceAt c t = false → exec .resume s = .next (s.answered 2 []))
        ∧ (s.accord + 8192 ≤ t → (fixed = 1 → s.emptySliceAt c t = true) → exec .resume s = .next (State.answered
            { s with host := { s.host with resumes := s.host.resumes ++ [⟨c, area, t, false, fixed == 1⟩] } } 0 []))))
    ∧ (smNat s.host.req 8 8 ≠ 0 → exec .emergcfg s = .next (State.answered { s with host := { s.host with
        emerg := some (smNat s.host.req 8 8, smNat s.host.req 0x10 8, smNat s.host.req 0x18 4) } } 0 []))
    ∧ (smNat s.host.req 8 8 = 0 → exec .emergcfg s = .next (State.answered { s with host := { s.host with emerg := none } } 0 []))

/-! ## The host link -/

/-- R278, R280 to R282, R305, R307 to R309: the requests and events that the Rimet controller carries: an event is posted with its interrupt,
and an XLATE's strand waits for its sequence number, or it is counted as lost while the queue is full; XLATEREPLY and a page response restart
the strand at its region, or raise its fault in the next cycle; SHOOTDOWN drops a range's entries unless one is pinned; a walk brings its page
in (pages as a list are log entry 5 and the cycle of a walk or a request is log entry 8, the model's choices); a migration window moves the page
that another package uses most. An XLATEREPLY answer above 1, which no rule names, counts as a failure (log entry 77). -/
def Obligations.MailboxComplete : Prop :=
  ∀ (s : State),
    (∃ x, exec .mailboxBadop s = .next { s with out := s.out ++ [.msix 0], host := { s.host with busy := false, stat := x } } ∧ x.getLsbD 0 = false ∧ x.getLsbD 1 = true
        ∧ x.getLsbD 3 = true)
    ∧ (∀ x, exec (.mbevcWrite x) s = .next { s with host := { s.host with evc := x } })
    ∧ exec .mblostClear s = .next { s with host := { s.host with lost := 0 } }
    ∧ exec .migrate s = .next (State.answered { s with host := { s.host with migThreshold := smNat s.host.req 8 2 } } 0 [])
    ∧ (∀ kind p c i rest, s.host.waiting = (kind, p, c, i) :: rest →
      let posted : State := { s with out := s.out ++ [.msix 1], host := { s.host with
          waiting := rest, evp := s.host.evp + 1, evseq := s.host.evseq + 1
          evq := smWrite s.host.evq (64 * (s.host.evp.toNat % 32)) (bytesOf 4 kind ++ bytesOf 4 s.host.evseq.toNat ++ smBytes p 0 56) } }
      (s.host.evp - s.host.evc ≠ 32 → kind ≠ 1 → exec .eventPost s = .next posted)
      ∧ (∀ st a len f, s.host.evp - s.host.evc ≠ 32 → kind = 1 → s.strand c i = some st → st.waits = [.xlate none a len f] →
          exec .eventPost s = .next (posted.modStrand c i fun x => { x with waits := [.xlate (some s.host.evseq.toNat) a len f] }))
      ∧ (s.host.evp - s.host.evc = 32 → kind ≠ 1 → exec .eventPost s = .next { s with host := { s.host with
          waiting := rest, lost := s.host.lost + 1, evseq := s.host.evseq + 1 } }))
    ∧ (let lo := smNat s.host.req 0x10 8;
      let hit (e : TlbEntry) : Bool := e.page.asid == smNat s.host.req 8 2
        && decide (e.page.va < lo + smNat s.host.req 0x18 8) && decide (lo < e.page.va + e.page.size);
      ((∃ e ∈ s.tlb, hit e = true ∧ e.pinned = true) → exec .shootdown s = .next (s.answered 1 []))
      ∧ ((∀ e ∈ s.tlb, hit e = true → e.pinned = false) →
          exec .shootdown s = .next (State.answered { s with tlb := s.tlb.filter fun e => !hit e } 0 [])))
    ∧ (s.parkedOn (smNat s.host.req 8 4) = none → exec .xlatereply s = .next (s.answered 1 []))
    ∧ (∀ c i st n a len f, s.strand c i = some st → st.waits = [.xlate n a len f] → s.host.pri = [] → s.host.priWait = [] →
      (s.parkedOn (smNat s.host.req 8 4) = some (c, i) → smNat s.host.req 0xC 1 = 0 →
        exec .xlatereply s = .next ((s.modStrand c i fun x => { x with waits := [.region] }).answered 0 []))
      ∧ (s.parkedOn (smNat s.host.req 8 4) = some (c, i) → smNat s.host.req 0xC 1 ≠ 0 → f.cause = .xlate → st.inHandler = false → st.tvec ≠ 0 →
        exec .xlatereply s = .next ((s.modStrand c i fun x => x.reraised s.now a len f).answered 0 [])))
    ∧ (∀ g c i m st n a len f, s.strand c i = some st → st.waits = [.xlate n a len f] → s.host.pri = [(g, c, i, m)] → s.host.priWait = [] →
      exec (.priResponse g .success) s = .next (State.modStrand { s with host := { s.host with pri := [] } } c i fun x => { x with waits := [.region] })
      ∧ (∀ ans, ans ≠ .success → f.cause = .xlate → st.inHandler = false → st.tvec ≠ 0 →
        exec (.priResponse g ans) s = .next (State.modStrand { s with host := { s.host with pri := [] } } c i fun x => x.reraised s.now a len f)))
    ∧ (∀ die asid va p, s.pages = [p] → p.covers asid va = true → s.tlb = [] → s.walks = [(die, asid, va)] →
      exec (.pageWalkComplete die asid va) s = .next { s with walks := [], tlb := [⟨die, p, false⟩] })
    ∧ (∀ p, s.pages = [p] →
      let host := { s.host with inWindow := true, pageCounts := [], windows := s.host.windows + 1 }
      (s.migrationTo p = none → exec .pageMigration s = .next { s with host := host })
      ∧ (∀ k, s.migrationTo p = some k → exec .pageMigration s = .next (State.startRead { s with
          host := { host with migMoved := s.host.migMoved ++ [((p.asid, p.va), s.host.windows)] }
          held := s.held ++ [(p.asid, p.va)] } 1537 0 s.now ((List.range (p.size / 64)).map fun j => p.pa / 64 + j)
            (.migrate p.asid p.va k))))

/-- R277, R279, R280, R283, R284, R317, R318: host reads and writes of package memory inside BAR2 become operations of column 1,537, and any
other has no effect; every register write completes: those that BAR0 holds take aligned writes of 4 or 8 bytes, a doorbell makes the mailbox
busy, and a write of a wrong size or alignment is discarded; a ring's fields are written while it is off, the reserved bits of its port mask as 0,
and a ring within its limits is enabled; a snapshot is asked for, and taken as the
package stands. -/
def Obligations.HostAccessesComplete : Prop :=
  ∀ (s : State),
    (let base := s.host.hbwin.toNat / 2 ^ s.host.barLog * 2 ^ s.host.barLog;
      let inside (off n : Nat) : Prop := off + n ≤ 2 ^ s.host.barLog ∧ base + off + n ≤ 2 ^ 39 ∧ 1 ≤ n
      (∀ off bs, (inside off bs.length → exec (.hostMemoryWrite off bs) s = .next (s.startStore 1537 0 s.now (addressed (base + off) bs)))
        ∧ (¬inside off bs.length → exec (.hostMemoryWrite off bs) s = .next s))
      ∧ (∀ off n, (inside off n → exec (.hostMemoryRead off n) s = .next (s.startRead 1537 0 s.now
          ((List.range (((base + off) % 64 + n + 63) / 64)).map fun k => (base + off) / 64 + k) (.hostRead (base + off) n)))
        ∧ (¬inside off n → exec (.hostMemoryRead off n) s = .next s)))
    ∧ exec .snapshotRequest s = .next { s with host := { s.host with rbreq := some s.now }, snap := none }
    ∧ exec .readbackSnapshot s = .next { s with
        host := { s.host with rbreq := none }
        snap := some ⟨s.accord / 2048, s.cores, s.tlb, s.sch, s.plat, s.fab.trees, s.fab.chunks, s.host.pageCounts⟩ }
    ∧ (∀ i,
      let rings := smWrite s.host.rings (64 * i + 0x20) [1, 0, 0, 0]
      let good := i < 256 ∧ s.ringOk i = true ∧ smNat s.host.rings (64 * i + 0x20) 1 % 2 = 0
      (good → exec (.ringEnable i) s = .next { s with host := { s.host with rings := rings, ringIx := s.host.ringIx.filter fun p => p.1 != i } })
      ∧ (¬good → exec (.ringEnable i) s = .next s))
    ∧ (∀ off size x, ∃ t, exec (.registerWrite off size x) s = .next t)
    ∧ (∀ off size x, (size ≠ 4 ∧ size ≠ 8) ∨ off % size ≠ 0 → exec (.registerWrite off size x) s = .next s)
    ∧ (∀ size x, size = 4 ∨ size = 8 →
      exec (.registerWrite 0x18 size x) s = .next { s with host := { s.host with evc := x.setWidth 32 } }
      ∧ exec (.registerWrite 0x20 size x) s = .next { s with host := { s.host with lost := 0 } }
      ∧ (s.host.busy = false → x.getLsbD 0 = true → exec (.registerWrite 0 size x) s = .next { s with host := { s.host with
          busy := true, stat := (s.host.stat &&& ~~~10#64) ||| 1#64 } })
      ∧ (s.host.busy = true ∨ x.getLsbD 0 = false → exec (.registerWrite 0 size x) s = .next s)
      ∧ exec (.registerWrite 0xF00008 size x) s = (if x.getLsbD 0 = true then exec .snapshotRequest s else .next s)
      ∧ (∀ off, off < 256 → off % size = 0 →
          exec (.registerWrite (0x100 + off) size x) s = .next (if s.host.busy then s else { s with host := { s.host with
            req := smWrite s.host.req off (bytesOf size x.toNat) } }))
      ∧ (∀ off, off < 2 ^ 24 → off % size = 0 →
          exec (.registerWrite (0x3000000 + off) size x) s = .next (if s.host.busy then s else { s with host := { s.host with
            payload := smWrite s.host.payload off (bytesOf size x.toNat) } }))
      ∧ (∀ i o, i < 256 → o % size = 0 → smNat s.host.rings (64 * i + 0x20) 1 % 2 = 0 →
          let written := smWrite s.host.rings (64 * i + o) (bytesOf size x.toNat)
          (o < 0x20 → exec (.registerWrite (0x20000 + 64 * i + o) size x) s = .next { s with host := { s.host with
            rings := smWrite written (64 * i + 0x1F) [BitVec.ofNat 8 (smNat written (64 * i + 0x1F) 1 % 4)] } })
          ∧ (o = 0x20 → x.getLsbD 0 = true → exec (.registerWrite (0x20000 + 64 * i + o) size x) s = exec (.ringEnable i) s)))
    ∧ (∀ x, exec (.registerWrite 0x1000 8 x) s = .next { s with host := { s.host with hbwin := x &&& 0x7FC0000000 } })
    ∧ (∀ x, exec (.registerWrite 0xF00000 8 x) s = .next { s with host := { s.host with rbsel := x &&& 0xFFFFFFFFE000000 } })
    ∧ ∀ a x, a < 4096 → exec (.registerWrite (0x10000 + 8 * a) 8 x) s = .next { s with host := { s.host with
        pasid := smSet s.host.pasid a (x &&& 0x800FFFFF) } }
end

