-- ==== Sys2Proof/Laws/Issue.lean ====
section
/-! SUPPORT. Issuing a word: what `issue` does, once for all words; what changes of a core and a strand compose to. -/

namespace Sys2Proof.Machine
open Sys2Proof

theorem aSet_aSet {α : Type} (l : List (Nat × α)) (a : Nat) (x y : α) : aSet (aSet l a x) a y = aSet l a y := by
  induction l with
  | nil => simp [aSet]
  | cons p l ih =>
    obtain ⟨k, z⟩ := p
    simp only [aSet]
    split
    · simp [aSet]
    · split
      · simp [aSet]
      · rename_i h1 h2
        simp [aSet, h1, h2, ih]

theorem aGet_aSet (l : List (Nat × α)) (a : Nat) (x : α) : aGet (aSet l a x) a = some x := by
  induction l with
  | nil => simp [aSet, aGet]
  | cons p l ih =>
    obtain ⟨k, z⟩ := p
    simp only [aSet]
    split
    · simp [aGet]
    · split
      · simp [aGet]
      · rename_i h1 h2
        simp [aGet, h1, ih]

theorem modify_modify {α : Type} (l : List α) (i : Nat) (f g : α → α) : (l.modify i f).modify i g = l.modify i (fun x => g (f x)) := by
  induction l generalizing i with
  | nil => cases i <;> rfl
  | cons a l ih => cases i with
    | zero => rfl
    | succ i => simpa using ih i

/-- What the view of the selected strand holds. -/
theorem view_spec {s : State} {c : Ctl} {v : View} (h : s.view c = some v) :
    v.s = s ∧ v.ctl = c ∧ s.sel = some (v.c, v.i) ∧ v.core = s.core v.c ∧ (s.core v.c).blk = some v.b
      ∧ v.b.slots[v.i]? = some v.st ∧ v.st.ended = none := by
  unfold State.view at h
  split at h
  · cases h
  · rename_i c i hsel
    split at h
    · rename_i b st hb hst
      split at h
      · cases h
      · rename_i he
        cases h
        refine ⟨rfl, rfl, hsel, rfl, hb, ?_, by simpa using he⟩
        simpa [State.strand, hb] using hst
    · cases h

theorem issuer_spec {s : State} {c : Ctl} {uni : Bool} {us : List Use} {v : View} (h : s.issuer c uni us = some v) :
    s.view c = some v ∧ us.all v.st.cur.holds = true ∧ (uni && !v.runs) = false ∧ v.badThreads uni us = [] := by
  unfold State.issuer at h
  split at h
  · cases h
  · rename_i w hw
    split at h
    · rename_i hc
      cases h
      simp only [Bool.and_eq_true, Bool.or_eq_true, Bool.not_eq_true', List.isEmpty_iff] at hc
      refine ⟨hw, hc.1.1, ?_, hc.2⟩
      rcases hc.1.2 with h | h <;> simp [h]
    · cases h

/-- The state of a word that has issued, before its effects: the strand is past it. -/
theorem issued_after {s : State} {c : Ctl} {v : View} (h : s.view c = some v) (f : Strand → Strand) :
    ({ s with seq := s.seq + 1 } : State).modStrand v.c v.i f = v.after id id f := by
  obtain ⟨rfl, -, -, hk, hb, -, -⟩ := view_spec h
  have hb' : v.core.blk = some v.b := by rw [hk]; exact hb
  have hc : ({ v.s with seq := v.s.seq + 1 } : State).core v.c = v.core := by rw [hk]; rfl
  simp only [State.modStrand, State.modBlk, State.modCore, State.setCore, View.after, id]
  rw [hc, hb']
  rfl

@[simp] theorem after_core (v : View) (g : Core → Core) (h : Blk → Blk) (f : Strand → Strand) :
    (v.after g h f).core v.c = { g v.core with blk := some (h { v.b with slots := v.b.slots.modify v.i f }) } := by
  simp [State.core, View.after, aGet_aSet]

theorem after_modCore (v : View) (g : Core → Core) (h : Blk → Blk) (f : Strand → Strand) (g' : Core → Core)
    (hg : ∀ (k : Core) b, g' { k with blk := b } = { g' k with blk := b }) :
    (v.after g h f).modCore v.c g' = v.after (fun k => g' (g k)) h f := by
  rw [State.modCore, after_core, hg, State.setCore]
  unfold View.after
  dsimp only
  rw [aSet_aSet]

theorem after_modBlk (v : View) (g : Core → Core) (h : Blk → Blk) (f : Strand → Strand) (h' : Blk → Blk) :
    (v.after g h f).modBlk v.c h' = v.after g (fun b => h' (h b)) f := by
  simp only [State.modBlk, State.modCore, after_core, State.setCore]
  simp only [View.after, aSet_aSet, Option.map_some]

theorem after_modStrand (v : View) (g : Core → Core) (f f' : Strand → Strand) :
    (v.after g id f).modStrand v.c v.i f' = v.after g id (fun st => f' (f st)) := by
  rw [State.modStrand, after_modBlk]
  unfold View.after
  rw [show v.b.slots.modify v.i (fun st => f' (f st)) = (v.b.slots.modify v.i f).modify v.i f' from (modify_modify ..).symm]
  rfl

/-- ISSUING A WORD, once for all words: a fault is taken, a page walk holds the word, or its effects follow its issue. -/
theorem issue_spec {s : State} {c : Ctl} {uni : Bool} {us : List Use} {v : View} (h : s.issuer c uni us = some v)
    (body : View → Except Trap Act) (sy : Regs → Bool := fun _ => false) (chk : List Use := us) :
    issue s c uni us body sy chk = match body v with
      | .error f => .next (({ s with seq := s.seq + 1 } : State).trap v.c v.i v.st.pc (wordLen us) f)
      | .ok a => match a.walk with
        | some p => .next (s.holdForWalk v.c v.i p.1 p.2)
        | none => .next (a.post (v.after id id fun st => st.advance s.now s.seq c.hold (wordLen us) a.jump)) := by
  obtain ⟨hv, hh, hr, hb⟩ := issuer_spec h
  simp only [issue, hv, hh, hr, hb, Bool.not_true, Bool.false_eq_true, if_false, issued_after hv] <;> rfl

theorem issuer_state {s : State} {c : Ctl} {uni : Bool} {us : List Use} {v : View} (h : s.issuer c uni us = some v) :
    v.s = s ∧ v.ctl = c := by
  obtain ⟨hv, -⟩ := issuer_spec h
  exact ⟨(view_spec hv).1, (view_spec hv).2.1⟩

/-- An issuing word knows each of its operands. -/
theorem issuer_knows {s : State} {c : Ctl} {uni : Bool} {us : List Use} {v : View} (h : s.issuer c uni us = some v)
    {vs : List Use} (hs : ∀ u ∈ vs, u ∈ us) : v.knows uni vs = true := by
  obtain ⟨-, -, -, hb⟩ := issuer_spec h
  simp only [View.knows, View.badThreads] at hb ⊢
  split
  · rfl
  · rename_i hm
    rw [if_neg hm, List.filter_eq_nil_iff] at hb
    rw [List.isEmpty_iff, List.filter_eq_nil_iff]
    intro t ht hx
    apply hb t ht
    rw [List.any_eq_true] at hx ⊢
    obtain ⟨u, hu, hx⟩ := hx
    exact ⟨u, hs u hu, hx⟩

/-- A word without walk and transfer whose effect is known. -/
theorem issue_ok {s : State} {c : Ctl} {uni : Bool} {us : List Use} {v : View} (h : s.issuer c uni us = some v)
    {body : View → Except Trap Act} {a : Act} (hb : body v = .ok a) (hw : a.walk = none) (hj : a.jump = none)
    (sy : Regs → Bool := fun _ => false) (chk : List Use := us) :
    issue s c uni us body sy chk = .next (a.post (v.after id id (v.moved (wordLen us)))) := by
  obtain ⟨rfl, rfl⟩ := issuer_state h
  rw [issue_spec h body sy chk, hb]
  simp only [hw, hj]
  rfl

/-- A word that transfers control. -/
theorem issue_jump {s : State} {c : Ctl} {uni : Bool} {us : List Use} {v : View} (h : s.issuer c uni us = some v)
    {body : View → Except Trap Act} {a : Act} {dest : Addr} (hb : body v = .ok a) (hw : a.walk = none) (hj : a.jump = some dest)
    (sy : Regs → Bool := fun _ => false) (chk : List Use := us) :
    issue s c uni us body sy chk = .next (a.post (v.after id id (v.jumped (wordLen us) dest))) := by
  obtain ⟨rfl, rfl⟩ := issuer_state h
  rw [issue_spec h body sy chk, hb]
  simp only [hw, hj]
  rfl

/-! ## Effects after the issue of a word -/

theorem land_after (v : View) (g : Core → Core) (f : Strand → Strand) (n : Nat) (ws : List RegW) :
    v.land n ws (v.after g id f) = v.after g id (fun st => v.owes n ws (f st)) := by
  unfold View.land View.owes
  split <;> simp_all [after_modStrand, Strand.put]

theorem occupy_after (v : View) (g : Core → Core) (h : Blk → Blk) (f : Strand → Strand) (u n : Nat) :
    v.occupy u n (v.after g h f) = v.after (fun k => v.takes u n (g k)) h f := by
  unfold View.occupy
  rw [after_modCore]
  · rfl
  · intro k b; rfl

theorem access_after (v : View) (g : Core → Core) (f : Strand → Strand) (n : Nat) :
    v.access n (v.after g id f) = v.after g id (fun st => v.accesses (some n) false (f st)) := by
  simp [View.access, View.onStrand, after_modStrand, View.accesses]

theorem command_after (v : View) (g : Core → Core) (f : Strand → Strand) (e : Engine) (land : Option Nat) (fail : Option (Cause × BitVec 64)) :
    v.command e land fail (v.after g id f) = v.after g id (fun st => v.commands e land fail (f st)) := by
  simp [View.command, View.onStrand, after_modStrand, View.commands]

theorem park_after (v : View) (g : Core → Core) (f : Strand → Strand) (w : Wait) :
    v.park w (v.after g id f) = v.after g id (fun st => (f st).parked w) := by
  simp [View.park, after_modStrand, Strand.parked]

theorem onStrand_after (v : View) (g : Core → Core) (f f' : Strand → Strand) :
    v.onStrand f' (v.after g id f) = v.after g id (fun st => f' (f st)) := by
  simp [View.onStrand, after_modStrand]

theorem onBlk_after (v : View) (g : Core → Core) (h : Blk → Blk) (f : Strand → Strand) (h' : Blk → Blk) :
    v.onBlk h' (v.after g h f) = v.after g (fun b => h' (h b)) f := after_modBlk ..

theorem onCore_after (v : View) (g : Core → Core) (h : Blk → Blk) (f : Strand → Strand) (g' : Core → Core)
    (hg : ∀ (k : Core) b, g' { k with blk := b } = { g' k with blk := b }) :
    v.onCore g' (v.after g h f) = v.after (fun k => g' (g k)) h f := after_modCore _ _ _ _ _ hg

/-- A lane-executed word (R76, R77, R80). -/
theorem lane_after (v : View) (ln : Lane) (once : Bool) (us : List Use) (ws : List RegW) :
    (v.lane ln once ws).post (v.after id id (v.moved (wordLen us)))
      = v.laneDone once us ln.unit ln.lat ln.occ ln.uLat ln.uOcc ws := by
  have hl : v.latency ln once = if once then ln.uLat else ln.lat * v.slowdown := by
    cases once <;> simp [View.latency, View.scale, View.slowdown]
  have ho : v.occupancy ln once = if once then ln.uOcc else ln.occ * v.slowdown := by
    cases once <;> simp [View.occupancy, View.scale, View.slowdown]
  simp only [View.lane, View.laneDone, land_after, hl, ho]
  by_cases hn : (if once then ln.uOcc else ln.occ * v.slowdown) = 0
  · simp only [hn, if_pos]; rfl
  · simp only [hn, if_false, occupy_after]; rfl

/-- A thread-local word without faults of its own (R353). -/
theorem laneWord_done {s : State} {c : Ctl} {d : Opd} {wide : Bool} {us : List Use} {v : View}
    (h : s.issuer c (runsOnce d) (wrT wide d :: us) = some v) (ln : Lane) (f : View → Nat → BitVec 64 × Flags) :
    laneWord s c ln d wide us f = .next (v.laneDone (runsOnce d) (wrT wide d :: us) ln.unit ln.lat ln.occ ln.uLat ln.uOcc
      ((v.doers d).flatMap fun t => writeTo d wide t (f v t).1 ++ flagW t (f v t).2)) := by
  unfold laneWord
  rw [issue_ok h rfl rfl rfl, View.perThread, lane_after]

end Sys2Proof.Machine
end

