-- ==== Sys2Proof/Laws/Memory.lean ====
section
/-! SUPPORT. Sparse storage: every operation keeps the canonical form; reading after writing. -/

namespace Sys2Proof.Machine
open Sys2Proof

/-! ## Keys above a bound -/

theorem smAbove_mono {w : Nat} {lo hi : Nat} (h : lo ≤ hi) {m : SMap w} (hm : smAbove hi m = true) : smAbove lo m = true := by
  cases m with
  | nil => rfl
  | cons p m => simp only [smAbove, decide_eq_true_eq] at hm ⊢; omega

theorem smWf_cons {w : Nat} {k : Nat} {x : BitVec w} {m : SMap w} :
    smWf ((k, x) :: m) = true ↔ x ≠ 0#w ∧ smAbove k m = true ∧ smWf m = true := by
  simp [smWf, and_assoc]

theorem smGet_below {w : Nat} {m : SMap w} {a : Nat} (h : smAbove a m = true) : smGet m a = 0#w := by
  cases m with
  | nil => rfl
  | cons p m =>
    simp only [smAbove, decide_eq_true_eq] at h
    simp [smGet, h]

/-! ## smSet -/

theorem smAbove_smSet {w : Nat} {lo : Nat} {m : SMap w} {a : Nat} {y : BitVec w} (hwf : smWf m = true)
    (hm : smAbove lo m = true) (ha : lo < a) : smAbove lo (smSet m a y) = true := by
  cases m with
  | nil => simp only [smSet]; split <;> simp [smAbove, ha]
  | cons p m =>
    obtain ⟨k, x⟩ := p
    rw [smWf_cons] at hwf
    simp only [smAbove, decide_eq_true_eq] at hm
    simp only [smSet]
    split
    · split <;> simp [smAbove, hm, ha]
    · split
      · split
        · exact smAbove_mono (Nat.le_of_lt hm) hwf.2.1
        · simp [smAbove, ha]
      · simp [smAbove, hm]

/-- Writing an entry keeps the canonical form. -/
theorem smWf_smSet {w : Nat} {m : SMap w} (h : smWf m = true) (a : Nat) (y : BitVec w) : smWf (smSet m a y) = true := by
  induction m with
  | nil => simp only [smSet]; split <;> simp_all [smWf, smAbove]
  | cons p m ih =>
    obtain ⟨k, x⟩ := p
    rw [smWf_cons] at h
    simp only [smSet]
    split
    · split
      · exact smWf_cons.2 h
      · exact smWf_cons.2 ⟨‹_›, by simp only [smAbove, decide_eq_true_eq]; assumption, smWf_cons.2 h⟩
    · split
      · subst_vars
        split
        · exact h.2.2
        · exact smWf_cons.2 ⟨‹_›, h.2.1, h.2.2⟩
      · exact smWf_cons.2 ⟨h.1, smAbove_smSet h.2.2 h.2.1 (by omega), ih h.2.2⟩

/-- Reading the entry just written. -/
theorem smGet_smSet_same {w : Nat} {m : SMap w} (h : smWf m = true) (a : Nat) (y : BitVec w) : smGet (smSet m a y) a = y := by
  induction m with
  | nil => simp only [smSet]; split <;> simp_all [smGet]
  | cons p m ih =>
    obtain ⟨k, x⟩ := p
    rw [smWf_cons] at h
    simp only [smSet]
    split
    · split
      · subst_vars; simp [smGet, *]
      · simp [smGet]
    · split
      · subst_vars
        split
        · subst_vars; exact smGet_below h.2.1
        · simp [smGet]
      · simp only [smGet]
        rw [if_neg (by assumption), if_neg (by assumption)]
        exact ih h.2.2

/-- Reading another entry. -/
theorem smGet_smSet_ne {w : Nat} {m : SMap w} (h : smWf m = true) {a b : Nat} (y : BitVec w) (hab : b ≠ a) :
    smGet (smSet m a y) b = smGet m b := by
  induction m with
  | nil =>
    simp only [smSet]
    split
    · rfl
    · simp only [smGet]; split
      · rfl
      · rw [if_neg (fun h => hab h.symm)]
  | cons p m ih =>
    obtain ⟨k, x⟩ := p
    rw [smWf_cons] at h
    simp only [smSet]
    split
    · split
      · rfl
      · simp only [smGet]
        by_cases h1 : b < a
        · rw [if_pos h1, if_pos (by omega)]
        · rw [if_neg h1, if_neg (fun h => hab h.symm)]
    · split
      · rename_i hka
        subst hka
        split
        · simp only [smGet]
          by_cases h1 : b < k
          · rw [if_pos h1]; exact smGet_below (smAbove_mono (Nat.le_of_lt h1) h.2.1)
          · rw [if_neg h1, if_neg (fun h => hab h.symm)]
        · simp only [smGet]
          by_cases h1 : b < k
          · rw [if_pos h1, if_pos h1]
          · rw [if_neg h1, if_neg h1, if_neg (fun h => hab h.symm), if_neg (fun h => hab h.symm)]
      · simp only [smGet]
        by_cases h1 : b < k
        · rw [if_pos h1, if_pos h1]
        · rw [if_neg h1, if_neg h1]
          split
          · rfl
          · exact ih h.2.2

/-! ## Runs of writes -/

theorem smWf_smWrite {m : SMap 8} (h : smWf m = true) (a : Nat) (bs : List Byte) : smWf (smWrite m a bs) = true := by
  induction bs generalizing m a with
  | nil => exact h
  | cons b bs ih => exact ih (smWf_smSet h a b) (a + 1)

theorem smWf_smWrites {w : Nat} {m : SMap w} (h : smWf m = true) (xs : List (Nat × BitVec w)) : smWf (smWrites m xs) = true := by
  unfold smWrites
  induction xs generalizing m with
  | nil => exact h
  | cons x xs ih => exact ih (smWf_smSet h x.1 x.2)

/-- A run of writes leaves every other entry. -/
theorem smGet_smWrite_ne {m : SMap 8} (h : smWf m = true) {a b : Nat} (bs : List Byte) (hb : b < a ∨ a + bs.length ≤ b) :
    smGet (smWrite m a bs) b = smGet m b := by
  induction bs generalizing m a with
  | nil => rfl
  | cons x bs ih =>
    simp only [List.length_cons] at hb
    rw [smWrite, ih (smWf_smSet h a x) (by omega), smGet_smSet_ne h x (by omega)]

theorem smGet_smWrites_ne {w : Nat} {m : SMap w} (h : smWf m = true) {b : Nat} (xs : List (Nat × BitVec w))
    (hb : ∀ x ∈ xs, x.1 ≠ b) : smGet (smWrites m xs) b = smGet m b := by
  unfold smWrites
  induction xs generalizing m with
  | nil => rfl
  | cons x xs ih =>
    rw [List.foldl_cons, ih (smWf_smSet h x.1 x.2) (fun y hy => hb y (List.mem_cons_of_mem _ hy)),
      smGet_smSet_ne h x.2 (fun hx => hb x List.mem_cons_self hx.symm)]

/-! ## Filtering -/

theorem smAbove_filter {w : Nat} {lo : Nat} {m : SMap w} (hwf : smWf m = true) (h : smAbove lo m = true)
    (f : Nat × BitVec w → Bool) : smAbove lo (m.filter f) = true := by
  induction m with
  | nil => rfl
  | cons p m ih =>
    obtain ⟨k, x⟩ := p
    rw [smWf_cons] at hwf
    simp only [smAbove, decide_eq_true_eq] at h
    simp only [List.filter_cons]
    split
    · simp [smAbove, h]
    · exact ih hwf.2.2 (smAbove_mono (Nat.le_of_lt h) hwf.2.1)

theorem smWf_filter {w : Nat} {m : SMap w} (h : smWf m = true) (f : Nat × BitVec w → Bool) : smWf (m.filter f) = true := by
  induction m with
  | nil => rfl
  | cons p m ih =>
    obtain ⟨k, x⟩ := p
    rw [smWf_cons] at h
    simp only [List.filter_cons]
    split
    · exact smWf_cons.2 ⟨h.1, smAbove_filter h.2.2 h.2.1 f, ih h.2.2⟩
    · exact ih h.2.2

/-- Clearing a range keeps the canonical form. -/
theorem smWf_smClear {w : Nat} {m : SMap w} (h : smWf m = true) (lo n : Nat) : smWf (smClear m lo n) = true := smWf_filter h _

/-! ## Keyed lists -/

theorem aGet_aSet_same {α : Type} (l : List (Nat × α)) (a : Nat) (y : α) : aGet (aSet l a y) a = some y := by
  induction l with
  | nil => simp [aSet, aGet]
  | cons p l ih =>
    obtain ⟨k, x⟩ := p
    simp only [aSet]
    split
    · simp [aGet]
    · split
      · simp [aGet]
      · simp only [aGet]; rw [if_neg (by assumption)]; exact ih

theorem aGet_aSet_ne {α : Type} (l : List (Nat × α)) {a b : Nat} (y : α) (h : b ≠ a) : aGet (aSet l a y) b = aGet l b := by
  induction l with
  | nil => simp [aSet, aGet]; exact fun h' => h h'.symm
  | cons p l ih =>
    obtain ⟨k, x⟩ := p
    simp only [aSet]
    split
    · simp only [aGet]
      subst_vars
      rw [if_neg (fun h' => h h'.symm), if_neg (fun h' => h h'.symm)]
    · split
      · simp only [aGet]; rw [if_neg (fun h' => h h'.symm)]
      · simp only [aGet]; split
        · rfl
        · exact ih

end Sys2Proof.Machine
end

