-- ==== Sys2Proof/Laws/PerInstr.lean ====
section
/-! SUPPORT. The length of every instruction word, said per constructor (R325). -/

namespace Sys2Proof.Laws

theorem toBytes_length (n x : Nat) : (toBytes n x).length = n := by
  induction n generalizing x with
  | zero => rfl
  | succ n ih => simp [toBytes, ih]

/-- The literal of an operand takes 4 or 8 bytes. -/
theorem literal_lengths (o : Opd) (x : Nat × BitVec 64) (h : o.literal = some x) : x.1 = 4 ∨ x.1 = 8 := by
  cases o <;> simp [Opd.literal] at h <;> simp [← h]

/-- The literal of a word takes 0, 4 or 8 bytes. -/
theorem fields_literal_length (f : Fields) : f.literal.1 = 0 ∨ f.literal.1 = 4 ∨ f.literal.1 = 8 := by
  unfold Fields.literal
  split
  · exact .inr (literal_lengths _ _ ‹_›)
  · exact .inr (literal_lengths _ _ ‹_›)
  · exact .inr (literal_lengths _ _ ‹_›)
  · exact .inl rfl

namespace Length

/-- An instruction takes no bytes if it is an event, else 8, 12 or 16. -/
def Statement (i : Instr) : Prop :=
  (i.form = .event ∧ (encodeBytes i).length = 0) ∨
    (i.form ≠ .event ∧ ((encodeBytes i).length = 8 ∨ (encodeBytes i).length = 12 ∨ (encodeBytes i).length = 16))

theorem all (i : Instr) : Statement i := by
  unfold Statement encodeBytes encode
  cases h : i.form with
  | full f =>
    have := fields_literal_length f
    simp [toBytes_length]; omega
  | pair a x y => simp [toBytes_length]
  | event => simp

end Length

theorem Length.abs (c : Ctl) (ty : Ty) (sat : Bool) (d a : Opd) : Length.Statement (.abs c ty sat d a) := Length.all _
theorem Length.add (c : Ctl) (ty : Ty) (sat : Bool) (d a b : Opd) : Length.Statement (.add c ty sat d a b) := Length.all _
theorem Length.and (c : Ctl) (ty : Ty) (nb : Bool) (d a b : Opd) : Length.Statement (.and c ty nb d a b) := Length.all _
theorem Length.atom (c : Ctl) (op : AtomOp) (ty : Ty) (kind : Kind) (sc : Scope) (d a b : Opd) : Length.Statement (.atom c op ty kind sc d a b) := Length.all _
theorem Length.atomTree (c : Ctl) (op : AtomOp) (ty : Ty) (kind : Kind) (sc : Scope) (d a b : Opd) : Length.Statement (.atomTree c op ty kind sc d a b) := Length.all _
theorem Length.atomq (c : Ctl) (kind : Kind) (sc : Scope) (d a b : Opd) : Length.Statement (.atomq c kind sc d a b) := Length.all _
theorem Length.bfi (c : Ctl) (ty : Ty) (d a b e : Opd) : Length.Statement (.bfi c ty d a b e) := Length.all _
theorem Length.bfx (c : Ctl) (ty : Ty) (d a b : Opd) : Length.Statement (.bfx c ty d a b) := Length.all _
theorem Length.bra (c : Ctl) (disp : Word) : Length.Statement (.bra c disp) := Length.all _
theorem Length.bxch (c : Ctl) (mode : BxMode) (d a b : Opd) : Length.Statement (.bxch c mode d a b) := Length.all _
theorem Length.call (c : Ctl) (d a : Opd) : Length.Statement (.call c d a) := Length.all _
theorem Length.claspInit (c : Ctl) (a b e : Opd) : Length.Statement (.claspInit c a b e) := Length.all _
theorem Length.claspArr (c : Ctl) (a : Opd) : Length.Statement (.claspArr c a) := Length.all _
theorem Length.claspWait (c : Ctl) (a b : Opd) : Length.Statement (.claspWait c a b) := Length.all _
theorem Length.clz (c : Ctl) (ty : Ty) (d a : Opd) : Length.Statement (.clz c ty d a) := Length.all _
theorem Length.cmp (c : Ctl) (cond : Cond) (ty : Ty) (d a b : Opd) : Length.Statement (.cmp c cond ty d a b) := Length.all _
theorem Length.coll (c : Ctl) (d a b e : Opd) : Length.Statement (.coll c d a b e) := Length.all _
theorem Length.cpy1d (c : Ctl) (flag : Bool) (a b e : Opd) : Length.Statement (.cpy1d c flag a b e) := Length.all _
theorem Length.cpy2d (c : Ctl) (shape : Option ShMode) (flag : Bool) (a b e : Opd) : Length.Statement (.cpy2d c shape flag a b e) := Length.all _
theorem Length.cpyTm (c : Ctl) (out flag : Bool) (a b e : Opd) : Length.Statement (.cpyTm c out flag a b e) := Length.all _
theorem Length.cpyb (c : Ctl) (a b : Opd) : Length.Statement (.cpyb c a b) := Length.all _
theorem Length.cvt (c : Ctl) (rnd : Rnd) (dty sty : Ty) (d a : Opd) : Length.Statement (.cvt c rnd dty sty d a) := Length.all _
theorem Length.dot4 (c : Ctl) (bs as : Bool) (u : Bool) (d a b e : Opd) : Length.Statement (.dot4 c bs as u d a b e) := Length.all _
theorem Length.exit (c : Ctl) : Length.Statement (.exit c) := Length.all _
theorem Length.fadd (c : Ctl) (d a b : Opd) : Length.Statement (.fadd c d a b) := Length.all _
theorem Length.fsub (c : Ctl) (d a b : Opd) : Length.Statement (.fsub c d a b) := Length.all _
theorem Length.fmul (c : Ctl) (d a b : Opd) : Length.Statement (.fmul c d a b) := Length.all _
theorem Length.fma (c : Ctl) (d a b e : Opd) : Length.Statement (.fma c d a b e) := Length.all _
theorem Length.fmin (c : Ctl) (d a b : Opd) : Length.Statement (.fmin c d a b) := Length.all _
theorem Length.fmax (c : Ctl) (d a b : Opd) : Length.Statement (.fmax c d a b) := Length.all _
theorem Length.fcmp (c : Ctl) (cond : Cond) (d a b : Opd) : Length.Statement (.fcmp c cond d a b) := Length.all _
theorem Length.fclass (c : Ctl) (d a b : Opd) : Length.Statement (.fclass c d a b) := Length.all _
theorem Length.fscl (c : Ctl) (d a b : Opd) : Length.Statement (.fscl c d a b) := Length.all _
theorem Length.frnd (c : Ctl) (rnd : Rnd) (d a : Opd) : Length.Statement (.frnd c rnd d a) := Length.all _
theorem Length.frcp (c : Ctl) (d a : Opd) : Length.Statement (.frcp c d a) := Length.all _
theorem Length.fsqrt (c : Ctl) (d a : Opd) : Length.Statement (.fsqrt c d a) := Length.all _
theorem Length.frsq (c : Ctl) (d a : Opd) : Length.Statement (.frsq c d a) := Length.all _
theorem Length.fdiv (c : Ctl) (d a b : Opd) : Length.Statement (.fdiv c d a b) := Length.all _
theorem Length.fexp2 (c : Ctl) (d a : Opd) : Length.Statement (.fexp2 c d a) := Length.all _
theorem Length.flog2 (c : Ctl) (d a : Opd) : Length.Statement (.flog2 c d a) := Length.all _
theorem Length.ftanh (c : Ctl) (d a : Opd) : Length.Statement (.ftanh c d a) := Length.all _
theorem Length.fsin (c : Ctl) (d a : Opd) : Length.Statement (.fsin c d a) := Length.all _
theorem Length.fcos (c : Ctl) (d a : Opd) : Length.Statement (.fcos c d a) := Length.all _
theorem Length.fence (c : Ctl) (sc : Scope) : Length.Statement (.fence c sc) := Length.all _
theorem Length.gathLd (c : Ctl) (sx : Bool) (sz : GSize) (d a b : Opd) : Length.Statement (.gathLd c sx sz d a b) := Length.all _
theorem Length.gathSt (c : Ctl) (sz : GSize) (a b e : Opd) : Length.Statement (.gathSt c sz a b e) := Length.all _
theorem Length.jmp (c : Ctl) (a : Opd) : Length.Statement (.jmp c a) := Length.all _
theorem Length.kop (c : Ctl) (op : KopOp) (d a b : Opd) : Length.Statement (.kop c op d a b) := Length.all _
theorem Length.kopGet (c : Ctl) (d a b : Opd) : Length.Statement (.kopGet c d a b) := Length.all _
theorem Length.kopPut (c : Ctl) (d a b : Opd) : Length.Statement (.kopPut c d a b) := Length.all _
theorem Length.launch (c : Ctl) (d a b e : Opd) : Length.Statement (.launch c d a b e) := Length.all _
theorem Length.lbrk (c : Ctl) : Length.Statement (.lbrk c) := Length.all _
theorem Length.ld (c : Ctl) (dec : Bool) (kind : Kind) (sc : Scope) (shape : Option ShMode) (ty : LdTy) (d a b : Opd) : Length.Statement (.ld c dec kind sc shape ty d a b) := Length.all _
theorem Length.loop (c : Ctl) (d a : Opd) (disp : Word) : Length.Statement (.loop c d a disp) := Length.all _
theorem Length.lred (c : Ctl) (seg : Seg) (op : RedOp) (d a b : Opd) : Length.Statement (.lred c seg op d a b) := Length.all _
theorem Length.mad (c : Ctl) (ty : Ty) (wide : Bool) (d a b e : Opd) : Length.Statement (.mad c ty wide d a b e) := Length.all _
theorem Length.max (c : Ctl) (ty : Ty) (d a b : Opd) : Length.Statement (.max c ty d a b) := Length.all _
theorem Length.mdrn (c : Ctl) (seq clr t norm stats : Bool) (a b e : Opd) : Length.Statement (.mdrn c seq clr t norm stats a b e) := Length.all _
theorem Length.min (c : Ctl) (ty : Ty) (d a b : Opd) : Length.Statement (.min c ty d a b) := Length.all _
theorem Length.mlda (c : Ctl) (d a : Opd) : Length.Statement (.mlda c d a) := Length.all _
theorem Length.mma (c : Ctl) (cls : MClass) (d a b : Opd) : Length.Statement (.mma c cls d a b) := Length.all _
theorem Length.mmaTrio (c : Ctl) (cls : MClass) (d a b e : Opd) : Length.Statement (.mmaTrio c cls d a b e) := Length.all _
theorem Length.mmag (c : Ctl) (cls : MClass) (d a b : Opd) : Length.Statement (.mmag c cls d a b) := Length.all _
theorem Length.mov (c : Ctl) (ty : Ty) (d a : Opd) : Length.Statement (.mov c ty d a) := Length.all _
theorem Length.mul (c : Ctl) (ty : Ty) (wide hi : Bool) (d a b : Opd) : Length.Statement (.mul c ty wide hi d a b) := Length.all _
theorem Length.mzero (c : Ctl) (d : Opd) : Length.Statement (.mzero c d) := Length.all _
theorem Length.mzeroAll (c : Ctl) : Length.Statement (.mzeroAll c) := Length.all _
theorem Length.neg (c : Ctl) (ty : Ty) (sat : Bool) (d a : Opd) : Length.Statement (.neg c ty sat d a) := Length.all _
theorem Length.nop (c : Ctl) : Length.Statement (.nop c) := Length.all _
theorem Length.not (c : Ctl) (ty : Ty) (d a : Opd) : Length.Statement (.not c ty d a) := Length.all _
theorem Length.or (c : Ctl) (ty : Ty) (nb : Bool) (d a b : Opd) : Length.Statement (.or c ty nb d a b) := Length.all _
theorem Length.pack (c : Ctl) (fmt : PFmt) (d a b : Opd) : Length.Statement (.pack c fmt d a b) := Length.all _
theorem Length.packBlk (c : Ctl) (fmt : PFmt) (a b : Opd) : Length.Statement (.packBlk c fmt a b) := Length.all _
theorem Length.popc (c : Ctl) (ty : Ty) (d a : Opd) : Length.Statement (.popc c ty d a) := Length.all _
theorem Length.prem (c : Ctl) (crown acc : Bool) (n : BitVec 3) (a b : Opd) : Length.Statement (.prem c crown acc n a b) := Length.all _
theorem Length.region (c : Ctl) : Length.Statement (.region c) := Length.all _
theorem Length.ret (c : Ctl) (a : Opd) : Length.Statement (.ret c a) := Length.all _
theorem Length.rettRegion (c : Ctl) : Length.Statement (.rettRegion c) := Length.all _
theorem Length.rettNext (c : Ctl) : Length.Statement (.rettNext c) := Length.all _
theorem Length.role (c : Ctl) : Length.Statement (.role c) := Length.all _
theorem Length.rot (c : Ctl) (ty : Ty) (right : Bool) (d a b : Opd) : Length.Statement (.rot c ty right d a b) := Length.all _
theorem Length.rrot (c : Ctl) (a b : Opd) : Length.Statement (.rrot c a b) := Length.all _
theorem Length.scan (c : Ctl) (seg : Seg) (op : RedOp) (d a b e : Opd) : Length.Statement (.scan c seg op d a b e) := Length.all _
theorem Length.scanlr (c : Ctl) (seg : Seg) (d a b e : Opd) : Length.Statement (.scanlr c seg d a b e) := Length.all _
theorem Length.sel (c : Ctl) (ty : Ty) (d a b e : Opd) : Length.Statement (.sel c ty d a b e) := Length.all _
theorem Length.shfl (c : Ctl) (s96 : Bool) (mode : ShflMode) (d a b : Opd) : Length.Statement (.shfl c s96 mode d a b) := Length.all _
theorem Length.shl (c : Ctl) (ty : Ty) (d a b : Opd) : Length.Statement (.shl c ty d a b) := Length.all _
theorem Length.shld (c : Ctl) (d a : Opd) : Length.Statement (.shld c d a) := Length.all _
theorem Length.shputEnt (c : Ctl) (d a b : Opd) : Length.Statement (.shputEnt c d a b) := Length.all _
theorem Length.shputOrg (c : Ctl) (d b : Opd) : Length.Statement (.shputOrg c d b) := Length.all _
theorem Length.shputAdv (c : Ctl) (d b : Opd) : Length.Statement (.shputAdv c d b) := Length.all _
theorem Length.shq (c : Ctl) (qy : ShQuery) (d a b : Opd) : Length.Statement (.shq c qy d a b) := Length.all _
theorem Length.shr (c : Ctl) (ty : Ty) (d a b : Opd) : Length.Statement (.shr c ty d a b) := Length.all _
theorem Length.shseg (c : Ctl) (form : ShForm) (d a : Opd) : Length.Statement (.shseg c form d a) := Length.all _
theorem Length.shwin (c : Ctl) (d a : Opd) : Length.Statement (.shwin c d a) := Length.all _
theorem Length.st (c : Ctl) (kind : Kind) (sc : Scope) (shape : Option ShMode) (ty : LdTy) (d a b : Opd) : Length.Statement (.st c kind sc shape ty d a b) := Length.all _
theorem Length.step (c : Ctl) : Length.Statement (.step c) := Length.all _
theorem Length.stacc (c : Ctl) (d a b : Opd) : Length.Statement (.stacc c d a b) := Length.all _
theorem Length.staccw (c : Ctl) (d a b e : Opd) : Length.Statement (.staccw c d a b e) := Length.all _
theorem Length.stfin (c : Ctl) (d a b : Opd) : Length.Statement (.stfin c d a b) := Length.all _
theorem Length.stinit (c : Ctl) (d a : Opd) : Length.Statement (.stinit c d a) := Length.all _
theorem Length.stld (c : Ctl) (d a b : Opd) : Length.Statement (.stld c d a b) := Length.all _
theorem Length.stmrg (c : Ctl) (d a b : Opd) : Length.Statement (.stmrg c d a b) := Length.all _
theorem Length.stnorm (c : Ctl) (g : Option (BitVec 3)) (d a b e : Opd) : Length.Statement (.stnorm c g d a b e) := Length.all _
theorem Length.stred (c : Ctl) (seg : Seg) (d a b : Opd) : Length.Statement (.stred c seg d a b) := Length.all _
theorem Length.stst (c : Ctl) (a b e : Opd) : Length.Statement (.stst c a b e) := Length.all _
theorem Length.sub (c : Ctl) (ty : Ty) (sat : Bool) (d a b : Opd) : Length.Statement (.sub c ty sat d a b) := Length.all _
theorem Length.sysr (c : Ctl) (d a : Opd) : Length.Statement (.sysr c d a) := Length.all _
theorem Length.sysw (c : Ctl) (d a : Opd) : Length.Statement (.sysw c d a) := Length.all _
theorem Length.tagr (c : Ctl) (d a b : Opd) : Length.Statement (.tagr c d a b) := Length.all _
theorem Length.tagw (c : Ctl) (a b e : Opd) : Length.Statement (.tagw c a b e) := Length.all _
theorem Length.tnext (c : Ctl) (d a : Opd) : Length.Statement (.tnext c d a) := Length.all _
theorem Length.trap (c : Ctl) (a : Opd) : Length.Statement (.trap c a) := Length.all _
theorem Length.unpack (c : Ctl) (fmt : PFmt) (d a b : Opd) : Length.Statement (.unpack c fmt d a b) := Length.all _
theorem Length.unpackBlk (c : Ctl) (fmt : PFmt) (d a : Opd) : Length.Statement (.unpackBlk c fmt d a) := Length.all _
theorem Length.until (c : Ctl) (a : Opd) : Length.Statement (.until c a) := Length.all _
theorem Length.vnt (c : Ctl) (a : Opd) : Length.Statement (.vnt c a) := Length.all _
theorem Length.vote (c : Ctl) (form : VoteForm) (d a : Opd) : Length.Statement (.vote c form d a) := Length.all _
theorem Length.waita (c : Ctl) (cond : WCond) (acq : Bool) (sc : Scope) (d a b e : Opd) : Length.Statement (.waita c cond acq sc d a b e) := Length.all _
theorem Length.waitt (c : Ctl) (e : Engine) (b : Opd) : Length.Statement (.waitt c e b) := Length.all _
theorem Length.xferSend (c : Ctl) (a b : Opd) : Length.Statement (.xferSend c a b) := Length.all _
theorem Length.xferRecv (c : Ctl) (a b e : Opd) : Length.Statement (.xferRecv c a b e) := Length.all _
theorem Length.xor (c : Ctl) (ty : Ty) (nb : Bool) (d a b : Opd) : Length.Statement (.xor c ty nb d a b) := Length.all _
theorem Length.pair (hold : Bool) (x y : Slot) : Length.Statement (.pair hold x y) := Length.all _
theorem Length.holdRelease (core slot : Nat) : Length.Statement (.holdRelease core slot) := Length.all _
theorem Length.resultLanding (core : Nat) : Length.Statement (.resultLanding core) := Length.all _
theorem Length.accumulatorLanding (core : Nat) : Length.Statement (.accumulatorLanding core) := Length.all _
theorem Length.partnerFailure (core : Nat) : Length.Statement (.partnerFailure core) := Length.all _
theorem Length.ringLanding (core : Nat) : Length.Statement (.ringLanding core) := Length.all _
theorem Length.crownFill (core : Nat) : Length.Statement (.crownFill core) := Length.all _
theorem Length.drainLanding (core : Nat) : Length.Statement (.drainLanding core) := Length.all _
theorem Length.gatherStoreLanding (core : Nat) : Length.Statement (.gatherStoreLanding core) := Length.all _
theorem Length.claspWaveRelease (core : Nat) : Length.Statement (.claspWaveRelease core) := Length.all _
theorem Length.strandDeparture (core slot : Nat) : Length.Statement (.strandDeparture core slot) := Length.all _
theorem Length.blockExit (core : Nat) : Length.Statement (.blockExit core) := Length.all _
theorem Length.launchEntryFire (core : Nat) : Length.Statement (.launchEntryFire core) := Length.all _
theorem Length.admissionStage (core : Nat) : Length.Statement (.admissionStage core) := Length.all _
theorem Length.blockStart (core : Nat) : Length.Statement (.blockStart core) := Length.all _
theorem Length.commit : Length.Statement (.commit) := Length.all _
theorem Length.refresh (stack : Nat) : Length.Statement (.refresh stack) := Length.all _
theorem Length.retryDetected (stack line : Nat) (uncorrectable : Bool) : Length.Statement (.retryDetected stack line uncorrectable) := Length.all _
theorem Length.waitaDeadline (core slot : Nat) : Length.Statement (.waitaDeadline core slot) := Length.all _
theorem Length.untilRelease (core slot : Nat) : Length.Statement (.untilRelease core slot) := Length.all _
theorem Length.stall (core slot : Nat) : Length.Statement (.stall core slot) := Length.all _
theorem Length.flitSlot (plane : Nat) : Length.Statement (.flitSlot plane) := Length.all _
theorem Length.flitDelivery (plane peer : Nat) (flit : Flit) (failed : Bool) : Length.Statement (.flitDelivery plane peer flit failed) := Length.all _
theorem Length.nakReceived (plane slot : Nat) : Length.Statement (.nakReceived plane slot) := Length.all _
theorem Length.timingFlit (plane : Nat) : Length.Statement (.timingFlit plane) := Length.all _
theorem Length.fabricPeriodCommit : Length.Statement (.fabricPeriodCommit) := Length.all _
theorem Length.recordLoad (r : HomeRec) : Length.Statement (.recordLoad r) := Length.all _
theorem Length.recordStore (r : HomeRec) : Length.Statement (.recordStore r) := Length.all _
theorem Length.recordStoreb (r : HomeRec) : Length.Statement (.recordStoreb r) := Length.all _
theorem Length.recordCopyw (r : HomeRec) : Length.Statement (.recordCopyw r) := Length.all _
theorem Length.recordAtom (r : HomeRec) : Length.Statement (.recordAtom r) := Length.all _
theorem Length.recordAtomtree (r : HomeRec) : Length.Statement (.recordAtomtree r) := Length.all _
theorem Length.recordResp (r : HomeRec) : Length.Statement (.recordResp r) := Length.all _
theorem Length.recordDiscard (r : HomeRec) : Length.Statement (.recordDiscard r) := Length.all _
theorem Length.streamFlit (plane peer : Nat) (flit : Flit) : Length.Statement (.streamFlit plane peer flit) := Length.all _
theorem Length.collectiveRead (tree : Nat) : Length.Statement (.collectiveRead tree) := Length.all _
theorem Length.collectiveResult (tree : Nat) : Length.Statement (.collectiveResult tree) := Length.all _
theorem Length.sliceCommit : Length.Statement (.sliceCommit) := Length.all _
theorem Length.readyVote : Length.Statement (.readyVote) := Length.all _
theorem Length.plane (p : Nat) : Length.Statement (.plane p) := Length.all _
theorem Length.clock : Length.Statement (.clock) := Length.all _
theorem Length.servoTrim (trim : ServoTrim) : Length.Statement (.servoTrim trim) := Length.all _
theorem Length.faultDetection : Length.Statement (.faultDetection) := Length.all _
theorem Length.abort : Length.Statement (.abort) := Length.all _
theorem Length.syncA : Length.Statement (.syncA) := Length.all _
theorem Length.syncB : Length.Statement (.syncB) := Length.all _
theorem Length.replay : Length.Statement (.replay) := Length.all _
theorem Length.alternate : Length.Statement (.alternate) := Length.all _
theorem Length.halt : Length.Statement (.halt) := Length.all _
theorem Length.sliceStart : Length.Statement (.sliceStart) := Length.all _
theorem Length.powerPhase : Length.Statement (.powerPhase) := Length.all _
theorem Length.temperatureRead (readings : List Nat) : Length.Statement (.temperatureRead readings) := Length.all _
theorem Length.alternateRequest (member : Nat) (idle : Bool) : Length.Statement (.alternateRequest member idle) := Length.all _
theorem Length.fwload : Length.Statement (.fwload) := Length.all _
theorem Length.install : Length.Statement (.install) := Length.all _
theorem Length.absent : Length.Statement (.absent) := Length.all _
theorem Length.treecreate : Length.Statement (.treecreate) := Length.all _
theorem Length.treefree : Length.Statement (.treefree) := Length.all _
theorem Length.treeEffective (tree : Nat) : Length.Statement (.treeEffective tree) := Length.all _
theorem Length.stop : Length.Statement (.stop) := Length.all _
theorem Length.cutComplete : Length.Statement (.cutComplete) := Length.all _
theorem Length.stopLimitExpiry : Length.Statement (.stopLimitExpiry) := Length.all _
theorem Length.fixedSave : Length.Statement (.fixedSave) := Length.all _
theorem Length.resume : Length.Statement (.resume) := Length.all _
theorem Length.shootdown : Length.Statement (.shootdown) := Length.all _
theorem Length.xlatereply : Length.Statement (.xlatereply) := Length.all _
theorem Length.attest : Length.Statement (.attest) := Length.all _
theorem Length.migrate : Length.Statement (.migrate) := Length.all _
theorem Length.emergcfg : Length.Statement (.emergcfg) := Length.all _
theorem Length.mailboxBadop : Length.Statement (.mailboxBadop) := Length.all _
theorem Length.mbevcWrite (x : Word) : Length.Statement (.mbevcWrite x) := Length.all _
theorem Length.mblostClear : Length.Statement (.mblostClear) := Length.all _
theorem Length.eventPost : Length.Statement (.eventPost) := Length.all _
theorem Length.snapshotRequest : Length.Statement (.snapshotRequest) := Length.all _
theorem Length.readbackSnapshot : Length.Statement (.readbackSnapshot) := Length.all _
theorem Length.ringEnable (i : Nat) : Length.Statement (.ringEnable i) := Length.all _
theorem Length.registerWrite (off size : Nat) (x : BitVec 64) : Length.Statement (.registerWrite off size x) := Length.all _
theorem Length.hostMemoryWrite (off : Nat) (bytes : List Byte) : Length.Statement (.hostMemoryWrite off bytes) := Length.all _
theorem Length.hostMemoryRead (off len : Nat) : Length.Statement (.hostMemoryRead off len) := Length.all _
theorem Length.priResponse (group : Nat) (ans : PriAnswer) : Length.Statement (.priResponse group ans) := Length.all _
theorem Length.pageWalkComplete (die asid : Nat) (va : Nat) : Length.Statement (.pageWalkComplete die asid va) := Length.all _
theorem Length.scaleoutPut (ring : Nat) : Length.Statement (.scaleoutPut ring) := Length.all _
theorem Length.scaleoutGet (ring : Nat) : Length.Statement (.scaleoutGet ring) := Length.all _
theorem Length.scaleoutCompletion (id : Nat) (status : Nat) (bytes : List Byte) : Length.Statement (.scaleoutCompletion id status bytes) := Length.all _
theorem Length.ethernetFrame (port : Nat) (bytes : List Byte) (ptp : Bool) : Length.Statement (.ethernetFrame port bytes ptp) := Length.all _
theorem Length.pageMigration : Length.Statement (.pageMigration) := Length.all _
theorem Length.powerOn (f : BootFindings) : Length.Statement (.powerOn f) := Length.all _
theorem Length.warmReset (f : BootFindings) : Length.Statement (.warmReset f) := Length.all _
theorem Length.coreReservationEnd (core : Nat) : Length.Statement (.coreReservationEnd core) := Length.all _
theorem Length.scaleoutRetransmission (id : Nat) (giveUp : Bool) : Length.Statement (.scaleoutRetransmission id giveUp) := Length.all _

end Sys2Proof.Laws
end

