-- ==== Sys2Proof/Laws/State.lean ====
section
/-! SUPPORT. What each update of the state leaves alone, a lemma per field; what it changes, read back; and that the updates of memory
keep its canonical form. -/

namespace Sys2Proof.Machine
open Sys2Proof

/-! ### setCore -/

@[simp] theorem setCore_mem (s : State) (c : Nat) (k : Core) : (s.setCore c k).mem = s.mem := rfl
@[simp] theorem setCore_tags (s : State) (c : Nat) (k : Core) : (s.setCore c k).tags = s.tags := rfl
@[simp] theorem setCore_horizons (s : State) (c : Nat) (k : Core) : (s.setCore c k).horizons = s.horizons := rfl
@[simp] theorem setCore_badLines (s : State) (c : Nat) (k : Core) : (s.setCore c k).badLines = s.badLines := rfl
@[simp] theorem setCore_retried (s : State) (c : Nat) (k : Core) : (s.setCore c k).retried = s.retried := rfl
@[simp] theorem setCore_refreshed (s : State) (c : Nat) (k : Core) : (s.setCore c k).refreshed = s.refreshed := rfl
@[simp] theorem setCore_ops (s : State) (c : Nat) (k : Core) : (s.setCore c k).ops = s.ops := rfl
@[simp] theorem setCore_slope (s : State) (c : Nat) (k : Core) : (s.setCore c k).slope = s.slope := rfl
@[simp] theorem setCore_sch (s : State) (c : Nat) (k : Core) : (s.setCore c k).sch = s.sch := rfl
@[simp] theorem setCore_fab (s : State) (c : Nat) (k : Core) : (s.setCore c k).fab = s.fab := rfl
@[simp] theorem setCore_host (s : State) (c : Nat) (k : Core) : (s.setCore c k).host = s.host := rfl
@[simp] theorem setCore_plat (s : State) (c : Nat) (k : Core) : (s.setCore c k).plat = s.plat := rfl
@[simp] theorem setCore_pages (s : State) (c : Nat) (k : Core) : (s.setCore c k).pages = s.pages := rfl
@[simp] theorem setCore_tlb (s : State) (c : Nat) (k : Core) : (s.setCore c k).tlb = s.tlb := rfl
@[simp] theorem setCore_walks (s : State) (c : Nat) (k : Core) : (s.setCore c k).walks = s.walks := rfl
@[simp] theorem setCore_held (s : State) (c : Nat) (k : Core) : (s.setCore c k).held = s.held := rfl
@[simp] theorem setCore_sel (s : State) (c : Nat) (k : Core) : (s.setCore c k).sel = s.sel := rfl
@[simp] theorem setCore_inputs (s : State) (c : Nat) (k : Core) : (s.setCore c k).inputs = s.inputs := rfl
@[simp] theorem setCore_out (s : State) (c : Nat) (k : Core) : (s.setCore c k).out = s.out := rfl
@[simp] theorem setCore_served (s : State) (c : Nat) (k : Core) : (s.setCore c k).served = s.served := rfl
@[simp] theorem setCore_swept (s : State) (c : Nat) (k : Core) : (s.setCore c k).swept = s.swept := rfl
@[simp] theorem setCore_seq (s : State) (c : Nat) (k : Core) : (s.setCore c k).seq = s.seq := rfl
@[simp] theorem setCore_horFar (s : State) (c : Nat) (k : Core) : (s.setCore c k).horFar = s.horFar := rfl
@[simp] theorem setCore_upsets (s : State) (c : Nat) (k : Core) : (s.setCore c k).upsets = s.upsets := rfl
@[simp] theorem setCore_arrivals (s : State) (c : Nat) (k : Core) : (s.setCore c k).arrivals = s.arrivals := rfl
@[simp] theorem setCore_snap (s : State) (c : Nat) (k : Core) : (s.setCore c k).snap = s.snap := rfl
@[simp] theorem setCore_draws (s : State) (c : Nat) (k : Core) : (s.setCore c k).draws = s.draws := rfl
@[simp] theorem setCore_cores (s : State) (c : Nat) (k : Core) : (s.setCore c k).cores = aSet s.cores c k := rfl
@[simp] theorem setCore_now (s : State) (c : Nat) (k : Core) : (s.setCore c k).now = s.now := rfl
@[simp] theorem setCore_accord (s : State) (c : Nat) (k : Core) : (s.setCore c k).accord = s.accord := rfl

/-! ### modCore -/

@[simp] theorem modCore_mem (s : State) (c : Nat) (f : Core → Core) : (s.modCore c f).mem = s.mem := rfl
@[simp] theorem modCore_tags (s : State) (c : Nat) (f : Core → Core) : (s.modCore c f).tags = s.tags := rfl
@[simp] theorem modCore_horizons (s : State) (c : Nat) (f : Core → Core) : (s.modCore c f).horizons = s.horizons := rfl
@[simp] theorem modCore_badLines (s : State) (c : Nat) (f : Core → Core) : (s.modCore c f).badLines = s.badLines := rfl
@[simp] theorem modCore_retried (s : State) (c : Nat) (f : Core → Core) : (s.modCore c f).retried = s.retried := rfl
@[simp] theorem modCore_refreshed (s : State) (c : Nat) (f : Core → Core) : (s.modCore c f).refreshed = s.refreshed := rfl
@[simp] theorem modCore_ops (s : State) (c : Nat) (f : Core → Core) : (s.modCore c f).ops = s.ops := rfl
@[simp] theorem modCore_slope (s : State) (c : Nat) (f : Core → Core) : (s.modCore c f).slope = s.slope := rfl
@[simp] theorem modCore_sch (s : State) (c : Nat) (f : Core → Core) : (s.modCore c f).sch = s.sch := rfl
@[simp] theorem modCore_fab (s : State) (c : Nat) (f : Core → Core) : (s.modCore c f).fab = s.fab := rfl
@[simp] theorem modCore_host (s : State) (c : Nat) (f : Core → Core) : (s.modCore c f).host = s.host := rfl
@[simp] theorem modCore_plat (s : State) (c : Nat) (f : Core → Core) : (s.modCore c f).plat = s.plat := rfl
@[simp] theorem modCore_pages (s : State) (c : Nat) (f : Core → Core) : (s.modCore c f).pages = s.pages := rfl
@[simp] theorem modCore_tlb (s : State) (c : Nat) (f : Core → Core) : (s.modCore c f).tlb = s.tlb := rfl
@[simp] theorem modCore_walks (s : State) (c : Nat) (f : Core → Core) : (s.modCore c f).walks = s.walks := rfl
@[simp] theorem modCore_held (s : State) (c : Nat) (f : Core → Core) : (s.modCore c f).held = s.held := rfl
@[simp] theorem modCore_sel (s : State) (c : Nat) (f : Core → Core) : (s.modCore c f).sel = s.sel := rfl
@[simp] theorem modCore_inputs (s : State) (c : Nat) (f : Core → Core) : (s.modCore c f).inputs = s.inputs := rfl
@[simp] theorem modCore_out (s : State) (c : Nat) (f : Core → Core) : (s.modCore c f).out = s.out := rfl
@[simp] theorem modCore_served (s : State) (c : Nat) (f : Core → Core) : (s.modCore c f).served = s.served := rfl
@[simp] theorem modCore_swept (s : State) (c : Nat) (f : Core → Core) : (s.modCore c f).swept = s.swept := rfl
@[simp] theorem modCore_seq (s : State) (c : Nat) (f : Core → Core) : (s.modCore c f).seq = s.seq := rfl
@[simp] theorem modCore_horFar (s : State) (c : Nat) (f : Core → Core) : (s.modCore c f).horFar = s.horFar := rfl
@[simp] theorem modCore_upsets (s : State) (c : Nat) (f : Core → Core) : (s.modCore c f).upsets = s.upsets := rfl
@[simp] theorem modCore_arrivals (s : State) (c : Nat) (f : Core → Core) : (s.modCore c f).arrivals = s.arrivals := rfl
@[simp] theorem modCore_snap (s : State) (c : Nat) (f : Core → Core) : (s.modCore c f).snap = s.snap := rfl
@[simp] theorem modCore_draws (s : State) (c : Nat) (f : Core → Core) : (s.modCore c f).draws = s.draws := rfl
@[simp] theorem modCore_now (s : State) (c : Nat) (f : Core → Core) : (s.modCore c f).now = s.now := rfl
@[simp] theorem modCore_accord (s : State) (c : Nat) (f : Core → Core) : (s.modCore c f).accord = s.accord := rfl

/-! ### modBlk -/

@[simp] theorem modBlk_mem (s : State) (c : Nat) (f : Blk → Blk) : (s.modBlk c f).mem = s.mem := rfl
@[simp] theorem modBlk_tags (s : State) (c : Nat) (f : Blk → Blk) : (s.modBlk c f).tags = s.tags := rfl
@[simp] theorem modBlk_horizons (s : State) (c : Nat) (f : Blk → Blk) : (s.modBlk c f).horizons = s.horizons := rfl
@[simp] theorem modBlk_badLines (s : State) (c : Nat) (f : Blk → Blk) : (s.modBlk c f).badLines = s.badLines := rfl
@[simp] theorem modBlk_retried (s : State) (c : Nat) (f : Blk → Blk) : (s.modBlk c f).retried = s.retried := rfl
@[simp] theorem modBlk_refreshed (s : State) (c : Nat) (f : Blk → Blk) : (s.modBlk c f).refreshed = s.refreshed := rfl
@[simp] theorem modBlk_ops (s : State) (c : Nat) (f : Blk → Blk) : (s.modBlk c f).ops = s.ops := rfl
@[simp] theorem modBlk_slope (s : State) (c : Nat) (f : Blk → Blk) : (s.modBlk c f).slope = s.slope := rfl
@[simp] theorem modBlk_sch (s : State) (c : Nat) (f : Blk → Blk) : (s.modBlk c f).sch = s.sch := rfl
@[simp] theorem modBlk_fab (s : State) (c : Nat) (f : Blk → Blk) : (s.modBlk c f).fab = s.fab := rfl
@[simp] theorem modBlk_host (s : State) (c : Nat) (f : Blk → Blk) : (s.modBlk c f).host = s.host := rfl
@[simp] theorem modBlk_plat (s : State) (c : Nat) (f : Blk → Blk) : (s.modBlk c f).plat = s.plat := rfl
@[simp] theorem modBlk_pages (s : State) (c : Nat) (f : Blk → Blk) : (s.modBlk c f).pages = s.pages := rfl
@[simp] theorem modBlk_tlb (s : State) (c : Nat) (f : Blk → Blk) : (s.modBlk c f).tlb = s.tlb := rfl
@[simp] theorem modBlk_walks (s : State) (c : Nat) (f : Blk → Blk) : (s.modBlk c f).walks = s.walks := rfl
@[simp] theorem modBlk_held (s : State) (c : Nat) (f : Blk → Blk) : (s.modBlk c f).held = s.held := rfl
@[simp] theorem modBlk_sel (s : State) (c : Nat) (f : Blk → Blk) : (s.modBlk c f).sel = s.sel := rfl
@[simp] theorem modBlk_inputs (s : State) (c : Nat) (f : Blk → Blk) : (s.modBlk c f).inputs = s.inputs := rfl
@[simp] theorem modBlk_out (s : State) (c : Nat) (f : Blk → Blk) : (s.modBlk c f).out = s.out := rfl
@[simp] theorem modBlk_served (s : State) (c : Nat) (f : Blk → Blk) : (s.modBlk c f).served = s.served := rfl
@[simp] theorem modBlk_swept (s : State) (c : Nat) (f : Blk → Blk) : (s.modBlk c f).swept = s.swept := rfl
@[simp] theorem modBlk_seq (s : State) (c : Nat) (f : Blk → Blk) : (s.modBlk c f).seq = s.seq := rfl
@[simp] theorem modBlk_horFar (s : State) (c : Nat) (f : Blk → Blk) : (s.modBlk c f).horFar = s.horFar := rfl
@[simp] theorem modBlk_upsets (s : State) (c : Nat) (f : Blk → Blk) : (s.modBlk c f).upsets = s.upsets := rfl
@[simp] theorem modBlk_arrivals (s : State) (c : Nat) (f : Blk → Blk) : (s.modBlk c f).arrivals = s.arrivals := rfl
@[simp] theorem modBlk_snap (s : State) (c : Nat) (f : Blk → Blk) : (s.modBlk c f).snap = s.snap := rfl
@[simp] theorem modBlk_draws (s : State) (c : Nat) (f : Blk → Blk) : (s.modBlk c f).draws = s.draws := rfl
@[simp] theorem modBlk_now (s : State) (c : Nat) (f : Blk → Blk) : (s.modBlk c f).now = s.now := rfl
@[simp] theorem modBlk_accord (s : State) (c : Nat) (f : Blk → Blk) : (s.modBlk c f).accord = s.accord := rfl

/-! ### modStrand -/

@[simp] theorem modStrand_mem (s : State) (c i : Nat) (f : Strand → Strand) : (s.modStrand c i f).mem = s.mem := rfl
@[simp] theorem modStrand_tags (s : State) (c i : Nat) (f : Strand → Strand) : (s.modStrand c i f).tags = s.tags := rfl
@[simp] theorem modStrand_horizons (s : State) (c i : Nat) (f : Strand → Strand) : (s.modStrand c i f).horizons = s.horizons := rfl
@[simp] theorem modStrand_badLines (s : State) (c i : Nat) (f : Strand → Strand) : (s.modStrand c i f).badLines = s.badLines := rfl
@[simp] theorem modStrand_retried (s : State) (c i : Nat) (f : Strand → Strand) : (s.modStrand c i f).retried = s.retried := rfl
@[simp] theorem modStrand_refreshed (s : State) (c i : Nat) (f : Strand → Strand) : (s.modStrand c i f).refreshed = s.refreshed := rfl
@[simp] theorem modStrand_ops (s : State) (c i : Nat) (f : Strand → Strand) : (s.modStrand c i f).ops = s.ops := rfl
@[simp] theorem modStrand_slope (s : State) (c i : Nat) (f : Strand → Strand) : (s.modStrand c i f).slope = s.slope := rfl
@[simp] theorem modStrand_sch (s : State) (c i : Nat) (f : Strand → Strand) : (s.modStrand c i f).sch = s.sch := rfl
@[simp] theorem modStrand_fab (s : State) (c i : Nat) (f : Strand → Strand) : (s.modStrand c i f).fab = s.fab := rfl
@[simp] theorem modStrand_host (s : State) (c i : Nat) (f : Strand → Strand) : (s.modStrand c i f).host = s.host := rfl
@[simp] theorem modStrand_plat (s : State) (c i : Nat) (f : Strand → Strand) : (s.modStrand c i f).plat = s.plat := rfl
@[simp] theorem modStrand_pages (s : State) (c i : Nat) (f : Strand → Strand) : (s.modStrand c i f).pages = s.pages := rfl
@[simp] theorem modStrand_tlb (s : State) (c i : Nat) (f : Strand → Strand) : (s.modStrand c i f).tlb = s.tlb := rfl
@[simp] theorem modStrand_walks (s : State) (c i : Nat) (f : Strand → Strand) : (s.modStrand c i f).walks = s.walks := rfl
@[simp] theorem modStrand_held (s : State) (c i : Nat) (f : Strand → Strand) : (s.modStrand c i f).held = s.held := rfl
@[simp] theorem modStrand_sel (s : State) (c i : Nat) (f : Strand → Strand) : (s.modStrand c i f).sel = s.sel := rfl
@[simp] theorem modStrand_inputs (s : State) (c i : Nat) (f : Strand → Strand) : (s.modStrand c i f).inputs = s.inputs := rfl
@[simp] theorem modStrand_out (s : State) (c i : Nat) (f : Strand → Strand) : (s.modStrand c i f).out = s.out := rfl
@[simp] theorem modStrand_served (s : State) (c i : Nat) (f : Strand → Strand) : (s.modStrand c i f).served = s.served := rfl
@[simp] theorem modStrand_swept (s : State) (c i : Nat) (f : Strand → Strand) : (s.modStrand c i f).swept = s.swept := rfl
@[simp] theorem modStrand_seq (s : State) (c i : Nat) (f : Strand → Strand) : (s.modStrand c i f).seq = s.seq := rfl
@[simp] theorem modStrand_horFar (s : State) (c i : Nat) (f : Strand → Strand) : (s.modStrand c i f).horFar = s.horFar := rfl
@[simp] theorem modStrand_upsets (s : State) (c i : Nat) (f : Strand → Strand) : (s.modStrand c i f).upsets = s.upsets := rfl
@[simp] theorem modStrand_arrivals (s : State) (c i : Nat) (f : Strand → Strand) : (s.modStrand c i f).arrivals = s.arrivals := rfl
@[simp] theorem modStrand_snap (s : State) (c i : Nat) (f : Strand → Strand) : (s.modStrand c i f).snap = s.snap := rfl
@[simp] theorem modStrand_draws (s : State) (c i : Nat) (f : Strand → Strand) : (s.modStrand c i f).draws = s.draws := rfl
@[simp] theorem modStrand_now (s : State) (c i : Nat) (f : Strand → Strand) : (s.modStrand c i f).now = s.now := rfl
@[simp] theorem modStrand_accord (s : State) (c i : Nat) (f : Strand → Strand) : (s.modStrand c i f).accord = s.accord := rfl

/-! ### event -/

@[simp] theorem event_mem (s : State) (kind : Nat) (p : SMap 8) (c i : Nat) : (s.event kind p c i).mem = s.mem := rfl
@[simp] theorem event_tags (s : State) (kind : Nat) (p : SMap 8) (c i : Nat) : (s.event kind p c i).tags = s.tags := rfl
@[simp] theorem event_horizons (s : State) (kind : Nat) (p : SMap 8) (c i : Nat) : (s.event kind p c i).horizons = s.horizons := rfl
@[simp] theorem event_badLines (s : State) (kind : Nat) (p : SMap 8) (c i : Nat) : (s.event kind p c i).badLines = s.badLines := rfl
@[simp] theorem event_retried (s : State) (kind : Nat) (p : SMap 8) (c i : Nat) : (s.event kind p c i).retried = s.retried := rfl
@[simp] theorem event_refreshed (s : State) (kind : Nat) (p : SMap 8) (c i : Nat) : (s.event kind p c i).refreshed = s.refreshed := rfl
@[simp] theorem event_ops (s : State) (kind : Nat) (p : SMap 8) (c i : Nat) : (s.event kind p c i).ops = s.ops := rfl
@[simp] theorem event_cores (s : State) (kind : Nat) (p : SMap 8) (c i : Nat) : (s.event kind p c i).cores = s.cores := rfl
@[simp] theorem event_slope (s : State) (kind : Nat) (p : SMap 8) (c i : Nat) : (s.event kind p c i).slope = s.slope := rfl
@[simp] theorem event_sch (s : State) (kind : Nat) (p : SMap 8) (c i : Nat) : (s.event kind p c i).sch = s.sch := rfl
@[simp] theorem event_fab (s : State) (kind : Nat) (p : SMap 8) (c i : Nat) : (s.event kind p c i).fab = s.fab := rfl
@[simp] theorem event_plat (s : State) (kind : Nat) (p : SMap 8) (c i : Nat) : (s.event kind p c i).plat = s.plat := rfl
@[simp] theorem event_pages (s : State) (kind : Nat) (p : SMap 8) (c i : Nat) : (s.event kind p c i).pages = s.pages := rfl
@[simp] theorem event_tlb (s : State) (kind : Nat) (p : SMap 8) (c i : Nat) : (s.event kind p c i).tlb = s.tlb := rfl
@[simp] theorem event_walks (s : State) (kind : Nat) (p : SMap 8) (c i : Nat) : (s.event kind p c i).walks = s.walks := rfl
@[simp] theorem event_held (s : State) (kind : Nat) (p : SMap 8) (c i : Nat) : (s.event kind p c i).held = s.held := rfl
@[simp] theorem event_sel (s : State) (kind : Nat) (p : SMap 8) (c i : Nat) : (s.event kind p c i).sel = s.sel := rfl
@[simp] theorem event_inputs (s : State) (kind : Nat) (p : SMap 8) (c i : Nat) : (s.event kind p c i).inputs = s.inputs := rfl
@[simp] theorem event_out (s : State) (kind : Nat) (p : SMap 8) (c i : Nat) : (s.event kind p c i).out = s.out := rfl
@[simp] theorem event_served (s : State) (kind : Nat) (p : SMap 8) (c i : Nat) : (s.event kind p c i).served = s.served := rfl
@[simp] theorem event_swept (s : State) (kind : Nat) (p : SMap 8) (c i : Nat) : (s.event kind p c i).swept = s.swept := rfl
@[simp] theorem event_seq (s : State) (kind : Nat) (p : SMap 8) (c i : Nat) : (s.event kind p c i).seq = s.seq := rfl
@[simp] theorem event_horFar (s : State) (kind : Nat) (p : SMap 8) (c i : Nat) : (s.event kind p c i).horFar = s.horFar := rfl
@[simp] theorem event_upsets (s : State) (kind : Nat) (p : SMap 8) (c i : Nat) : (s.event kind p c i).upsets = s.upsets := rfl
@[simp] theorem event_arrivals (s : State) (kind : Nat) (p : SMap 8) (c i : Nat) : (s.event kind p c i).arrivals = s.arrivals := rfl
@[simp] theorem event_snap (s : State) (kind : Nat) (p : SMap 8) (c i : Nat) : (s.event kind p c i).snap = s.snap := rfl
@[simp] theorem event_draws (s : State) (kind : Nat) (p : SMap 8) (c i : Nat) : (s.event kind p c i).draws = s.draws := rfl
@[simp] theorem event_host (s : State) (kind : Nat) (p : SMap 8) (c i : Nat) : (s.event kind p c i).host = { s.host with waiting := s.host.waiting ++ [(kind, p, c, i)] } := rfl
@[simp] theorem event_now (s : State) (kind : Nat) (p : SMap 8) (c i : Nat) : (s.event kind p c i).now = s.now := rfl
@[simp] theorem event_accord (s : State) (kind : Nat) (p : SMap 8) (c i : Nat) : (s.event kind p c i).accord = s.accord := rfl
@[simp] theorem event_core (s : State) (kind : Nat) (p : SMap 8) (c i : Nat) (x : Nat) : (s.event kind p c i).core x = s.core x := rfl

/-! ### raiseSched -/

@[simp] theorem raiseSched_mem (s : State) (cause : SCause) (unit : Nat) : (s.raiseSched cause unit).mem = s.mem := rfl
@[simp] theorem raiseSched_tags (s : State) (cause : SCause) (unit : Nat) : (s.raiseSched cause unit).tags = s.tags := rfl
@[simp] theorem raiseSched_horizons (s : State) (cause : SCause) (unit : Nat) : (s.raiseSched cause unit).horizons = s.horizons := rfl
@[simp] theorem raiseSched_badLines (s : State) (cause : SCause) (unit : Nat) : (s.raiseSched cause unit).badLines = s.badLines := rfl
@[simp] theorem raiseSched_retried (s : State) (cause : SCause) (unit : Nat) : (s.raiseSched cause unit).retried = s.retried := rfl
@[simp] theorem raiseSched_refreshed (s : State) (cause : SCause) (unit : Nat) : (s.raiseSched cause unit).refreshed = s.refreshed := rfl
@[simp] theorem raiseSched_ops (s : State) (cause : SCause) (unit : Nat) : (s.raiseSched cause unit).ops = s.ops := rfl
@[simp] theorem raiseSched_cores (s : State) (cause : SCause) (unit : Nat) : (s.raiseSched cause unit).cores = s.cores := rfl
@[simp] theorem raiseSched_slope (s : State) (cause : SCause) (unit : Nat) : (s.raiseSched cause unit).slope = s.slope := rfl
@[simp] theorem raiseSched_fab (s : State) (cause : SCause) (unit : Nat) : (s.raiseSched cause unit).fab = s.fab := rfl
@[simp] theorem raiseSched_host (s : State) (cause : SCause) (unit : Nat) : (s.raiseSched cause unit).host = s.host := rfl
@[simp] theorem raiseSched_plat (s : State) (cause : SCause) (unit : Nat) : (s.raiseSched cause unit).plat = s.plat := rfl
@[simp] theorem raiseSched_pages (s : State) (cause : SCause) (unit : Nat) : (s.raiseSched cause unit).pages = s.pages := rfl
@[simp] theorem raiseSched_tlb (s : State) (cause : SCause) (unit : Nat) : (s.raiseSched cause unit).tlb = s.tlb := rfl
@[simp] theorem raiseSched_walks (s : State) (cause : SCause) (unit : Nat) : (s.raiseSched cause unit).walks = s.walks := rfl
@[simp] theorem raiseSched_held (s : State) (cause : SCause) (unit : Nat) : (s.raiseSched cause unit).held = s.held := rfl
@[simp] theorem raiseSched_sel (s : State) (cause : SCause) (unit : Nat) : (s.raiseSched cause unit).sel = s.sel := rfl
@[simp] theorem raiseSched_inputs (s : State) (cause : SCause) (unit : Nat) : (s.raiseSched cause unit).inputs = s.inputs := rfl
@[simp] theorem raiseSched_out (s : State) (cause : SCause) (unit : Nat) : (s.raiseSched cause unit).out = s.out := rfl
@[simp] theorem raiseSched_served (s : State) (cause : SCause) (unit : Nat) : (s.raiseSched cause unit).served = s.served := rfl
@[simp] theorem raiseSched_swept (s : State) (cause : SCause) (unit : Nat) : (s.raiseSched cause unit).swept = s.swept := rfl
@[simp] theorem raiseSched_seq (s : State) (cause : SCause) (unit : Nat) : (s.raiseSched cause unit).seq = s.seq := rfl
@[simp] theorem raiseSched_horFar (s : State) (cause : SCause) (unit : Nat) : (s.raiseSched cause unit).horFar = s.horFar := rfl
@[simp] theorem raiseSched_upsets (s : State) (cause : SCause) (unit : Nat) : (s.raiseSched cause unit).upsets = s.upsets := rfl
@[simp] theorem raiseSched_arrivals (s : State) (cause : SCause) (unit : Nat) : (s.raiseSched cause unit).arrivals = s.arrivals := rfl
@[simp] theorem raiseSched_snap (s : State) (cause : SCause) (unit : Nat) : (s.raiseSched cause unit).snap = s.snap := rfl
@[simp] theorem raiseSched_draws (s : State) (cause : SCause) (unit : Nat) : (s.raiseSched cause unit).draws = s.draws := rfl
@[simp] theorem raiseSched_now (s : State) (cause : SCause) (unit : Nat) : (s.raiseSched cause unit).now = s.now := rfl
@[simp] theorem raiseSched_core (s : State) (cause : SCause) (unit : Nat) (x : Nat) : (s.raiseSched cause unit).core x = s.core x := rfl

/-! ### draw -/

@[simp] theorem draw_mem (s : State) : (s.draw.2).mem = s.mem := rfl
@[simp] theorem draw_tags (s : State) : (s.draw.2).tags = s.tags := rfl
@[simp] theorem draw_horizons (s : State) : (s.draw.2).horizons = s.horizons := rfl
@[simp] theorem draw_badLines (s : State) : (s.draw.2).badLines = s.badLines := rfl
@[simp] theorem draw_retried (s : State) : (s.draw.2).retried = s.retried := rfl
@[simp] theorem draw_refreshed (s : State) : (s.draw.2).refreshed = s.refreshed := rfl
@[simp] theorem draw_ops (s : State) : (s.draw.2).ops = s.ops := rfl
@[simp] theorem draw_cores (s : State) : (s.draw.2).cores = s.cores := rfl
@[simp] theorem draw_slope (s : State) : (s.draw.2).slope = s.slope := rfl
@[simp] theorem draw_sch (s : State) : (s.draw.2).sch = s.sch := rfl
@[simp] theorem draw_fab (s : State) : (s.draw.2).fab = s.fab := rfl
@[simp] theorem draw_host (s : State) : (s.draw.2).host = s.host := rfl
@[simp] theorem draw_plat (s : State) : (s.draw.2).plat = s.plat := rfl
@[simp] theorem draw_pages (s : State) : (s.draw.2).pages = s.pages := rfl
@[simp] theorem draw_tlb (s : State) : (s.draw.2).tlb = s.tlb := rfl
@[simp] theorem draw_walks (s : State) : (s.draw.2).walks = s.walks := rfl
@[simp] theorem draw_held (s : State) : (s.draw.2).held = s.held := rfl
@[simp] theorem draw_sel (s : State) : (s.draw.2).sel = s.sel := rfl
@[simp] theorem draw_inputs (s : State) : (s.draw.2).inputs = s.inputs := rfl
@[simp] theorem draw_out (s : State) : (s.draw.2).out = s.out := rfl
@[simp] theorem draw_served (s : State) : (s.draw.2).served = s.served := rfl
@[simp] theorem draw_swept (s : State) : (s.draw.2).swept = s.swept := rfl
@[simp] theorem draw_seq (s : State) : (s.draw.2).seq = s.seq := rfl
@[simp] theorem draw_horFar (s : State) : (s.draw.2).horFar = s.horFar := rfl
@[simp] theorem draw_upsets (s : State) : (s.draw.2).upsets = s.upsets := rfl
@[simp] theorem draw_arrivals (s : State) : (s.draw.2).arrivals = s.arrivals := rfl
@[simp] theorem draw_snap (s : State) : (s.draw.2).snap = s.snap := rfl
@[simp] theorem draw_now (s : State) : (s.draw.2).now = s.now := rfl
@[simp] theorem draw_accord (s : State) : (s.draw.2).accord = s.accord := rfl
@[simp] theorem draw_core (s : State) (x : Nat) : (s.draw.2).core x = s.core x := rfl

/-! ### mark -/

@[simp] theorem mark_mem (s : State) (n : Nat) : (s.mark n).mem = s.mem := rfl
@[simp] theorem mark_tags (s : State) (n : Nat) : (s.mark n).tags = s.tags := rfl
@[simp] theorem mark_horizons (s : State) (n : Nat) : (s.mark n).horizons = s.horizons := rfl
@[simp] theorem mark_badLines (s : State) (n : Nat) : (s.mark n).badLines = s.badLines := rfl
@[simp] theorem mark_retried (s : State) (n : Nat) : (s.mark n).retried = s.retried := rfl
@[simp] theorem mark_refreshed (s : State) (n : Nat) : (s.mark n).refreshed = s.refreshed := rfl
@[simp] theorem mark_ops (s : State) (n : Nat) : (s.mark n).ops = s.ops := rfl
@[simp] theorem mark_cores (s : State) (n : Nat) : (s.mark n).cores = s.cores := rfl
@[simp] theorem mark_slope (s : State) (n : Nat) : (s.mark n).slope = s.slope := rfl
@[simp] theorem mark_sch (s : State) (n : Nat) : (s.mark n).sch = s.sch := rfl
@[simp] theorem mark_fab (s : State) (n : Nat) : (s.mark n).fab = s.fab := rfl
@[simp] theorem mark_host (s : State) (n : Nat) : (s.mark n).host = s.host := rfl
@[simp] theorem mark_plat (s : State) (n : Nat) : (s.mark n).plat = s.plat := rfl
@[simp] theorem mark_pages (s : State) (n : Nat) : (s.mark n).pages = s.pages := rfl
@[simp] theorem mark_tlb (s : State) (n : Nat) : (s.mark n).tlb = s.tlb := rfl
@[simp] theorem mark_walks (s : State) (n : Nat) : (s.mark n).walks = s.walks := rfl
@[simp] theorem mark_held (s : State) (n : Nat) : (s.mark n).held = s.held := rfl
@[simp] theorem mark_sel (s : State) (n : Nat) : (s.mark n).sel = s.sel := rfl
@[simp] theorem mark_inputs (s : State) (n : Nat) : (s.mark n).inputs = s.inputs := rfl
@[simp] theorem mark_out (s : State) (n : Nat) : (s.mark n).out = s.out := rfl
@[simp] theorem mark_served (s : State) (n : Nat) : (s.mark n).served = s.served := rfl
@[simp] theorem mark_seq (s : State) (n : Nat) : (s.mark n).seq = s.seq := rfl
@[simp] theorem mark_horFar (s : State) (n : Nat) : (s.mark n).horFar = s.horFar := rfl
@[simp] theorem mark_upsets (s : State) (n : Nat) : (s.mark n).upsets = s.upsets := rfl
@[simp] theorem mark_arrivals (s : State) (n : Nat) : (s.mark n).arrivals = s.arrivals := rfl
@[simp] theorem mark_snap (s : State) (n : Nat) : (s.mark n).snap = s.snap := rfl
@[simp] theorem mark_draws (s : State) (n : Nat) : (s.mark n).draws = s.draws := rfl
@[simp] theorem mark_swept (s : State) (n : Nat) : (s.mark n).swept = n :: s.swept := rfl
@[simp] theorem mark_now (s : State) (n : Nat) : (s.mark n).now = s.now := rfl
@[simp] theorem mark_accord (s : State) (n : Nat) : (s.mark n).accord = s.accord := rfl
@[simp] theorem mark_core (s : State) (n : Nat) (x : Nat) : (s.mark n).core x = s.core x := rfl

/-! ### addOp -/

@[simp] theorem addOp_mem (s : State) (o : MemOp) : (s.addOp o).mem = s.mem := rfl
@[simp] theorem addOp_tags (s : State) (o : MemOp) : (s.addOp o).tags = s.tags := rfl
@[simp] theorem addOp_horizons (s : State) (o : MemOp) : (s.addOp o).horizons = s.horizons := rfl
@[simp] theorem addOp_badLines (s : State) (o : MemOp) : (s.addOp o).badLines = s.badLines := rfl
@[simp] theorem addOp_retried (s : State) (o : MemOp) : (s.addOp o).retried = s.retried := rfl
@[simp] theorem addOp_refreshed (s : State) (o : MemOp) : (s.addOp o).refreshed = s.refreshed := rfl
@[simp] theorem addOp_cores (s : State) (o : MemOp) : (s.addOp o).cores = s.cores := rfl
@[simp] theorem addOp_slope (s : State) (o : MemOp) : (s.addOp o).slope = s.slope := rfl
@[simp] theorem addOp_sch (s : State) (o : MemOp) : (s.addOp o).sch = s.sch := rfl
@[simp] theorem addOp_fab (s : State) (o : MemOp) : (s.addOp o).fab = s.fab := rfl
@[simp] theorem addOp_host (s : State) (o : MemOp) : (s.addOp o).host = s.host := rfl
@[simp] theorem addOp_plat (s : State) (o : MemOp) : (s.addOp o).plat = s.plat := rfl
@[simp] theorem addOp_pages (s : State) (o : MemOp) : (s.addOp o).pages = s.pages := rfl
@[simp] theorem addOp_tlb (s : State) (o : MemOp) : (s.addOp o).tlb = s.tlb := rfl
@[simp] theorem addOp_walks (s : State) (o : MemOp) : (s.addOp o).walks = s.walks := rfl
@[simp] theorem addOp_held (s : State) (o : MemOp) : (s.addOp o).held = s.held := rfl
@[simp] theorem addOp_sel (s : State) (o : MemOp) : (s.addOp o).sel = s.sel := rfl
@[simp] theorem addOp_inputs (s : State) (o : MemOp) : (s.addOp o).inputs = s.inputs := rfl
@[simp] theorem addOp_out (s : State) (o : MemOp) : (s.addOp o).out = s.out := rfl
@[simp] theorem addOp_served (s : State) (o : MemOp) : (s.addOp o).served = s.served := rfl
@[simp] theorem addOp_swept (s : State) (o : MemOp) : (s.addOp o).swept = s.swept := rfl
@[simp] theorem addOp_seq (s : State) (o : MemOp) : (s.addOp o).seq = s.seq := rfl
@[simp] theorem addOp_horFar (s : State) (o : MemOp) : (s.addOp o).horFar = s.horFar := rfl
@[simp] theorem addOp_upsets (s : State) (o : MemOp) : (s.addOp o).upsets = s.upsets := rfl
@[simp] theorem addOp_arrivals (s : State) (o : MemOp) : (s.addOp o).arrivals = s.arrivals := rfl
@[simp] theorem addOp_snap (s : State) (o : MemOp) : (s.addOp o).snap = s.snap := rfl
@[simp] theorem addOp_draws (s : State) (o : MemOp) : (s.addOp o).draws = s.draws := rfl
@[simp] theorem addOp_ops (s : State) (o : MemOp) : (s.addOp o).ops = s.ops ++ [o] := rfl
@[simp] theorem addOp_now (s : State) (o : MemOp) : (s.addOp o).now = s.now := rfl
@[simp] theorem addOp_accord (s : State) (o : MemOp) : (s.addOp o).accord = s.accord := rfl
@[simp] theorem addOp_core (s : State) (o : MemOp) (x : Nat) : (s.addOp o).core x = s.core x := rfl

/-! ### dropOp -/

@[simp] theorem dropOp_mem (s : State) (o : MemOp) : (s.dropOp o).mem = s.mem := rfl
@[simp] theorem dropOp_tags (s : State) (o : MemOp) : (s.dropOp o).tags = s.tags := rfl
@[simp] theorem dropOp_horizons (s : State) (o : MemOp) : (s.dropOp o).horizons = s.horizons := rfl
@[simp] theorem dropOp_badLines (s : State) (o : MemOp) : (s.dropOp o).badLines = s.badLines := rfl
@[simp] theorem dropOp_retried (s : State) (o : MemOp) : (s.dropOp o).retried = s.retried := rfl
@[simp] theorem dropOp_refreshed (s : State) (o : MemOp) : (s.dropOp o).refreshed = s.refreshed := rfl
@[simp] theorem dropOp_cores (s : State) (o : MemOp) : (s.dropOp o).cores = s.cores := rfl
@[simp] theorem dropOp_slope (s : State) (o : MemOp) : (s.dropOp o).slope = s.slope := rfl
@[simp] theorem dropOp_sch (s : State) (o : MemOp) : (s.dropOp o).sch = s.sch := rfl
@[simp] theorem dropOp_fab (s : State) (o : MemOp) : (s.dropOp o).fab = s.fab := rfl
@[simp] theorem dropOp_host (s : State) (o : MemOp) : (s.dropOp o).host = s.host := rfl
@[simp] theorem dropOp_plat (s : State) (o : MemOp) : (s.dropOp o).plat = s.plat := rfl
@[simp] theorem dropOp_pages (s : State) (o : MemOp) : (s.dropOp o).pages = s.pages := rfl
@[simp] theorem dropOp_tlb (s : State) (o : MemOp) : (s.dropOp o).tlb = s.tlb := rfl
@[simp] theorem dropOp_walks (s : State) (o : MemOp) : (s.dropOp o).walks = s.walks := rfl
@[simp] theorem dropOp_held (s : State) (o : MemOp) : (s.dropOp o).held = s.held := rfl
@[simp] theorem dropOp_sel (s : State) (o : MemOp) : (s.dropOp o).sel = s.sel := rfl
@[simp] theorem dropOp_inputs (s : State) (o : MemOp) : (s.dropOp o).inputs = s.inputs := rfl
@[simp] theorem dropOp_out (s : State) (o : MemOp) : (s.dropOp o).out = s.out := rfl
@[simp] theorem dropOp_served (s : State) (o : MemOp) : (s.dropOp o).served = s.served := rfl
@[simp] theorem dropOp_swept (s : State) (o : MemOp) : (s.dropOp o).swept = s.swept := rfl
@[simp] theorem dropOp_seq (s : State) (o : MemOp) : (s.dropOp o).seq = s.seq := rfl
@[simp] theorem dropOp_horFar (s : State) (o : MemOp) : (s.dropOp o).horFar = s.horFar := rfl
@[simp] theorem dropOp_upsets (s : State) (o : MemOp) : (s.dropOp o).upsets = s.upsets := rfl
@[simp] theorem dropOp_arrivals (s : State) (o : MemOp) : (s.dropOp o).arrivals = s.arrivals := rfl
@[simp] theorem dropOp_snap (s : State) (o : MemOp) : (s.dropOp o).snap = s.snap := rfl
@[simp] theorem dropOp_draws (s : State) (o : MemOp) : (s.dropOp o).draws = s.draws := rfl
@[simp] theorem dropOp_now (s : State) (o : MemOp) : (s.dropOp o).now = s.now := rfl
@[simp] theorem dropOp_accord (s : State) (o : MemOp) : (s.dropOp o).accord = s.accord := rfl
@[simp] theorem dropOp_core (s : State) (o : MemOp) (x : Nat) : (s.dropOp o).core x = s.core x := rfl

/-! ### putOp -/

@[simp] theorem putOp_mem (s : State) (o : MemOp) : (s.putOp o).mem = s.mem := rfl
@[simp] theorem putOp_tags (s : State) (o : MemOp) : (s.putOp o).tags = s.tags := rfl
@[simp] theorem putOp_horizons (s : State) (o : MemOp) : (s.putOp o).horizons = s.horizons := rfl
@[simp] theorem putOp_badLines (s : State) (o : MemOp) : (s.putOp o).badLines = s.badLines := rfl
@[simp] theorem putOp_retried (s : State) (o : MemOp) : (s.putOp o).retried = s.retried := rfl
@[simp] theorem putOp_refreshed (s : State) (o : MemOp) : (s.putOp o).refreshed = s.refreshed := rfl
@[simp] theorem putOp_cores (s : State) (o : MemOp) : (s.putOp o).cores = s.cores := rfl
@[simp] theorem putOp_slope (s : State) (o : MemOp) : (s.putOp o).slope = s.slope := rfl
@[simp] theorem putOp_sch (s : State) (o : MemOp) : (s.putOp o).sch = s.sch := rfl
@[simp] theorem putOp_fab (s : State) (o : MemOp) : (s.putOp o).fab = s.fab := rfl
@[simp] theorem putOp_host (s : State) (o : MemOp) : (s.putOp o).host = s.host := rfl
@[simp] theorem putOp_plat (s : State) (o : MemOp) : (s.putOp o).plat = s.plat := rfl
@[simp] theorem putOp_pages (s : State) (o : MemOp) : (s.putOp o).pages = s.pages := rfl
@[simp] theorem putOp_tlb (s : State) (o : MemOp) : (s.putOp o).tlb = s.tlb := rfl
@[simp] theorem putOp_walks (s : State) (o : MemOp) : (s.putOp o).walks = s.walks := rfl
@[simp] theorem putOp_held (s : State) (o : MemOp) : (s.putOp o).held = s.held := rfl
@[simp] theorem putOp_sel (s : State) (o : MemOp) : (s.putOp o).sel = s.sel := rfl
@[simp] theorem putOp_inputs (s : State) (o : MemOp) : (s.putOp o).inputs = s.inputs := rfl
@[simp] theorem putOp_out (s : State) (o : MemOp) : (s.putOp o).out = s.out := rfl
@[simp] theorem putOp_served (s : State) (o : MemOp) : (s.putOp o).served = s.served := rfl
@[simp] theorem putOp_swept (s : State) (o : MemOp) : (s.putOp o).swept = s.swept := rfl
@[simp] theorem putOp_seq (s : State) (o : MemOp) : (s.putOp o).seq = s.seq := rfl
@[simp] theorem putOp_horFar (s : State) (o : MemOp) : (s.putOp o).horFar = s.horFar := rfl
@[simp] theorem putOp_upsets (s : State) (o : MemOp) : (s.putOp o).upsets = s.upsets := rfl
@[simp] theorem putOp_arrivals (s : State) (o : MemOp) : (s.putOp o).arrivals = s.arrivals := rfl
@[simp] theorem putOp_snap (s : State) (o : MemOp) : (s.putOp o).snap = s.snap := rfl
@[simp] theorem putOp_draws (s : State) (o : MemOp) : (s.putOp o).draws = s.draws := rfl
@[simp] theorem putOp_now (s : State) (o : MemOp) : (s.putOp o).now = s.now := rfl
@[simp] theorem putOp_accord (s : State) (o : MemOp) : (s.putOp o).accord = s.accord := rfl
@[simp] theorem putOp_core (s : State) (o : MemOp) (x : Nat) : (s.putOp o).core x = s.core x := rfl

/-! ### setHorizons -/

@[simp] theorem setHorizons_mem (s : State) (ls : List Nat) (h : Nat) (far : Option (Nat × Nat × Nat)) : (s.setHorizons ls h far).mem = s.mem := rfl
@[simp] theorem setHorizons_tags (s : State) (ls : List Nat) (h : Nat) (far : Option (Nat × Nat × Nat)) : (s.setHorizons ls h far).tags = s.tags := rfl
@[simp] theorem setHorizons_badLines (s : State) (ls : List Nat) (h : Nat) (far : Option (Nat × Nat × Nat)) : (s.setHorizons ls h far).badLines = s.badLines := rfl
@[simp] theorem setHorizons_retried (s : State) (ls : List Nat) (h : Nat) (far : Option (Nat × Nat × Nat)) : (s.setHorizons ls h far).retried = s.retried := rfl
@[simp] theorem setHorizons_refreshed (s : State) (ls : List Nat) (h : Nat) (far : Option (Nat × Nat × Nat)) : (s.setHorizons ls h far).refreshed = s.refreshed := rfl
@[simp] theorem setHorizons_ops (s : State) (ls : List Nat) (h : Nat) (far : Option (Nat × Nat × Nat)) : (s.setHorizons ls h far).ops = s.ops := rfl
@[simp] theorem setHorizons_cores (s : State) (ls : List Nat) (h : Nat) (far : Option (Nat × Nat × Nat)) : (s.setHorizons ls h far).cores = s.cores := rfl
@[simp] theorem setHorizons_slope (s : State) (ls : List Nat) (h : Nat) (far : Option (Nat × Nat × Nat)) : (s.setHorizons ls h far).slope = s.slope := rfl
@[simp] theorem setHorizons_sch (s : State) (ls : List Nat) (h : Nat) (far : Option (Nat × Nat × Nat)) : (s.setHorizons ls h far).sch = s.sch := rfl
@[simp] theorem setHorizons_fab (s : State) (ls : List Nat) (h : Nat) (far : Option (Nat × Nat × Nat)) : (s.setHorizons ls h far).fab = s.fab := rfl
@[simp] theorem setHorizons_host (s : State) (ls : List Nat) (h : Nat) (far : Option (Nat × Nat × Nat)) : (s.setHorizons ls h far).host = s.host := rfl
@[simp] theorem setHorizons_plat (s : State) (ls : List Nat) (h : Nat) (far : Option (Nat × Nat × Nat)) : (s.setHorizons ls h far).plat = s.plat := rfl
@[simp] theorem setHorizons_pages (s : State) (ls : List Nat) (h : Nat) (far : Option (Nat × Nat × Nat)) : (s.setHorizons ls h far).pages = s.pages := rfl
@[simp] theorem setHorizons_tlb (s : State) (ls : List Nat) (h : Nat) (far : Option (Nat × Nat × Nat)) : (s.setHorizons ls h far).tlb = s.tlb := rfl
@[simp] theorem setHorizons_walks (s : State) (ls : List Nat) (h : Nat) (far : Option (Nat × Nat × Nat)) : (s.setHorizons ls h far).walks = s.walks := rfl
@[simp] theorem setHorizons_held (s : State) (ls : List Nat) (h : Nat) (far : Option (Nat × Nat × Nat)) : (s.setHorizons ls h far).held = s.held := rfl
@[simp] theorem setHorizons_sel (s : State) (ls : List Nat) (h : Nat) (far : Option (Nat × Nat × Nat)) : (s.setHorizons ls h far).sel = s.sel := rfl
@[simp] theorem setHorizons_inputs (s : State) (ls : List Nat) (h : Nat) (far : Option (Nat × Nat × Nat)) : (s.setHorizons ls h far).inputs = s.inputs := rfl
@[simp] theorem setHorizons_out (s : State) (ls : List Nat) (h : Nat) (far : Option (Nat × Nat × Nat)) : (s.setHorizons ls h far).out = s.out := rfl
@[simp] theorem setHorizons_served (s : State) (ls : List Nat) (h : Nat) (far : Option (Nat × Nat × Nat)) : (s.setHorizons ls h far).served = s.served := rfl
@[simp] theorem setHorizons_swept (s : State) (ls : List Nat) (h : Nat) (far : Option (Nat × Nat × Nat)) : (s.setHorizons ls h far).swept = s.swept := rfl
@[simp] theorem setHorizons_seq (s : State) (ls : List Nat) (h : Nat) (far : Option (Nat × Nat × Nat)) : (s.setHorizons ls h far).seq = s.seq := rfl
@[simp] theorem setHorizons_upsets (s : State) (ls : List Nat) (h : Nat) (far : Option (Nat × Nat × Nat)) : (s.setHorizons ls h far).upsets = s.upsets := rfl
@[simp] theorem setHorizons_arrivals (s : State) (ls : List Nat) (h : Nat) (far : Option (Nat × Nat × Nat)) : (s.setHorizons ls h far).arrivals = s.arrivals := rfl
@[simp] theorem setHorizons_snap (s : State) (ls : List Nat) (h : Nat) (far : Option (Nat × Nat × Nat)) : (s.setHorizons ls h far).snap = s.snap := rfl
@[simp] theorem setHorizons_draws (s : State) (ls : List Nat) (h : Nat) (far : Option (Nat × Nat × Nat)) : (s.setHorizons ls h far).draws = s.draws := rfl
@[simp] theorem setHorizons_now (s : State) (ls : List Nat) (h : Nat) (far : Option (Nat × Nat × Nat)) : (s.setHorizons ls h far).now = s.now := rfl
@[simp] theorem setHorizons_accord (s : State) (ls : List Nat) (h : Nat) (far : Option (Nat × Nat × Nat)) : (s.setHorizons ls h far).accord = s.accord := rfl
@[simp] theorem setHorizons_core (s : State) (ls : List Nat) (h : Nat) (x : Nat) : (s.setHorizons ls h).core x = s.core x := rfl

/-! ### writeMem -/

@[simp] theorem writeMem_tags (s : State) (bs : List (Nat × Byte)) : (s.writeMem bs).tags = s.tags := rfl
@[simp] theorem writeMem_horizons (s : State) (bs : List (Nat × Byte)) : (s.writeMem bs).horizons = s.horizons := rfl
@[simp] theorem writeMem_retried (s : State) (bs : List (Nat × Byte)) : (s.writeMem bs).retried = s.retried := rfl
@[simp] theorem writeMem_refreshed (s : State) (bs : List (Nat × Byte)) : (s.writeMem bs).refreshed = s.refreshed := rfl
@[simp] theorem writeMem_ops (s : State) (bs : List (Nat × Byte)) : (s.writeMem bs).ops = s.ops := rfl
@[simp] theorem writeMem_cores (s : State) (bs : List (Nat × Byte)) : (s.writeMem bs).cores = s.cores := rfl
@[simp] theorem writeMem_slope (s : State) (bs : List (Nat × Byte)) : (s.writeMem bs).slope = s.slope := rfl
@[simp] theorem writeMem_sch (s : State) (bs : List (Nat × Byte)) : (s.writeMem bs).sch = s.sch := rfl
@[simp] theorem writeMem_fab (s : State) (bs : List (Nat × Byte)) : (s.writeMem bs).fab = s.fab := rfl
@[simp] theorem writeMem_host (s : State) (bs : List (Nat × Byte)) : (s.writeMem bs).host = s.host := rfl
@[simp] theorem writeMem_plat (s : State) (bs : List (Nat × Byte)) : (s.writeMem bs).plat = s.plat := rfl
@[simp] theorem writeMem_pages (s : State) (bs : List (Nat × Byte)) : (s.writeMem bs).pages = s.pages := rfl
@[simp] theorem writeMem_tlb (s : State) (bs : List (Nat × Byte)) : (s.writeMem bs).tlb = s.tlb := rfl
@[simp] theorem writeMem_walks (s : State) (bs : List (Nat × Byte)) : (s.writeMem bs).walks = s.walks := rfl
@[simp] theorem writeMem_held (s : State) (bs : List (Nat × Byte)) : (s.writeMem bs).held = s.held := rfl
@[simp] theorem writeMem_sel (s : State) (bs : List (Nat × Byte)) : (s.writeMem bs).sel = s.sel := rfl
@[simp] theorem writeMem_inputs (s : State) (bs : List (Nat × Byte)) : (s.writeMem bs).inputs = s.inputs := rfl
@[simp] theorem writeMem_out (s : State) (bs : List (Nat × Byte)) : (s.writeMem bs).out = s.out := rfl
@[simp] theorem writeMem_served (s : State) (bs : List (Nat × Byte)) : (s.writeMem bs).served = s.served := rfl
@[simp] theorem writeMem_swept (s : State) (bs : List (Nat × Byte)) : (s.writeMem bs).swept = s.swept := rfl
@[simp] theorem writeMem_seq (s : State) (bs : List (Nat × Byte)) : (s.writeMem bs).seq = s.seq := rfl
@[simp] theorem writeMem_horFar (s : State) (bs : List (Nat × Byte)) : (s.writeMem bs).horFar = s.horFar := rfl
@[simp] theorem writeMem_upsets (s : State) (bs : List (Nat × Byte)) : (s.writeMem bs).upsets = s.upsets := rfl
@[simp] theorem writeMem_arrivals (s : State) (bs : List (Nat × Byte)) : (s.writeMem bs).arrivals = s.arrivals := rfl
@[simp] theorem writeMem_snap (s : State) (bs : List (Nat × Byte)) : (s.writeMem bs).snap = s.snap := rfl
@[simp] theorem writeMem_draws (s : State) (bs : List (Nat × Byte)) : (s.writeMem bs).draws = s.draws := rfl
@[simp] theorem writeMem_mem (s : State) (bs : List (Nat × Byte)) : (s.writeMem bs).mem = smWrites s.mem bs := rfl
@[simp] theorem writeMem_now (s : State) (bs : List (Nat × Byte)) : (s.writeMem bs).now = s.now := rfl
@[simp] theorem writeMem_accord (s : State) (bs : List (Nat × Byte)) : (s.writeMem bs).accord = s.accord := rfl
@[simp] theorem writeMem_core (s : State) (bs : List (Nat × Byte)) (x : Nat) : (s.writeMem bs).core x = s.core x := rfl

/-! ### homeStore -/

@[simp] theorem homeStore_tags (s : State) (line : Nat) (m : BitVec 64) (d : Block) (h : Nat) : (s.homeStore line m d h).tags = s.tags := rfl
@[simp] theorem homeStore_retried (s : State) (line : Nat) (m : BitVec 64) (d : Block) (h : Nat) : (s.homeStore line m d h).retried = s.retried := rfl
@[simp] theorem homeStore_refreshed (s : State) (line : Nat) (m : BitVec 64) (d : Block) (h : Nat) : (s.homeStore line m d h).refreshed = s.refreshed := rfl
@[simp] theorem homeStore_ops (s : State) (line : Nat) (m : BitVec 64) (d : Block) (h : Nat) : (s.homeStore line m d h).ops = s.ops := rfl
@[simp] theorem homeStore_cores (s : State) (line : Nat) (m : BitVec 64) (d : Block) (h : Nat) : (s.homeStore line m d h).cores = s.cores := rfl
@[simp] theorem homeStore_slope (s : State) (line : Nat) (m : BitVec 64) (d : Block) (h : Nat) : (s.homeStore line m d h).slope = s.slope := rfl
@[simp] theorem homeStore_sch (s : State) (line : Nat) (m : BitVec 64) (d : Block) (h : Nat) : (s.homeStore line m d h).sch = s.sch := rfl
@[simp] theorem homeStore_fab (s : State) (line : Nat) (m : BitVec 64) (d : Block) (h : Nat) : (s.homeStore line m d h).fab = s.fab := rfl
@[simp] theorem homeStore_host (s : State) (line : Nat) (m : BitVec 64) (d : Block) (h : Nat) : (s.homeStore line m d h).host = s.host := rfl
@[simp] theorem homeStore_plat (s : State) (line : Nat) (m : BitVec 64) (d : Block) (h : Nat) : (s.homeStore line m d h).plat = s.plat := rfl
@[simp] theorem homeStore_pages (s : State) (line : Nat) (m : BitVec 64) (d : Block) (h : Nat) : (s.homeStore line m d h).pages = s.pages := rfl
@[simp] theorem homeStore_tlb (s : State) (line : Nat) (m : BitVec 64) (d : Block) (h : Nat) : (s.homeStore line m d h).tlb = s.tlb := rfl
@[simp] theorem homeStore_walks (s : State) (line : Nat) (m : BitVec 64) (d : Block) (h : Nat) : (s.homeStore line m d h).walks = s.walks := rfl
@[simp] theorem homeStore_held (s : State) (line : Nat) (m : BitVec 64) (d : Block) (h : Nat) : (s.homeStore line m d h).held = s.held := rfl
@[simp] theorem homeStore_sel (s : State) (line : Nat) (m : BitVec 64) (d : Block) (h : Nat) : (s.homeStore line m d h).sel = s.sel := rfl
@[simp] theorem homeStore_inputs (s : State) (line : Nat) (m : BitVec 64) (d : Block) (h : Nat) : (s.homeStore line m d h).inputs = s.inputs := rfl
@[simp] theorem homeStore_out (s : State) (line : Nat) (m : BitVec 64) (d : Block) (h : Nat) : (s.homeStore line m d h).out = s.out := rfl
@[simp] theorem homeStore_served (s : State) (line : Nat) (m : BitVec 64) (d : Block) (h : Nat) : (s.homeStore line m d h).served = s.served := rfl
@[simp] theorem homeStore_swept (s : State) (line : Nat) (m : BitVec 64) (d : Block) (h : Nat) : (s.homeStore line m d h).swept = s.swept := rfl
@[simp] theorem homeStore_seq (s : State) (line : Nat) (m : BitVec 64) (d : Block) (h : Nat) : (s.homeStore line m d h).seq = s.seq := rfl
@[simp] theorem homeStore_upsets (s : State) (line : Nat) (m : BitVec 64) (d : Block) (h : Nat) : (s.homeStore line m d h).upsets = s.upsets := rfl
@[simp] theorem homeStore_arrivals (s : State) (line : Nat) (m : BitVec 64) (d : Block) (h : Nat) : (s.homeStore line m d h).arrivals = s.arrivals := rfl
@[simp] theorem homeStore_snap (s : State) (line : Nat) (m : BitVec 64) (d : Block) (h : Nat) : (s.homeStore line m d h).snap = s.snap := rfl
@[simp] theorem homeStore_draws (s : State) (line : Nat) (m : BitVec 64) (d : Block) (h : Nat) : (s.homeStore line m d h).draws = s.draws := rfl
@[simp] theorem homeStore_now (s : State) (line : Nat) (m : BitVec 64) (d : Block) (h : Nat) : (s.homeStore line m d h).now = s.now := rfl
@[simp] theorem homeStore_accord (s : State) (line : Nat) (m : BitVec 64) (d : Block) (h : Nat) : (s.homeStore line m d h).accord = s.accord := rfl
@[simp] theorem homeStore_core (s : State) (line : Nat) (m : BitVec 64) (d : Block) (x : Nat) : (s.homeStore line m d h).core x = s.core x := rfl

/-! ### takeRecord -/

@[simp] theorem takeRecord_mem (s : State) (r : HomeRec) : (s.takeRecord r).mem = s.mem := rfl
@[simp] theorem takeRecord_tags (s : State) (r : HomeRec) : (s.takeRecord r).tags = s.tags := rfl
@[simp] theorem takeRecord_horizons (s : State) (r : HomeRec) : (s.takeRecord r).horizons = s.horizons := rfl
@[simp] theorem takeRecord_badLines (s : State) (r : HomeRec) : (s.takeRecord r).badLines = s.badLines := rfl
@[simp] theorem takeRecord_retried (s : State) (r : HomeRec) : (s.takeRecord r).retried = s.retried := rfl
@[simp] theorem takeRecord_refreshed (s : State) (r : HomeRec) : (s.takeRecord r).refreshed = s.refreshed := rfl
@[simp] theorem takeRecord_ops (s : State) (r : HomeRec) : (s.takeRecord r).ops = s.ops := rfl
@[simp] theorem takeRecord_cores (s : State) (r : HomeRec) : (s.takeRecord r).cores = s.cores := rfl
@[simp] theorem takeRecord_slope (s : State) (r : HomeRec) : (s.takeRecord r).slope = s.slope := rfl
@[simp] theorem takeRecord_sch (s : State) (r : HomeRec) : (s.takeRecord r).sch = s.sch := rfl
@[simp] theorem takeRecord_host (s : State) (r : HomeRec) : (s.takeRecord r).host = s.host := rfl
@[simp] theorem takeRecord_plat (s : State) (r : HomeRec) : (s.takeRecord r).plat = s.plat := rfl
@[simp] theorem takeRecord_pages (s : State) (r : HomeRec) : (s.takeRecord r).pages = s.pages := rfl
@[simp] theorem takeRecord_tlb (s : State) (r : HomeRec) : (s.takeRecord r).tlb = s.tlb := rfl
@[simp] theorem takeRecord_walks (s : State) (r : HomeRec) : (s.takeRecord r).walks = s.walks := rfl
@[simp] theorem takeRecord_held (s : State) (r : HomeRec) : (s.takeRecord r).held = s.held := rfl
@[simp] theorem takeRecord_sel (s : State) (r : HomeRec) : (s.takeRecord r).sel = s.sel := rfl
@[simp] theorem takeRecord_inputs (s : State) (r : HomeRec) : (s.takeRecord r).inputs = s.inputs := rfl
@[simp] theorem takeRecord_out (s : State) (r : HomeRec) : (s.takeRecord r).out = s.out := rfl
@[simp] theorem takeRecord_served (s : State) (r : HomeRec) : (s.takeRecord r).served = s.served := rfl
@[simp] theorem takeRecord_swept (s : State) (r : HomeRec) : (s.takeRecord r).swept = s.swept := rfl
@[simp] theorem takeRecord_seq (s : State) (r : HomeRec) : (s.takeRecord r).seq = s.seq := rfl
@[simp] theorem takeRecord_horFar (s : State) (r : HomeRec) : (s.takeRecord r).horFar = s.horFar := rfl
@[simp] theorem takeRecord_upsets (s : State) (r : HomeRec) : (s.takeRecord r).upsets = s.upsets := rfl
@[simp] theorem takeRecord_arrivals (s : State) (r : HomeRec) : (s.takeRecord r).arrivals = s.arrivals := rfl
@[simp] theorem takeRecord_snap (s : State) (r : HomeRec) : (s.takeRecord r).snap = s.snap := rfl
@[simp] theorem takeRecord_draws (s : State) (r : HomeRec) : (s.takeRecord r).draws = s.draws := rfl
@[simp] theorem takeRecord_now (s : State) (r : HomeRec) : (s.takeRecord r).now = s.now := rfl
@[simp] theorem takeRecord_accord (s : State) (r : HomeRec) : (s.takeRecord r).accord = s.accord := rfl
@[simp] theorem takeRecord_core (s : State) (r : HomeRec) (x : Nat) : (s.takeRecord r).core x = s.core x := rfl

/-! ### Reading back what was changed -/

@[simp] theorem core_setCore (s : State) (c : Nat) (k : Core) : (s.setCore c k).core c = k := by
  simp [State.core, State.setCore, aGet_aSet_same]

theorem core_setCore_ne (s : State) {c x : Nat} (k : Core) (h : x ≠ c) : (s.setCore c k).core x = s.core x := by
  simp [State.core, State.setCore, aGet_aSet_ne _ _ h]

@[simp] theorem core_modCore (s : State) (c : Nat) (f : Core → Core) : (s.modCore c f).core c = f (s.core c) := core_setCore ..

theorem core_modCore_ne (s : State) {c x : Nat} (f : Core → Core) (h : x ≠ c) : (s.modCore c f).core x = s.core x := core_setCore_ne s _ h

theorem core_modBlk_ne (s : State) {c x : Nat} (f : Blk → Blk) (h : x ≠ c) : (s.modBlk c f).core x = s.core x := core_modCore_ne s _ h

theorem core_modStrand_ne (s : State) {c x : Nat} (i : Nat) (f : Strand → Strand) (h : x ≠ c) : (s.modStrand c i f).core x = s.core x :=
  core_modBlk_ne s _ h

@[simp] theorem blk_modBlk (s : State) (c : Nat) (f : Blk → Blk) : (s.modBlk c f).blk c = (s.blk c).map f := by
  simp [State.blk, State.modBlk]

@[simp] theorem strand_modStrand (s : State) (c i : Nat) (f : Strand → Strand) :
    (s.modStrand c i f).strand c i = (s.strand c i).map f := by
  simp only [State.strand, State.modStrand, blk_modBlk]
  cases s.blk c <;> simp

theorem strand_modStrand_ne (s : State) (c i : Nat) (f : Strand → Strand) {x j : Nat} (h : (x, j) ≠ (c, i)) :
    (s.modStrand c i f).strand x j = s.strand x j := by
  by_cases hx : x = c
  · subst hx
    have hj : i ≠ j := fun e => h (by rw [e])
    simp only [State.strand, State.modStrand, blk_modBlk]
    cases s.blk x <;> simp [hj]
  · simp only [State.strand, State.blk, core_modStrand_ne s i f hx]

@[simp] theorem shown_modShown (k : Core) (f : Blk → Blk) : (k.modShown f).shown = k.shown.map f := by
  unfold Core.modShown Core.shown
  cases k.blk <;> simp

@[simp] theorem modShown_scratch (k : Core) (f : Blk → Blk) : (k.modShown f).scratch = k.scratch := by
  unfold Core.modShown; split <;> rfl

@[simp] theorem modShown_runs (k : Core) (f : Blk → Blk) : (k.modShown f).runs = k.runs := by
  unfold Core.modShown; split <;> rfl

@[simp] theorem modShown_claspQ (k : Core) (f : Blk → Blk) : (k.modShown f).claspQ = k.claspQ := by
  unfold Core.modShown; split <;> rfl

theorem shown_of_blk {k : Core} {b : Blk} (h : k.blk = some b) : k.shown = some b := by simp [Core.shown, h]

/-! ### The canonical form of memory -/

theorem sameMemory_refl (s : State) : s.sameMemory s := ⟨rfl, rfl, rfl⟩

theorem sameMemory_trans {s t u : State} (h : s.sameMemory t) (h' : t.sameMemory u) : s.sameMemory u :=
  ⟨h'.1.trans h.1, h'.2.1.trans h.2.1, h'.2.2.trans h.2.2⟩

theorem memoryOk_of_same {s t : State} (h : s.memoryOk) (e : s.sameMemory t) : t.memoryOk := by
  obtain ⟨e1, e2, e3⟩ := e
  exact ⟨e1 ▸ h.1, e2 ▸ h.2.1, e3 ▸ h.2.2⟩

theorem memoryOk_writeMem {s : State} (h : s.memoryOk) (bs : List (Nat × Byte)) : (s.writeMem bs).memoryOk :=
  ⟨smWf_smWrites h.1 bs, h.2⟩

theorem memoryOk_tags {s : State} (h : s.memoryOk) (ts : List (Nat × Tag)) :
    ({ s with tags := smWrites s.tags ts } : State).memoryOk := ⟨h.1, smWf_smWrites h.2.1 ts, h.2.2⟩

theorem memoryOk_setHorizons {s : State} (h : s.memoryOk) (ls : List Nat) (t : Nat) (far : Option (Nat × Nat × Nat)) :
    (s.setHorizons ls t far).memoryOk := by
  refine ⟨h.1, h.2.1, ?_⟩
  simp only [State.setHorizons]
  have := h.2.2
  generalize s.horizons = m at this ⊢
  induction ls generalizing m with
  | nil => exact this
  | cons l ls ih => exact ih _ (smWf_smSet this l _)

theorem memoryOk_applyWrites {s : State} (h : s.memoryOk) (o : MemOp) (ls : List Nat) (t : Nat × Option (Nat × Nat × Nat)) :
    (s.applyWrites o ls t).memoryOk :=
  memoryOk_setHorizons (memoryOk_tags (memoryOk_writeMem h _) _) _ _ _

theorem memoryOk_homeStore {s : State} (h : s.memoryOk) (line : Nat) (m : BitVec 64) (d : Block) (hor : Nat) :
    (s.homeStore line m d hor).memoryOk :=
  memoryOk_setHorizons (memoryOk_writeMem h _) _ _ _

/-- A byte that a write does not name reads as before. -/
theorem writeMem_byte_ne {s : State} (h : s.memoryOk) {a : Nat} (bs : List (Nat × Byte)) (ha : ∀ p ∈ bs, p.1 ≠ a) :
    smGet (s.writeMem bs).mem a = smGet s.mem a := smGet_smWrites_ne h.1 bs ha

/-- Sending Page Requests changes what the host link holds and sends, and nothing else. -/
theorem sendPages_spec (ws : List (Nat × Nat × Nat × List Nat)) (s : State) :
    ∃ o h, s.sendPages ws = { s with out := o, host := h } ∧ h.waiting = s.host.waiting := by
  induction ws generalizing s with
  | nil => exact ⟨_, _, rfl, rfl⟩
  | cons w ws ih =>
    simp only [State.sendPages]
    split
    · exact ⟨_, _, rfl, rfl⟩
    · split
      · obtain ⟨o, h, e, hw⟩ := ih _
        exact ⟨o, h, e, hw⟩
      · exact ⟨_, _, rfl, rfl⟩

theorem requestPages_spec (s : State) (c i asid : Nat) (f : Trap) :
    ∃ o h, s.requestPages c i asid f = { s with out := o, host := h } ∧ h.waiting = s.host.waiting := by
  simp only [State.requestPages]
  split
  · exact ⟨_, _, rfl, rfl⟩
  · exact sendPages_spec _ _

/-- A FAULT TAKEN: the strand gets the exception of R291; beside that at most the host link is told. -/
theorem trap_spec (s : State) (c i : Nat) (w : Addr) (len : Nat) (f : Trap) (b : Blk) (st : Strand)
    (hb : s.blk c = some b) (hs : s.strand c i = some st) :
    ∃ o h, s.trap c i w len f =
      { s.modStrand c i (fun st => st.trap s.now b.loose w len (s.takenAs b f)) with out := o, host := h } := by
  simp only [State.trap, hb, hs]
  split
  · obtain ⟨o, h, e, -⟩ := requestPages_spec
      ((s.modStrand c i fun st => st.trap s.now b.loose w len (s.takenAs b f)).event evXlate
        (xlatePayload c i b.asid (if (smGet s.host.pasid b.asid).getLsbD 31 then ((smGet s.host.pasid b.asid).extractLsb' 0 20).toNat else 0xFFFFFFFF)
          (faultRecord st w (s.takenAs b f))) c i) c i b.asid (s.takenAs b f)
    exact ⟨o, h, e⟩
  · exact ⟨_, _, rfl⟩

/-- A fault where there is no strand is nothing. -/
theorem trap_none (s : State) (c i : Nat) (w : Addr) (len : Nat) (f : Trap) (h : s.blk c = none ∨ s.strand c i = none) :
    s.trap c i w len f = s := by
  rcases h with h | h
  · simp [State.trap, h]
  · simp only [State.trap, h]; split <;> simp_all

/-- An access or a fault in a strand leaves memory alone. -/
theorem trap_sameMemory (s : State) (c i : Nat) (w : Addr) (len : Nat) (f : Trap) : s.sameMemory (s.trap c i w len f) := by
  cases hb : s.blk c with
  | none => rw [trap_none s c i w len f (.inl hb)]; exact sameMemory_refl s
  | some b => cases hs : s.strand c i with
    | none => rw [trap_none s c i w len f (.inr hs)]; exact sameMemory_refl s
    | some st => obtain ⟨o, h, e⟩ := trap_spec s c i w len f b st hb hs; rw [e]; exact ⟨rfl, rfl, rfl⟩

/-- A fault in a strand changes no other strand. -/
theorem trap_strand_ne (s : State) (c i : Nat) (w : Addr) (len : Nat) (f : Trap) {x j : Nat} (h : (x, j) ≠ (c, i)) :
    (s.trap c i w len f).strand x j = s.strand x j := by
  cases hb : s.blk c with
  | none => rw [trap_none s c i w len f (.inl hb)]
  | some b => cases hs : s.strand c i with
    | none => rw [trap_none s c i w len f (.inr hs)]
    | some st =>
      obtain ⟨o, g, e⟩ := trap_spec s c i w len f b st hb hs
      rw [e]
      exact strand_modStrand_ne s c i _ h

/-- A fault in a strand gives that strand the exception of R291. -/
theorem trap_strand (s : State) (c i : Nat) (w : Addr) (len : Nat) (f : Trap) (b : Blk) (st : Strand)
    (hb : s.blk c = some b) (hs : s.strand c i = some st) :
    (s.trap c i w len f).strand c i = some (st.trap s.now b.loose w len (s.takenAs b f)) := by
  obtain ⟨o, g, e⟩ := trap_spec s c i w len f b st hb hs
  rw [e]
  exact (strand_modStrand s c i _).trans (by rw [hs]; rfl)

/-! ### A list with one element of a kind -/

/-- Taking away the one element of a kind leaves the rest. -/
theorem onlyOne_contains {α : Type} [DecidableEq α] {p : α → Bool} {l : List α} {x : α} {rest : List α} (h : onlyOne p l x rest) :
    l.filter (fun y => !([x].contains y)) = rest := by
  rw [← h.2]
  apply List.filter_congr
  intro y hy
  have hm : y ∈ l.filter p ↔ y = x := by rw [h.1]; simp
  simp only [List.mem_filter] at hm
  by_cases hp : p y = true
  · have e := hm.1 ⟨hy, hp⟩
    subst e
    simp [hp]
  · have h2 : y ≠ x := fun e => hp (hm.2 e).2
    simp [hp, h2]

end Sys2Proof.Machine
end

