-- ==== Sys2Proof/Tests/Slice0.lean ====
section
/-! SUPPORT. Tests of the model, and a witness of the hypotheses of each obligation. -/

namespace Sys2Proof.Tests
open Sys2Proof Sys2Proof.Machine

-- One theorem after another: the witnesses hold much memory while they are checked side by side.
set_option Elab.async false
/-! ## Decoding: words written out from the encodings of R166, R222, R247, R264, R310, R327 and of the entries of the reference -/

/-- A full-form word from its fields (R327); `k` holds the predicate with its negate bit as bit 3. -/
def asm (op m k d a b c : Nat) : BitVec 64 :=
  BitVec.ofNat 64 (op * 2 ^ 54 + m * 2 ^ 48 + k * 2 ^ 44 + d * 2 ^ 33 + a * 2 ^ 22 + b * 2 ^ 11 + c)

/-- Predicate k0, no hold. -/
def k0 : Ctl := ⟨false, false, 0⟩

/-- Each word with its literal decodes to the instruction beside it. -/
def reads (l : List (BitVec 64 × BitVec 64 × Instr)) : Bool := l.all fun p => match decode p.1 p.2.1 with | .ok i => i == p.2.2 | .error _ => false

theorem test_decode_add_sub : reads
    [(0x005C_0002_0080_1F00, 0, .add k0 .i8 true (.v 1) (.v 2) (.v 3)),
     (0x0081_022D_880A_3700, 0x0001_0007, .sub k0 .u32 false (.s 22) (.lit32 0x0001_0007) (.sp 0x46)),
     (asm 0x03 0b011010 0 0x001 0x002 0x700 0x700, 0, .neg k0 .i16 true (.v 1) (.v 2)),
     (asm 0x04 0b000000 0x9 0x001 0x108 0x700 0x700, 0, .abs ⟨false, true, 1⟩ .i32 false (.v 1) (.s 8)),
     (asm 0x05 0b001101 0 0x0FF 0x002 0x003 0x700, 0, .min k0 .u8 (.v 255) (.v 2) (.v 3)),
     (asm 0x06 0b000011 0 0x002 0x004 0x006 0x700, 0, .max k0 .i64 (.v 2) (.v 4) (.v 6)),
     (0x01F1_000A_0180_3F00, 0, .mul k0 .u32 true true (.v 5) (.v 6) (.v 7)),
     (0x0200_0002_0080_1804, 0, .mad k0 .i32 false (.v 1) (.v 2) (.v 3) (.v 4)),
     (0x0630_0002_0080_1804, 0, .dot4 k0 true true false (.v 1) (.v 2) (.v 3) (.v 4))] = true := by decide

theorem test_decode_logic : reads
    [(asm 0x09 0b010001 0 0x001 0x002 0x4FF 0x700, 0, .and k0 .u32 true (.v 1) (.v 2) (.inl 255)),
     (asm 0x0A 0b000000 0 0x105 0x106 0x107 0x700, 0, .or k0 .i32 false (.s 5) (.s 6) (.s 7)),
     (asm 0x0B 0b010100 0 0x002 0x004 0x006 0x700, 0, .xor k0 .u64 true (.v 2) (.v 4) (.v 6)),
     (asm 0x0C 0b000001 0 0x001 0x503 0x700 0x700, 0, .not k0 .u32 (.v 1) (.fpc 3)),
     (asm 0x0D 0b000011 0 0x002 0x004 0x006 0x700, 0, .shl k0 .i64 (.v 2) (.v 4) (.v 6)),
     (asm 0x0E 0b000001 0 0x001 0x002 0x41F 0x700, 0, .shr k0 .u32 (.v 1) (.v 2) (.inl 31)),
     (asm 0x0F 0b010001 0 0x001 0x002 0x408 0x700, 0, .rot k0 .u32 true (.v 1) (.v 2) (.inl 8)),
     (asm 0x10 0b000000 0 0x001 0x002 0x003 0x700, 0, .bfx k0 .i32 (.v 1) (.v 2) (.v 3)),
     (asm 0x11 0b000001 0 0x001 0x002 0x003 0x004, 0, .bfi k0 .u32 (.v 1) (.v 2) (.v 3) (.v 4)),
     (asm 0x12 0b000100 0 0x001 0x002 0x700 0x700, 0, .clz k0 .u64 (.v 1) (.v 2)),
     (0x04C1_0004_00F8_0700, 0, .popc k0 .u32 (.v 2) (.v 3)),
     (0x0580_0002_40F8_0700, 0, .mov k0 .i32 (.v 1) (.s 3))] = true := by decide

theorem test_decode_predicates : reads
    [(0x0510_0404_0060_0700, 0, .cmp k0 .lt .i32 (.k 2) (.v 1) (.inl 0)),
     (0x0501_0402_51A0_2700, 0, .cmp k0 .eq .u32 (.k 1) (.sp 0x46) (.inl 4)),
     (0x0540_0002_0080_1A02, 0, .sel k0 .i32 (.v 1) (.v 2) (.v 3) (.k 2)),
     (0x05C0_0406_8050_1700, 0, .kop k0 .and (.k 3) (.k 1) (.k 2)),
     (asm 0x17 0b000110 0 0x104 0x201 0x402 0x700, 0, .kopGet k0 (.s 4) (.k 1) (.inl 2)),
     (asm 0x17 0b000111 0 0x203 0x104 0x401 0x700, 0, .kopPut k0 (.k 3) (.s 4) (.inl 1)),
     (0x2041_0408_80B8_0700, 0, .vote k0 .all (.k 4) (.k 2)),
     (0x1192_0404_0040_1700, 0, .fcmp k0 .lt (.k 2) (.v 1) (.v 2))] = true := by decide

theorem test_decode_float : reads
    [(0x1002_000E_01E8_1700, 0, .fadd k0 (.v 7) (.v 7) (.fpc 2)),
     (asm 0x41 0b000010 0 0x001 0x002 0x003 0x700, 0, .fsub k0 (.v 1) (.v 2) (.v 3)),
     (0x1082_000A_01B1_0700, 0x4053_3333, .fmul k0 (.v 5) (.v 6) (.lit32 0x4053_3333)),
     (0x90C2_0008_0040_1003, 0, .fma ⟨true, false, 0⟩ (.v 4) (.v 1) (.v 2) (.v 3)),
     (0x10C2_B008_0040_1003, 0, .fma ⟨false, true, 3⟩ (.v 4) (.v 1) (.v 2) (.v 3)),
     (asm 0x44 0b000010 0 0x001 0x002 0x003 0x700, 0, .fmin k0 (.v 1) (.v 2) (.v 3)),
     (asm 0x45 0b000010 0 0x101 0x102 0x103 0x700, 0, .fmax k0 (.s 1) (.s 2) (.s 3)),
     (asm 0x47 0b000010 0 0x201 0x005 0x403 0x700, 0, .fclass k0 (.k 1) (.v 5) (.inl 3)),
     (asm 0x48 0b000010 0 0x001 0x002 0x003 0x700, 0, .fscl k0 (.v 1) (.v 2) (.v 3)),
     (asm 0x49 0b110010 0 0x001 0x002 0x700 0x700, 0, .frnd k0 .dn (.v 1) (.v 2)),
     (0x129C_0002_00A0_1700, 0, .cvt k0 .tz .i8 .f32 (.v 1) (.v 2))] = true := by decide

theorem test_decode_special_functions : reads
    [(asm 0x50 0b000010 0 0x001 0x002 0x700 0x700, 0, .frcp k0 (.v 1) (.v 2)),
     (asm 0x51 0b000010 0 0x001 0x002 0x700 0x700, 0, .fsqrt k0 (.v 1) (.v 2)),
     (asm 0x52 0b000010 0 0x001 0x002 0x700 0x700, 0, .frsq k0 (.v 1) (.v 2)),
     (0x14C2_0002_0080_1F00, 0, .fdiv k0 (.v 1) (.v 2) (.v 3)),
     (asm 0x54 0b000010 0 0x001 0x002 0x700 0x700, 0, .fexp2 k0 (.v 1) (.v 2)),
     (asm 0x55 0b000010 0 0x001 0x002 0x700 0x700, 0, .flog2 k0 (.v 1) (.v 2)),
     (asm 0x56 0b000010 0 0x001 0x002 0x700 0x700, 0, .ftanh k0 (.v 1) (.v 2)),
     (0x15C2_0004_00F8_0700, 0, .fsin k0 (.v 2) (.v 3)),
     (asm 0x58 0b000010 0 0x001 0x002 0x700 0x700, 0, .fcos k0 (.v 1) (.v 2))] = true := by decide

theorem test_decode_cross_lane : reads
    [(0x2004_0004_00E0_0700, 0, .shfl k0 true .idx (.v 2) (.v 3) (.inl 0)),
     (0x2080_0006_0138_0700, 0, .bxch k0 .rot1 (.v 3) (.v 4) .none),
     (0x20D0_000C_0150_1108, 0, .scan k0 .pred .add (.v 6) (.v 5) (.k 2) (.s 8)),
     (0x2100_0014_0138_0114, 0, .scanlr k0 .none (.v 10) (.v 4) .none (.s 20)),
     (0x2148_020A_00F8_0700, 0, .lred k0 .none .fadd (.s 5) (.v 3) .none)] = true := by decide

theorem test_decode_statistics : reads
    [(asm 0x88 0 0 0x301 0x003 0x700 0x700, 0, .stinit k0 (.q 1) (.v 3)),
     (0x2240_0602_C040_1F00, 0, .stacc k0 (.q 1) (.q 1) (.v 3)),
     (asm 0x8A 0 0 0x301 0x302 0x003 0x104, 0, .staccw k0 (.q 1) (.q 2) (.v 3) (.s 4)),
     (asm 0x8B 0 0 0x301 0x302 0x303 0x700, 0, .stmrg k0 (.q 1) (.q 2) (.q 3)),
     (0xA320_0602_C019_0700, 0, .stred ⟨true, false, 0⟩ .shape (.q 1) (.q 0) (.g 0)),
     (0x2340_0010_C0B1_0700, 0x4034_0000, .stfin k0 (.v 8) (.q 2) (.lit32 0x4034_0000)),
     (asm 0x8E 0b001101 0 0x004 0x005 0x302 0x10A, 0, .stnorm k0 (some 5) (.v 4) (.v 5) (.q 2) (.s 10)),
     (asm 0xA4 0 0 0x301 0x001 0x116 0x700, 0, .stld k0 (.q 1) (.v 1) (.s 22)),
     (0x2940_AE00_0048_B301, 0, .stst ⟨false, true, 2⟩ (.v 1) (.s 22) (.q 1))] = true := by decide

theorem test_decode_shape : reads
    [(asm 0x98 0 0 0x322 0x104 0x700 0x700, 0, .shld k0 (.g 2) (.s 4)),
     (asm 0x99 0 0 0x322 0x620 0x700 0x700, 1000, .shwin k0 (.g 2) (.lit32 1000)),
     (asm 0x9A 0b00 0 0x322 0x43F 0x105 0x700, 0, .shputEnt k0 (.g 2) (.inl 63) (.s 5)),
     (asm 0x9A 0b01 0 0x322 0x700 0x105 0x700, 0, .shputOrg k0 (.g 2) (.s 5)),
     (asm 0x9A 0b10 0 0x322 0x700 0x460 0x700, 0, .shputAdv k0 (.g 2) (.inl 96)),
     (asm 0x9B 0x6 0 0x001 0x322 0x003 0x700, 0, .shq k0 .pos (.v 1) (.g 2) (.v 3)),
     (0x2700_0406_C8B8_0700, 0, .shseg k0 .head (.k 3) (.g 2))] = true := by decide

theorem test_decode_memory : reads
    [(0xA800_0202_43B8_0402, 0, .ld ⟨true, false, 0⟩ false .plain .thread none (.ty .f32) (.s 1) (.s 14) .none),
     (asm 0xA0 0b101010 0 0x004 0x006 0x700 0x402, 0, .ld k0 false .acq .pkg none (.ty .f32) (.v 4) (.v 6) .none),
     (0x2840_0008_42A0_8402, 0, .st k0 .plain .thread none (.ty .f32) (.v 4) (.s 10) (.inl 16)),
     (0x28A6_0010_0280_6400, 0, .atom k0 .add .i32 .acqrel .die (.v 8) (.v 10) (.v 12)),
     (asm 0xA2 0b000001 0 0x008 0x00A 0x00C 0x420, 0, .atomTree k0 .add .u32 .plain .thread (.v 8) (.v 10) (.v 12)),
     (0x28E4_0602_0198_1700, 0, .atomq k0 .rel .die (.q 1) (.v 6) (.q 2)),
     (asm 0xA6 0 0 0x003 0x106 0x440 0x700, 0, .tagr k0 (.v 3) (.s 6) (.inl 64)),
     (0x29C0_0E00_41B8_0620, 0x0054_8006, .tagw k0 (.s 6) .none (.lit32 0x0054_8006)),
     (0x2F2C_020E_40A0_0CC8, 0, .waita k0 .eq true .pkg (.s 7) (.s 2) (.inl 1) (.inl 200)),
     (0x3904_0E01_C038_0700, 0, .fence k0 .die)] = true := by decide

theorem test_decode_blocks : reads
    [(0x12C6_0004_0138_0700, 0, .pack k0 .bf16 (.v 2) (.v 4) .none),
     (0x12E7_0E00_0208_3700, 0, .packBlk k0 .e4m3 (.v 8) (.s 6)),
     (0x1306_0008_00B8_0700, 0, .unpack k0 .bf16 (.v 4) (.v 2) .none),
     (asm 0x4C 0b101001 0 0x008 0x106 0x700 0x700, 0, .unpackBlk k0 .e2m1 (.v 8) (.s 6)),
     (0x30C4_0010_0248_1700, 0, .gathLd k0 false .b32 (.v 8) (.v 9) (.s 2)),
     (asm 0xC3 0b000111 0 0x700 0x009 0x700 0x00A, 0, .gathSt k0 .b64 (.v 9) .none (.v 10))] = true := by decide

theorem test_decode_engines : reads
    [(0x3000_0E00_4288_6410, 0, .cpy1d k0 false (.s 10) (.s 12) (.inl 16)),
     (asm 0xC0 0b101101 0 0x700 0x10A 0x10C 0x110, 0, .cpy2d k0 (some .seq) true (.s 10) (.s 12) (.s 16)),
     (0x3002_0E00_4588_6108, 0, .cpyTm k0 false false (.s 22) (.s 12) (.s 8)),
     (asm 0xC1 0 0 0x700 0x405 0x10C 0x700, 0, .cpyb k0 (.inl 5) (.s 12)),
     (0x3080_0E00_4108_2F00, 0, .rrot k0 (.s 4) (.s 5)),
     (0x3200_0E00_4108_2F00, 0, .xferSend k0 (.s 4) (.s 5)),
     (0x3201_0E00_4588_C117, 0, .xferRecv k0 (.s 22) (.s 24) (.s 23)),
     (0x3240_0211_0160_110A, 0, .coll k0 (.s 8) (.inl 5) (.inl 2) (.s 10)),
     (0x3940_0E01_000A_8700, 0, .waitt k0 .copy (.sp 0x50))] = true := by decide

theorem test_decode_matrix : reads
    [(0x3400_0622_4120_3700, 0, .mma k0 .w16 (.acc 1) (.s 4) (.inl 6)),
     (0x3404_0620_4120_3402, 0, .mmaTrio k0 .w16 (.acc 0) (.s 4) (.inl 6) (.inl 2)),
     (0x3440_0624_4119_1700, 0, .mmag k0 .w16 (.acc 2) (.s 4) (.g 2)),
     (0x3480_0626_4278_0700, 0, .mlda k0 (.acc 3) (.s 9)),
     (asm 0xD3 0 0 0x312 0x700 0x700 0x700, 0, .mzero k0 (.acc 2)),
     (0x34C1_0E01_C038_0700, 0, .mzeroAll k0),
     (0x3503_0E00_C408_3322, 0, .mdrn k0 false false false true true (.acc 0) (.s 6) (.g 2)),
     (0x350C_0E00_C408_3700, 0, .mdrn k0 false true true false false (.acc 0) (.s 6) .none)] = true := by decide

theorem test_decode_control : reads
    [(0x3800_0E01_C038_0700, 0, .nop k0),
     (0x3840_9E01_8838_0700, 0x20, .bra ⟨false, true, 1⟩ 0x20),
     (0x3880_0E00_4538_0700, 0, .jmp k0 (.s 20)),
     (0x38C0_0251_8838_0700, 0x40, .call k0 (.s 40) (.lit32 0x40)),
     (0x39C0_0E00_4A38_0700, 0, .ret k0 (.s 40)),
     (0x3A00_0421_0131_0700, 0x80, .loop k0 (.lc 0) (.inl 4) 0x80),
     (0x3A40_0E01_C038_0700, 0, .lbrk k0),
     (0x3A80_0E01_C038_0700, 0, .exit k0),
     (0x3AC0_0E01_C038_0700, 0, .role k0),
     (0x3B80_0E00_4138_0700, 0, .until k0 (.s 4)),
     (0x3BC0_0E01_0478_0700, 0, .vnt k0 (.inl 0x11))] = true := by decide

theorem test_decode_claspsAndSystem : reads
    [(0x3980_0E01_0020_0C01, 0, .claspInit k0 (.inl 0) (.inl 1) (.inl 1)),
     (asm 0xE6 1 0 0x700 0x402 0x700 0x700, 0, .claspArr k0 (.inl 2)),
     (0x3982_0E01_00A1_4700, 0, .claspWait k0 (.inl 2) (.inl 40)),
     (0x3B00_0208_4188_410A, 0, .launch k0 (.s 4) (.s 6) (.s 8) (.s 10)),
     (asm 0xED 0 0 0x104 0x202 0x700 0x700, 0, .tnext k0 (.s 4) (.k 2)),
     (0x3C00_0E01_0178_0700, 0, .trap k0 (.inl 5)),
     (0x3C40_0E01_C038_0700, 0, .rettRegion k0), (0x3C41_0E01_C038_0700, 0, .rettNext k0),
     (0x3C80_0E01_C038_0700, 0, .region k0), (0x3CC0_0E01_C038_0700, 0, .step k0),
     (0x3D01_0E00_4332_0700, 0x807, .prem k0 false false 1 (.s 12) (.lit64 0x807)),
     (asm 0xF5 0 0 0x003 0x444 0x700 0x700, 0, .sysr k0 (.v 3) (.inl 0x44)),
     (0x3D80_029D_0038_0700, 0, .sysw k0 (.sp 0x4E) (.inl 0))] = true := by decide

theorem test_decode_pair : reads
    [(0x4080_0201_0104_1201, 0, .pair false (.add false (.v 1) (.v 2)) (.add false (.s 4) (.inl 1)))] = true := by decide

/-- A word is refused with a cause. -/
def refuses (w : BitVec 64) (e : DecErr) : Bool := match decode w 0 with | .ok _ => false | .error x => x == e

/-- R344's last case, opcode 0x00, a modifier and a destination that the entry does not take, an unassigned slot, a pair that writes one bank. -/
theorem test_decode_refusals :
    (refuses 0x1082_800A_01B1_0700 .illop && refuses 0 .illop && refuses (asm 0x01 0b000010 0 1 2 3 0x700) .illmod
      && refuses (asm 0x01 0 0 0x400 2 3 0x700) .illop && refuses (0x4080_0201_0C04_1201) .illop
      && refuses 0x4080_0201_1000_1406 .illpair) = true := by decide

/-! ## Well-formedness: a term that each check refuses -/

theorem test_wf_accepts : (Instr.add k0 .i8 true (.v 1) (.v 2) (.v 3)).wellFormed = true
    ∧ (Instr.pair false (.add false (.v 1) (.v 2)) (.add false (.s 4) (.inl 1))).wellFormed = true := by decide

theorem test_wf_refuses_event : Instr.commit.wellFormed = false := by decide

/-- An operand of a file its position does not take, an index that does not exist, an odd pair, two literals, the predicate never. -/
theorem test_wf_refuses_operands :
    (Instr.add k0 .i32 false (.inl 1) (.v 2) (.v 3)).wellFormed = false ∧ (Instr.mov k0 .i32 (.v 1) (.fpc 0x17)).wellFormed = false
      ∧ (Instr.mov k0 .i32 (.v 1) (.sp 0x4F)).wellFormed = false
      ∧ (Instr.add k0 .i64 false (.v 1) (.v 2) (.v 4)).wellFormed = false ∧ (Instr.jmp k0 (.s 60)).wellFormed = false
      ∧ (Instr.add k0 .i32 false (.v 1) (.lit32 0) (.lit32 0)).wellFormed = false
      ∧ (Instr.nop ⟨false, true, 0⟩).wellFormed = false ∧ (Instr.cmp k0 .eq .i32 (.k 0) (.v 1) (.v 2)).wellFormed = false := by decide

/-- A type, a scope or a flag that the modifier does not hold. -/
theorem test_wf_refuses_modifiers :
    (Instr.add k0 .f32 false (.v 1) (.v 2) (.v 3)).wellFormed = false
      ∧ (Instr.cmp k0 .un .i32 (.k 1) (.v 1) (.v 2)).wellFormed = false
      ∧ (Instr.ld k0 false .plain .pod none (.ty .f32) (.v 4) (.v 6) .none).wellFormed = false := by decide

/-- Slots that write one bank, read one bank, put LD in slot Y, or an inline destination. -/
theorem test_wf_refuses_pairs :
    (Instr.pair false (.add false (.v 1) (.v 2)) (.fadd (.v 5) (.v 7))).wellFormed = false
      ∧ (Instr.pair false (.add false (.v 1) (.v 2)) (.fadd (.v 4) (.v 6))).wellFormed = false
      ∧ (Instr.pair false (.fadd (.v 5) (.v 6)) (.ld (.v 2) (.s 6))).wellFormed = false
      ∧ (Instr.pair false (.mov false (.inl 1) (.v 2)) .nop).wellFormed = false := by decide

/-! ## States for the witnesses and tests -/

/-- The package with a NOP placed where the next step fetches, the strand selected. -/
def base : State := { State.reset.withFetchWord 64 0x3800_0E01_C038_0700 with sel := some (0, 0) }

/-- The same with its strand, block and core changed. -/
def here (f : Strand → Strand := id) (g : Blk → Blk := id) (h : Core → Core := id) : State :=
  ((base.modCore 0 h).modBlk 0 g).modStrand 0 0 f

/-- A word that names these registers issues in the state, and its view satisfies a condition. -/
def has (s : State) (c : Ctl) (uni : Bool) (us : List Use) (p : View → Bool := fun _ => true) : Bool :=
  match s.issuer c uni us with | some v => p v | none => false

/-- Bytes from fields: offset, width in bytes, value. -/
def img (l : List (Nat × Nat × Nat)) : SMap 8 := l.foldl (fun m e => smWrite m e.1 (bytesOf e.2.1 e.2.2)) []

/-- An Accord part of one slice of one frame, with further fields. -/
def partOf (more : List (Nat × Nat × Nat)) : Part :=
  ⟨0x400000, img ([(0x28, 8, 0x100), (0x30, 4, 1), (0x34, 4, 16), (0x108, 4, 1)] ++ more)⟩

def part1 : Part := partOf []

/-- A part in force, its slice running. -/
def runs (s : State) (p : Part) : State :=
  { s with sch := { s.sch with main := some p, inForce := .main, active := true, ended := false, slice := 0 } }

/-- Predicate k1. -/
def k1 : Ctl := ⟨false, false, 1⟩

/-- An outcome is a next state that satisfies a condition. -/
def nextIs (o : Host.Outcome State Fault Refusal) (p : State → Bool := fun _ => true) : Bool :=
  match o with | .next t => p t | _ => false

/-! ## Witnesses: the machine and decoding -/

theorem wit_StepKeepsMemoryCanonical : base.memoryOk ∧ nextIs (step base) = true := ⟨⟨rfl, rfl, rfl⟩, by decide⟩

theorem wit_WordsFrame : isWord (.nop k0) = true ∧ nextIs (exec (.nop k0) base) = true ∧ base.sel ≠ some (0, 1)
    ∧ base.sel.map (·.1) ≠ some 1 := by decide

/-- The state of StepRunsDecodedWord: right after reset with the word placed. -/
def fresh : State := State.reset.withFetchWord 64 0x3800_0E01_C038_0700

theorem wit_StepRunsDecodedWord :
    fresh.dueInput.isNone = true ∧ fresh.plat.powered = true ∧ fresh.nextEarly.isNone = true ∧ fresh.running = true
      ∧ fresh.cores = [] ++ (0, fresh.core 0) :: [] ∧ fresh.served.contains 0 = false
      ∧ (match fresh.blk 0, fresh.strand 0 0 with
        | some b, some st => (b.exitAt.isNone && decide (b.start ≤ fresh.now) && (fresh.now - b.start) % 3 == 0
            && (fresh.now - b.start) / 3 % b.rot == 0 && st.ended.isNone && st.waits.isEmpty
            && fresh.fetch 0 b st.pc == .word 0x3800_0E01_C038_0700 0 && (b.rot != 0)
            && (match ({ fresh with sel := some (0, 0), served := 0 :: fresh.served } : State).view k0 with
              | some v => !heldBeforeIssue v (.nop k0) | none => false))
        | _, _ => false) = true
      ∧ reads [(0x3800_0E01_C038_0700, 0, .nop k0)] = true := by decide

/-- A word without, with a 4-byte and with an 8-byte literal, each with its translations. -/
theorem wit_FetchReadsCode :
    let ok (w lit : Nat) (len : Nat) : Bool :=
      let s := State.reset.withFetchWord 64 (w + 2 ^ 64 * lit)
      match s.blk 0 with
      | some b => (litLen (BitVec.ofNat 64 (smNat b.code 0x10000 8)) == len)
          && (List.range 4).all fun j => s.translate 0 b.asid ((0x10000 + 4 * j) % 2 ^ 57) { x := true } == .ok (0x10000 + 4 * j)
      | none => false
    (ok 0x3800_0E01_C038_0700 0 0 && ok 0x3840_0E01_8838_0700 0xFFFF_FFC0 4 && ok 0x3D01_0E00_4332_0700 0x807 8) = true := by decide

theorem wit_DecodeEncode : (Instr.fma ⟨true, true, 3⟩ (.v 4) (.v 1) (.lit32 0x4053_3333) (.v 3)).wellFormed = true := by decide

theorem wit_EncodeDecode : reads [(0x3D01_0E00_4332_0700, 0x807, .prem k0 false false 1 (.s 12) (.lit64 0x807))] = true
    ∧ litLen 0x3D01_0E00_4332_0700 = 8 := by decide

/-- An unassigned opcode, the predicate never, and an unassigned opcode in slot X and in slot Y. -/
theorem wit_RefusedWords :
    (let w : BitVec 64 := asm 0xFF 0 0 0x700 0x700 0x700 0x700; w.getLsbD 62 = false ∧ opAssigned (w.extractLsb' 54 8) = false)
      ∧ (let w : BitVec 64 := asm 0xE0 0 8 0x700 0x700 0x700 0x700; w.getLsbD 62 = false ∧ w.extractLsb' 44 4 = 8#4)
      ∧ (let w : BitVec 64 := 0x4600_0000_0000_0000; w.getLsbD 62 = true ∧ slotAssigned (slotBitsOf (w.extractLsb' 31 31)).op = false)
      ∧ (let w : BitVec 64 := 0x4000_0000_0C00_0000; w.getLsbD 62 = true ∧ slotAssigned (slotBitsOf (w.extractLsb' 0 31)).op = false) := by
  decide

/-! ## Witnesses: integer and floating-point words -/

theorem wit_IntegerWordsComplete : (has base k0 false [wr (.v 1), rd (.v 2)] && has base k0 true [wr (.s 1), rd (.s 2)]
    && has base k0 false [wrN (.v 2) 2, rd2 (.v 4), rd2 (.v 6)] && has base k0 true [wr (.s 1), rd (.s 2), rd (.v 3)]) = true := by decide

theorem wit_BitAndMultiplyWordsComplete : (has base k0 false [wr (.v 1), rd (.v 2), rd (.v 3), rd (.v 4)]
    && has base k0 false [wr (.v 1), rd (.v 2), rd (.v 3)] && has base k0 false [wr (.v 1), rd2 (.v 2)]
    && has base k0 false [wrN (.v 2) 2, rd2 (.v 4), rd (.v 6)] && has base k0 false [wr (.k 1), rd2 (.v 2), rd2 (.v 4)]
    && has base k0 false [wr (.v 1), rd (.v 2), rd (.v 3), rd (.k 1)] && has base k0 false [wr (.k 1), rd (.k 2), rd (.k 3)]
    && has base k0 true [wr (.s 1), rd (.k 2)] && has base k0 false [wr (.k 1), rd (.s 2), rd (.inl 2)]) = true := by decide

theorem wit_IntegerValues : intType .i8 = true ∧ 3 < elemCount .i8 ∧ (1 : Word) ≠ 0 ∧ 0 < 32 := by decide

theorem wit_FloatWordsComplete : (has base k0 false [wr (.v 1), rd (.v 2), rd (.v 3)] && has base k0 true [wr (.s 1), rd (.s 2), rd (.v 3)]
    && has base k0 false [wr (.v 1), rd (.v 2), rd (.v 3), rd (.v 4)] && has base k0 false [wr (.v 1), rd (.v 2)]
    && has base k0 false [wrN (.v 2) 2, rd (.v 4)] && has base k0 true [wr (.s 1), rd (.v 2)]) = true := by decide

theorem wit_FloatNaNs : isNaN 0x7FC0_0000 = true ∧ isNaN 0x3F80_0000 = false ∧ isSNaN 0x7F80_0001 = true
    ∧ isNaN (add32 0x7F80_0000 0xFF80_0000).1 = true ∧ isNaN (mul32 0x7F80_0000 0).1 = true ∧ isNaN (trig32 false 0x7F80_0000).1 = true
    ∧ ((tyFmt .e4m3).map (fun g => (List.range 2).any fun b => g.value 0x7F == FV.nan (b == 1)) == some true && (tyFmt .i8).isNone
      && (tyFmt .f16).map (fun g => (List.range 2).any fun b => g.value (cvtElem .ne .f16 .e4m3 0x7F).1.toNat == FV.nan (b == 1)) == some true) = true := by
  decide

/-! ## Witnesses: issue, faults, traps and returns -/

/-- The threads of a word under k0, and under a predicate that holds for none. -/
theorem wit_LeaderOfAWord :
    (match base.view k0, base.view k1 with | some v, some w => !v.threads.isEmpty && w.threads.isEmpty | _, _ => false) = true := by decide

/-- A strand of 8 vector registers, and words that name v8: an instruction, and a pair in slot X alone and in slot Y alone. -/
theorem wit_OutsideAllotment :
    let out (i : Instr) (v : View) : Bool := i.wellFormed && !((wordUses i).all v.st.cur.holds)
    (match (here fun st => { st with cur := { st.cur with nv := 8 } }).view k0 with
      | some v => !([wr (.v 8), rd (.v 2)].all v.st.cur.holds) && out (.add k0 .i32 false (.v 8) (.v 2) (.v 3)) v
          && out (.pair false (.add false (.v 9) (.v 2)) (.add false (.s 4) (.inl 1))) v
          && out (.pair false (.add false (.s 4) (.inl 1)) (.add false (.v 9) (.v 2))) v
      | none => false) = true := by decide

theorem wit_UniformWordsSkip :
    (match base.view k1 with
      | some v => [wr (.s 1)].all v.st.cur.holds && v.threads.isEmpty
          && [Instr.mov k1 .i32 (.s 1) (.v 2), .claspArr k1 (.inl 2), .exit k1].all fun i =>
              i.wellFormed && uniformWord i && (wordUses i).all v.st.cur.holds
      | none => false) = true
      ∧ has base k0 true [wr (.s 1)] (fun v => !v.threads.isEmpty && (v.badThreads true [wr (.s 1)]).isEmpty) = true ∧ ¬(k1.k = 0 ∧ k1.neg = false) := by
  decide

/-- A strand at the last word of its loop's body, the counter at a value; in the nested case an outer loop ends there too. -/
def looping (n : Word) (more : List LoopSt) : State :=
  here fun st => { st with loops := ⟨0, 0x10000, 0x10000⟩ :: more, lc := smSet (smSet [] 0 n) 1 5 }

theorem wit_LoopBack :
    let count (v : View) (n : Nat) : Nat := (smGet v.st.lc n).toNat
    let beyond (v : View) (l : List LoopSt) : Bool := l.all fun m => decide (v.st.pc.toNat + 8 ≤ m.last.toNat)
    let ends (v : View) (l : List LoopSt) : Bool := !v.st.inHandler && l.head?.map (·.last) == some v.st.pc
    (has (looping 2 []) k0 true [] (fun v => ends v v.st.loops && decide (1 < count v 0))
      && has (looping 2 []) ⟨true, false, 0⟩ true [] (fun v => v.ctl.hold && ends v v.st.loops)
      && has (looping 1 []) k0 true [] (fun v => ends v v.st.loops && decide (count v 0 ≤ 1))
      && has (looping 0 [⟨1, 0x10000, 0x10008⟩]) k0 true [] (fun v => ends v v.st.loops && decide (count v 0 ≤ 1) && beyond v v.st.loops.tail)
      && has (looping 1 [⟨1, 0x0FFF0, 0x10000⟩]) k0 true [] (fun v => decide (count v 0 ≤ 1) && ends v v.st.loops.tail && decide (1 < count v 1))
      && has (looping 1 [⟨2, 0x0FFF0, 0x10000⟩, ⟨1, 0x0FF00, 0x10008⟩]) k0 true [] (fun v => decide (count v 0 ≤ 1) && ends v v.st.loops.tail
        && decide (count v 2 ≤ 1) && beyond v v.st.loops.tail.tail)
      && has (here fun st => { st with loops := [⟨0, 0x0FFF0, 0x10008⟩] }) k0 true [] (fun v => !v.st.inHandler && beyond v v.st.loops)
      && has (here fun st => { st with loops := [⟨0, 0x0FFF0, 0x0FFF8⟩] }) k0 true [] (fun v => !v.st.inHandler && v.st.loops.all fun l => decide (l.last.toNat < v.st.pc.toNat))
      && has ((looping 2 []).modStrand 0 0 fun st => { st with inHandler := true }) k0 true [] fun v => v.st.inHandler) = true := by decide

theorem wit_FaultRecordLayout : ∀ t ∈ ({ cause := .bound, threads := [0, 95] } : Trap).threads, t < 96 := by decide

theorem wit_WorstFaultRecorded : [(3, Cause.bound, (0 : Addr)), (7, Cause.apert, 64)] ≠ [] := by decide

/-- TRAP with a vector and outside a handler, in a handler, without a vector; a strand of a loose block with a vector. -/
theorem wit_FaultsTaken :
    (has (here fun st => { st with tvec := 0x20000 }) k0 true [rd (.inl 5)] (fun v => !v.st.inHandler && v.st.tvec != 0)
      && has (here fun st => { st with inHandler := true }) k0 true [rd (.inl 5)] (fun v => v.st.inHandler)
      && has base k0 true [rd (.inl 5)] (fun v => v.st.tvec == 0)
      && has (here fun st => { st with tvec := 0x20000 }) k0 true [] (fun v => v.b.loose && !v.st.inHandler && v.st.tvec != 0)
      && has (here (fun st => { st with tvec := 0x20000 }) fun b => { b with loose := false }) k0 true [] fun v => !v.b.loose) = true := by decide

/-- In and out of a handler; with another allotment and without one, and in a loop. -/
theorem wit_HandlerExitRoleWordsComplete :
    (has (here fun st => { st with inHandler := true }) k0 true [] (fun v => v.st.inHandler && v.st.alt.isSome)
      && has base k0 true [] (fun v => !v.st.inHandler && v.st.alt.isSome && v.st.enclosing.isEmpty)
      && has (looping 2 []) k0 true [] (fun v => v.st.alt.isSome && !v.st.enclosing.isEmpty)
      && has (here fun st => { st with alt := none }) k0 true [] fun v => v.st.alt.isNone) = true := by decide

theorem wit_StepCounts : has base k0 true [] = true
    ∧ (match base.view k1 with | some v => v.threads.isEmpty | none => false) = true := by decide

/-! ## Witnesses: control and system words -/

/-- LOOP alone, inside an outer loop that holds it, with a count of 0, of one that is full, and one word too far; LBRK in a loop. -/
theorem wit_JumpAndLoopWordsComplete :
    let us (disp : Word) : List Use := [wr (.lc 1), rd (.inl 4), rd (.lit32 disp)]
    let outer : LoopSt := ⟨0, 0x10000, 0x10100⟩
    (has base k0 true [rd (.lit32 0x40)] && has base k0 true [rd2 (.s 20)] && has base k0 true [wrN (.s 40) 2, rd2 (.lit32 0x40)]
      && has base k0 true (us 0x0C) (fun v => v.st.enclosing.isEmpty && !v.st.inHandler && decide (v.word (.inl 4) v.leader ≠ 0)
          && decide (v.st.pc.toNat + 0x0C + v.codeLen (v.st.pc + 0x0C) - (v.st.pc.toNat + 12) ≤ 2048))
      && has (here fun st => { st with loops := [outer] }) k0 true (us 0x100) (fun v => v.st.enclosing.all (fun l => l.ctr != 1)
          && decide (v.st.pc.toNat + 0x100 ≤ outer.last.toNat) && v.word (.inl 0) v.leader == 0)
      && has (here fun st => { st with loops := [outer] }) k0 true (us 0x108) (fun v => decide (outer.last.toNat < v.st.pc.toNat + 0x108))
      && has (here fun st => { st with loops := [outer, outer, outer] }) k0 true (us 0x0C) (fun v => decide (3 ≤ v.st.enclosing.length))
      && has (looping 2 []) k0 true [] fun v => !v.st.enclosing.isEmpty) = true := by decide

/-- A clasp free for INIT; one that awaits the strand, and one that does not; a table with an entry left and without; a time to come and one
passed; ranges within scratch; a loose strand with no cut and one at its cut's step; a fixed one before and in the last frame of its slice. -/
theorem wit_ClaspAndSystemWordsComplete :
    let clasp (k : Clasp) : State := here id fun b => { b with clasps := [(2, k)] }
    let entry : Blk → Blk := fun b => { b with table := smSet [] 8 7, tableN := 1 }
    let fixed (s : State) : State := s.modBlk 0 fun b => { b with loose := false }
    let cut : Cut := ⟨[0], 0, 0, 0, 0, true, false⟩
    (has (clasp ⟨0, 0, 0, 0, 0⟩) k0 true [rd (.inl 2), rd (.inl 1), rd (.inl 0)] (fun v => v.b.slots.all (fun st => !st.waitsAt 2)
        && match v.b.slots[0]? with | some st => st.ended.isNone | none => false)
      && has (clasp ⟨1, 0, 0, 0, 0⟩) k0 true [rd (.inl 2), rd (.inl 40)] (fun v => v.mayArrive 2 ⟨1, 0, 0, 0, 0⟩)
      && has (clasp ⟨2, 0, 0, 0, 0⟩) k0 true [rd (.inl 2)] (fun v => !v.mayArrive 2 ⟨2, 0, 0, 0, 0⟩)
      && has (clasp ⟨1, 1, 0, 0, 0⟩) k0 true [rd (.inl 2), rd (.inl 40)] (fun v => !v.mayArrive 2 ⟨1, 1, 0, 0, 0⟩ && v.core.claspQ.isEmpty)
      && has (clasp ⟨1, 1, 0, 0, 0⟩) k0 true [rd (.inl 2), rd (.inl 1), rd (.inl 16)] (fun v => decide (16 ≤ (v.word (.inl 16) v.leader).toNat)
        && match v.b.slots[1]? with | some st => st.ended.isSome | none => true)
      && has (clasp ⟨0, 0, 0, 0, 0⟩) k0 true [rd (.inl 2), rd (.lit32 256), rd (.inl 0)] (fun v => decide (256 ≤ (v.word (.lit32 256) v.leader).toNat))
      && has (clasp ⟨0, 0, 0, 0, 0⟩) k0 true [rd (.inl 3), rd (.inl 1), rd (.inl 0)] (fun v => (aGet v.b.clasps 3).isNone)
      && has (clasp ⟨0, 0, 0, 0, 0⟩) k0 true [rd (.inl 3)] && has (clasp ⟨0, 0, 0, 0, 0⟩) k0 true [rd (.inl 3), rd (.inl 40)]
      && has base k0 true [wrN (.s 4) 2] (fun v => v.b.cursor == v.b.tableN) && has (here id entry) k0 true [wrN (.s 4) 2] (fun v => v.b.cursor != v.b.tableN)
      && has base k0 true [rd2 (.s 4)] (fun v => decide ((v.quad false (.s 4) v.leader).toNat ≤ base.accord + 1))
      && has base k0 true [rd2 (.lit64 0x1000)] (fun v => decide (base.accord + 1 < (v.quad false (.lit64 0x1000) v.leader).toNat))
      && has base k0 true [rd (.s 12), rd2 (.lit64 0x0807)] (fun v => (base.cutFor v.c).isNone
        && (premRanges 1 0x0807).all fun r => decide ((r.extractLsb' 8 8).toNat + (r.extractLsb' 0 8).toNat + 1 ≤ 256))
      && has { base with host := { base.host with cut := some cut } } k0 true [rd (.s 12), rd2 .none] (fun v =>
        match ({ base with host := { base.host with cut := some cut } } : State).cutFor v.c with | some k => v.st.stepcnt.toNat == k.target | none => false)
      && has (fixed base) k0 true [rd (.s 12), rd2 .none] (fun v => !v.b.loose && !(fixed base).lastFrame)
      && has (runs (fixed base) part1) k0 true [rd (.s 12), rd2 .none] (fun v => !v.b.loose && (runs (fixed base) part1).lastFrame)
      && has base k0 true [wr (.s 3), rd (.inl 0x44)] && has base k0 false [rd (.inl 0)] && has base k0 true [rd (.s 5)]) = true := by decide

/-! ## Witnesses: cross-lane, statistics and shape words -/

/-- A strand of one active thread with values in scalar registers. -/
def solo (s : List (Nat × Word)) (f : Strand → Strand := id) (g : Blk → Blk := id) (h : Core → Core := id) : State :=
  here (fun st => f { st with cur := { st.cur with am := 1, s := smWrites st.cur.s s } }) g h

theorem wit_ShflMovesValues : (has base k0 false [wr (.v 2), rd (.v 3), rd (.inl 0)] && has base k0 true [wr (.s 2), rd (.v 3), rd (.inl 0)]) = true := by
  decide

theorem wit_CrossLaneWordsComplete :
    let ok (s : State) (c : Ctl) (uni : Bool) (us : List Use) (g : Seg) (b : Opd) (carry : Bool) : Bool :=
      has s c uni us fun v => match v.segs g b carry with | .ok _ => true | .error _ => false
    (has base k0 false [wr (.v 3), rd (.v 4), rd .none] && has base k0 true [wr (.s 3), rd (.v 4), rd (.inl 2)]
      && has base k0 false [wr (.k 4), rd (.k 2)] && has base k0 false [wr (.v 4), rd (.k 2)] && has base k0 true [wr (.s 4), rd (.k 2)]
      && has base k0 true [wrN (.s 4) 3, rd (.k 2)]
      && ok base k0 false [wr (.v 6), rd (.v 5), rd (.k 2)] .pred (.k 2) false && ok base k0 true [wr (.s 5), rd (.v 3), rd .none] .none .none false
      && ok base k0 false [wr (.v 6), rd (.v 5), rd .none, rd (.s 8)] .none .none true
      && ok base k0 false [wrN (.v 10) 2, rd2 (.v 4), rd .none, rd2 (.s 20)] .none .none true
      && ok base k0 false [wr (.q 2), rd (.q 1), rd (.g 2)] .shape (.g 2) false) = true := by decide

theorem wit_FixedOrdersFold : (∀ x y z : Word, (x + y) + z = x + (y + z)) ∧ [some (1 : Word), none, some 2].length ≤ 96 ∧ 2 < 3 :=
  ⟨fun x y z => BitVec.add_assoc x y z, by decide, by decide⟩

theorem wit_StatisticsWordsComplete :
    (has base k0 false [wr (.q 1), rd (.v 3)] && has base k0 false [wr (.q 1), rd (.q 1), rd (.v 3)]
      && has base k0 false [wr (.q 1), rd (.q 2), rd (.v 3), rd (.s 4)] && has base k0 false [wrN (.v 8) 4, rd (.q 2), rd (.inl 1)]
      && has base k0 true [wrN (.s 8) 4, rd (.q 2), rd (.inl 1)]
      && has base k0 false [wr (.v 4), rd (.v 5), rd (.q 2), rdN (.s 10) 3] (fun v => runsOnce (.v 4) == false && (v.st.getG 5).valid)
      && Tri.empty.st.getLsbD 3 && !(⟨0x3F800000, 0, 0, 0⟩ : Tri).st.getLsbD 3) = true := by decide

/-- A checked shape of three sequences of 3, 0 and 7 rows (R203), its window at 0. -/
def seqs : ShapeReg :=
  { ShapeReg.empty with fresh := false, seqs := 3, total := 10, pitch := 64, width := 32, format := 6, win := smWrites [] ((List.range 64).map fun k =>
      (k, if k = 0 then 0 else if k ≤ 2 then 3 else 10)) }

theorem wit_ShapeWordsComplete :
    let at_ (k : Word) : State := solo [(4, k)] fun st => { st with g := aSet st.g 2 seqs }
    (has (at_ 3) k0 true [rd (.s 4), rd (.s 5)] (fun v => decide ((v.word (.s 4) v.leader).toNat ≤ 63) && decide ((v.st.getG 2).w.toNat + 3 ≤ (v.st.getG 2).seqs.toNat))
      && has (at_ 63) k0 true [rd (.s 4), rd (.s 5)] (fun v => decide ((v.st.getG 2).seqs.toNat < (v.st.getG 2).w.toNat + (v.word (.s 4) v.leader).toNat))
      && has (at_ 64) k0 true [rd (.s 4), rd (.s 5)] (fun v => decide (63 < (v.word (.s 4) v.leader).toNat))
      && has (at_ 0) k0 true [rd (.s 5)]
      && has (at_ 0) k0 false [wr (.v 1), rd (.s 4)] (fun v => (v.doers (.v 1)).all fun t =>
          match (v.st.getG 2).query .pos (v.word (.s 4) t) with | .ok _ => true | .error _ => false)
      && has (at_ 0) k0 false [wr (.k 3)] fun v => (v.st.getG 2).valid && v.threads.all fun t => (v.st.getG 2).row t != .lost) = true := by decide

theorem wit_ShapeRows : seqs.consistent = true ∧ seqs.fresh = false ∧ seqs.packed 3 = .inSeq 2 3 10 3 ∧ seqs.packed 10 = .beyond := by decide

/-! ## Witnesses: words of scratch and memory -/

theorem wit_ScratchWordsComplete :
    let s := solo [(4, 0x40)]
    let at_ (v : View) : List (Nat × Nat) := v.threads.map fun t => (t, (v.word (.s 4) t + v.word .none t).toNat)
    let one (v : View) : Bool := match v.structured 16 (at_ v) with | .ok n => n == 1 | .error _ => false
    let held (v : View) : Bool := (at_ v).all fun p => decide (p.2 < scratchSize) && v.b.heldByte p.2 && !v.core.badTags.contains (p.2 / 64)
    let g (v : View) : Bool := match v.gathChecks 4 (v.threads.map fun t => (t, (v.word (.v 9) t + v.word (.s 4) t).toNat)) with
      | .ok _ => true | .error _ => false
    (has s k0 false [wr (.q 1), rd (.s 4), rd .none] (fun v => one v && (at_ v).all fun p => !v.core.badBytes p.2 16)
      && has s k0 false [rd (.s 4), rd .none, rd (.q 1)] one
      && has s k0 false [wr (.v 3), rd (.s 4), rd .none] held && has s k0 true [wr (.s 3), rd (.s 4), rd .none] held
      && has s k0 false [rd (.s 4), rd .none, rd (.s 5)] held
      && has s k0 false [wr (.v 8), rd (.v 9), rd (.s 4)] (fun v => g v && (v.threads.all fun t => !v.core.badBytes (v.word (.v 9) t + v.word (.s 4) t).toNat 4))
      && has s k0 false [rd (.v 9), rd (.s 4), rd (.v 10)] fun v => g v && !v.threads.isEmpty) = true := by decide +kernel

theorem wit_PackWordsComplete :
    let good (v : View) : Bool := (v.blkFaults (v.word (.s 6) v.leader).toNat).isEmpty
    let s := here (fun st => { st with cur := { st.cur with s := smSet [] 6 0x80 } }) id fun k =>
      { k with stags := smWrites [] ((List.range 3).map fun i => (2 + i, mkTag 4 0 0)) }
    (has base k0 false [wr (.v 2), rdN (.v 4) 2, rd .none] && has base k0 true [wr (.s 2), rdN (.v 4) 2, rd .none]
      && has base k0 false [wrN (.v 4) 2, rd (.v 2), rd .none]
      && has s k0 false [rdN (.v 8) 2, rd (.s 6)] good
      && has s k0 false [wrN (.v 8) 2, rd (.s 6)] fun v => good v && v.beats.all fun beat =>
          let tag := smGet v.core.stags ((0x80 + 64 * beat) / 64)
          tagOk tag && tagFormat tag == pfmtCode .e4m3 && !v.core.badBlocks (0x80 + 64 * beat) 64) = true := by decide +kernel

/-- A scalar base of scratch, one active thread; and rows beyond the shape beside a row of scratch. -/
theorem wit_ScratchAccessesComplete :
    let s := solo [(11, 0xFE00_0000)]
    let ok (v : View) (d : Opd) : Bool :=
      let es := v.elems none d (.s 10) (.inl 16)
      let xs : List (Nat × Nat) := es.filterMap fun e => match e.2 with | .at_ x => some (e.1, x.toNat % 2 ^ 56) | _ => none
      es.all (fun e => match e.2 with | .at_ x => x == scratchAddr (x.toNat % 2 ^ 56) && decide (x.toNat % 2 ^ 56 < scratchSize) | _ => false)
        && (match v.structured 4 xs with | .ok n => n == 1 | .error _ => false) && xs.all fun p => !v.core.badBytes p.2 4
    (has s k0 false [wrN (.v 4) 1, rd2 (.s 10), rd (.inl 16)] (fun v => ok v (.v 4))
      && has s k0 true [wrN (.s 4) 1, rd2 (.s 10), rd (.inl 16)] (fun v => ok v (.s 4))
      && has s k0 false [rdN (.v 4) 1, rd2 (.s 10), rd (.inl 16)] fun v => ok v (.v 4)) = true := by decide +kernel

/-- A scalar base in the placed page, one active thread, for a load and a store. -/
theorem wit_MemoryAccessesComplete :
    let s := solo [(10, 0x10000)]
    let ok (store : Bool) (v : View) : Bool :=
      let es := v.elems none (.v 4) (.s 10) (.inl 16)
      !es.isEmpty && es.all fun e => match e.2 with
        | .at_ x => (match (v.lookup 4 { w := store } true e.1 x).xl with | .ok _ => true | _ => false) | _ => false
    (has s k0 false [wrN (.v 4) 1, rd2 (.s 10), rd (.inl 16)] (ok false) && has s k0 false [rdN (.v 4) 1, rd2 (.s 10), rd (.inl 16)] (ok true)) = true := by
  decide +kernel

theorem wit_AtomicWordsComplete :
    let s := solo [(10, 0x10000)]
    let found (w : Nat) (d : Opd) (v : View) : Bool := !(v.doers d).isEmpty && (v.doers d).all fun t =>
      (v.lookup w { a := true } false t (v.quad false (.s 10) t)).xl == .ok ((v.quad false (.s 10) t).toNat)
    (has s k0 false (atomUses .add .u32 (.v 8) (.s 10) (.v 12)) (found 4 (.v 8)) && has s k0 true (atomUses .add .u64 (.s 8) (.s 10) (.s 12)) (found 8 (.s 8))
      && has s k0 false (atomUses .add .u32 .none (.s 10) (.v 12)) (fun v => found 4 .none v
        && ((ksScan (atomValue .add .u32 · · 0) ((List.range 96).map fun t => if v.on t then some (v.src .u32 (.v 12) t) else none))[95]?).any (·.isSome))
      && has s k0 false [wr (.q 1), rd2 (.s 10), rd (.q 2)] (found 16 (.q 1))) = true := by decide +kernel

/-- A state whose selected strand has all its threads and values in scalar registers. -/
def full (s : List (Nat × Word)) (f : Strand → Strand := id) (g : Blk → Blk := id) (h : Core → Core := id) : State :=
  here (fun st => f { st with cur := { st.cur with s := smWrites st.cur.s s } }) g h

/-- Addresses of the placed page, each its own key, all translated for a need. -/
def keyedB (v : View) (need : Need) (as : List Addr) : Bool :=
  as.all fun a => (match apertureOf a with | .glob _ => true | _ => false) && v.s.translate v.c v.b.asid a.toNat need == .ok a.toNat

def entireB (v : View) : Bool := v.threads == List.range v.st.threads

/-- SHLD, SHWIN with its table in the placed page, WAITA on a local word, FENCE; WAITT with its command landed and not;
LAUNCH with a code and with an entry for each core; a pair with and without LD. -/
theorem wit_WaitsLaunchPairComplete :
    let s := solo [(10, 0x10000)]
    let shaped := solo [(10, 16)] fun st => { st with g := aSet st.g 2 { seqs with seqs := 40, btab := 0x10000 } }
    let waits (land : Option Nat) := here fun st => { st with tl := smSet [] 0 1, eops := [⟨.copy, 1, 0, land, none⟩] }
    let launch (p : Part) : State := runs (full [(4, 10240), (6, 0x0100), (8, 0x10000)]) p
    let fields := [(0x38, 8, 0x1000), (0x40, 4, 1), (0x44, 4, 32), (0x1004, 4, 1), (0x4013, 1, 2), (0x108, 4, 10)]
    let check (s : State) (v : View) := s.launchCheck (dieOf v.c) 0 1 (v.quad false (.s 4) v.leader).toNat false
    (has s k0 true [wr (.g 2), rd2 (.s 10)] (fun v => (v.lineLookup (v.quad false (.s 10) v.leader)).xl == .ok 0x10000)
      && has shaped k0 true [wr (.g 2), rd (.s 10)] (fun v => let g := v.st.getG 2
          g.valid && decide (16 ≤ g.seqs.toNat) && (windowLines g.btab 16 g.seqs.toNat).all fun y => (v.lineLookup y).xl == .ok y.toNat)
      && has s k0 true [wr (.s 7), rd2 (.s 10), rd (.inl 1), rd (.inl 200)] (fun v =>
          (v.lookup 4 {} false v.leader (v.quad false (.s 10) v.leader)).xl == .ok 0x10000 && (lineHome (0x10000 / 64)).isNone)
      && has base k0 true []
      && has (waits (some 0)) k0 true [rd (.inl 1)] (fun v => v.st.eops.all fun o => o.fail.isNone && o.land == some 0 && decide (0 ≤ v.now))
      && has (waits none) k0 true [rd (.inl 1)] (fun v => v.st.eops.any fun o => o.land.isNone)
      && has (launch part1) k0 true [wr (.s 4), rd2 (.s 4), rd2 (.s 8), rd (.s 6)] (fun v => match check (launch part1) v with | .error _ => true | .ok _ => false)
      && has (launch (partOf fields)) k0 true [wr (.s 4), rd2 (.s 4), rd2 (.s 8), rd (.s 6)] (fun v =>
          match check (launch (partOf fields)) v with | .error _ => false | .ok es => es.length == 1)
      && has base ⟨false, false, 0⟩ false ((slotUses (.add false (.v 1) (.v 2)) ++ slotUses (.add false (.s 4) (.inl 1))).map fun u => { u with rd := false })
        (fun v => (v.slotBad (.add false (.v 1) (.v 2))).isEmpty && (v.slotBad (.add false (.s 4) (.inl 1))).isEmpty)
      && has base ⟨false, false, 0⟩ false ((slotUses (.ld (.v 2) (.s 6)) ++ slotUses (.fadd (.v 5) (.v 6))).map fun u => { u with rd := false }) fun v =>
          (v.slotBad (.ld (.v 2) (.s 6))).isEmpty && (v.slotBad (.fadd (.v 5) (.v 6))).isEmpty && match slotLd (.ld (.v 2) (.s 6)) with
          | some (p, o) => (match v.structured 4 ((v.doers p).map fun t => (t, (v.word o t).toNat)) with | .ok n => n == 1 | .error _ => false)
          | none => false) = true := by decide +kernel

/-- A core whose scratch and crown hold tiles of a format. -/
def tiled (k : Core) : Core :=
  { k with stags := smWrites [] ((List.range 96).map fun i => (i, mkTag 2 0 0)), ctags := smWrites [] ((List.range 32).map fun i => (i, mkTag 2 0 0)) }

def goodTagB (bad : Bool) (accepts : Byte → Bool) (t : Tag) : Bool := !bad && tagOk t && accepts (tagFormat t)
def goodTileB (b : Blk) (k : Core) (cls : MClass) (off : Nat) (rows : List Nat) : Bool :=
  b.oneSegment off 2048 && off % 64 == 0 && rows.all fun i => goodTagB (k.badTags.contains (off / 64 + i)) (mAccepts cls) (smGet k.stags (off / 64 + i))
def goodCrownB (b : Blk) (k : Core) (cls : MClass) (slot : Nat) : Bool :=
  b.heldSlot slot && !k.badCrownData slot && (List.range 32).all fun j => goodTagB (k.badCrownTag slot j) (mAccepts cls) (k.crownTag slot j)

/-- The same block on the three cores of trio 0. -/
def trio0 : State :=
  let s := full [] id id tiled
  (s.setCore 1 (s.core 0)).setCore 2 (s.core 0)

/-- MMA, MMAG with a group table of zeros, MMA.TRIO; MLDA of FP32 tags, MZERO, MDRN of a W16 accumulator as FP32, with .T and .CLR too. -/
theorem wit_MatrixWordsComplete :
    let s := full [] id id tiled
    let g : ShapeReg := { seqs with flags := 1, gtab := BitVec.ofNat 64 (0xFE * 2 ^ 56 + 0x4000) }
    let grouped := full [] (fun st => { st with g := aSet st.g 2 g }) id tiled
    let f32 : Core → Core := fun k => { k with stags := smWrites [] ((List.range 64).map fun i => (i, mkTag 1 0 0)) }
    let drains (t : Bool) : State := full [(6, 0x10000)] id id fun k => { k with scratch := smWrites [] ([(0x10008, 1)] ++ if t then [(0x10005, 0x20), (0x10009, 2)] else []) }
    let dr (v : View) (t : Bool) : Drain := v.drain false t t false false 0 0x10000 none
    let okDrain (t : Bool) (v : View) : Bool := entireB v && v.b.okScratch 0x10000 64 && !v.core.badBytes 0x10000 64 && !(dr v t).bad v.st.cur.nq v.st.threads
      && (dr v t).held v.b && !v.drainUnc (dr v t) && (layoutAccs (dr v t).layout 0).all fun x => !v.core.inc.getLsbD x
    (has s k0 false [rd (.inl 0), rd (.inl 0)] (fun v => entireB v && !v.core.inc.getLsbD 0 && decide ((v.word (.inl 0) v.leader).toNat ≤ 127)
        && goodTileB v.b v.core .w16 0 (List.range 32) && goodCrownB v.b v.core .w16 0)
      && has grouped k0 false [rd (.inl 0)] (fun v => let g := v.st.getG 2
          let rows := (List.range 32).filter fun i => g.row i != .beyond
          entireB v && g.valid && g.flags.getLsbD 0 && goodTileB v.b v.core .w16 0 rows && rows.all fun i => match g.row i with
            | .inSeq j _ _ _ => let e := g.gtab.toNat % 2 ^ 56 + j
                decide (e < scratchSize) && v.b.heldByte e && !v.core.badBytes e 1 && goodCrownB v.b v.core .w16 (smGet v.core.scratch e).toNat
            | _ => false)
      && has trio0 k0 false [rd (.inl 0), rd (.inl 0), rd (.inl 2)] (fun v => entireB v && (trioCores v.c).all fun x => match (trio0.core x).blk with
          | some y => (aGet y.clasps 2).isSome && !(trio0.core x).inc.getLsbD 0 && goodTileB y (trio0.core x) .w16 0 (List.range 32) && goodCrownB y (trio0.core x) .w16 0
          | none => false)
      && has (full [] id id f32) k0 false [rd (.inl 0)] (fun v => entireB v && v.b.heldRange 0 4096 && !v.core.badBytes 0 4096
          && (List.range 64).all fun i => goodTagB (v.core.badTags.contains i) (fun f => f == 0 || f == 1) (smGet v.core.stags i))
      && has base k0 false [] entireB
      && has (drains false) k0 false [rd (.s 6)] (okDrain false) && has (drains true) k0 false [rd (.s 6)] (okDrain true)) = true := by decide +kernel

/-- A tensor map of one row of 16 FP32 elements; in window mode the same data as one pixel. -/
def mapAt (mode : Nat) : List (Nat × Byte) :=
  let u (o n x : Nat) : List (Nat × Byte) := addressed (0x100 + o) (bytesOf n x)
  u 0 8 0x10000 ++ u 8 1 1 ++ u 9 1 4 ++ u 0xA 1 mode ++ u 0xC 1 1 ++ (List.range 5).flatMap (fun i => u (0x10 + 4 * i) 4 (if i = 0 then 16 else 1))
    ++ (List.range 5).flatMap (fun i => u (0x48 + 2 * i) 2 (if i = 0 then 16 else 1))
    ++ u 0x52 4 0x01010101 ++ u 0x58 4 0x00010001

/-- CPY.1D, .2D with and without a shape, .TM in both modes, each into scratch from the placed page, .1D out with a flag; CPYB from scratch
and from memory. -/
theorem wit_CopyWordsComplete :
    let scr := (11, (0xFE00_0000 : Word))
    let flagged := full [(8, 2), (14, 0x10100), (12, 0x10000), scr]
    let src := full [(12, 0x10000), scr, (16, 0x0001_0002), (17, 64), (18, 64)]
    let shaped := full [(12, 0x10000), scr, (16, 0x0001_0002), (17, 64), (18, 64), (19, 2)] fun st => { st with g := aSet st.g 2 seqs }
    let tm (mode : Nat) := full ((if mode = 1 then [(18, 1)] else []) ++ [(4, 0x100), scr]) id id fun k => { k with scratch := smWrites [] (mapAt mode) }
    let blocksOk (into : Bool) (v : View) (xs : List (Nat × Option Addr)) : Bool :=
      xs.all (fun p => decide (p.1 + 64 ≤ scratchSize) && v.b.heldByte p.1 && v.b.heldByte (p.1 + 63)) && keyedB v { w := !into } (xs.filterMap (·.2))
    let dst (v : View) := v.quad false (.s 10) v.leader
    let from_ (v : View) := v.quad false (.s 12) v.leader
    let map (mode : Nat) (v : View) : Bool := let m := readMap v.core.scratch 0x100
      (match apertureOf (dst v) with | .scratch _ => true | _ => false) && v.b.heldRange 0x100 128 && !v.core.badBytes 0x100 128
        && !m.bad false (v.group (.s 16) 0).toInt && m.window == (mode == 1) && (v.group (.s 16) 2).toNat == mode
    (has src k0 true [rd2 (.s 10), rd2 (.s 12), rd (.inl 2)] (fun v => match copySides (dst v) (from_ v) with
        | some (off, g, into) => into && blocksOk into v ((List.range 2).map fun k => (off + 64 * k, some (g + BitVec.ofNat 64 (64 * k)))) | none => false)
      && has flagged k0 true (rd2 (.s 12) :: rd2 (.s 10) :: groupUses (.s 8) true [0]) (fun v => match copySides (from_ v) (dst v), v.flagOf true (.s 8) with
        | some (off, g, into), some f => !into && blocksOk into v ((List.range 2).map fun k => (off + 64 * k, some (g + BitVec.ofNat 64 (64 * k))))
            && f.addr.toNat % 4 == 0 && keyedB v { w := true } [f.addr] && v.st.accsLanded v.now v.seq true
        | _, _ => false)
      && has src k0 true (rd2 (.s 10) :: rd2 (.s 12) :: groupUses (.s 16) false [0, 1, 2]) (fun v => match copySides (dst v) (from_ v) with
        | some (off, x, into) => let bl := copy2d none off x into 2 1 64 64; bl.2.isEmpty && !bl.1.isEmpty && blocksOk into v bl.1 | none => false)
      && has shaped k0 true (rd2 (.s 10) :: rd2 (.s 12) :: groupUses (.s 16) false [0, 3]) (fun v => !v.badGroup (.s 16) [1] && let g := v.st.getG ((v.group (.s 16) 3).extractLsb' 0 3).toNat
        match copySides (dst v) (from_ v) with
        | some (off, x, into) => let bl := copy2d (some (g, .pack)) off x into 2 1 64 64; g.valid && bl.2.isEmpty && blocksOk into v bl.1 | none => false)
      && has (tm 0) k0 true (rd2 (.s 10) :: rd (.s 4) :: groupUses (.s 16) false [0, 1, 2]) (fun v => map 0 v && !v.badGroup (.s 16) [3, 4]
        && blocksOk true v ((readMap v.core.scratch 0x100).blockMode 0 ((List.range 5).map fun i => (v.group (.s 16) i).toInt)))
      && has (tm 1) k0 true (rd2 (.s 10) :: rd (.s 4) :: groupUses (.s 16) false [0, 1, 2]) (fun v => map 1 v
        && keyedB v {} (((readMap v.core.scratch 0x100).windowMode 0 0 0 1).map (·.2)) && blocksOk true v [(0, none)])
      && has src k0 true [rd (.inl 5), rd2 (.s 10)] (fun v => v.b.heldSlot 5 && v.b.oneSegment 0 2048)
      && has src k0 true [rd (.inl 5), rd2 (.s 12)] fun v => v.b.heldSlot 5 && keyedB v {} ((List.range 32).map fun j => from_ v + BitVec.ofNat 64 (64 * j))) = true := by
  decide +kernel

/-- RROT between two offsets; SEND and RECV of a stream with one slot a frame; COLL with tree 64, without an entry, with one that is due, one
that has been fired and one that has passed. -/
theorem wit_ExchangeWordsComplete :
    let pod (more : List (Nat × Nat × Nat)) := partOf ([(0x12, 2, 2), (0x68, 8, 0x1000), (0x70, 4, 8), (0x74, 4, 2048), (0x1002, 2, 0x2001)] ++ more)
    let coll (frame : Nat) := runs (full [(10, 0x10000)]) (pod [(0x78, 8, 0x8000), (0x80, 4, 1), (0x84, 4, 32), (0x8000, 1, 5), (0x8008, 4, frame), (0x801C, 4, 64)])
    let us : List Use := [wr (.s 8), rd (.inl 5), rd (.inl 0), rd2 (.s 10)]
    let ready (v : View) : Bool := entireB v && keyedB v { w := true } [v.quad false (.s 10) v.leader]
    let fires (s : State) (f : Nat) : Bool := match s.part with
      | some p => (match (p.collEntries 5 s.sch.slice)[0]? with
          | some i => p.collFrame i == f && !s.firedAt 5 0 f | none => false)
      | none => false
    let again (s : State) : State := match s.part with
      | some p => s.fireChunk (p.chunk 5 0 0 0 (some 0x10000) none true)
      | none => s
    (has base k0 false [rd (.inl 0), rd (.s 5)] (fun v => entireB v && v.b.oneSegment 0 2048 && !v.core.badBlocks 0 2048)
      && has (runs (solo [(4, 0x0001_0001)]) (pod [])) k0 true [rd (.s 4), rd (.s 5), rd (.inl 9)] (fun v => let w := v.word (.s 4) v.leader
          decide (0 < xferN w) && decide (xferN w ≤ 4096) && w.extractLsb' 13 3 == 0#3 && xferPeer w != v.s.sch.pkgid && decide (xferPeer w < v.s.podSize)
            && (match v.s.part with | some p => !(p.streamSlots (xferChan w) (xferPeer w)).isEmpty | none => false) && v.b.oneSegment 0 (64 * xferN w))
      && has (full [(10, 0x10000)]) k0 false [wr (.s 8), rd (.inl 64), rd (.inl 0), rd2 (.s 10)] ready
      && has (full [(10, 0x10000)]) k0 false us (fun v => ready v && v.s.part.isNone)
      && has (coll 1) k0 false us (fun v => ready v && fires (coll 1) 1 && decide (v.s.accord ≤ 2048 * 1 - 1))
      && has (again (coll 1)) k0 false us (fun v => ready v && v.s.firedAt 5 0 1)
      && has { coll 0 with sch := { (coll 0).sch with tick := 100 } } k0 false us fun v => fires v.s 0 && decide (2048 * 0 - 1 < v.s.accord)) = true := by
  decide +kernel

/-! ## Witnesses: events of a core and of blocks -/

/-- The one entry of a list that a test accepts, and the others. -/
def oneB {α : Type} [DecidableEq α] (p : α → Bool) (l : List α) (x : α) (rest : List α) : Bool :=
  l.filter p == [x] && l.filter (fun y => !p y) == rest

/-- Pod tick 100. -/
def at100 (s : State) : State := { s with sch := { s.sch with tick := 100 } }

/-- A result due beside one that is not; a drain and a gather's store due beside later ones; a fill, a ring tile, an accumulator value; a
failed product of the core's own. -/
theorem wit_LandingsComplete :
    let p : Pend := ⟨1, some 100, true, [.v 1 0 7]⟩
    let q : Pend := ⟨2, some 101, true, [.v 2 0 7]⟩
    let s := at100 (here fun st => { st with pend := [p, q] })
    let w (row land : Nat) : SWrite := ⟨1, land, row, [(0, 5)], []⟩
    let f (land : Nat) : Fill := ⟨1, 0, 1, land, 3, [], [], false⟩
    let l (seq land : Nat) : AccLand := ⟨seq, land, 0, 0, [(0, 1)], seq == 1⟩
    let run : MRun := ⟨1, 60, 132, 0, 0, none, 0, 0, 1, 0x10000, .w16, [], [], [], [], [], 3, some 98, 0x40, false⟩
    let k := (at100 (here id id fun k => { k with
      swr := [w 3 100, w 3 101, w 4 99, w 4 102], fills := [f 100, f 132], accLands := [l 1 100, l 2 132], runs := [run]
      rings := [⟨1, 1, 60, 0, 1, 0x1000, true, false, false⟩], tiles := [⟨1, 60, false, [], []⟩] })).core 0
    (match s.blk 0, s.strand 0 0 with
      | some b, some st => oneB (Pend.due s.now) st.pend p [q] && b.slots.length == 1 && st.late.isEmpty && (s.core 0).vnt.isEmpty
          && (s.core 0).swr.isEmpty && (s.cutFor 0).isNone
      | _, _ => false) = true
    ∧ (oneB (fun x => x.row == 3 && decide (x.land ≤ 100)) k.swr (w 3 100) [w 3 101, w 4 99, w 4 102]
      && oneB (fun x => x.row == 4 && decide (x.land ≤ 100)) k.swr (w 4 99) [w 3 100, w 3 101, w 4 102]
      && oneB (fun x => decide (x.land ≤ 100)) k.fills (f 100) [f 132]
      && k.rings.length == 1 && k.tiles.length == 1 && decide (60 + 40 ≤ 100)
      && oneB (fun x => decide (x.land ≤ 100)) k.accLands (l 1 100) [l 2 132] && k.runs.all (fun r => decide (100 < r.land))
      && k.runs.find? (fun x => x.failed.isSome && !x.delivered) == some run && k.blk.any fun b => b.slots.all fun st => st.ended.isNone) = true := by
  decide +kernel

/-- A strand parked for its registers, for the region, at a WAITT; UNTIL whose time has come; WAITA at its deadline, its condition met and
not; a clasp's deadline that has passed. -/
theorem wit_ReleasesComplete :
    let parked (ws : List Wait) : State := at100 (here fun st => { st with waits := ws })
    let frees (ws : List Wait) (w : Wait) (rest : List Wait) : Bool :=
      match (parked ws).strand 0 0 with | some st => oneB ((parked ws).waitOver 0 st) st.waits w rest | none => false
    let waitt : Wait := .waitt .copy 0 0x10000 8 0
    (frees [.hold, .until 200] .hold [.until 200] && frees [.region] .region [] && frees [waitt] waitt []
      && ((parked [waitt]).strand 0 0).any (fun st => (waittFault (st.acquired .copy 0)).isNone)
      && oneB (fun w : Wait => match w with | .until t => decide (t ≤ (parked []).accord) | _ => false) [.until 100, .hold] (Wait.until 100) [.hold]
      && ((parked [.waita 0x10000 0 .eq none (some 100) 1 false 1]).strand 0 0).any (fun st => st.waits.length == 1)
      && waitaHolds .eq ((parked []).memWord 0x20000) 0 && !waitaHolds .ne ((parked []).memWord 0x20000) 0
      && ((parked [.clasp 2 (some 100) 0x10000 8 0]).strand 0 0).any (fun st => st.waits == [.clasp 2 (some 100) 0x10000 8 0])) = true := by
  decide +kernel

/-- Two clasps and four effects, one still to land: the first opens by its strand's arrival and releases it after its deadline, the second
waits for another; the same with the strand's own arrival still on its way. -/
theorem wit_ClaspOpens :
    let s (q : List ClaspLand) : State := at100 (here (fun st => { st with waits := [.clasp 2 (some 100) 0x10000 8 0] })
      (fun b => { b with clasps := [(2, ⟨1, 0, 1, 0, 0⟩), (3, ⟨3, 0, 0, 0, 0⟩)] }) fun k => { k with claspQ := q })
    let q : List ClaspLand := [⟨1, 100, 2, .arrive 0⟩, ⟨2, 100, 2, .hardware true⟩, ⟨3, 99, 3, .arrive 0⟩, ⟨4, 101, 2, .arrive 0⟩]
    let meets (s : State) : Bool := match (s.core 0).blk with
      | some b =>
        let word (x : ClaspLand) : Bool := decide (x.land ≤ s.now) && (match x.eff with | .hardware _ => false | _ => true)
        let seqs := ((s.core 0).claspQ.filter word).map (·.seq)
        b.clasps.map (·.1) == [2, 3] && (sortBy (fun n => n) seqs) == seqs && b.slots.all (fun st => st.waits.length == 1)
          && decide (100 < waveRelease (s.slopeOf 0) s.now 0)
      | none => false
    (meets (s q) && meets (s (q.take 3))) = true := by decide

/-- An entry of core 1 whose stages have landed, at its fire time; one with a result; one of fixed discipline whose stages are not done; one
ready for its stage 3; a block that is fresh and one that is not. -/
theorem wit_BlockStartsComplete :
    let adm (stage : Nat) (result : Option Nat) : Adm := { placedAdm 100 with stage := stage, landed := 99, result := result, recAt := 0x10000 }
    let s (a : Adm) : State := at100 (base.setCore 1 { Core.idle with adms := [a] })
    let fixed : Adm := { adm 2 none with record := smSet placedRecord 13 1 }
    let ready (s : State) (a : Adm) : Bool := (s.waitingAdms 1).head? == some a && !a.late && a.known && decide (a.fire ≤ s.accord)
      && (s.core 1).adms.find? (fun x => x.key == a.key) == some a
    (ready (s (adm 4 none)) (adm 4 none) && decide (99 < (s (adm 4 none)).now) && decide (recWords placedRecord ≤ 65536)
      && (s (adm 4 none)).coreFree 1 && recLoose placedRecord
      && ready (s (adm 9 (some 3))) (adm 9 (some 3)) == false && ready (s (adm 1 (some 3))) (adm 1 (some 3))
      && ready (s fixed) fixed && !recLoose fixed.record && decide (fixed.stage < 4)
      && ((s (adm 2 none)).newEntries 1).isEmpty && decide ((adm 2 none).fire ≤ (s (adm 2 none)).accord + (8192 - 2048 * 2))
      && ((adm 2 none).stageLines 1 3).all (fun x => decide (x < 2 ^ 57))
      && (match (s (adm 2 none)).pageKeys 1 0 {} ((adm 2 none).stageLines 1 3) with | .ok _ => true | _ => false)
      && decide ((adm 1 none).fire ≤ (s (adm 1 none)).accord + (8192 - 2048 * 1)) && ((adm 1 none).stageLines 1 2).all (fun x => decide (x < 2 ^ 57))
      && (match (s (adm 1 none)).pageKeys 1 0 {} ((adm 1 none).stageLines 1 2), (s (adm 1 none)).arenaKey 0 placedRecord 1 with
          | .ok _, .ok _ => true | _, _ => false)
      && (s (adm 0 none)).core 1 != Core.idle && (match (s (adm 0 none)).pageKeys 1 0 {} ((adm 0 none).stageLines 1 1) with | .ok _ => true | _ => false)
      && ((here id fun b => { b with fresh := true }).blk 0).any (fun b => b.fresh) && (base.blk 0).any fun b => !b.fresh) = true := by decide +kernel

/-- A strand that ended four cycles ago by a fault; by EXIT, with no engine operation, with one that failed beside one that did not, and with
one still out; a block before and after its exit cycle. -/
theorem wit_BlockEndsComplete :
    let e (byExit : Bool) : Ending :=
      { at_ := 96, region := 0, code := 1, beats := 7, byExit := byExit, word := 0x10000, departed := false, stored := false }
    let s (byExit : Bool) (ops : List EngOp) : State :=
      at100 (here (fun st => { st with ended := some (e byExit), eops := ops }) fun b => { b with record := smSet b.record 0x42 1 })
    let ends (byExit : Bool) (ops : List EngOp) : Bool := match (s byExit ops).blk 0, (s byExit ops).strand 0 0 with
      | some b, some st => st.ended == some (e byExit) && st.eops == ops && decide (96 + 4 ≤ (s byExit ops).now) && b.exitAt.isNone
          && decide (smNat b.record 0x40 8 + 64 * 0 < 2 ^ 57)
          && (match (s byExit ops).pageKey 0 b.asid (smNat b.record 0x40 8 + 64 * 0) { w := true } with | .ok _ => true | _ => false)
      | _, _ => false
    (ends false [] && ends true [] && ends true [⟨.copy, 1, 1, some 100, some (.apert, 0x40)⟩, ⟨.ring, 1, 2, some 97, none⟩]
      && ends false [⟨.copy, 1, 1, none, none⟩]) = true
    ∧ ((here id fun b => { b with exitAt := some 5 }).blk 0).any (fun b => b.exitAt == some 5) = true := by decide +kernel

/-! ## Witnesses: commits, records and the fabric -/

/-- An operation of slot 0 of core 0 that holds some lines for the running commit. -/
def opOf (carry : List Nat) : MemOp where
  seq := 1
  col := 0
  key := 1
  acc := 1
  todo := []
  carry := carry
  carried := true
  flag := none
  carryFlag := false
  acqPod := false
  reads := false
  atEnd := false
  got := []
  writes := carry.map fun l => (64 * l, 7)
  narrow := false
  floor := 0
  wtags := []
  horizon := some 0
  keepHor := false
  atoms := []
  olds := []
  remote := []
  rland := none
  bad := []
  done := .nothing
  loose := true

/-- A commit's two parts, with two operations that write one line and with two that land, the second with a row-1 write due too; a stack's first failed line and a second; none of the strands waits for a
word. -/
theorem wit_CommitEventsComplete :
    let s (os : List MemOp) (m : List Nat) : State := { at100 base with ops := os, swept := m }
    let two : List MemOp := [{ opOf [1024] with seq := 2, horizon := some 9 }, opOf [1024, 1025]]
    (s two []).memoryOk ∧ (two.map fun o => (o.col, o.seq)).Nodup ∧ (∀ o ∈ two, o.col < 1536 ∧ o.carried = true) ∧ (s two []).marked 1 = false
      ∧ (∀ o ∈ two, o.reads = false ∧ o.atEnd = false ∧ o.atoms = [] ∧ o.flag = none ∧ o.wtags = [] ∧ o.done = .nothing)
      ∧ commitBefore (opOf [1024, 1025]) { opOf [1024] with seq := 2, horizon := some 9 } = true
      ∧ 1024 * 64 / 64 ∈ (opOf [1024]).carry ∧ (64 * 1024, 7) ∈ (opOf [1024]).writes
      ∧ (s [opOf [], { opOf [] with seq := 2 }] [1]).marked 1 = true ∧ 1 ≤ (opOf []).key ∧ (opOf []).key ≤ 8 ∧ base.host.rings = []
      ∧ (match base.blk 0 with | some b => b.slots.all fun st => st.waits.isEmpty | none => false) = true
      ∧ (base.cores.all fun p => p.2.swr.isEmpty) = true ∧ base.cores.length = 1
      ∧ oneB (fun x : SWrite => x.row == 1 && decide (x.land ≤ 100)) [⟨1, 100, 1, [], []⟩, ⟨2, 102, 3, [], []⟩] ⟨1, 100, 1, [], []⟩ [⟨2, 102, 3, [], []⟩] = true
      ∧ (∀ r ∈ [(3, 7)], r.1 ≠ 2) ∧ (3, 7) ∈ [(3, 7)] ∧ (3, 8) ∉ [(3, 7)] := by
  refine ⟨⟨rfl, rfl, rfl⟩, ?_⟩
  decide +kernel

/-- A record of line 1,024, stack 0, of package 1. -/
def recordFor (op mask aop : Nat) : HomeRec :=
  ⟨0, 5, 0, 1, 0, { recordOf 1024 op with mask := BitVec.ofNat 16 mask, aop := BitVec.ofNat 5 aop, data := 0x55 }, 1⟩

/-- A part that gives records one line of stack 0 in its period 0. -/
def shared1 : State := runs base (partOf [(0x48, 8, 0x1000), (0x1000, 4, 1), (0x1010 + 2 * 1536, 2, 1)])

theorem wit_HomeStoresComplete : shared1.memoryOk
    ∧ (aGet shared1.fab.ingress (stackOf 1024)).getD 0 < shared1.share (stackOf 1024) 1536 ∧ 1024 ∉ shared1.badLines
    ∧ base.share (stackOf 1024) 1536 ≤ (aGet base.fab.ingress (stackOf 1024)).getD 0 := by
  refine ⟨⟨rfl, rfl, rfl⟩, ?_⟩
  decide +kernel

/-- An ADD of word 15; an answer for the request that waits for it. -/
theorem wit_HomeAtomicsComplete : (recordFor 6 0x8000 0).body.mask = 1#16 <<< 15 ∧ (recordFor 6 0x8000 0).body.aop = 0 ∧ (recordFor 6 0x8000 0).body.width = 0
    ∧ (recordFor 6 0x8000 0).body.line.toNat ∉ shared1.badLines
    ∧ ({ opOf [] with remote := [⟨1, 1024, 0, true, some 3, none⟩] } : MemOp).isAtomic = ((recordFor 9 0 0).body.mask != 0)
    ∧ (recordFor 9 0 0).body.aop ≠ 31#5 := by decide +kernel

/-- A running part whose plane 0 uses slots 0 to 5 for timing, nothing, records of package 1, channel 0 to it, nothing and its reserve, and
slot 512 for its RESPs. -/
def wired (accord : Nat) : State :=
  let s := runs base (partOf [(0x12, 2, 2), (0x68, 8, 0x1000), (0x70, 4, 8), (0x74, 4, 2048), (0x1000, 2, 0x8000), (0x1004, 2, 0x4101), (0x1006, 2, 0x2001),
    (0x100A, 2, 0xA000), (0x1400, 2, 0x4101)])
  { s with sch := { s.sch with tick := accord, planes := 1, source := false } }

/-- The same with its queues changed. -/
def withFab (s : State) (f : Fabric → Fabric) : State := { s with fab := f s.fab }

def send1 : XSend := ⟨1, 0, 0, 1, 0, 0, 1, 0, 3, [(0, 0), (0, 0), (0, 0)], 1, false, true, none, []⟩
def plain (slot frame : Nat) (body : Body) : Flit := ⟨BitVec.ofNat 10 slot, BitVec.ofNat 12 frame, false, false, false, false, none, none, body⟩
def answer1 : OutRec := ⟨0, 1, true, 0, 0, 0, 1, 0, recordOf 1024 9, none, 0⟩

theorem wit_FlitSlotsComplete :
    (let s := wired 2048
     s.sch.planes.getLsbD 0 && s.sch.phase == .run && s.sch.raised.isEmpty && !s.sch.source && s.fab.naks.isEmpty && s.accord % 2 == 0) = true
    ∧ ((wired 2).slotUse 0 1).1 = 0 ∧ (wired 4).slotUse 0 2 = (2, 0x101) ∧ (wired 4).fab.recq = []
    ∧ (withFab (wired 1024) fun f => { f with recq := [answer1] }).slotUse 0 512 = (2, 0x101) ∧ 0x101 / 256 % 2 = 1 ∧ (wired 1024).accord % 2048 / 2 = 512
    ∧ answer1.plane = 0 ∧ answer1.peer = 0x101 % 256 ∧ answer1.resp = true ∧ answer1.mask.isNone = true
    ∧ (withFab (wired (2048 + 6)) fun f => { f with sends := [send1] }).slotUse 0 3 = (1, 1) ∧ send1.chan = 1 / 256 % 32 ∧ send1.peer = 1 ∧ send1.read = true ∧ send1.bad = false ∧ send1.left = 1
    ∧ send1.n = 3 ∧ send1.units.length = 3 ∧ send1.floors = [] ∧ send1.acc + 64 ≤ (wired (2048 + 6)).now ∧ ((withFab (wired 10) fun f => { f with replays := [(0, 5, plain 3 1 .idle)] }).slotUse 0 5).1 = 5
    ∧ ((wired 10).slotUse 0 5).1 = 5 ∧ (wired 10).fab.replays = [] := by decide +kernel

/-- A flit of slot 3 that arrives 162 cycles after it; a nak with a reserve slot left in the frame and one without. -/
theorem wit_FlitDeliveriesComplete :
    let s := wired (2048 + 6 + 162)
    let f := plain 3 1 (.stream [(0, 0)])
    (s.sch.planes.getLsbD 0 && f.slot.toNat == (s.accord + 2048 - 162) % 2048 / 2 && f.frame.toNat == s.accord / 2048 % 4096 && 162 ≤ s.accord % 2048
      && !s.sch.absent.getLsbD 1 && !f.fault && !f.ready && f.absent.isNone && f.nak.isNone && (s.slotUseIn 0 f.slot.toNat).1 == 1
      && (recordOf 1024 2).op.toNat != 0 && (recordOf 1024 2).op.toNat != 3 && (recordOf 1024 2).op.toNat != 4
      && (wired 8).reserveSlot 0 ((wired 8).hasDeadline 0 f) == some 5 && (wired 1000).reserveSlot 0 ((wired 1000).hasDeadline 0 f) == none
      && (wired 8).reserveSlot 0 true == some 5) = true := by decide +kernel

def recv1 (n : Nat) (flits : List StreamUnit) (land : Option Nat) : XRecv := ⟨1, 0, 0, 1, 0, 1, 0x40, n, flits, land, none⟩

/-- A void flit, one no RECV takes, one for a RECV of three blocks; the end of a period with nothing queued and with a RECV due. -/
theorem wit_StreamsComplete :
    let s := wired (2048 + 6 + 162)
    let f := plain 3 1 (.stream [(1, 0), (2, 0), (3, 0)])
    (f.body = .stream [(1, 0), (2, 0), (3, 0)] ∧ ({ f with body := .withheld } : Flit).body == .withheld ∧ ({ f with void := true } : Flit).void = true ∧ f.void = false ∧ s.fab.recvs = [])
    ∧ (recv1 3 [] none).chan = (s.slotUseIn 0 f.slot.toNat).2 / 256 % 32 ∧ f.frame.toNat = s.accord / 2048 % 4096 ∧ s.accord / 2048 = 1 ∧ 162 ≤ s.accord % 2048 ∧ s.sch.prior = none ∧ (recv1 3 [] none).flits.length + 1 = ((recv1 3 [] none).n + 2) / 3 ∧ (recv1 6 [] none).flits.length + 1 < ((recv1 6 [] none).n + 2) / 3
    ∧ (let y : StreamUnit := ⟨1, 2, 0, false, []⟩
       y.before ⟨1, f.slot.toNat, 0, false, []⟩ = true ∧ (recv1 6 [y] none).flits.length + 1 = ((recv1 6 [y] none).n + 2) / 3
         ∧ (recv1 6 [{ y with held := true }, y] (some 6143)).flits.any (·.held) = true)
    ∧ s.sch.phase = .run ∧ s.fab.home = [] ∧ s.sch.source = false ∧ s.fab.discarded = 0
    ∧ (let u : StreamUnit := ⟨1, 3, 0, false, [(1, 0), (2, 0), (3, 0)]⟩
       let x := recv1 1 [u] (some 6143)
       x.flits = [u] ∧ u.held = false ∧ x.land = some 6143 ∧ 6143 ≤ (wired 6143).now ∧ x.n = 1 ∧ u.units.length = 3) := by decide +kernel

/-- A descriptor of ring 0 on port 0: put or get of one byte of the placed page, its completion there too; one of an unknown op, one
of no bytes, and one for a port that is down. -/
def desc1 (op : Nat) : Desc := ⟨7, 0, img [(0, 1, op), (8, 8, 0x10000), (0x18, 8, 1), (0x20, 8, 0x10100)], 0, 0⟩
def queued (d : Desc) : State := { base with host := { base.host with descs := [d], rings := img [(0x1E, 2, 1)] } }

/-- The bytes of a GET, of descriptor 7, carried by the running commit. -/
def arriving : MemOp := { opOf [1024] with col := 1537, done := .complete 7 0, loose := false }

/-- A descriptor that stops, one that goes on, its completion with and without the GET's data under way, and the commit that lands it. -/
theorem wit_ScaleoutComplete :
    (!(queued (desc1 2)).completing 7 && ({ queued (desc1 2) with ops := [arriving] } : State).completing 7
      && smNat (desc1 2).bytes 0 1 == 2 && smNat (desc1 2).bytes 0x18 8 == 1 && smNat (desc1 1).bytes 0 1 == 1
      && (let s : State := { queued (desc1 2) with ops := [arriving], swept := [1], cores := [], host := { (queued (desc1 2)).host with rings := [] } }
          s.marked 1 && s.hostKey 0 0x10100 { w := true } == some 0x10100 && (s.host.descs.find? fun x => x.id == 7) == some (desc1 2))
      && arriving.carry.contains 1024 && arriving.writes == [(64 * 1024, 7)]) = true ∧
    ((queued (desc1 3)).hostKey 0 0x10100 { w := true } == some 0x10100 && (queued (desc1 3)).descBad (desc1 3) && (queued (desc1 3)).nextDesc 0 1 == some (desc1 3)
      && (let d := { desc1 2 with bytes := smSet (desc1 2).bytes 0x18 0 };
        (queued d).descBad d && (queued d).nextDesc 0 2 == some d)
      && (let s (n : Nat) := { queued (desc1 n) with plat := { base.plat with portDown := 1 } };
        (s 1).portLost (desc1 1) && (s 1).nextDesc 0 1 == some (desc1 1) && (s 2).portLost (desc1 2) && (s 2).nextDesc 0 2 == some (desc1 2))
      && !(queued (desc1 1)).portLost (desc1 1)
      && (queued (desc1 1)).host.descs.find? (fun x => x.id == 7) == some (desc1 1) && (queued (desc1 2)).hostKey 0 0x10000 { w := true } == some 0x10000
      && !(queued (desc1 1)).descBad (desc1 1) && (queued (desc1 1)).nextDesc 0 1 == some (desc1 1) && ((queued (desc1 1)).descLines (desc1 1) {}).isSome
      && (queued (desc1 2)).nextDesc 0 2 == some (desc1 2) && ((queued (desc1 2)).descLines (desc1 2) { w := true }).isSome
      && !(queued (desc1 2)).descBad (desc1 2) && !base.plat.portDown.getLsbD 9) = true := by decide +kernel

/-- Tree 5 of two members, its chunk 0 a BROADCAST from rank 0 that this package, rank 1, receives in frame 1. -/
def treed (tick : Nat) (chunks : List Chunk) : State :=
  let s := runs base (partOf [(0x12, 2, 2), (0x78, 8, 0x8000), (0x80, 4, 1), (0x84, 4, 32), (0x8000, 1, 5), (0x8001, 1, 0x20), (0x8002, 2, 1),
    (0x8008, 4, 1), (0x801C, 4, 64)])
  { s with
    sch := { s.sch with tick := tick }
    fab := { s.fab with trees := [⟨5, [1, 0], true, 0, none⟩], chunks := chunks, contribs := [⟨5, 0, 1, 0, 3, 0, [(9, mkTag 0 0 0)], false⟩] } }

def fired : Chunk := ⟨5, 0, 0, 1, 0x20, 1, 64, 0, some 0x10000, none, true, false, [], false, [1, 0], none⟩

/-- TREECREATE, TREEFREE and both changes of liveness; a chunk that was not fired and one, of ALLREDUCE, that was; a BROADCAST whose tree was
not live, and one that has come whole. -/
theorem wit_CollectivesComplete :
    (let req := img [(8, 1, 5), (0xA, 2, 2), (0x10, 8, 4)]
     let s : State := { base with host := { base.host with req := req, payload := img [(0, 1, 1)] } }
     smNat req 8 1 ≤ 63 ∧ s.fab.trees = [] ∧ (List.range 2).map (fun k => (smGet s.host.payload k).toNat) = [1, 0] ∧ s.sch.pkgid ∈ [1, 0] ∧ s.accord / 2048 + 4 ≤ smNat req 0x10 8)
    ∧ (let t (live : Bool) (freed : Option Nat) (tick : Nat) : Bool × Bool :=
         let x : Tree := ⟨5, [1, 0], live, 0, freed⟩
         (x.due ((treed tick []).accord / 2048), x.liveIn ((treed tick []).accord / 2048))
       t false none 0 = (false, false) ∧ t false none 2048 = (true, true) ∧ t true (some 2) 2048 = (false, true)
         ∧ t true (some 2) 4096 = (true, false))
    ∧ (let s (chunks : List Chunk) := treed 0 chunks
       let k := { fired with op := 0 }
       (s []).chunksAt 5 ((s []).accord / 2048 + 1) = [(0, 0)] ∧ (s []).part.any (fun p => p.collFrame 0 == 1) = true ∧ (s []).firedAt 5 0 1 = false
         ∧ k.sends = true ∧ ((s [k]).chunkLines 5 0 k.partAt 64 false).isSome = true ∧ (s [k]).badLines = [])
    ∧ (let s := treed 4096 [fired]
       fired.frame + 1 = s.accord / 2048 ∧ { fired with ranks := [] }.rankOf s.sch.pkgid ≠ some 1 ∧ fired.rankOf s.sch.pkgid = some 1 ∧ fired.op / 16 = 2
         ∧ fired.ranks[0]? = some 1 ∧ s.sch.absent.getLsbD 1 = false ∧ (s.contribution fired 0 1).isSome = true ∧ tagOk (mkTag 0 0 0) = true
         ∧ (s.chunkLines 5 0 0x10000 64 true).isSome = true)
    ∧ (let reduce : Chunk := { fired with op := 0, mine := [(3, mkTag 0 0 0)] }
       let gather : Chunk := { reduce with op := 0x10 }
       let s (k : Chunk) (cs : List Contrib) : State := withFab (treed 4096 [k]) fun f => { f with contribs := cs }
       let c (t : Tag) : Contrib := ⟨5, 0, 1, 0, 3, 0, [(9, t)], false⟩
       (s reduce [c (mkTag 0 0 0)]).contribution reduce 0 1 = some [(9, mkTag 0 0 0)] ∧ reduce.op / 16 = 0 ∧ gather.op / 16 = 1 ∧ reduce.void = false
         ∧ ((s gather [c (mkTag 0 0 0)]).chunkLines 5 0 (0x10000 + 1 * 64) 64 true).isSome = true ∧ (s reduce []).contribution reduce 0 1 = none
         ∧ (s reduce [c (mkTag 0 0 0 ^^^ 1)]).contribution reduce 0 1 = some [(9, mkTag 0 0 0 ^^^ 1)] ∧ tagOk (mkTag 0 0 0 ^^^ 1) = false) := by
  decide +kernel

theorem wit_CollectivesComplete_ranks : [1, 0].Nodup := by simp

/-! ## Witnesses: slices, resynchronisation, bring-up and the host -/

/-- A part of two slices of one frame each, with a power phase in frame 0. -/
def part2 : Part := partOf [(0x30, 4, 2), (0x58, 8, 0x800), (0x110, 8, 1), (0x118, 4, 1), (0x98, 8, 0x200), (0xA0, 4, 1), (0xA4, 4, 16), (0x208, 2, 7), (0x20A, 1, 3), (0x20C, 2, 0x0802)]

/-- A slice to commit with one after it and as the last; a vote that all are ready for, one that waits and one that has waited; a slice that
starts; a reference; a power phase; readings at the edges of the levels. -/
theorem wit_SlicesComplete :
    let s := runs base part2
    let voting (locked : Bool) (n : Nat) : State := { s with sch := { s.sch with locked := locked, idleVotes := n }, plat := { s.plat with step := 10 } }
    let ends (p : Part) : Bool := (List.range (p.section 5).2.1).all fun i => p.collField i 4 4 != 0 || p.collFrame i != 0
    let xs : List Nat := List.replicate 31 1519 ++ [1520]
    let next : State := { s with sch := { s.sch with active := false } }
    (s.sch.active && s.sch.heard.isEmpty && s.part == some part2 && (List.range 8).all (fun d => smNat part2.img ((part2.section 3).1 + 16 * d + 4) 4 == 0)
      && decide (s.sch.slice + 1 < part2.sliceCount) && decide (part1.sliceCount ≤ (runs base part1).sch.slice + 1) && (aGet s.sch.alts 9).isNone
      && (voting true 1).voteFrame && (voting true 1).allReady && (voting false 2).voteFrame && !(voting false 2).allReady
      && (voting false 3).voteFrame && !(voting false 3).allReady
      && next.sch.pending.isNone && next.sch.altReq.isNone && !next.sch.ended && part2.sliceFirst next.sch.slice == next.accord / 2048 && ends part2
      && xs.length == 32 && xs.contains 1520 && xs.all (fun y => decide (y ≤ 1520)) && !s.marked (65536 * 36 + 2) && !s.phaseBad 0
      && decide ((smNat part2.img ((part2.section 9).1 + 8) 4 : Int) < 5)
      && s.sch.source && s.accord % 2048 == 0 && part2.powerAt (s.accord / 2048) == [0] && !s.sch.absent.getLsbD 0
      && s.plat.level == 0 && (aGet { s.sch with alts := [(8, part1)] }.alts 8).isSome && s.sch.altReq.isNone && (aGet s.sch.alts 8).isNone
      && s.host.emerg.isNone && s.host.cut.isNone && s.looseCores == [0]) = true := by decide +kernel

/-- A fault detected in the run, beside another and in a halt; a loose block and a fixed one, with an operation of each; a fault before and in
the slice that has committed; plane 3 lost; the exchange with and without a part, in a slice and after a vote; a replay of a slice, of one whose
vote failed and of none; a fault whose selector names the cool alternate's stand-in, and one that halts; ABSENT at its limit. -/
theorem wit_ResyncComplete :
    let f : SFault := ⟨.stall, 0, 5, 0, 99, 100⟩
    let with_ (s : State) (g : Sched → Sched) : State := { s with sch := g s.sch }
    let s := with_ (at100 base) fun x => { x with raised := [f] }
    let fixed := base.modBlk 0 fun b => { b with loose := false }
    let stands := partOf [(0xB8, 8, 0x300), (0xC0, 4, 1), (0x302, 2, 0x0000), (0x10E, 2, 0)]
    let sync (p : Part) (sel : Nat) : State := with_ (runs base { p with img := smWrite p.img 0x302 (bytesOf 2 sel) })
      fun x => { x with faults := [f], alts := [(8, stands)], attempts := 2, recorded := some f }
    let late (n : Nat) : State := with_ (runs base stands) fun x =>
      { x with prior := some { base.sliceMark with frame := 4 }, faults := [{ f with frame := n }], phase := .fault }
    let vote (ended : Bool) (c : SCause) : State := with_ (runs base stands) fun x =>
      { x with active := false, ended := ended, faults := [{ f with cause := c, frame := 0 }] }
    let ops : State := { with_ (at100 base) (fun x => { x with phase := .fault }) with ops := [opOf [], { opOf [] with seq := 2, loose := false }] }
    (ops.ops.all (fun o => o.done == .nothing && o.remote.isEmpty && decide (o.col < 1536)) && ops.sch.phase == .fault
      && (firstFault ((late 5).sch.faults ++ (late 5).sch.heard)).any (fun x => decide (4 < x.frame))
      && (firstFault ((late 4).sch.faults ++ (late 4).sch.heard)).any (fun x => decide (x.frame ≤ 4))
      && (late 4).sch.active && (late 4).recordedFault == some { f with frame := 4 }
      && (vote false .vote).recordedFault == some { f with cause := .vote, frame := 0 } && !(vote false .vote).sch.ended
      && stands.sliceFirst 0 == (vote false .vote).accord / 2048 && (vote false .vote).sch.pending.isNone && (vote false .vote).sch.altReq.isNone
      && (vote true .stall).recordedFault == some { f with frame := 0 } && (vote true .stall).sch.ended && s.fab.owed.isEmpty
      && s.sch.raised == [f] && decide (f.tick ≤ s.now) && s.sch.phase == .run && (base.blk 0).any (fun b => b.loose) && (fixed.blk 0).any (fun b => !b.loose)
      && (with_ base fun x => { x with planes := 0xFF }).sch.planes == 0xFF && (0xF7 : BitVec 8) == ~~~(1#8 <<< 3)
      && State.reset.part.isNone && State.reset.cores.isEmpty && State.reset.sch.faults.isEmpty && State.reset.sch.heard.isEmpty
      && (sync stands 0x0100).part.isSome && (sync stands 0x0100).recordedFault == some f && (sync stands 0x0100).resolve f == .alternate (.alt 8)
      && stands.standIn (sync stands 0x0100).mainSlice == some 0
      && (match (sync stands 0x0000).resolve f with | .halt _ => true | _ => false)
      && (stands.section 5).2.1 == 0 && (sync stands 0x0100).sch.slice == 0
      && decide (8191 / 2048 < base.accord / 2048 + 4) && decide (base.accord / 2048 + 4 ≤ 4) && base.sch.source && decide (0 < base.podSize)) = true := by
  decide +kernel


/-- A part that INSTALL accepts, written from R39 to R47: one slice of one frame from frame 4, no launch entry, timing in slot 0 and
8 reserve slots on each plane. The header with its directory, the slice, the slot maps at 0x31C0, the replay policy at 0x7240. -/
@[irreducible] def good : SMap 8 :=
  [(0x0, 0x41), (0x1, 0x43), (0x2, 0x52), (0x3, 0x44), (0x4, 0x01), (0x12, 0x01), (0x15, 0x08), (0x19, 0x20), (0x20, 0x80), (0x21, 0x72), (0x29, 0x01), (0x30, 0x01), (0x34, 0x10), (0x38, 0x40), (0x39, 0x01)]
    ++ [(0x44, 0x20), (0x48, 0x40), (0x49, 0x72), (0x58, 0x40), (0x59, 0x31), (0x60, 0x08), (0x64, 0x10), (0x68, 0xC0), (0x69, 0x31), (0x70, 0x08), (0x75, 0x08), (0x78, 0xC0), (0x79, 0x71), (0x84, 0x20), (0x88, 0xC0)]
    ++ [(0x89, 0x71), (0x94, 0x10), (0x98, 0xC0), (0x99, 0x71), (0xA4, 0x10), (0xA8, 0xC0), (0xA9, 0x71), (0xB0, 0x0A), (0xB4, 0x08), (0xB8, 0x40), (0xB9, 0x72), (0xC0, 0x01), (0xC4, 0x20), (0x100, 0x04), (0x108, 0x01), (0x10E, 0xFF), (0x10F, 0xFF)]
    ++ ((List.range 8).flatMap fun q => (0x31C1 + 2048 * q, 0x80) :: (List.range 8).map fun n => (0x31C1 + 2048 * q + 2 * (1016 + n), 0xA0))
    ++ [(0x7240, 0x08)]

def goodPart : Part := ⟨0, good⟩

theorem goodPart_img : goodPart.img = good := rfl

/-- The state whose memory holds the part at address 0, which the request names. -/
def asked (t : Nat) : State :=
  { State.reset with
    mem := good, plat := { State.reset.plat with step := 10 }, host := { State.reset.host with req := smWrite [] 0x10 (bytesOf 8 t) } }

theorem smGet_absent {m : SMap 8} {a : Nat} (h : ∀ e ∈ m, e.1 ≠ a) : smGet m a = 0#8 := by
  induction m with
  | nil => rfl
  | cons e m ih =>
    simp only [List.mem_cons, forall_eq_or_imp] at h
    simp only [smGet, if_neg h.1, ih h.2, ite_self]

theorem smNat_two_absent {m : SMap 8} {a : Nat} (h : ∀ e ∈ m, e.1 < a ∨ a + 2 ≤ e.1) : smNat m a 2 = 0 := by
  have h0 : smGet m a = 0#8 := smGet_absent fun e he => by have := h e he; omega
  have h1 : smGet m (a + 1) = 0#8 := smGet_absent fun e he => by have := h e he; omega
  simp [smNat, smBytes, List.range, List.range.loop, h0, h1, leOf]

theorem smNat_four_absent {m : SMap 8} {a : Nat} (h : ∀ e ∈ m, e.1 < a ∨ a + 4 ≤ e.1) : smNat m a 4 = 0 := by
  have h0 : smGet m a = 0#8 := smGet_absent fun e he => by have := h e he; omega
  have h1 : smGet m (a + 1) = 0#8 := smGet_absent fun e he => by have := h e he; omega
  have h2 : smGet m (a + 2) = 0#8 := smGet_absent fun e he => by have := h e he; omega
  have h3 : smGet m (a + 3) = 0#8 := smGet_absent fun e he => by have := h e he; omega
  simp [smNat, smBytes, List.range, List.range.loop, h0, h1, h2, h3, leOf]

theorem good_holds : ∀ e ∈ good, e.1 < 0x140 ∨ 0x3140 ≤ e.1
    ∧ (e.1 < 0x31C0 ∨ 0x71C0 ≤ e.1 ∨ (e.1 - 0x31C0) % 2048 = 1 ∨ 2032 ≤ (e.1 - 0x31C0) % 2048) := by decide +kernel

theorem good_entries (c : Nat) (h : c < 1536) : goodPart.coreEntries c = (0, 0) := by
  have ho : (goodPart.section 1).1 = 0x140 := by decide +kernel
  simp only [Part.coreEntries, ho, Prod.mk.injEq, goodPart_img]
  exact ⟨smNat_four_absent fun e he => by have := good_holds e he; omega, smNat_four_absent fun e he => by have := good_holds e he; omega⟩

theorem good_slots (q n : Nat) (hq : q < 8) (hn : 1 ≤ n) (h : n < 1016) : goodPart.slotEntry q n = (0, 0) := by
  have ho : (goodPart.section 4).1 = 0x31C0 := by decide +kernel
  have hz : smNat good (0x31C0 + 2048 * q + 2 * n) 2 = 0 := smNat_two_absent fun e he => by have := good_holds e he; omega
  simp [Part.slotEntry, ho, goodPart_img, hz]

theorem good_header : goodPart.headerBad 0 false = false := by
  have h : (List.range 1536).all goodPart.entriesOk = true := List.all_eq_true.2 fun c hc => by
    simp [Part.entriesOk, good_entries c (List.mem_range.1 hc)]
  simp only [Part.headerBad, h]
  decide +kernel

theorem good_order : goodPart.orderBad = false := by
  simp only [Part.orderBad, Bool.or_eq_false_iff]
  refine ⟨by decide +kernel, List.any_eq_false.2 fun c hc => ?_⟩
  simp [Part.entriesOf, good_entries c (List.mem_range.1 hc), rising]

theorem good_slotmap : goodPart.slotmapBad = false := by
  simp only [Part.slotmapBad, Bool.or_eq_false_iff]
  refine ⟨List.any_eq_false.2 fun q hq => ?_, by decide +kernel⟩
  have hq := List.mem_range.1 hq
  have ends : ∀ q, q < 8 → (goodPart.slotEntry q 0).1 = 4 ∧ ¬ 1024 < goodPart.reserveFrom q + smNat goodPart.img (goodPart.section 9).1 2
      ∧ goodPart.slotBad q 0 = false ∧ ∀ k, k < 8 → goodPart.slotBad q (1016 + k) = false := by decide +kernel
  have he := ends q hq
  simp only [he.1, bne_self_eq_false, Bool.false_or, Bool.or_eq_true, decide_eq_true_eq, he.2.1, false_or, List.any_eq_true, List.mem_range, not_exists, not_and]
  intro n hn
  rcases Nat.eq_zero_or_pos n with h0 | h1
  · rw [h0, he.2.2.1]; decide
  · rcases Nat.lt_or_ge n 1016 with h | h
    · simp [Part.slotBad, good_slots q n hq h1 h]
    · have := he.2.2.2 (n - 1016) (by omega)
      rw [show 1016 + (n - 1016) = n by omega] at this
      rw [this]; decide

theorem good_late : goodPart.lateBad = false := by
  simp only [Part.lateBad, Bool.or_eq_false_iff]
  refine ⟨List.any_eq_false.2 fun c hc => ?_, by decide +kernel⟩
  simp [Part.entriesOf, good_entries c (List.mem_range.1 hc)]

theorem wit_BootComplete_install : smNat (asked 8192).host.req 0x10 8 = 8192
    ∧ (asked 8192).partAt (smNat (asked 8192).host.req 8 8) = goodPart
    ∧ (10 = (asked 8192).plat.step ∧ goodPart.headerBad (asked 8192).sch.pkgid false = false ∧ (asked 8192).altsOf goodPart = [] ∧ goodPart.hdr 0x18 8 = 8192
      ∧ goodPart.orderBad = false ∧ (asked 8192).overshare goodPart = false ∧ goodPart.slotmapBad = false ∧ ¬8192 < (asked 8192).accord + 8192
      ∧ goodPart.lateBad = false ∧ goodPart.noAlt [] = false)
    ∧ smNat (asked 8191).host.req 0x10 8 = 8191 ∧ (asked 8191).partAt (smNat (asked 8191).host.req 8 8) = goodPart ∧ 8191 < (asked 8191).accord + 8192 := by
  refine ⟨by decide, by decide +kernel, ⟨rfl, good_header, ?_, ?_, good_order, ?_, good_slotmap, ?_, good_late, ?_⟩, by decide, by decide +kernel, by decide⟩
    <;> decide +kernel

/-- A chunk of an image whose header stands: its last, of a payload of no bytes, and the same with another magic; one that would pass the
header's length. -/
def loading (magic have_ n last : Nat) : State :=
  { State.reset with
    plat := { State.reset.plat with image := img [(0, 4, magic), (4, 4, 1)], imageLen := have_, step := 3, findings := some ⟨true, true, 5, 16, [], [], [], [], [], some 0, 30, 512⟩ }
    host := { State.reset.host with req := img [(8, 4, have_), (0xC, 4, n), (0x10, 4, last)] } }

theorem wit_BootComplete_image :
    (let s := loading 0x574D524A 64 29792 1
     smNat s.host.req 8 4 = s.plat.imageLen ∧ smNat s.host.req 0xC 4 = 29792 ∧ smNat s.plat.image 0 4 = 0x574D524A ∧ smNat s.plat.image 8 4 = 0
       ∧ s.plat.imageLen + 29792 = 64 + 0 + 29792 ∧ s.plat.minVersion ≤ smNat s.plat.image 4 4 ∧ smNat s.host.req 0x10 4 % 2 = 1 ∧ s.host.payload = []
       ∧ s.plat.step = 3 ∧ s.plat.findings.isSome = true)
    ∧ smNat (loading 1 64 29792 1).plat.image 0 4 ≠ 0x574D524A
    ∧ (let s := loading 0x574D524A 64 16384 0
       s.plat.imageLen + 16384 ≤ 64 + smNat s.plat.image 8 4 + 29792 ∧ smNat s.host.req 0x10 4 % 2 = 0)
    ∧ (let s := loading 0x574D524A 64 29793 0
       64 + smNat s.plat.image 8 4 + 29792 < s.plat.imageLen + 29793 ∧ 12 ≤ s.plat.imageLen + 29793) := by decide +kernel

/-- Steps 4 to 8 not yet complete and all complete; findings without a failure, and with one of the stacks, of two trios of a die, and of pod
join. -/
theorem wit_BootComplete_steps :
    let f (fail : List Nat) (trios : List (Nat × Nat)) (tick : Option Nat) : BootFindings := ⟨true, true, 5, 16, [1], fail, trios, [2], [3], tick, 30, 512⟩
    let stands : Platform := { State.reset.plat with status := [(4, 1), (5, 1), (6, 2), (7, 1), (8, 1)] }
    (∀ n ∈ [4, 5, 6, 7, 8], State.reset.plat.complete n = false) ∧ (∀ n ∈ [4, 5, 6, 7, 8], stands.complete n = true)
      ∧ (f [0] [] none).hbmFail ≠ [] ∧ (f [] [(0, 1), (0, 2)] none).hbmFail = []
      ∧ (∃ x ∈ (f [] [(0, 1), (0, 2)] none).badTrios, 1 < ((f [] [(0, 1), (0, 2)] none).badTrios.filter fun y => y.1 == x.1).length)
      ∧ (¬∃ x ∈ (f [] [(0, 1)] none).badTrios, 1 < ((f [] [(0, 1)] none).badTrios.filter fun y => y.1 == x.1).length)
      ∧ (f [] [(0, 1)] none).podTick = none ∧ (f [] [(0, 1)] (some 7)).podTick = some 7 := by decide +kernel

/-- Rails that fail and rails and a link that do not; the next chunk and one out of place; a part that is refused. -/
theorem wit_BootComplete :
    let f (rails link : Bool) : BootFindings := ⟨rails, link, 5, 16, [], [], [], [], [], some 0, 30, 512⟩
    let req (l : List (Nat × Nat × Nat)) : State := { State.reset with host := { State.reset.host with req := img l } }
    ((f false true).rails = false ∧ (f true true).rails = true ∧ (f true true).link = true)
      ∧ (smNat (req [(0xC, 4, 5)]).host.req 8 4 = State.reset.plat.imageLen ∧ smNat (req [(0xC, 4, 5)]).host.req 0xC 4 = 5
        ∧ State.reset.plat.imageLen + 5 < 12 ∧ smNat (req [(0xC, 4, 5)]).host.req 0x10 4 = 0)
      ∧ smNat (req [(8, 4, 1)]).host.req 8 4 ≠ State.reset.plat.imageLen
      ∧ ((asked 0).partAt (smNat (asked 0).host.req 8 8) = goodPart ∧ goodPart.hdr 0x18 8 ≠ 0) := by
  refine ⟨by decide, by decide, by decide, by decide +kernel, by decide +kernel⟩

/-- STOP of a core with a loose block and with a fixed one; a cut of a core without a block, expired too; one whose strand is parked at its
target; no fixed block, one that is not parked, and one that is, with an area and without; no save area, and one to resume too soon and in time; EMERGCFG with a base and without. -/
theorem wit_PreemptionComplete :
    let req (s : State) (l : List (Nat × Nat × Nat)) : State := { s with host := { s.host with req := img l } }
    let cut (s : State) (k : Cut) : State := { s with host := { s.host with cut := some k } }
    let fixed := base.modBlk 0 fun b => { b with loose := false }
    let cores (s : State) : List Nat := (List.range 1536).filter fun c => (smGet s.host.req (8 + c / 8)).getLsbD (c % 8)
    let parked := (here fun st => { st with waits := [.prem 8 true 0 [] false false false], eops := [] })
    let saved (e : Option (Nat × Nat × Nat)) : State :=
      let s := parked.modBlk 0 fun b => { b with loose := false }
      { s with host := { s.host with emerg := e } }
    let area (flags core t : Nat) : State :=
      req { base with mem := img [(0, 4, 0x45564153), (4, 2, 1), (6, 2, flags), (0x14, 2, core)], plat := { base.plat with step := 10 } } [(0x18, 8, t)]
    let kept (t : Nat) : State := area 1 0 t
    let boundary : State := { area 9 0 8192 with sch := (runs (area 9 0 8192) (partOf [(0x30, 4, 2), (0x110, 8, 4), (0x118, 4, 1)])).sch }
    (cores (req base [(8, 1, 1)]) == [0] && (base.blk 0).any (fun b => b.loose) && (fixed.blk 0).any (fun b => !b.loose)
      && ((cut base ⟨[1], 7, 0, 0, 0, true, false⟩).core 1).blk.isNone && decide (0 ≤ base.now)
      && (match parked.blk 0 with
        | some b => b.loose && b.slots.all (fun st => (st.ended.isSome || st.atPrem && st.stepcnt.toNat == 0) && st.eops.isEmpty)
            && b.slots.any (fun st => st.ended.isNone)
        | none => false)
      && !(parked.blk 0).any (fun b => (parked.core 0).saveBad b) && ((parked.setCore 1 (parked.core 0)).blk 1).any (fun b => b.loose)
      && (cut (parked.setCore 1 (parked.core 0)) ⟨[0, 1], 0, 0, 64, 0, true, false⟩).host.cut.any (fun k => k.cores == [0, 1] && !k.saving)
      && fixed.fixedCores == [0] && (fixed.strand 0 0).any (fun st => st.ended.isNone && !st.atPrem) && base.fixedCores.isEmpty
      && (saved none).fixedCores == [0] && (saved none).host.emerg.isNone && (saved (some (0x1000, 64, 4))).fixedCores == [0]
      && ((saved (some (0x1000, 64, 4))).blk 0).any (fun b => b.slots.all (fun st => st.ended.isSome || st.atPrem)
        && !((saved (some (0x1000, 64, 4))).core 0).saveBad b)
      && smNat (area 0 0 8192).mem 6 2 % 2 == 0 && smNat (area 1 5 8192).mem 0x14 2 != smNat (area 1 5 8192).host.req 8 2
      && smNat (area 9 0 8192).mem 6 2 / 8 % 2 == 1 && !(area 9 0 8192).emptySliceAt 0 8192 && boundary.emptySliceAt 0 8192
      && decide (boundary.accord + 8192 ≤ 8192) && boundary.saveOk 0 0
      && (kept 8191).saveOk 0 0 && (kept 8192).saveOk 0 0 && smNat (kept 8191).host.req 0x18 8 == 8191
      && decide (8191 < (kept 8191).accord + 8192) && decide ((kept 8192).accord + 8192 ≤ 8192) && smNat (kept 8192).mem 6 2 / 8 % 2 == 0
      && smNat (req base [(8, 8, 0x1000)]).host.req 8 8 != 0 && smNat (req base []).host.req 8 8 == 0) = true := by decide +kernel

/-- An alert to post with room and with the queue full, and an XLATE event of a strand; a translation in a range, pinned and not; no strand parked on an event, and one,
whose page request is answered; a walk of a page; a page that stays and one that another package uses more. -/
theorem wit_MailboxComplete :
    let h (s : State) (f : HostIf → HostIf) : State := { s with host := f s.host }
    let q := h base fun x => { x with waiting := [(3, [], 0, 0)] }
    let full := h q fun x => { x with evp := 40, evc := 8 }
    let p : Page := ⟨5, 0x20000, 0x40000, 0x10000, none, false, true, false, false⟩
    let shoot (e : TlbEntry) : State := h { base with tlb := [e] } fun x => { x with req := img [(8, 2, 5), (0x10, 8, 0x2FFFF), (0x18, 8, 1)] }
    let parked (n : Option Nat) : State := here fun st =>
      { st with tvec := 0x20000, waits := [.xlate n 0x10000 8 { cause := .xlate, threads := [0] }] }
    let asks (b : Nat) : State := h (parked (some 0)) fun x => { x with req := img [(0xC, 1, b)] }
    let moving : State := h { base with pages := [p], tlb := [] } fun x => { x with migThreshold := 8, pageCounts := [((5, 0x20000), [(0, 2), (7, 9)])] }
    (q.host.waiting == [(3, [], 0, 0)] && q.host.evp - q.host.evc != 32 && full.host.evp - full.host.evc == 32
      && (shoot ⟨0, p, true⟩).tlb.any (fun e => e.page.asid == smNat (shoot e).host.req 8 2 && e.pinned
        && decide (e.page.va < smNat (shoot e).host.req 0x10 8 + smNat (shoot e).host.req 0x18 8)
        && decide (smNat (shoot e).host.req 0x10 8 < e.page.va + e.page.size))
      && (shoot ⟨0, p, false⟩).tlb.all (fun e => !e.pinned) && (base.parkedOn 0).isNone && base.host.pri.isEmpty && base.host.priWait.isEmpty
      && (parked (some 0)).parkedOn (smNat (parked (some 0)).host.req 8 4) == some (0, 0) && smNat (parked (some 0)).host.req 0xC 1 == 0
      && (asks 1).parkedOn (smNat (asks 1).host.req 8 4) == some (0, 0) && smNat (asks 1).host.req 0xC 1 != 0
      && ((asks 1).strand 0 0).any (fun st => !st.inHandler && st.tvec != 0)
      && (h (parked none) fun x => { x with pri := [(3, 0, 0, 1)] }).host.pri == [(3, 0, 0, 1)] && p.covers 5 0x2FFFF
      && ({ base with tlb := [], pages := [p], walks := [(0, 5, 0x2FFFF)] } : State).walks == [(0, 5, 0x2FFFF)]
      && (h (parked none) fun x => { x with waiting := [(1, [], 0, 0)] }).host.waiting == [(1, [], 0, 0)]
      && ({ base with pages := [p] } : State).migrationTo p == none && moving.migrationTo p == some 7) = true := by
  decide +kernel

/-- Host accesses that end at the edge of BAR2 and one byte beyond; a ring within its limits, one outside and one enabled; a size that no
register takes; the mailbox idle and busy; the last registers of each area. -/
theorem wit_HostAccessesComplete :
    let ring (n on : Nat) : State := { base with host := { base.host with rings := img [(0x18, 4, n), (0x1C, 2, 5), (0x1E, 2, 3), (0x20, 1, on)] } }
    (2 ^ 30 - 4) + 4 ≤ 2 ^ base.host.barLog ∧ base.host.hbwin.toNat / 2 ^ base.host.barLog * 2 ^ base.host.barLog + 2 ^ 30 ≤ 2 ^ 39
      ∧ 2 ^ base.host.barLog < (2 ^ 30 - 3) + 4 ∧ (ring 16 0).ringOk 0 = true ∧ smNat (ring 16 0).host.rings 0x20 1 % 2 = 0 ∧ (ring 15 0).ringOk 0 = false
      ∧ smNat (ring 16 1).host.rings 0x20 1 % 2 = 1
      ∧ ((2 ≠ 4 ∧ 2 ≠ 8) ∨ 0 % 2 ≠ 0) ∧ base.host.busy = false ∧ (1 : BitVec 64).getLsbD 0 = true ∧ (2 : BitVec 64).getLsbD 0 = false ∧ 248 % 8 = 0
      ∧ (2 ^ 24 - 8) % 8 = 0 ∧ 0x18 < 0x20 ∧ 0x18 % 8 = 0 ∧ 4095 < 4096 ∧ ({ base.host with busy := true } : HostIf).busy = true := by decide +kernel

/-! ## Values that the spec works out, or worked out by hand from a rule -/

/-- The strand after a word issues on a strand of one thread, its results landed. -/
def after (i : Instr) (v s : List (Nat × Word)) (q : List (Nat × Tri) := []) : Option Strand :=
  match exec i (solo s fun st => { st with cur := { st.cur with v := smWrites [] (v.map fun e => (96 * e.1, e.2)), q := q.map fun e => (96 * e.1, e.2) } }) with
  | .next t => (t.strand 0 0).map fun x => x.landAll x.pend
  | _ => none

/-- A word leaves a value in a vector register of thread 0. -/
def gives (i : Instr) (v : List (Nat × Word)) (n : Nat) (x : Word) : Bool := (after i v []).any fun st => st.cur.getV n 0 == x

/-- R363's example. -/
theorem test_bfi : gives (.bfi k0 .u32 (.v 1) (.v 2) (.v 3) (.v 4)) [(2, 0x5), (3, 0xFFFF0000), (4, 0x0304)] 1 0xFFFF0050 = true := by decide +kernel

/-- R364's example. -/
theorem test_bfx : gives (.bfx k0 .u32 (.v 1) (.v 2) (.v 3)) [(2, 0x68), (3, 0x0403)] 1 13 = true
    ∧ gives (.bfx k0 .i32 (.v 1) (.v 2) (.v 3)) [(2, 0x68), (3, 0x0403)] 1 0xFFFFFFFD = true := by decide +kernel

/-- R354's examples. -/
theorem test_abs : gives (.abs k0 .i32 false (.v 1) (.v 2)) [(2, 0x80000000)] 1 0x80000000 = true
    ∧ gives (.abs k0 .i32 true (.v 1) (.v 2)) [(2, 0x80000000)] 1 0x7FFFFFFF = true
    ∧ gives (.abs k0 .i8 false (.v 1) (.v 2)) [(2, 0x80FF0502)] 1 0x80010502 = true := by decide +kernel

/-- R355's example. -/
theorem test_add : gives (.add k0 .i8 true (.v 1) (.v 2) (.v 3)) [(2, 0x7F8005FE), (3, 0x01FF0301)] 1 0x7F8008FF = true
    ∧ gives (.add k0 .i8 false (.v 1) (.v 2) (.v 3)) [(2, 0x7F8005FE), (3, 0x01FF0301)] 1 0x807F08FF = true := by decide +kernel

/-- R412: 0 − 1 wraps, and saturates at 0 unsigned. -/
theorem test_sub : gives (.sub k0 .u32 false (.v 1) (.v 2) (.v 3)) [(2, 0), (3, 1)] 1 0xFFFFFFFF = true
    ∧ gives (.sub k0 .u32 true (.v 1) (.v 2) (.v 3)) [(2, 0), (3, 1)] 1 0 = true := by decide +kernel

/-- R368's examples; the pair is register 4 (low) and 5 (high). -/
theorem test_clz : gives (.clz k0 .u32 (.v 1) (.v 2)) [(2, 0x8000)] 1 16 = true ∧ gives (.clz k0 .u32 (.v 1) (.v 2)) [] 1 32 = true
    ∧ gives (.clz k0 .u64 (.v 1) (.v 4)) [(4, 1)] 1 63 = true := by decide +kernel

/-- R397: nine bits of 0xF0F00001 are 1. -/
theorem test_popc : gives (.popc k0 .u32 (.v 1) (.v 2)) [(2, 0xF0F00001)] 1 9 = true := by decide +kernel

/-- R401's example, and the 24-bit product: the low 24 bits of 0xFF000003 and 5 multiply to 15. -/
theorem test_mul : gives (.mul k0 .u32 true true (.v 1) (.v 2) (.v 3)) [(2, 0xFFFFFFFF), (3, 0xFFFFFFFF)] 1 0xFFFFFFFE = true
    ∧ gives (.mul k0 .u32 false false (.v 1) (.v 2) (.v 3)) [(2, 0xFF000003), (3, 5)] 1 15 = true := by decide +kernel

/-- R378's examples. -/
theorem test_dot4 : gives (.dot4 k0 true true false (.v 1) (.v 2) (.v 3) (.v 4)) [(2, 0x80807F7F), (3, 0x80807F7F), (4, 100)] 1 65126 = true
    ∧ gives (.dot4 k0 true true false (.v 1) (.v 2) (.v 3) (.v 4)) [(2, 0x80807F7F), (3, 0x80807F7F), (4, 2147483000)] 1 0x7FFFFFFF = true := by
  decide +kernel

/-- R412: an arithmetic shift by the width or more leaves sign bits, a logical one 0. -/
theorem test_shr : gives (.shr k0 .i32 (.v 1) (.v 2) (.v 3)) [(2, 0x80000000), (3, 40)] 1 0xFFFFFFFF = true
    ∧ gives (.shr k0 .u32 (.v 1) (.v 2) (.v 3)) [(2, 0x80000000), (3, 31)] 1 1 = true := by decide +kernel

/-- R369: −1 is less than 0 as signed, not as unsigned. -/
theorem test_cmp : gives (.cmp k0 .lt .i32 (.v 1) (.v 2) (.v 3)) [(2, 0xFFFFFFFF)] 1 1 = true
    ∧ gives (.cmp k0 .lt .u32 (.v 1) (.v 2) (.v 3)) [(2, 0xFFFFFFFF)] 1 0 = true := by decide +kernel

/-- R382's example. -/
theorem test_fclass : gives (.fclass k0 (.v 1) (.v 2) .none) [(2, 0x80000001)] 1 0x10 = true := by decide +kernel

/-- R386's examples: exact, tied to 0 with UF and NX, and overflowing. -/
theorem test_fscl : gives (.fscl k0 (.v 1) (.v 2) (.v 3)) [(2, 0x00800000), (3, 0xFFFFFFFF)] 1 0x00400000 = true
    ∧ gives (.fscl k0 (.v 1) (.v 2) (.v 3)) [(2, 0x00800000), (3, 0xFFFFFFE8)] 1 0 = true
    ∧ gives (.fscl k0 (.v 1) (.v 2) (.v 3)) [(2, 0x3F800000), (3, 128)] 1 0x7F800000 = true := by decide +kernel

/-- R120's example: the sine of 2³² is out of range. -/
theorem test_fsin : gives (.fsin k0 (.v 1) (.v 2)) [(2, 0x4F800000)] 1 0x7FC00000 = true := by decide +kernel

/-- R381: 0.1 + 0.2 rounds to 0x3E99999A; 1 ÷ 3 to 0x3EAAAAAB; the root of 2 to 0x3FB504F3; −2.5 to even is −2. -/
theorem test_fadd : gives (.fadd k0 (.v 1) (.v 2) (.v 3)) [(2, 0x3DCCCCCD), (3, 0x3E4CCCCD)] 1 0x3E99999A = true := by decide +kernel
theorem test_fdiv : gives (.fdiv k0 (.v 1) (.v 2) (.v 3)) [(2, 0x3F800000), (3, 0x40400000)] 1 0x3EAAAAAB = true := by decide +kernel
theorem test_fsqrt : gives (.fsqrt k0 (.v 1) (.v 2)) [(2, 0x40000000)] 1 0x3FB504F3 = true := by decide +kernel
theorem test_frnd : gives (.frnd k0 .ne (.v 1) (.v 2)) [(2, 0xC0200000)] 1 0xC0000000 = true
    ∧ gives (.frnd k0 .up (.v 1) (.v 2)) [(2, 0xBF000000)] 1 0x80000000 = true := by decide +kernel

/-- R192: 11,650,846 × 2⁻²² squared error terms come from one rounding each; d = 0x3FD55556 squares to 0x4031C71E. -/
theorem test_fmul : gives (.fmul k0 (.v 1) (.v 2) (.v 3)) [(2, 0x3FD55556), (3, 0x3FD55556)] 1 0x4031C71E = true := by decide +kernel

/-- R377's table: toward zero, saturating with IV, a NaN; and to nearest. -/
theorem test_cvt_zero : gives (.cvt k0 .tz .i8 .f32 (.v 1) (.v 2)) [(2, 0xC0600000)] 1 0xFD = true
    ∧ gives (.cvt k0 .tz .i8 .f32 (.v 1) (.v 2)) [(2, 0x4348B333)] 1 0x7F = true
    ∧ gives (.cvt k0 .tz .i8 .f32 (.v 1) (.v 2)) [(2, 0x7FC00000)] 1 0 = true := by decide +kernel
theorem test_cvt_nearest : gives (.cvt k0 .ne .i8 .f32 (.v 1) (.v 2)) [(2, 0xC0600000)] 1 0xFC = true := by decide +kernel

/-- R403 and R426: the word of BF16 1.0 and −2.5, both ways. -/
theorem test_pack : gives (.pack k0 .bf16 (.v 2) (.v 4) .none) [(4, 0x3F800000), (5, 0xC0200000)] 2 0xC0203F80 = true := by decide +kernel
theorem test_unpack : gives (.unpack k0 .bf16 (.v 4) (.v 2) .none) [(2, 0xC0203F80)] 4 0x3F800000 = true
    ∧ gives (.unpack k0 .bf16 (.v 4) (.v 2) .none) [(2, 0xC0203F80)] 5 0xC0200000 = true := by decide +kernel

/-- R192, R194: 5 applied to the triple of 2, 4 and 4 gives (4, 3.75, 4.75). -/
theorem test_stacc : (after (.stacc k0 (.q 1) (.q 1) (.v 3)) [(3, 0x40A00000)] [] [(1, ⟨0x40400000, 0x40555555, 0x402AAAAB, 0⟩)]).any
    (fun st => st.cur.getQ 1 0 == ⟨0x40800000, 0x40700000, 0x40980000, 0⟩) = true := by decide +kernel

/-- R192: the merge of the triple of 2, 4 and 4 with the one of 5 gives M2 = 0x40980001. -/
theorem test_stmrg : (after (.stmrg k0 (.q 1) (.q 2) (.q 3)) [] [] [(2, ⟨0x40400000, 0x40555555, 0x402AAAAB, 0⟩), (3, ⟨0x3F800000, 0x40A00000, 0, 0⟩)]).any
    (fun st => st.cur.getQ 1 0 == ⟨0x40800000, 0x40700000, 0x40980001, 0⟩) = true := by decide +kernel

/-- R418's example. -/
theorem test_stfin : (after (.stfin k0 (.v 8) (.q 2) (.lit32 0x40340000)) [] [] [(2, ⟨0x40800000, 0x40700000, 0x40980000, 0⟩)]).any
    (fun st => [8, 9, 10, 11].map (fun n => st.cur.getV n 0) == [0x40700000, 0x3F980000, 0x3FCAAAAB, 0x3F000000]) = true := by decide +kernel

/-- R395: a strand with no active thread reduces to the identity of ADD.F32, −0. -/
theorem test_lred_empty : (match exec (.lred k0 .none .fadd (.s 5) (.v 3) .none) (here fun st => { st with cur := { st.cur with am := 0 } }) with
    | .next t => (t.strand 0 0).any fun st => (st.landAll st.pend).cur.getS 5 == 0x80000000 | _ => false) = true := by decide +kernel

end Sys2Proof.Tests
end

section
/-! PROOFS. Bytes of storage as little-endian numbers (R4): how runs of bytes compose, and what is read back after a write. -/

namespace Sys2Proof.Machine
open Sys2Proof

@[simp] theorem length_smBytes (m : SMap 8) (a n : Nat) : (smBytes m a n).length = n := by simp [smBytes]

@[simp] theorem length_bytesOf (n x : Nat) : (bytesOf n x).length = n := by
  induction n generalizing x with
  | zero => rfl
  | succ n ih => simp [bytesOf, ih]

theorem leOf_append (xs ys : List Byte) : leOf (xs ++ ys) = leOf xs + 256 ^ xs.length * leOf ys := by
  induction xs with
  | nil => simp [leOf]
  | cons x xs ih =>
    rw [List.cons_append, leOf, ih, leOf, List.length_cons, Nat.pow_succ', Nat.mul_add, Nat.mul_assoc, Nat.add_assoc]

/-- The low n bytes of a number hold its value modulo 256^n. -/
theorem leOf_bytesOf (n x : Nat) : leOf (bytesOf n x) = x % 256 ^ n := by
  induction n generalizing x with
  | zero => simp [bytesOf, leOf, Nat.mod_one]
  | succ n ih =>
    rw [bytesOf, leOf, ih, BitVec.toNat_ofNat, Nat.pow_succ' (m := 256), Nat.mod_mul]

theorem smBytes_succ (m : SMap 8) (a n : Nat) : smBytes m a (n + 1) = smGet m a :: smBytes m (a + 1) n := by
  simp [smBytes, List.range_succ_eq_map, Nat.add_assoc, Nat.add_comm 1]

theorem smBytes_add (m : SMap 8) (a i j : Nat) : smBytes m a (i + j) = smBytes m a i ++ smBytes m (a + i) j := by
  simp [smBytes, List.range_add, Nat.add_assoc]

/-- A run of bytes as a number, cut in two. -/
theorem smNat_add (m : SMap 8) (a i j : Nat) : smNat m a (i + j) = smNat m a i + 256 ^ i * smNat m (a + i) j := by
  simp [smNat, smBytes_add, leOf_append]

/-- The bytes just written are read back. -/
theorem smBytes_smWrite_same {m : SMap 8} (h : smWf m = true) (a : Nat) (bs : List Byte) :
    smBytes (smWrite m a bs) a bs.length = bs := by
  induction bs generalizing m a with
  | nil => rfl
  | cons b bs ih =>
    have hm := smWf_smSet h a b
    rw [List.length_cons, smBytes_succ, smWrite, ih hm, smGet_smWrite_ne hm bs (by omega), smGet_smSet_same h]

end Sys2Proof.Machine
end

section
/-! PROOFS. Fetch (R325, R326): where the pieces of a word and of its literal translate, the fetch reads the block's code. -/

namespace Sys2Proof.Machine
open Sys2Proof

/-- The n four-byte pieces of code from an address translate, and the block's code holds them from byte `k` on, at the addresses its
pages had when it started. -/
def State.codeAt (s : State) (c : Nat) (b : Blk) (a : Addr) (n k : Nat) : Prop :=
  ∀ j < n, ∃ x, s.translate c b.asid ((a.toNat + 4 * j) % 2 ^ 57) { x := true } = .ok x
    ∧ b.codeKey ((a.toNat + 4 * j) % 2 ^ 57) x = k + 4 * j

/-- Code of this package is the memory the block started with. -/
theorem codeNat_eq_smNat {b : Blk} {k n : Nat} (h : k + n ≤ 2 ^ 39) : b.codeNat k n = smNat b.code k n := by
  unfold Blk.codeNat smNat smBytes
  congr 1
  refine List.map_congr_left fun i hi => ?_
  have hi := List.mem_range.1 hi
  rw [Blk.codeByte, if_pos (by omega)]

theorem toNat_add_eight {a : Addr} (h : a.toNat + 16 < 2 ^ 57) : (a + 8).toNat = a.toNat + 8 := by
  rw [BitVec.toNat_add]
  exact Nat.mod_eq_of_lt (by change a.toNat + 8 < 2 ^ 64; omega)

/-- Translations that all succeed name no page to walk. -/
theorem xlsWalk_of_ok {xs : List Xl} (h : ∀ x ∈ xs, ∃ n, x = .ok n) : xlsWalk xs = none := by
  rw [xlsWalk, List.findSome?_eq_none_iff]
  intro x hx
  obtain ⟨n, rfl⟩ := h x hx
  rfl

/-- Translations that all succeed raise no cause. -/
theorem xlsBad_of_ok {xs : List Xl} (h : ∀ x ∈ xs, ∃ n, x = .ok n) : xlsBad xs = none := by
  unfold xlsBad
  induction xs with
  | nil => rfl
  | cons x xs ih =>
    obtain ⟨n, rfl⟩ := h x List.mem_cons_self
    exact ih fun y hy => h y (List.mem_cons_of_mem _ hy)

/-- Pieces that lie one after another in the block's code make up one little-endian number. -/
theorem codeValue_eq_smNat {b : Blk} {xs : List Xl} {va k : Nat} (hk : k + 4 * xs.length ≤ 2 ^ 39)
    (h : ∀ j (hj : j < xs.length), ∃ n, xs[j] = .ok n ∧ b.codeKey ((va + 4 * j) % 2 ^ 57) n = k + 4 * j) :
    b.codeValue va xs = smNat b.code k (4 * xs.length) := by
  induction xs generalizing va k with
  | nil => rfl
  | cons x xs ih =>
    rw [List.length_cons] at hk
    obtain ⟨n, rfl, hn⟩ : ∃ n, x = .ok n ∧ b.codeKey (va % 2 ^ 57) n = k := h 0 (by simp)
    have hrest : b.codeValue (va + 4) xs = smNat b.code (k + 4) (4 * xs.length) := ih (by omega) fun j hj => by
      obtain ⟨m, hm, hkey⟩ := h (j + 1) (by simpa using hj)
      have e : va + 4 + 4 * j = va + 4 * (j + 1) := by omega
      exact ⟨m, hm, by rw [e, hkey]; omega⟩
    rw [Blk.codeValue, hn, hrest, codeNat_eq_smNat (by omega), List.length_cons, Nat.mul_succ, Nat.add_comm (4 * _) 4]
    exact (smNat_add b.code k 4 (4 * xs.length)).symm

@[simp] theorem length_codeXls (s : State) (c : Nat) (b : Blk) (a : Addr) (n : Nat) : (s.codeXls c b a n).length = n := by
  simp [State.codeXls]

theorem codeXls_ok {s : State} {c : Nat} {b : Blk} {a : Addr} {n k : Nat} (h : s.codeAt c b a n k) :
    ∀ x ∈ s.codeXls c b a n, ∃ y, x = .ok y := by
  intro x hx
  obtain ⟨j, hj, rfl⟩ := List.mem_map.1 hx
  obtain ⟨y, hy, -⟩ := h j (List.mem_range.1 hj)
  exact ⟨y, hy⟩

theorem codeValue_codeXls {s : State} {c : Nat} {b : Blk} {a : Addr} {n k : Nat} (h : s.codeAt c b a n k)
    (hk : k + 4 * n ≤ 2 ^ 39) : b.codeValue a.toNat (s.codeXls c b a n) = smNat b.code k (4 * n) := by
  have hv := codeValue_eq_smNat (b := b) (xs := s.codeXls c b a n) (va := a.toNat) (k := k) (by simpa using hk) fun j hj => by
    obtain ⟨y, hy, hkey⟩ := h j (by simpa using hj)
    exact ⟨y, by simpa [State.codeXls] using hy, hkey⟩
  rwa [length_codeXls] at hv

theorem litLen_cases (w : BitVec 64) : litLen w = 0 ∨ litLen w = 4 ∨ litLen w = 8 := by
  unfold litLen
  dsimp only
  repeat' split
  all_goals decide

/-- A FETCH, once for every length of literal: the word and its literal are the block's code at their places. -/
theorem fetch_of_codeAt {s : State} {c : Nat} {b : Blk} {a : Addr} {k l : Nat} (ha : a.toNat % 4 = 0) (hb : a.toNat + 16 < 2 ^ 57)
    (hk : k + 16 ≤ 2 ^ 39) (hw : s.codeAt c b a 2 k) (hlen : litLen (BitVec.ofNat 64 (smNat b.code k 8)) = 4 * l)
    (hl : s.codeAt c b (a + 8) l (k + 8)) :
    s.fetch c b a = .word (BitVec.ofNat 64 (smNat b.code k 8)) (BitVec.ofNat 64 (smNat b.code (k + 8) (4 * l))) := by
  have hl2 : 4 * l ≤ 8 := by
    rcases litLen_cases (BitVec.ofNat 64 (smNat b.code k 8)) with h | h | h <;> omega
  have ha8 := toNat_add_eight hb
  have hlit := codeValue_codeXls hl (by omega)
  rw [ha8] at hlit
  unfold State.fetch
  rw [if_neg (by omega), if_neg (by omega)]
  simp only [xlsWalk_of_ok (codeXls_ok hw), xlsBad_of_ok (codeXls_ok hw), codeValue_codeXls hw (by omega)]
  simp only [Nat.reduceMul, hlen, Nat.mul_div_cancel_left l (by decide : 0 < 4), xlsWalk_of_ok (codeXls_ok hl),
    xlsBad_of_ok (codeXls_ok hl), hlit]

/-- Settles O6: the pieces of the word, and as many of the literal as its length asks for, are code of the block, so the fetch reads them. -/
theorem fetchReadsCode : Obligations.FetchReadsCode := by
  unfold Obligations.FetchReadsCode
  intro s c b a k key lit was w ha hb hk hword
  obtain ⟨n0, n1, hk0, hk1, hw0, hw1⟩ := hword
  have ha8 := toNat_add_eight hb
  have hw : s.codeAt c b a 2 k := fun j hj => by
    match j, hj with
    | 0, _ => exact ⟨n0, hk0, by simpa [was] using hw0⟩
    | 1, _ => exact ⟨n1, hk1, by simpa [was] using hw1⟩
  have piece {j n : Nat} (hw : was (a + 8) j n) : b.codeKey (((a + 8).toNat + 4 * j) % 2 ^ 57) n = k + 8 + 4 * j := by
    have hw : _ = k + 4 * j + ((a + 8).toNat - a.toNat) := hw
    rw [hw]; omega
  refine ⟨fun h => ?_, fun h hl => ?_, fun h hl => ?_⟩
  · exact fetch_of_codeAt (l := 0) ha hb hk hw h fun j hj => absurd hj (by omega)
  · obtain ⟨m0, hm0, hl0⟩ := hl
    refine fetch_of_codeAt (l := 1) ha hb hk hw h fun j hj => ?_
    obtain rfl : j = 0 := by omega
    exact ⟨m0, hm0, piece hl0⟩
  · obtain ⟨m0, m1, hm0, hm1, hl0, hl1⟩ := hl
    refine fetch_of_codeAt (l := 2) ha hb hk hw h fun j hj => ?_
    match j, hj with
    | 0, _ => exact ⟨m0, hm0, piece hl0⟩
    | 1, _ => exact ⟨m1, hm1, piece hl1⟩

end Sys2Proof.Machine
end

section
/-! PROOFS. Host accesses (R277, R279, R280, R283, R284, R317): what each access of the BARs does, a lemma per access. -/

namespace Sys2Proof.Machine
open Sys2Proof

/-! ## BAR2 (R277) -/

/-- An access of n bytes at an offset of BAR2 is inside BAR2, reaches package memory and is not empty. -/
def State.barReaches (s : State) (off n : Nat) : Prop :=
  off + n ≤ 2 ^ s.host.barLog ∧ s.barAddr off + n ≤ memEnd ∧ 1 ≤ n

theorem exec_hostMemoryWrite_inside {s : State} {off : Nat} {bs : List Byte} (h : s.barReaches off bs.length) :
    exec (.hostMemoryWrite off bs) s = .next (s.startStore 1537 0 s.now (addressed (s.barAddr off) bs)) := by
  obtain ⟨hbar, hmem, hne⟩ := h
  refine if_neg ?_
  simp only [Bool.or_eq_true, decide_eq_true_eq, List.isEmpty_iff_length_eq_zero]
  omega

theorem exec_hostMemoryWrite_outside {s : State} {off : Nat} {bs : List Byte} (h : ¬s.barReaches off bs.length) :
    exec (.hostMemoryWrite off bs) s = .next s := by
  refine if_pos ?_
  unfold State.barReaches at h
  simp only [Bool.or_eq_true, decide_eq_true_eq, List.isEmpty_iff_length_eq_zero]
  omega

theorem exec_hostMemoryRead_inside {s : State} {off n : Nat} (h : s.barReaches off n) :
    exec (.hostMemoryRead off n) s = .next (s.startRead 1537 0 s.now
      ((List.range ((s.barAddr off % 64 + n + 63) / 64)).map fun k => s.barAddr off / 64 + k) (.hostRead (s.barAddr off) n)) := by
  obtain ⟨hbar, hmem, hne⟩ := h
  refine if_neg ?_
  simp only [Bool.or_eq_true, decide_eq_true_eq, beq_iff_eq]
  omega

theorem exec_hostMemoryRead_outside {s : State} {off n : Nat} (h : ¬s.barReaches off n) :
    exec (.hostMemoryRead off n) s = .next s := by
  refine if_pos ?_
  unfold State.barReaches at h
  simp only [Bool.or_eq_true, decide_eq_true_eq, beq_iff_eq]
  omega

/-! ## Rings (R284) -/

theorem exec_ringEnable_good {s : State} {i : Nat} (hi : i < 256) (hok : s.ringOk i = true) (hoff : s.ring i 0x20 1 % 2 = 0) :
    exec (.ringEnable i) s = .next { s with host := { s.host with
      rings := smWrite s.host.rings (64 * i + 0x20) [1, 0, 0, 0], ringIx := s.host.ringIx.filter fun p => p.1 != i } } := by
  refine if_neg ?_
  simp [hi, hok, hoff]

theorem exec_ringEnable_bad {s : State} {i : Nat} (h : ¬(i < 256 ∧ s.ringOk i = true ∧ s.ring i 0x20 1 % 2 = 0)) :
    exec (.ringEnable i) s = .next s := by
  refine if_pos ?_
  simp only [Bool.or_eq_true, decide_eq_true_eq, beq_iff_eq, Bool.not_eq_true']
  cases hok : s.ringOk i with
  | false => exact .inr rfl
  | true => exact .inl (by simp only [hok, true_and] at h; omega)

/-- Enabling a ring always completes. -/
theorem execRingEnable_next (i : Nat) (s : State) : ∃ t, execRingEnable i s = .next t := by
  unfold execRingEnable
  split <;> exact ⟨_, rfl⟩

/-- A field of a ring that is off is written; the reserved bits of its port mask stay 0. -/
theorem ringWrite_field {s : State} {i o size x : Nat} (ho : o < 0x20) (hoff : s.ring i 0x20 1 % 2 = 0) :
    s.ringWrite (64 * i + o) size x =
      let written := smWrite s.host.rings (64 * i + o) (bytesOf size x)
      { s with host := { s.host with rings := smWrite written (64 * i + 0x1F) [BitVec.ofNat 8 (smNat written (64 * i + 0x1F) 1 % 4)] } } := by
  have hi : (64 * i + o) / 64 = i := by omega
  have hr : (64 * i + o) % 64 = o := by omega
  unfold State.ringWrite
  simp only [hi, hr, hoff]
  rw [if_neg (by omega), if_neg (by simp; omega)]
  rfl

/-- Writing 1 to a ring's enable bit enables it. -/
theorem ringWrite_enable {s : State} {i size x : Nat} (hx : x % 2 = 1) :
    .next (s.ringWrite (64 * i + 0x20) size x) = execRingEnable i s := by
  have hi : (64 * i + 0x20) / 64 = i := by omega
  have hr : (64 * i + 0x20) % 64 = 0x20 := by omega
  obtain ⟨t, ht⟩ := execRingEnable_next i s
  unfold State.ringWrite
  simp only [hi, hr, hx, ht, if_true, Nat.one_ne_zero, if_false]

/-! ## BAR0 (R279) -/

theorem exec_registerWrite_unaligned {s : State} {off size : Nat} {x : BitVec 64} (h : (size ≠ 4 ∧ size ≠ 8) ∨ off % size ≠ 0) :
    exec (.registerWrite off size x) s = .next s := by
  refine if_pos ?_
  simpa [Bool.or_eq_true] using h

theorem exists_next_ite {p : Prop} [Decidable p] {o o' : Host.Outcome State Fault Refusal} (h : ∃ t, o = .next t)
    (h' : ∃ t, o' = .next t) : ∃ t, (if p then o else o') = .next t := by
  split
  · exact h
  · exact h'

/-- Every write completes: none stops the machine. -/
theorem exec_registerWrite_next (s : State) (off size : Nat) (x : BitVec 64) : ∃ t, exec (.registerWrite off size x) s = .next t := by
  change ∃ t, execRegisterWrite off size x s = .next t
  unfold execRegisterWrite
  dsimp only
  iterate 11 apply exists_next_ite ⟨_, rfl⟩
  exact ⟨_, rfl⟩

/-- A register of 8 bytes written whole takes the value written. -/
theorem register_overwritten (old x : BitVec 64) :
    BitVec.ofNat 64 (smNat (smWrite (smWrite [] 0 (bytesOf 8 old.toNat)) 0 (bytesOf 8 x.toNat)) 0 8) = x := by
  have hwf : smWf (smWrite [] 0 (bytesOf 8 old.toNat)) = true := smWf_smWrite rfl 0 _
  have hb := smBytes_smWrite_same hwf 0 (bytesOf 8 x.toNat)
  rw [length_bytesOf] at hb
  rw [smNat, hb, leOf_bytesOf]
  apply BitVec.eq_of_toNat_eq
  have := x.isLt
  rw [BitVec.toNat_ofNat]
  omega

/-- The check of R279 that a write passes. -/
theorem not_discarded {off size : Nat} (hs : size = 4 ∨ size = 8) (ha : off % size = 0) :
    ¬(!(size == 4 || size == 8) || decide (off % size ≠ 0)) = true := by
  rcases hs with rfl | rfl <;> simpa using ha

section
variable {s : State} {size : Nat} (hs : size = 4 ∨ size = 8) (x : BitVec 64)
include hs

theorem exec_registerWrite_mbevc :
    exec (.registerWrite 0x18 size x) s = .next { s with host := { s.host with evc := x.setWidth 32 } } := by
  rcases hs with rfl | rfl <;> rfl

theorem exec_registerWrite_mblost : exec (.registerWrite 0x20 size x) s = .next { s with host := { s.host with lost := 0 } } := by
  rcases hs with rfl | rfl <;> rfl

theorem exec_registerWrite_doorbell : exec (.registerWrite 0 size x) s = .next (s.doorbell x) := by
  rcases hs with rfl | rfl <;> rfl

theorem exec_registerWrite_rbctl :
    exec (.registerWrite 0xF00008 size x) s = .next (if x.getLsbD 0 then s.requestSnapshot else s) := by
  rcases hs with rfl | rfl <;> rfl

/-- The mailbox's request area is written while no request runs. -/
theorem exec_registerWrite_request {off : Nat} (hoff : off < 256) (ha : off % size = 0) :
    exec (.registerWrite (0x100 + off) size x) s = .next (if s.host.busy then s else { s with host := { s.host with
      req := smWrite s.host.req off (bytesOf size x.toNat) } }) := by
  have ha : (0x100 + off) % size = 0 := by rcases hs with rfl | rfl <;> omega
  change execRegisterWrite (0x100 + off) size x s = _
  unfold execRegisterWrite
  dsimp only
  rw [if_neg (not_discarded hs ha), if_neg (by omega), if_neg (by omega), if_neg (by omega), if_pos (by simp; omega),
    Nat.add_sub_cancel_left]

/-- A write inside the ring table is a write to its ring. -/
theorem exec_registerWrite_ringTable {off : Nat} (hoff : off < 0x4000) (ha : off % size = 0) :
    exec (.registerWrite (0x20000 + off) size x) s = .next (s.ringWrite off size x.toNat) := by
  have ha : (0x20000 + off) % size = 0 := by rcases hs with rfl | rfl <;> omega
  change execRegisterWrite (0x20000 + off) size x s = _
  unfold execRegisterWrite
  dsimp only
  rw [if_neg (not_discarded hs ha), if_neg (by omega), if_neg (by omega), if_neg (by omega), if_neg (by simp; omega), if_neg (by omega),
    if_neg (by simp; omega), if_pos (by simp; omega), Nat.add_sub_cancel_left]

/-- The mailbox's payload area is written while no request runs. -/
theorem exec_registerWrite_payload {off : Nat} (hoff : off < 2 ^ 24) (ha : off % size = 0) :
    exec (.registerWrite (0x3000000 + off) size x) s = .next (if s.host.busy then s else { s with host := { s.host with
      payload := smWrite s.host.payload off (bytesOf size x.toNat) } }) := by
  have ha : (0x3000000 + off) % size = 0 := by rcases hs with rfl | rfl <;> omega
  change execRegisterWrite (0x3000000 + off) size x s = _
  unfold execRegisterWrite
  dsimp only
  rw [if_neg (not_discarded hs ha), if_neg (by omega), if_neg (by omega), if_neg (by omega), if_neg (by simp; omega), if_neg (by omega),
    if_neg (by simp; omega), if_neg (by simp; omega), if_neg (by omega), if_neg (by omega), if_pos (by simp; omega), Nat.add_sub_cancel_left]

end

theorem exec_registerWrite_hbwin (s : State) (x : BitVec 64) :
    exec (.registerWrite 0x1000 8 x) s = .next { s with host := { s.host with hbwin := x &&& 0x7FC0000000 } } := by
  conv => rhs; rw [← register_overwritten s.host.hbwin x]
  rfl

theorem exec_registerWrite_rbsel (s : State) (x : BitVec 64) :
    exec (.registerWrite 0xF00000 8 x) s = .next { s with host := { s.host with rbsel := x &&& 0xFFFFFFFFE000000 } } := by
  conv => rhs; rw [← register_overwritten s.host.rbsel x]
  rfl

/-- An entry of the ASID-to-PASID table keeps its valid bit and its PASID. -/
theorem exec_registerWrite_pasid {s : State} {a : Nat} (ha : a < 4096) (x : BitVec 64) :
    exec (.registerWrite (0x10000 + 8 * a) 8 x) s = .next { s with host := { s.host with
      pasid := smSet s.host.pasid a (x &&& 0x800FFFFF) } } := by
  have hix : (0x10000 + 8 * a - 0x10000) / 8 = a := by omega
  have hoff : (0x10000 + 8 * a) % 8 = 0 := by omega
  change execRegisterWrite (0x10000 + 8 * a) 8 x s = _
  unfold execRegisterWrite
  dsimp only
  rw [if_neg (not_discarded (.inr rfl) hoff), if_neg (by omega), if_neg (by omega), if_neg (by omega), if_neg (by simp; omega), if_neg (by omega),
    if_pos (by simp; omega), hix, hoff, register_overwritten]

/-- A doorbell that rings while no request runs makes the mailbox busy. -/
theorem doorbell_idle {s : State} {x : BitVec 64} (hb : s.host.busy = false) (hx : x.getLsbD 0 = true) :
    s.doorbell x = { s with host := { s.host with busy := true, stat := (s.host.stat &&& ~~~10#64) ||| 1#64 } } := by
  simp only [State.doorbell, hb, hx, Bool.not_true, Bool.or_self, Bool.false_eq_true, if_false]

theorem doorbell_ignored {s : State} {x : BitVec 64} (h : s.host.busy = true ∨ x.getLsbD 0 = false) : s.doorbell x = s :=
  if_pos (by simpa using h)

/-- Settles O60, a lemma for each access. -/
theorem hostAccessesComplete : Obligations.HostAccessesComplete := by
  unfold Obligations.HostAccessesComplete
  intro s
  refine ⟨⟨fun off bs => ⟨exec_hostMemoryWrite_inside, exec_hostMemoryWrite_outside⟩,
    fun off n => ⟨exec_hostMemoryRead_inside, exec_hostMemoryRead_outside⟩⟩, rfl, rfl, fun i => ?ring,
    exec_registerWrite_next s, fun off size x => exec_registerWrite_unaligned, fun size x hs => ?registers,
    exec_registerWrite_hbwin s, exec_registerWrite_rbsel s, fun a x ha => exec_registerWrite_pasid ha x⟩
  case ring => exact ⟨fun ⟨hi, hok, hoff⟩ => exec_ringEnable_good hi hok hoff, exec_ringEnable_bad⟩
  case registers =>
    refine ⟨exec_registerWrite_mbevc hs x, exec_registerWrite_mblost hs x, fun hb hx => ?_, fun h => ?_, ?_,
      fun off hoff ha => exec_registerWrite_request hs x hoff ha, fun off hoff ha => exec_registerWrite_payload hs x hoff ha,
      fun i o hi ha hoff => ⟨fun ho => ?_, fun ho hx => ?_⟩⟩
    · rw [exec_registerWrite_doorbell hs, doorbell_idle hb hx]
    · rw [exec_registerWrite_doorbell hs, doorbell_ignored h]
    · rw [exec_registerWrite_rbctl hs, apply_ite Host.Outcome.next]; rfl
    · have hal : (64 * i + o) % size = 0 := by rcases hs with rfl | rfl <;> omega
      rw [Nat.add_assoc, exec_registerWrite_ringTable hs x (by omega) hal, ringWrite_field ho hoff]
    · subst ho
      have hal : (64 * i + 0x20) % size = 0 := by rcases hs with rfl | rfl <;> omega
      have hx : x.toNat % 2 = 1 := by simpa [BitVec.getLsbD, Nat.testBit_zero] using hx
      rw [Nat.add_assoc, exec_registerWrite_ringTable hs x (by omega) hal, ringWrite_enable hx]
      rfl

end Sys2Proof.Machine
end

section
/-! PROOFS. Fields and lists: bytes and octal digits read out of a number, and a change of every listed core. -/

namespace Sys2Proof.Machine
open Sys2Proof

/-! ## Bytes of a number (R4) -/

theorem leOf_cons_div (b : Byte) (bs : List Byte) : leOf (b :: bs) / 256 = leOf bs := by
  have := b.isLt
  rw [leOf]
  omega

theorem leOf_drop (bs : List Byte) (i : Nat) : leOf (bs.drop i) = leOf bs / 256 ^ i := by
  induction i generalizing bs with
  | zero => simp
  | succ i ih =>
    cases bs with
    | nil => simp [leOf]
    | cons b bs => rw [List.drop_succ_cons, ih, Nat.pow_succ', ← Nat.div_div_eq_div_mul, leOf_cons_div]

theorem leOf_take (bs : List Byte) (n : Nat) : leOf (bs.take n) = leOf bs % 256 ^ n := by
  induction n generalizing bs with
  | zero => simp [leOf, Nat.mod_one]
  | succ n ih =>
    cases bs with
    | nil => simp [leOf]
    | cons b bs =>
      have hb : leOf (b :: bs) % 256 = b.toNat := by
        have := b.isLt
        rw [leOf]
        omega
      rw [List.take_succ_cons, leOf, ih, Nat.pow_succ', Nat.mod_mul, hb, leOf_cons_div]

/-- A field of 32 bytes as a number. -/
theorem extract_leOf (bs : List Byte) {i n : Nat} (h : i + n ≤ 32) :
    (BitVec.ofNat 256 (leOf bs)).extractLsb' (8 * i) (8 * n) = BitVec.ofNat (8 * n) (leOf ((bs.drop i).take n)) := by
  have hpow (k : Nat) : 256 ^ k = 2 ^ (8 * k) := Nat.pow_mul 2 8 k ▸ rfl
  have hsplit : 2 ^ 256 = 2 ^ (8 * i) * 2 ^ (256 - 8 * i) := by rw [← Nat.pow_add]; congr 1; omega
  apply BitVec.eq_of_toNat_eq
  rw [BitVec.extractLsb'_toNat, BitVec.toNat_ofNat, BitVec.toNat_ofNat, leOf_take, leOf_drop, hpow, hpow, Nat.mod_mod, Nat.shiftRight_eq_div_pow,
    hsplit, Nat.mod_mul_right_div_self, Nat.mod_mod_of_dvd _ (Nat.pow_dvd_pow 2 (by omega))]

/-! ## Octal digits of a number -/

/-- The first n of some octal digits as a number. -/
def octal (d : Nat → Nat) (n : Nat) : Nat := (List.range n).foldl (fun x e => x + d e * 2 ^ (3 * e)) 0

theorem octal_succ (d : Nat → Nat) (n : Nat) : octal d (n + 1) = octal d n + d n * 2 ^ (3 * n) := by
  simp [octal, List.range_succ]

section
variable {d : Nat → Nat} (hd : ∀ e, d e < 8)
include hd

theorem octal_lt (n : Nat) : octal d n < 2 ^ (3 * n) := by
  induction n with
  | zero => simp [octal]
  | succ n ih =>
    have hmul : d n * 2 ^ (3 * n) ≤ 7 * 2 ^ (3 * n) := Nat.mul_le_mul_right _ (Nat.le_of_lt_succ (hd n))
    rw [octal_succ, Nat.mul_succ, Nat.pow_add]
    omega

theorem octal_digit {n e : Nat} (he : e < n) : octal d n / 2 ^ (3 * e) % 8 = d e := by
  induction n with
  | zero => omega
  | succ n ih =>
    rw [octal_succ]
    rcases Nat.lt_succ_iff_lt_or_eq.1 he with hlt | rfl
    · have hpow : 2 ^ (3 * n) = 2 ^ (3 * e) * (8 * 2 ^ (3 * (n - e - 1))) := by
        rw [← Nat.mul_assoc, ← Nat.pow_add 2 (3 * e) 3, ← Nat.pow_add]
        congr 1
        omega
      rw [hpow, Nat.mul_left_comm, Nat.add_mul_div_left _ _ (Nat.two_pow_pos _), Nat.mul_left_comm, Nat.add_mul_mod_self_left, ih hlt]
    · rw [Nat.add_mul_div_right _ _ (Nat.two_pow_pos _), Nat.div_eq_of_lt (octal_lt hd e), Nat.zero_add, Nat.mod_eq_of_lt (hd e)]

end

/-! ## Lists of cores -/

theorem aGet_mapValues {α : Type} (f : Nat → α → α) (l : List (Nat × α)) (c : Nat) :
    aGet (l.map fun p => (p.1, f p.1 p.2)) c = (aGet l c).map (f c) := by
  induction l with
  | nil => rfl
  | cons p l ih =>
    simp only [List.map_cons, aGet, ih]
    split
    · rename_i h; rw [h]; rfl
    · rfl

/-- A change of every listed core that leaves an idle one alone is the change of every core. -/
theorem core_of_cores_map {s t : State} {f : Nat → Core → Core} (h : t.cores = s.cores.map fun p => (p.1, f p.1 p.2)) {c : Nat}
    (hidle : f c Core.idle = Core.idle) : t.core c = f c (s.core c) := by
  unfold State.core
  rw [h, aGet_mapValues]
  cases aGet s.cores c with
  | none => exact hidle.symm
  | some k => rfl

end Sys2Proof.Machine
end

section
/-! PROOFS. Detection and abort (R38, R52, R57 to R59, R101): what a schedule fault stops, what its abort removes and what goes on. -/

namespace Sys2Proof.Machine
open Sys2Proof

/-! ## Landings held through a fault (R52) -/

/-- The step of `State.holdLandings` for one core: its loose block's operations get the floors of their plain landings. -/
def State.holdCore (s : State) (p : Nat × Core) : State :=
  if s.ops.any fun o => o.col == p.1 && o.loose then
    { s with ops := s.ops.map fun o =>
        if o.col == p.1 && o.loose then
          { o with floor := max o.floor ((((s.plainLandings p.1).find? fun x => x.1 == o.seq).map (·.2)).getD 0) }
        else o }
  else s

theorem holdLandings_eq_foldl (s : State) : s.holdLandings = s.cores.foldl State.holdCore s.holdRecords.holdSends := rfl

/-- `t` is `s` but for the floors of operations and the fabric. -/
def State.heldFrom (s t : State) : Prop :=
  ∃ (g : MemOp → Nat) (fab : Fabric), t = { s with ops := s.ops.map fun o => { o with floor := g o }, fab := fab }

theorem heldFrom_refl (s : State) : s.heldFrom s := ⟨MemOp.floor, s.fab, by simp⟩

theorem heldFrom_trans {s t u : State} (h : s.heldFrom t) (h' : t.heldFrom u) : s.heldFrom u := by
  obtain ⟨g, fab, rfl⟩ := h
  obtain ⟨g', fab', rfl⟩ := h'
  exact ⟨fun o => g' { o with floor := g o }, fab', by simp⟩

theorem heldFrom_holdCore (s : State) (p : Nat × Core) : s.heldFrom (s.holdCore p) := by
  unfold State.holdCore
  split
  · refine ⟨fun o => if o.col == p.1 && o.loose then
      max o.floor ((((s.plainLandings p.1).find? fun x => x.1 == o.seq).map (·.2)).getD 0) else o.floor, s.fab, ?_⟩
    congr 1
    refine List.map_congr_left fun o _ => ?_
    dsimp only
    split <;> rfl
  · exact heldFrom_refl s

theorem heldFrom_foldl (l : List (Nat × Core)) (s : State) : s.heldFrom (l.foldl State.holdCore s) := by
  induction l generalizing s with
  | nil => exact heldFrom_refl s
  | cons p l ih => exact heldFrom_trans (heldFrom_holdCore s p) (ih _)

theorem heldFrom_holdLandings (s : State) : s.heldFrom s.holdLandings := by
  have hfab : s.heldFrom s.holdRecords.holdSends := ⟨MemOp.floor, s.holdRecords.holdSends.fab, by simp; rfl⟩
  rw [holdLandings_eq_foldl]
  exact heldFrom_trans hfab (heldFrom_foldl _ _)

/-! ## Detection (R57, R58) -/

/-- The state with other faults waiting for their detection. -/
def State.withRaised (s : State) (l : List SFault) : State := { s with sch := { s.sch with raised := l } }

/-- The faults that wait have no part in how landings are held. -/
theorem holdLandings_withRaised (s : State) (l : List SFault) : (s.withRaised l).holdLandings = s.holdLandings.withRaised l := by
  simp only [holdLandings_eq_foldl]
  have hstep (u : State) (p : Nat × Core) : (u.withRaised l).holdCore p = (u.holdCore p).withRaised l := by
    unfold State.holdCore
    change (if u.ops.any (fun o => o.col == p.1 && o.loose) then _ else _) = _
    split <;> rfl
  exact List.foldl_hom (State.withRaised · l) (init := s.holdRecords.holdSends) hstep

theorem raiseShort_of_owed_nil {s : State} (h : s.fab.owed = []) : s.raiseShort = s := by
  have hshort : s.respsShort = none := by simp [State.respsShort, h]
  rw [State.raiseShort, hshort]

/-- What detection does with the faults that are due, by the phase that they meet. -/
def State.detect (s : State) (due : List SFault) : Phase → Host.Outcome State Fault Refusal
  | .run => .next (State.tellFault { s.holdLandings with sch := { s.holdLandings.sch with phase := .fault, faults := due } })
  | .fault => .next { s with sch := { s.sch with faults := s.sch.faults ++ due } }
  | .halt => .next s
  | p =>
    let t := due.foldl (fun s f => s.joinFault f.cause f.unit (if p == .syncB then 2 else 1)) s
    .next (if due.all fun f => s.joins f.cause then t else t.tellFault)

/-- The faults raised that are due. -/
def State.raisedDue (s : State) : List SFault := s.sch.raised.filter fun f => dueBy f.tick s.now

/-- The faults raised for a tick to come. -/
def State.raisedLater (s : State) : List SFault := s.sch.raised.filter fun f => !dueBy f.tick s.now

theorem exec_faultDetection {s : State} (howed : s.fab.owed = []) :
    exec .faultDetection s = if s.raisedDue.isEmpty then .next (s.withRaised s.raisedLater)
      else (s.withRaised s.raisedLater).detect s.raisedDue s.sch.phase := by
  change execFaultDetection s = _
  unfold execFaultDetection
  rw [raiseShort_of_owed_nil howed]
  rfl

theorem exec_faultDetection_due {s : State} {f : SFault} (hraised : s.sch.raised = [f]) (hdue : f.tick ≤ s.now)
    (howed : s.fab.owed = []) : exec .faultDetection s = (s.withRaised []).detect [f] s.sch.phase := by
  have hd : dueBy f.tick s.now = true := decide_eq_true hdue
  have hnow : s.raisedDue = [f] := by simp [State.raisedDue, hraised, hd]
  have hlater : s.raisedLater = [] := by simp [State.raisedLater, hraised, hd]
  rw [exec_faultDetection howed, hnow, hlater]
  rfl

/-- A fault that is detected in the run stops it, and is told (R58). -/
theorem detect_run (s : State) (due : List SFault) :
    (s.withRaised []).detect due .run = .next { s.holdLandings with sch := { s.sch with
      raised := [], phase := .fault, faults := due, faultBit := s.sch.planes, bitAt := s.now } } := by
  obtain ⟨g, fab, h⟩ := heldFrom_holdLandings s
  simp only [State.detect, holdLandings_withRaised, h]
  rfl

/-! ## Abort (R58, R59, R101) -/

/-- The state at an abort before the slice that a fault belongs to is taken up again: at a fault that only other members have
detected, landings are held now. -/
def State.atAbort (s : State) : State := if s.sch.phase == .run then s.holdLandings else s

theorem heldFrom_atAbort (s : State) : s.heldFrom s.atAbort := by
  unfold State.atAbort
  split
  · exact heldFrom_holdLandings s
  · exact heldFrom_refl s

theorem atAbort_of_ne_run {s : State} (h : s.sch.phase ≠ .run) : s.atAbort = s := if_neg (by simpa using h)

/-- What a slice taken up again leaves alone: memory, cores and operations. -/
structure State.RollKeeps (s t : State) : Prop where
  memory : s.sameMemory t
  ops : t.ops = s.ops
  cores : t.cores = s.cores

theorem rollKeeps_rollBack (s : State) : s.RollKeeps s.rollBack := by
  unfold State.rollBack
  split
  · split
    · exact ⟨sameMemory_refl s, rfl, rfl⟩
    · dsimp only
      split
      · split <;> exact ⟨⟨rfl, rfl, rfl⟩, rfl, rfl⟩
      · exact ⟨⟨rfl, rfl, rfl⟩, rfl, rfl⟩
  · exact ⟨sameMemory_refl s, rfl, rfl⟩

/-- A fault of a later slice than the one before rolls nothing back. -/
theorem rollBack_later {s : State} {f : SFault} {m : SliceMark} (hf : firstFault (s.sch.faults ++ s.sch.heard) = some f)
    (hm : s.sch.prior = some m) (hlt : m.frame < f.frame) : s.rollBack = s := by
  unfold State.rollBack
  rw [hf, hm]
  exact if_pos hlt

/-- `t` has the slice of a mark, taken up again from `s`, as its slice. -/
structure State.TakenUp (s : State) (m : SliceMark) (t : State) : Prop where
  active : t.sch.active = true
  slice : t.sch.slice = m.slice
  inForce : t.sch.inForce = m.inForce
  attempts : t.sch.attempts = m.attempts
  sliceTick : t.sch.sliceTick = m.sliceTick
  main : t.sch.main = m.main
  lastCounts : t.plat.lastCounts = m.lastCounts
  resumes : t.host.resumes = m.resumes ++ s.host.resumes
  consumed : t.sch.consumed = s.sch.consumed

/-- A fault of the slice before, or of an earlier frame, takes it up again (R38). -/
theorem rollBack_earlier {s : State} {f : SFault} {m : SliceMark} (hf : firstFault (s.sch.faults ++ s.sch.heard) = some f)
    (hm : s.sch.prior = some m) (hle : f.frame ≤ m.frame) : s.TakenUp m s.rollBack := by
  unfold State.rollBack
  rw [hf, hm]
  dsimp only
  rw [if_neg (by omega)]
  split
  · split <;> exact ⟨rfl, rfl, rfl, rfl, rfl, rfl, rfl, rfl, rfl⟩
  · exact ⟨rfl, rfl, rfl, rfl, rfl, rfl, rfl, rfl, rfl⟩

/-- A core after an abort, by its number. -/
def State.cleared (s : State) (c : Nat) (k : Core) : Core :=
  match k.blk with
  | some b => if b.loose || s.savedCore c then k else k.clearBlock
  | none => s.freeReserved k

/-- The abort's own step for a listed core. -/
theorem cleared_pair (s : State) (p : Nat × Core) :
    (match p.2.blk with
      | some b => if b.loose || s.savedCore p.1 then p else (p.1, p.2.clearBlock)
      | none => (p.1, s.freeReserved p.2)) = (p.1, s.cleared p.1 p.2) := by
  unfold State.cleared
  cases p.2.blk with
  | none => rfl
  | some b => dsimp only; split <;> rfl

theorem cleared_idle (s : State) (c : Nat) : s.cleared c Core.idle = Core.idle := rfl

theorem cleared_loose (s : State) (c : Nat) {k : Core} {b : Blk} (hb : k.blk = some b) (hl : b.loose = true) : s.cleared c k = k := by
  unfold State.cleared
  rw [hb]
  simp [hl]

theorem cleared_fixed {s : State} {c : Nat} {k : Core} {b : Blk} (hb : k.blk = some b) (hl : b.loose = false)
    (hsave : s.savedCore c = false) : s.cleared c k = k.clearBlock := by
  unfold State.cleared
  rw [hb]
  simp [hl, hsave]

/-- What an abort leaves of a state `u` whose slice is the aborted one. -/
structure State.Aborted (u t : State) : Prop where
  phase : t.sch.phase = .abort
  memory : u.sameMemory t
  replays : t.fab.replays = []
  home : t.fab.home = []
  cores : t.cores = u.cores.map fun p => (p.1, u.cleared p.1 p.2)
  ops : ∃ detected, t.ops = (u.ops.filter u.opKept).map (MemOp.unsend detected)
  host : t.host = u.host
  plat : t.plat = u.plat
  sch : ∃ filled, t.sch = { u.sch with phase := .abort, filled := filled }

theorem exec_abort (s : State) : ∃ t, exec .abort s = .next t ∧ s.atAbort.rollBack.Aborted t := by
  refine ⟨_, rfl, rfl, ⟨rfl, rfl, rfl⟩, rfl, rfl, ?_, ⟨_, rfl⟩, rfl, rfl, ⟨_, rfl⟩⟩
  exact List.map_congr_left fun p _ => cleared_pair _ p

/-! ### Operations through an abort -/

/-- A line counted as not sent leaves an operation its column, its block's kind and its landing. -/
theorem unsend_same (n : Nat) (o : MemOp) : (o.unsend n).col = o.col ∧ (o.unsend n).loose = o.loose ∧ (o.unsend n).done = o.done := by
  unfold MemOp.unsend
  dsimp only
  split <;> exact ⟨rfl, rfl, rfl⟩

theorem unsend_eq_of_remote_nil {n : Nat} {o : MemOp} (h : (o.unsend n).remote = []) : o.unsend n = o := by
  unfold MemOp.unsend at h ⊢
  dsimp only at h ⊢
  split
  · next hany =>
    rw [if_pos hany] at h
    simp [List.map_eq_nil_iff.1 h] at hany
  · rfl

theorem unsend_of_remote_nil {n : Nat} {o : MemOp} (h : o.remote = []) : o.unsend n = o := by
  simp [MemOp.unsend, h]

theorem opKept_nothing {u : State} {o : MemOp} (h : o.done = .nothing) : u.opKept o = (decide (1536 ≤ o.col) || o.loose) := by
  simp [State.opKept, h]

/-- An operation of a core that goes on through an abort, where none of the core is the save of a fixed block. -/
theorem opKept_cases {u : State} {o : MemOp} (h : u.opKept o = true) (hcol : o.col < 1536) (hsave : o.done ≠ .save true) :
    o.loose = true ∨ (∃ a, o.done = .restore a) ∨ ∃ n f l, o.done = .stage n f l := by
  unfold State.opKept at h
  split at h
  · next n f l hd => exact .inr (.inr ⟨n, f, l, hd⟩)
  · next a hd => exact .inr (.inl ⟨a, hd⟩)
  · next hd => exact absurd hd hsave
  · rw [decide_eq_false (by omega), Bool.false_or] at h
    exact .inl h

/-- A core none of whose operations is the save of a fixed block keeps none for its save. -/
theorem savedCore_eq_false {u : State} {c : Nat} (h : ∀ o ∈ u.ops, o.col = c → o.done ≠ .save true) : u.savedCore c = false := by
  refine List.any_eq_false.2 fun o ho hand => ?_
  obtain ⟨hc, hs⟩ := Bool.and_eq_true_iff.1 hand
  split at hs
  · next hd => exact h o ho (beq_iff_eq.1 hc) hd
  · exact Bool.false_ne_true hs

section
variable {u t : State} (ha : u.Aborted t)
include ha

theorem State.Aborted.core (c : Nat) : t.core c = u.cleared c (u.core c) := core_of_cores_map ha.cores (cleared_idle u c)

theorem State.Aborted.mem_ops {o : MemOp} (ho : o ∈ t.ops) :
    ∃ o', o' ∈ u.ops ∧ u.opKept o' = true ∧ o.col = o'.col ∧ o.loose = o'.loose ∧ o.done = o'.done := by
  obtain ⟨n, hops⟩ := ha.ops
  rw [hops] at ho
  obtain ⟨o', hmem, rfl⟩ := List.mem_map.1 ho
  obtain ⟨hu, hk⟩ := List.mem_filter.1 hmem
  exact ⟨o', hu, hk, unsend_same n o'⟩

/-- An operation without requests to other packages goes on as it is, or not at all. -/
theorem State.Aborted.mem_ops_local {o : MemOp} (hr : o.remote = []) : o ∈ t.ops ↔ o ∈ u.ops ∧ u.opKept o = true := by
  obtain ⟨n, hops⟩ := ha.ops
  rw [hops, List.mem_map, ← List.mem_filter]
  constructor
  · rintro ⟨o', ho', rfl⟩
    rwa [unsend_eq_of_remote_nil hr]
  · exact fun ho => ⟨o, ho, unsend_of_remote_nil hr⟩

/-- A fixed block is removed with what it had under way, but not the scratch it leaves. -/
theorem State.Aborted.fixed {c : Nat} {b : Blk} (hc : c < 1536) (hb : (u.core c).blk = some b) (hl : b.loose = false)
    (hsave : ∀ o ∈ u.ops, o.col = c → o.done ≠ .save true) :
    (t.core c).blk = none ∧ (t.core c).scratch = (u.core c).scratch ∧ (t.core c).runs = [] ∧ (t.core c).swr = []
      ∧ ∀ o ∈ t.ops, o.col = c → o.loose = true ∨ (∃ a, o.done = .restore a) ∨ ∃ n f l, o.done = .stage n f l := by
  rw [ha.core c, cleared_fixed hb hl (savedCore_eq_false hsave)]
  refine ⟨rfl, rfl, rfl, rfl, fun o ho hcol => ?_⟩
  obtain ⟨o', hmem, hk, hc', hl', hd'⟩ := ha.mem_ops ho
  rw [hl', hd']
  exact opKept_cases hk (by omega) (hsave o' hmem (by omega))

end

/-! ### The state whose slice is aborted -/

section
variable {s t : State} (h : s.heldFrom t)
include h

theorem State.heldFrom.sameMemory : s.sameMemory t := by obtain ⟨g, fab, rfl⟩ := h; exact ⟨rfl, rfl, rfl⟩
theorem State.heldFrom.cores : t.cores = s.cores := by obtain ⟨g, fab, rfl⟩ := h; rfl
theorem State.heldFrom.sch : t.sch = s.sch := by obtain ⟨g, fab, rfl⟩ := h; rfl
theorem State.heldFrom.host : t.host = s.host := by obtain ⟨g, fab, rfl⟩ := h; rfl

theorem State.heldFrom.mem_ops {o : MemOp} (ho : o ∈ t.ops) : ∃ o' ∈ s.ops, o'.col = o.col ∧ o'.done = o.done := by
  obtain ⟨g, fab, rfl⟩ := h
  obtain ⟨o', hmem, rfl⟩ := List.mem_map.1 ho
  exact ⟨o', hmem, rfl, rfl⟩

end

theorem atAbort_rollBack_core (s : State) (c : Nat) : s.atAbort.rollBack.core c = s.core c := by
  unfold State.core
  rw [(rollKeeps_rollBack _).cores, (heldFrom_atAbort s).cores]

theorem atAbort_rollBack_sameMemory (s : State) : s.sameMemory s.atAbort.rollBack :=
  sameMemory_trans (heldFrom_atAbort s).sameMemory (rollKeeps_rollBack _).memory

section
variable {s t : State} (ha : s.atAbort.rollBack.Aborted t)
include ha

theorem abort_sameMemory : s.sameMemory t := sameMemory_trans (atAbort_rollBack_sameMemory s) ha.memory

theorem abort_loose {c : Nat} {b : Blk} (hb : (s.core c).blk = some b) (hl : b.loose = true) : t.core c = s.core c := by
  rw [ha.core, atAbort_rollBack_core, cleared_loose _ c hb hl]

theorem abort_fixed {c : Nat} {b : Blk} (hc : c < 1536) (hb : (s.core c).blk = some b) (hl : b.loose = false)
    (hsave : ∀ o ∈ s.ops, o.col = c → o.done ≠ .save true) :
    (t.core c).blk = none ∧ (t.core c).scratch = (s.core c).scratch ∧ (t.core c).runs = [] ∧ (t.core c).swr = []
      ∧ ∀ o ∈ t.ops, o.col = c → o.loose = true ∨ (∃ a, o.done = .restore a) ∨ ∃ n f l, o.done = .stage n f l := by
  have hcore := atAbort_rollBack_core s c
  rw [← hcore] at hb ⊢
  refine ha.fixed hc hb hl fun o ho hcol => ?_
  obtain ⟨o', hmem, hc', hd'⟩ := (heldFrom_atAbort s).mem_ops ((rollKeeps_rollBack _).ops ▸ ho)
  exact hd' ▸ hsave o' hmem (hc'.trans hcol)

/-- Of the accesses without a request to another package, those of loose blocks and of the columns beyond the cores go on. -/
theorem abort_ops (hp : s.sch.phase = .fault) {o : MemOp} (hd : o.done = .nothing) (hr : o.remote = []) :
    o ∈ t.ops ↔ o ∈ s.ops ∧ (1536 ≤ o.col ∨ o.loose = true) := by
  rw [ha.mem_ops_local hr, (rollKeeps_rollBack _).ops, atAbort_of_ne_run (by rw [hp]; decide), opKept_nothing hd, Bool.or_eq_true,
    decide_eq_true_iff]

section
variable {f : SFault} {m : SliceMark} (hf : firstFault (s.sch.faults ++ s.sch.heard) = some f) (hm : s.sch.prior = some m)
include hf hm

theorem abort_later (hlt : m.frame < f.frame) :
    t.sch.active = s.sch.active ∧ t.sch.slice = s.sch.slice ∧ t.sch.inForce = s.sch.inForce ∧ t.sch.prior = some m := by
  have hheld := (heldFrom_atAbort s).sch
  obtain ⟨filled, hsch⟩ := ha.sch
  rw [hsch, rollBack_later (hheld ▸ hf) (hheld ▸ hm) hlt, hheld]
  exact ⟨rfl, rfl, rfl, hm⟩

theorem abort_earlier (hle : f.frame ≤ m.frame) : s.TakenUp m t := by
  have held := heldFrom_atAbort s
  obtain ⟨filled, hsch⟩ := ha.sch
  have hu := rollBack_earlier (held.sch ▸ hf) (held.sch ▸ hm) hle
  constructor <;> simp only [hsch, ha.plat, ha.host]
  · exact hu.active
  · exact hu.slice
  · exact hu.inForce
  · exact hu.attempts
  · exact hu.sliceTick
  · exact hu.main
  · exact hu.lastCounts
  · exact held.host ▸ hu.resumes
  · exact held.sch ▸ hu.consumed

end
end

end Sys2Proof.Machine
end

section
/-! PROOFS. Resynchronisation (R28, R45, R59 to R62, R97, R254, R256): what SYNC-A and SYNC-B leave, and each of its ends: a replay, an
alternate, a halt. -/

namespace Sys2Proof.Machine
open Sys2Proof

/-! ## Planes (R57, R256) -/

theorem downPlanes_allLive {s : State} (h : s.sch.planes = 0xFF) : s.downPlanes = [] := by
  rw [State.downPlanes, h]
  decide

/-- The planes but one. -/
theorem downPlanes_one {s : State} {q : Nat} (hq : q < 8) (h : s.sch.planes = ~~~(1#8 <<< q)) : s.downPlanes = [q] := by
  have hfilter : ∀ q < 8, ((List.range 8).filter fun p => !(~~~(1#8 <<< q)).getLsbD p) = [q] := by decide
  rw [State.downPlanes, h, hfilter q hq]

theorem liveAbove_one {q : Nat} (hq : q < 8) : liveAbove (~~~(1#8 <<< q)) q = (q + 1) % 8 := by
  have h : ∀ q < 8, liveAbove (~~~(1#8 <<< q)) q = (q + 1) % 8 := by decide
  exact h q hq

theorem liveAbove_lt (planes : BitVec 8) {p : Nat} (hp : p < 8) : liveAbove planes p < 8 := by
  unfold liveAbove
  cases h : ((List.range 8).map fun k => (p + 1 + k) % 8).find? fun q => planes.getLsbD q with
  | none => exact hp
  | some q =>
    obtain ⟨k, -, rfl⟩ := List.mem_map.1 (List.mem_of_find?_eq_some h)
    exact Nat.mod_lt _ (by decide)

/-- The plane that an entry of the map names once plane p is lost (R256). -/
def remapTo (m : BitVec 24) (planes : BitVec 8) (p e : Nat) : Nat :=
  if (m.extractLsb' (3 * e) 3).toNat = p then liveAbove planes p else (m.extractLsb' (3 * e) 3).toNat

theorem remap_eq_octal (m : BitVec 24) (planes : BitVec 8) (p : Nat) : remap m planes p = BitVec.ofNat 24 (octal (remapTo m planes p) 8) := rfl

theorem remapTo_lt (m : BitVec 24) (planes : BitVec 8) {p : Nat} (hp : p < 8) (e : Nat) : remapTo m planes p e < 8 := by
  unfold remapTo
  split
  · exact liveAbove_lt planes hp
  · exact (m.extractLsb' (3 * e) 3).isLt

/-- The rewritten map names in place of the lost plane the live one above it, and else what it named. -/
theorem remap_entry (m : BitVec 24) (planes : BitVec 8) {p e : Nat} (hp : p < 8) (he : e < 8) :
    (remap m planes p).extractLsb' (3 * e) 3 =
      if m.extractLsb' (3 * e) 3 = BitVec.ofNat 3 p then BitVec.ofNat 3 (liveAbove planes p) else m.extractLsb' (3 * e) 3 := by
  have hd := remapTo_lt m planes hp
  have hread : (remap m planes p).extractLsb' (3 * e) 3 = BitVec.ofNat 3 (remapTo m planes p e) := by
    apply BitVec.eq_of_toNat_eq
    rw [remap_eq_octal, BitVec.extractLsb'_toNat, BitVec.toNat_ofNat, Nat.mod_eq_of_lt (octal_lt hd 8), Nat.shiftRight_eq_div_pow,
      BitVec.toNat_ofNat]
    exact (octal_digit hd he).trans (Nat.mod_eq_of_lt (hd e)).symm
  have hname : (m.extractLsb' (3 * e) 3).toNat = p ↔ m.extractLsb' (3 * e) 3 = BitVec.ofNat 3 p := by
    rw [← BitVec.toNat_inj, BitVec.toNat_ofNat, Nat.mod_eq_of_lt hp]
  rw [hread, remapTo]
  by_cases h : (m.extractLsb' (3 * e) 3).toNat = p
  · rw [if_pos h, if_pos (hname.1 h)]
  · rw [if_neg h, if_neg (mt hname.2 h), BitVec.ofNat_toNat, BitVec.setWidth_eq]

theorem exec_syncA_allLive {s : State} (h : s.sch.planes = 0xFF) :
    exec .syncA s = .next { s with sch := { s.sch with phase := .syncA } } := by
  change execSyncA s = _
  rw [execSyncA, State.remapped, downPlanes_allLive h]
  rfl

theorem exec_syncA_oneDown {s : State} {q : Nat} (hq : q < 8) (h : s.sch.planes = ~~~(1#8 <<< q)) :
    ∃ m, exec .syncA s = .next { s with sch := { s.sch with phase := .syncA, planeMap := m } }
      ∧ ∀ e, e < 8 → m.extractLsb' (3 * e) 3 =
          if s.sch.planeMap.extractLsb' (3 * e) 3 = BitVec.ofNat 3 q then BitVec.ofNat 3 ((q + 1) % 8) else s.sch.planeMap.extractLsb' (3 * e) 3 := by
  refine ⟨s.remapped, rfl, fun e he => ?_⟩
  rw [State.remapped, downPlanes_one hq h, List.foldl_cons, List.foldl_nil, remap_entry _ _ hq he, h, liveAbove_one hq]

theorem exec_plane_live {s : State} {p : Nat} (hp : p < 8) (h : s.sch.planes.getLsbD p = true) :
    exec (.plane p) s = .next (State.faulted
      { s with sch := { s.sch with planes := s.sch.planes &&& ~~~BitVec.ofNat 8 (2 ^ p) } } .plane p) := by
  refine if_neg ?_
  simp [State.live, hp, h]

/-! ## SYNC-B (R59, R101) -/

theorem againFrame_active {s : State} {p : Part} {f : SFault} (hf : s.recordedFault = some f) (hp : s.part = some p)
    (ha : s.sch.active = true) : s.againFrame = some (p.sliceFirst s.sch.slice) := by
  simp [State.againFrame, hf, hp, ha]

theorem againFrame_vote {s : State} {f : SFault} (hf : s.recordedFault = some f) (hv : f.cause = .vote)
    (ha : s.sch.active = false) : s.againFrame = some f.frame := by
  cases hp : s.part <;> simp [State.againFrame, hf, hp, ha, hv]

/-- With no slice running, none whose vote failed and none that starts by the end of the next frame, none is to run again. -/
theorem againFrame_none {s : State} (ha : s.sch.active = false) (hv : ∀ f, s.recordedFault = some f → f.cause ≠ .vote)
    (hp : ∀ p, s.part = some p → s.sch.ended = true ∨ s.accord / 2048 + 1 < p.sliceFirst s.sch.slice) : s.againFrame = none := by
  unfold State.againFrame
  cases hf : s.recordedFault with
  | none => cases s.part <;> simp [ha]
  | some f =>
    have hv := hv f hf
    cases hpart : s.part with
    | none => simp [hv]
    | some p =>
      have hlate : ¬(s.sch.ended = false ∧ p.sliceFirst s.sch.slice ≤ s.frame + 1) := by
        rintro ⟨he, hle⟩
        rcases hp p hpart with h | h
        · simp [he] at h
        · exact absurd hle (Nat.not_le.2 h)
      simpa [ha, hv] using hlate

theorem exec_syncB_idle {s : State} (hp : s.part = none) (hplanes : s.sch.planes = 0xFF) (hfaults : s.sch.faults = [])
    (hheard : s.sch.heard = []) (hcores : s.cores = []) :
    exec .syncB s = .next { s with sch := { s.sch with phase := .syncB, locked := true, growth := 2048 } } := by
  have hf : s.recordedFault = none := by simp [State.recordedFault, firstFault, hfaults, hheard]
  have hagain : s.againFrame = none := by simp [State.againFrame, hp, hf]
  change execSyncB s = _
  simp only [execSyncB, hagain, hf, State.remapped, downPlanes_allLive hplanes, List.foldl_nil, hcores, List.map_nil]

/-- What SYNC-B leaves with a recorded fault. -/
theorem exec_syncB_recorded {s : State} {f : SFault} (hf : s.recordedFault = some f) :
    ∃ t, exec .syncB s = .next t ∧ t.sch.phase = .syncB ∧ t.sch.locked = true ∧ t.sch.faults = [f]
      ∧ (∀ p, s.part = some p → s.sch.active = true → t.sch.growth = s.accord + 2048 - 2048 * p.sliceFirst s.sch.slice)
      ∧ (s.sch.active = false → f.cause = .vote → t.sch.growth = s.accord + 2048 - 2048 * f.frame)
      ∧ s.sameMemory t ∧ t.ops = s.ops ∧ ∀ c, { t.core c with adms := (s.core c).adms } = s.core c := by
  have hgrow {n : Nat} (h : s.againFrame = some n) :
      (match s.againFrame with | some n => s.accord + 2048 - 2048 * n | none => 2048) = s.accord + 2048 - 2048 * n := by rw [h]
  refine ⟨_, rfl, rfl, rfl, ?_, fun p hp ha => hgrow (againFrame_active hf hp ha), fun ha hv => hgrow (againFrame_vote hf hv ha),
    ⟨rfl, rfl, rfl⟩, rfl, fun c => ?_⟩
  · dsimp only
    rw [hf]
  · rw [core_of_cores_map (s := s) (f := fun _ k => { k with adms := s.adms0 k.adms }) rfl rfl]

/-! ## The start of an attempt (R38, R45, R62) -/

/-- Where refresh starts, as an attempt at a slice of a part begins (R45). -/
def State.refreshedFor (s : State) (p : Option Part) (slice : Nat) : SMap 16 :=
  match p with
  | some q => if slice = 0 then q.refreshStart s.refreshed else s.refreshed
  | none => s.refreshed

theorem startRefresh_eq (s : State) : s.startRefresh = { s with refreshed := s.refreshedFor s.part s.sch.slice } := by
  unfold State.startRefresh State.refreshedFor
  cases s.part with
  | none => rfl
  | some p => dsimp only; split <;> rfl

/-- The schedule as an attempt begins. -/
def State.entered (s : State) (attempts : Nat) : Sched :=
  { s.sch with
    phase := .run, active := true, ended := false, sliceTick := s.now, attempts := attempts, next := none, votes := [], idleVotes := 0
    voted := false, faultBit := 0, islands := s.cores.map fun p => (p.1, p.2.islands), slopes := s.slope }

theorem treesAt_of_noChunks {s : State} (h : ∀ p, s.part = some p → p.noChunks s.sch.slice s.frame) : s.treesAt s.frame = [] := by
  unfold State.treesAt
  cases hp : s.part with
  | none => rfl
  | some p =>
    have hnone : ((List.range (p.section 5).2.1).filter fun i => p.collField i 4 4 == s.sch.slice && p.collFrame i == s.frame) = [] := by
      refine List.filter_eq_nil_iff.2 fun i hi hand => ?_
      obtain ⟨hslice, hframe⟩ := Bool.and_eq_true_iff.1 hand
      exact h p hp i (List.mem_range.1 hi) (beq_iff_eq.1 hslice) (beq_iff_eq.1 hframe)
    dsimp only
    rw [hnone]
    simp [dedupSorted, sortBy]

theorem unfiredChunks_of_noChunks {s : State} (h : ∀ p, s.part = some p → p.noChunks s.sch.slice s.frame) : s.unfiredChunks = s := by
  rw [State.unfiredChunks, treesAt_of_noChunks h, List.foldl_nil]

/-- With no chunk in the slice's frame, an attempt begins without a fault. -/
theorem enterRun_of_noChunks {s : State} (attempts : Nat) (h : ∀ p, s.part = some p → p.noChunks s.sch.slice s.frame) :
    s.enterRun attempts = { s with refreshed := s.refreshedFor s.part s.sch.slice, sch := s.entered attempts } := by
  have hstart : State.startRefresh { s with sch := s.entered attempts } =
      { s with refreshed := s.refreshedFor s.part s.sch.slice, sch := s.entered attempts } := startRefresh_eq _
  exact (congrArg State.unfiredChunks hstart).trans (unfiredChunks_of_noChunks h)

/-! ## Replay, alternate and halt (R28, R59 to R61) -/

/-- The state in which the schedule runs on after a resynchronisation, its fault recorded (R59). -/
def State.resynced (s : State) : State :=
  { s with sch := { s.sch with
    phase := .run, next := none, votes := [], idleVotes := 0, voted := false, faultBit := 0, faults := [], heard := [], raised := []
    synced := s.recordedFault.map fun f => (f, s.sch.attempts), recorded := s.recordedFault } }

theorem exec_replay_none {s : State} (ha : s.sch.active = false) (hagain : s.againFrame = none) : exec .replay s = .next s.resynced := by
  change execReplay s = _
  rw [execReplay, ha, hagain]
  rfl

/-- A slice boundary with no part to come and no alternate asked for opens the schedule in force. -/
theorem openSchedule_plain {s : State} (hpend : s.sch.pending = none) (halt : s.sch.altReq = none) :
    s.openSchedule = { s with sch := { s.sch with voted := false, absent := s.takeAbsent.sch.absent, absentNew := [] } } := by
  have hsub {u : State} (h : u.sch.altReq = none) : u.substitute = u := by rw [State.substitute, h]
  unfold State.openSchedule
  dsimp only [State.takeAbsent]
  rw [hpend]
  exact hsub halt

/-- The state in which the slice whose vote failed starts. -/
def State.voteAgain (s : State) : State :=
  { s.resynced with sch := { s.resynced.sch with absent := s.takeAbsent.sch.absent, absentNew := [] } }

theorem exec_replay_again {s : State} {n : Nat} (ha : s.sch.active = false) (hagain : s.againFrame = some n)
    (hpend : s.sch.pending = none) (halt : s.sch.altReq = none) : exec .replay s = .next (s.voteAgain.beginSlice 2) := by
  have hopen : s.resynced.openSchedule = s.voteAgain := openSchedule_plain (s := s.resynced) hpend halt
  change execReplay s = _
  rw [execReplay, ha, hagain]
  change Host.Outcome.next (State.beginSlice
    { s.resynced.openSchedule with sch := { s.resynced.openSchedule.sch with recorded := s.recordedFault } } 2) = _
  rw [hopen]
  rfl

/-- The slice that starts here begins as an attempt. -/
theorem beginSlice_here {s : State} {p : Part} (attempts : Nat) (hp : s.part = some p) (hended : s.sch.ended = false)
    (hfirst : p.sliceFirst s.sch.slice = s.frame) (hchunks : p.noChunks s.sch.slice s.frame) :
    ∃ islands, (s.beginSlice attempts).sch = { s.entered attempts with islands := islands }
      ∧ s.sameMemory (s.beginSlice attempts) ∧ (s.beginSlice attempts).ops = s.ops := by
  unfold State.beginSlice
  rw [hp]
  dsimp only
  rw [if_neg (by simp [hended, hfirst]), enterRun_of_noChunks attempts fun q hq => ?_]
  · exact ⟨_, rfl, ⟨rfl, rfl, rfl⟩, rfl⟩
  · exact Option.some.inj (hp.symm.trans hq) ▸ hchunks

/-- A slice whose vote failed starts as attempt 2 (log entry 74). -/
theorem exec_replay_vote {s : State} {f : SFault} {p : Part} (ha : s.sch.active = false) (hf : s.recordedFault = some f)
    (hv : f.cause = .vote) (hp : s.part = some p) (hpend : s.sch.pending = none) (halt : s.sch.altReq = none)
    (hended : s.sch.ended = false) (hfirst : p.sliceFirst s.sch.slice = s.frame) (hchunks : p.noChunks s.sch.slice s.frame) :
    ∃ t, exec .replay s = .next t ∧ t.sch.phase = .run ∧ t.sch.active = true ∧ t.sch.attempts = 2 ∧ t.sch.slice = s.sch.slice
      ∧ t.sch.recorded = some f ∧ t.sch.sliceTick = s.now ∧ t.sch.faults = [] ∧ s.sameMemory t ∧ t.ops = s.ops := by
  obtain ⟨islands, hsch, hmem, hops⟩ := beginSlice_here (s := s.voteAgain) 2 hp hended hfirst hchunks
  refine ⟨_, exec_replay_again ha (againFrame_vote hf hv ha) hpend halt, ?_⟩
  rw [hsch]
  exact ⟨rfl, rfl, rfl, rfl, hf, rfl, rfl, hmem, hops⟩


/-- The state in which a replay's slice starts again: islands and slope limits as its first attempt found them (log entry 32). -/
def State.rewound (s : State) : State :=
  (State.clearFaults { s with sch := { s.sch with recorded := s.recordedFault } }).restoreIslands.resumeAgain

theorem exec_replay_active {s : State} (ha : s.sch.active = true) (hchunks : ∀ p, s.part = some p → p.noChunks s.sch.slice s.frame) :
    exec .replay s = .next { s.rewound with
      refreshed := s.refreshedFor s.part s.sch.slice, sch := s.rewound.entered 2 } := by
  have hrun : s.rewound.enterRun 2 = _ := enterRun_of_noChunks (s := s.rewound) 2 hchunks
  change execReplay s = _
  rw [execReplay, ha]
  exact congrArg Host.Outcome.next hrun

/-- The state in which the slice of an alternate starts in place of the aborted one. -/
def State.onAlternate (s : State) (n j : Nat) : State :=
  State.clearFaults { s with sch := { s.sch with
    inForce := .alt n, slice := j, recorded := none, downed := if n < 8 then some n else s.sch.downed } }

theorem exec_alternate_active {s : State} {f : SFault} {n j : Nat} {p : Part} (ha : s.sch.active = true) (hf : s.recordedFault = some f)
    (hres : s.resolve f = .alternate (.alt n)) (halt : aGet s.sch.alts n = some p) (hstand : p.standIn s.mainSlice = some j)
    (hchunks : p.noChunks j s.frame) :
    exec .alternate s = .next { s.onAlternate n j with
      refreshed := s.refreshedFor (some p) j, sch := (s.onAlternate n j).entered 1 } := by
  have hpart : (s.onAlternate n j).part = some p := halt
  have hrun := enterRun_of_noChunks (s := s.onAlternate n j) 1 fun q hq => Option.some.inj (hpart.symm.trans hq) ▸ hchunks
  rw [hpart] at hrun
  have hbind : ((s.onAlternate n s.sch.slice).part.bind fun p => p.standIn s.mainSlice) = some j :=
    (congrArg (·.bind fun p => p.standIn s.mainSlice) halt).trans hstand
  change execAlternate s = _
  unfold execAlternate
  rw [hf]
  dsimp only
  rw [hres, ha, Bool.true_or]
  simp only [if_true]
  split
  · next i hi =>
    obtain rfl : j = i := Option.some.inj ((hbind).symm.trans hi)
    exact congrArg Host.Outcome.next hrun
  · next hi => exact absurd (hbind.symm.trans hi) (Option.some_ne_none j)

/-- The 32 bytes of the halt fault record (R61). -/
def State.haltBytes (s : State) (f : SFault) (path : Nat) : List Byte :=
  bytesOf 1 f.cause.code ++ bytesOf 1 path ++ bytesOf 2 f.pkg ++ bytesOf 1 (match f.cause with | .slack | .fslack | .plane => f.unit | _ => 0xFF)
    ++ bytesOf 1 s.sch.attempts ++ bytesOf 2 0 ++ bytesOf 4 s.sch.slice ++ bytesOf 4 s.mainSlice ++ bytesOf 8 f.time ++ bytesOf 8 f.tick

theorem haltRecord_eq (s : State) (f : SFault) (path : Nat) : s.haltRecord f path = BitVec.ofNat 256 (leOf (s.haltBytes f path)) := rfl

theorem haltRecord_field {s : State} {f : SFault} {path i n x : Nat} (h : i + n ≤ 32) (hx : ((s.haltBytes f path).drop i).take n = bytesOf n x) :
    (s.haltRecord f path).extractLsb' (8 * i) (8 * n) = BitVec.ofNat (8 * n) x := by
  have hpow : 256 ^ n = 2 ^ (8 * n) := Nat.pow_mul 2 8 n ▸ rfl
  rw [haltRecord_eq, extract_leOf _ h, hx, leOf_bytesOf, hpow]
  exact BitVec.eq_of_toNat_eq (by simp)

/-- With no core in use, HALT keeps and posts its record, and stops. -/
theorem exec_halt_noCores {s : State} {f : SFault} {n : Nat} (hf : s.recordedFault = some f) (hres : s.resolve f = .halt n) (hcores : s.cores = []) :
    exec .halt s = .next { s with
      sch := { s.sch with phase := .halt, active := false, haltRec := s.haltRecord f n, haltPath := some n }
      host := { s.host with waiting := s.host.waiting ++ [(3, smWrite [] 0 (bytesOf 32 (s.haltRecord f n).toNat), 0, 0)] } } := by
  have hwords : s.haltWords = s := by rw [State.haltWords, hcores, List.foldl_nil]
  change execHalt s = _
  unfold execHalt
  rw [hwords]
  simp only [hf, hres]
  rfl

/-! ## ABSENT (R254, R281) -/

theorem respond_eq_answered (s : State) (code : Nat) (results : List Byte) : s.respond code results = s.answered code results := by
  unfold State.respond State.answered State.req
  rfl

section
variable {s : State}

theorem exec_absent_late (h : s.req 0x10 8 < s.frame + 4) : exec .absent s = .next (s.answered 1 []) := by
  change execAbsent s = _
  unfold execAbsent
  rw [if_pos h, respond_eq_answered]

theorem exec_absent_elsewhere (h : s.frame + 4 ≤ s.req 0x10 8) (hs : s.sch.source = false) : exec .absent s = .next (s.answered 2 []) := by
  change execAbsent s = _
  unfold execAbsent
  rw [if_neg (Nat.not_lt.2 h), if_pos (by rw [hs]; rfl), respond_eq_answered]

theorem exec_absent_noted (h : s.frame + 4 ≤ s.req 0x10 8) (hs : s.sch.source = true) (hk : s.req 8 1 < s.podSize) :
    exec .absent s = .next (State.answered { s with sch := { s.sch with absentDue := s.sch.absentDue ++ [(s.req 8 1, s.req 0x10 8)] } } 0 []) := by
  change execAbsent s = _
  unfold execAbsent
  rw [if_neg (Nat.not_lt.2 h), if_neg (by rw [hs]; decide), if_neg (Nat.not_le.2 hk), respond_eq_answered]

end

/-- Settles O56, a lemma for each row from detection to the end of a resynchronisation. -/
theorem resyncComplete : Obligations.ResyncComplete := by
  unfold Obligations.ResyncComplete
  intro s restarted synced entered
  refine ⟨fun f hraised hdue howed => ?detection, ?abort, exec_syncA_allLive, fun q hq => exec_syncA_oneDown hq, exec_syncB_idle,
    fun f => exec_syncB_recorded, fun ha hv hp => exec_replay_none ha (againFrame_none ha hv hp),
    fun f p ha hf hv hp hpend halt hended hfirst => exec_replay_vote ha hf hv hp hpend halt hended hfirst, exec_replay_active,
    fun f n p j => exec_alternate_active, fun f n hf hres hcores => ?halt, fun p hp => exec_plane_live hp, fun k f hk hf => ?absent⟩
  case detection =>
    rw [exec_faultDetection_due hraised hdue howed]
    refine ⟨fun h => ?_, fun h => ?_, fun h => ?_⟩ <;> rw [h]
    · exact detect_run s [f]
    · rfl
    · rfl
  case abort =>
    obtain ⟨t, ht, ha⟩ := exec_abort s
    refine ⟨t, ht, ha.phase, abort_sameMemory ha, ha.replays, ha.home, fun c b => abort_loose ha, fun c b => abort_fixed ha,
      fun hp o => abort_ops ha hp, fun f m hf hm => ⟨abort_later ha hf hm, fun hle => ?_⟩⟩
    obtain ⟨hactive, hslice, hforce, hattempts, htick, hmain, hcounts, hresumes, hconsumed⟩ := abort_earlier ha hf hm hle
    exact ⟨hactive, hslice, hforce, hattempts, htick, hmain, hcounts, hresumes, hconsumed⟩
  case halt =>
    exact ⟨s.haltRecord f n, _, exec_halt_noCores hf hres hcores, haltRecord_field (i := 0) (n := 1) (by decide) rfl,
      haltRecord_field (i := 1) (n := 1) (by decide) rfl, haltRecord_field (i := 2) (n := 2) (by decide) rfl,
      haltRecord_field (i := 8) (n := 4) (by decide) rfl, haltRecord_field (i := 16) (n := 8) (by decide) rfl,
      haltRecord_field (i := 24) (n := 8) (by decide) rfl⟩
  case absent =>
    subst hk hf
    exact ⟨exec_absent_late, exec_absent_elsewhere, exec_absent_noted⟩

end Sys2Proof.Machine
end

section
/-! PROOFS. The fixed orders (R188, R197): for an associative operation the pairwise tree and the Kogge–Stone scan give the plain fold. -/

namespace Sys2Proof.Machine
open Sys2Proof

/-- The plain fold of the values present, in order; ε of none. -/
def foldPresent {α : Type} (comb : α → α → α) (xs : List (Option α)) : Option α := xs.foldl (ext comb) none

/-- The fold of the values of at most `d` positions, the last of them `t`. -/
def windowFold {α : Type} (comb : α → α → α) (xs : List (Option α)) (d t : Nat) : Option α :=
  foldPresent comb ((xs.take (t + 1)).drop (t + 1 - d))

/-- At each position the fold of its window of `d`: what the scan holds before its step of distance `d`. -/
def windows {α : Type} (comb : α → α → α) (xs : List (Option α)) (d : Nat) : List (Option α) :=
  (List.range xs.length).map (windowFold comb xs d)

section
variable {α : Type} (comb : α → α → α)

@[simp] theorem ext_none_left (b : Option α) : ext comb none b = b := rfl

@[simp] theorem ext_none_right (a : Option α) : ext comb a none = a := by cases a <;> rfl

theorem length_treeLevel (xs : List (Option α)) : (treeLevel comb xs).length = (xs.length + 1) / 2 := by
  induction xs using treeLevel.induct with
  | case1 x y l ih => simp only [treeLevel, List.length_cons, ih]; omega
  | case2 l h =>
    match l, h with
    | [], _ => simp [treeLevel]
    | [x], _ => simp [treeLevel]
    | x :: y :: l, h => exact (h x y l rfl).elim

@[simp] theorem length_windows (xs : List (Option α)) (d : Nat) : (windows comb xs d).length = xs.length := by simp [windows]

@[simp] theorem getElem_windows (xs : List (Option α)) (d : Nat) {t : Nat} (ht : t < (windows comb xs d).length) :
    (windows comb xs d)[t] = windowFold comb xs d t := by simp [windows]

/-- A window that reaches past the first position holds all up to its last. -/
theorem windowFold_of_lt (xs : List (Option α)) {d t : Nat} (h : t < d) : windowFold comb xs d t = foldPresent comb (xs.take (t + 1)) := by
  rw [windowFold, Nat.sub_eq_zero_of_le h, List.drop_zero]

theorem windowFold_one (xs : List (Option α)) {t : Nat} (ht : t < xs.length) : windowFold comb xs 1 t = xs[t] := by
  have hw : (xs.take (t + 1)).drop t = [xs[t]] := by
    rw [List.drop_take, Nat.add_sub_cancel_left, List.drop_eq_getElem_cons ht, List.take_succ_cons, List.take_zero]
  rw [windowFold, Nat.add_sub_cancel, hw]
  rfl

theorem windows_one (xs : List (Option α)) : windows comb xs 1 = xs :=
  List.ext_getElem (length_windows comb xs 1) fun t _ ht => by rw [getElem_windows, windowFold_one comb xs ht]

end

section
variable {α : Type} {comb : α → α → α} (hc : ∀ x y z, comb (comb x y) z = comb x (comb y z))
include hc

/-- With ε the operation stays associative, ε its identity. -/
theorem ext_assoc (a b c : Option α) : ext comb (ext comb a b) c = ext comb a (ext comb b c) := by
  match a, b, c with
  | none, _, _ => rfl
  | some _, none, _ => rfl
  | some _, some _, none => rfl
  | some x, some y, some z => exact congrArg some (hc x y z)

theorem foldl_ext (a : Option α) (xs : List (Option α)) : xs.foldl (ext comb) a = ext comb a (foldPresent comb xs) := by
  induction xs generalizing a with
  | nil => exact (ext_none_right comb a).symm
  | cons x xs ih => rw [foldPresent, List.foldl_cons, List.foldl_cons, ih, ih, ext_none_left, ext_assoc hc]

theorem foldPresent_cons (x : Option α) (xs : List (Option α)) : foldPresent comb (x :: xs) = ext comb x (foldPresent comb xs) := by
  rw [foldPresent, List.foldl_cons, ext_none_left, foldl_ext hc]

theorem foldPresent_append (xs ys : List (Option α)) :
    foldPresent comb (xs ++ ys) = ext comb (foldPresent comb xs) (foldPresent comb ys) :=
  List.foldl_append.trans (foldl_ext hc _ ys)

/-! ## The pairwise tree -/

/-- A level of the tree combines neighbours, so it keeps the fold. -/
theorem foldPresent_treeLevel (xs : List (Option α)) : foldPresent comb (treeLevel comb xs) = foldPresent comb xs := by
  induction xs using treeLevel.induct with
  | case1 x y l ih => rw [treeLevel, foldPresent_cons hc, ih, foldPresent_cons hc, foldPresent_cons hc, ext_assoc hc]
  | case2 l h => rw [treeLevel]; exact h

theorem treeGo_eq_foldPresent (k : Nat) (xs : List (Option α)) (hlen : xs.length ≤ 2 ^ k) : treeGo comb k xs = foldPresent comb xs := by
  induction k generalizing xs with
  | zero =>
    match xs, hlen with
    | [], _ => rfl
    | [x], _ => rfl
  | succ k ih =>
    have hhalf : (treeLevel comb xs).length ≤ 2 ^ k := by rw [length_treeLevel]; omega
    rw [treeGo, ih _ hhalf, foldPresent_treeLevel hc]

/-! ## The scan -/

/-- Two windows of `d` positions side by side make one of twice as many. -/
theorem windowFold_add (xs : List (Option α)) {d t : Nat} (h : d ≤ t) :
    ext comb (windowFold comb xs d (t - d)) (windowFold comb xs d t) = windowFold comb xs (d + d) t := by
  have hcut : xs.take (t - d + 1) = (xs.take (t + 1)).take (t - d + 1) := by rw [List.take_take, Nat.min_eq_left (by omega)]
  have hstart : t - d + 1 - d = t + 1 - (d + d) := by omega
  have hnext : t + 1 - d = t + 1 - (d + d) + (t - d + 1 - (t + 1 - (d + d))) := by omega
  rw [windowFold, windowFold, windowFold, ← foldPresent_append hc, hstart, hcut, List.drop_take, hnext, ← List.drop_drop,
    List.take_append_drop]

/-- A step at the distance of the windows doubles them. -/
theorem ksStep_windows (xs : List (Option α)) (d : Nat) : ksStep comb d (windows comb xs d) = windows comb xs (d + d) := by
  apply List.ext_getElem (by simp [ksStep])
  intro t _ _
  simp only [ksStep, List.getElem_zipWith, getElem_windows]
  by_cases hd : t < d
  · have ht : t < d + d := by omega
    rw [List.getElem_append_left (by simpa using hd), List.getElem_replicate, ext_none_left, windowFold_of_lt comb xs hd,
      windowFold_of_lt comb xs ht]
  · have hle : d ≤ t := Nat.le_of_not_lt hd
    simp only [List.getElem_append_right (as := List.replicate d none) (i := t) (by simpa using hle), List.length_replicate,
      getElem_windows, windowFold_add hc xs hle]

theorem ksScan_eq_windows (xs : List (Option α)) : ksScan comb xs = windows comb xs 128 := by
  have hstep (d : Nat) := ksStep_windows hc xs d
  calc ksScan comb xs = [1, 2, 4, 8, 16, 32, 64].foldl (fun y d => ksStep comb d y) (windows comb xs 1) := by rw [windows_one, ksScan]
    _ = windows comb xs 128 := by simp only [List.foldl_cons, List.foldl_nil, hstep, Nat.reduceAdd]

end

/-- Settles O29: a level of the tree keeps the fold and halves the length; a step of the scan doubles the window that each position folds. -/
theorem fixedOrdersFold : Obligations.FixedOrdersFold := by
  unfold Obligations.FixedOrdersFold
  intro comb xs hc hlen
  have htree : tree comb xs = foldPresent comb xs := treeGo_eq_foldPresent hc 12 xs (by omega)
  rw [ksScan_eq_windows hc]
  refine ⟨htree, length_windows comb xs 128, fun t ht => ?_⟩
  have hall : t < 128 := by omega
  rw [List.getElem?_eq_getElem (by simpa using ht), getElem_windows, windowFold_of_lt comb xs hall, foldPresent]

end Sys2Proof.Machine
end

section
/-! PROOFS. The statistics words of registers (R178 to R187, R417 to R419) and the identity laws of the empty triple (R180, R185). -/

namespace Sys2Proof.Machine
open Sys2Proof

section
variable {s : State} {c : Ctl} {d a b e : Opd} {v : View}

/-! ## Completion -/

/-- A word whose meaning has an effect and neither walk nor transfer, up to a known state after that effect. -/
theorem issue_next {uni : Bool} {us : List Use} (h : s.issuer c uni us = some v) {body : View → Except Trap Act} {chk : List Use} {a : Act}
    {t : State} (hb : body v = .ok a) (hw : a.walk = none) (hj : a.jump = none)
    (ht : a.post (v.after id id (v.moved (wordLen us))) = t) : issue s c uni us body (chk := chk) = .next t := by
  rw [issue_ok h hb hw hj _ chk, ht]

/-- A word that writes a triple for each active thread, once for all of them. -/
theorem statWord_done {us : List Use} (h : s.issuer c false (wr d :: us) = some v) (ln : Lane) (f : View → Nat → Tri) :
    statWord s c ln d us f = .next (v.laneDone false (wr d :: us) ln.unit ln.lat ln.occ ln.uLat ln.uOcc
      (v.threads.flatMap fun t => writeQ d t (f v t))) := by
  rw [statWord]
  exact issue_next h rfl rfl rfl (lane_after v ln ..)

theorem exec_stinit (h : s.issuer c false [wr d, rd a] = some v) :
    exec (.stinit c d a) s = .next (v.laneDone false [wr d, rd a] uLane 6 3 4 0
      (v.threads.flatMap fun t => writeQ d t (if a.isNone then Tri.empty else stacc Tri.empty (v.float a t)))) :=
  statWord_done h lnAlu _

theorem exec_stacc (h : s.issuer c false [wr d, rd a, rd b] = some v) :
    exec (.stacc c d a b) s = .next (v.laneDone false [wr d, rd a, rd b] uStat 18 6 18 6
      (v.threads.flatMap fun t => writeQ d t (stacc (v.triple a t) (v.float b t)))) :=
  statWord_done h lnStat _

theorem exec_stmrg (h : s.issuer c false [wr d, rd a, rd b] = some v) :
    exec (.stmrg c d a b) s = .next (v.laneDone false [wr d, rd a, rd b] uStat 18 6 18 6
      (v.threads.flatMap fun t => writeQ d t (mergeTri (v.triple a t) (v.triple b t)))) :=
  statWord_done h lnStat _

theorem exec_staccw (h : s.issuer c false [wr d, rd a, rd b, rd e] = some v) :
    exec (.staccw c d a b e) s = .next (v.laneDone false [wr d, rd a, rd b, rd e] uStat 18 6 18 6
      (v.threads.flatMap fun t => writeQ d t (staccw (v.triple a t) (v.float b t) (v.float e t)))) :=
  statWord_done h lnStat _

theorem exec_stfin (h : s.issuer c (runsOnce d) [wrN d 4, rd a, rd b] = some v) :
    exec (.stfin c d a b) s = .next (v.laneDone (runsOnce d) [wrN d 4, rd a, rd b] uStat 30 12 30 12
      ((v.doers d).flatMap fun t => writeRun d t (stfin (v.triple a t) (v.float b t)))) := by
  show execStfin c d a b s = _
  rw [execStfin]
  exact issue_next h rfl rfl rfl (lane_after v lnStfin ..)

/-- What STNORM gives a thread (R187): `e` is gamma, `e`+1 beta, `e`+2 eps. -/
def View.normalised (v : View) (a b e : Opd) (t : Nat) : Word :=
  normElem (v.float a t) (v.triple b t).mean (triRstd (v.triple b t) (v.nth e 2 t)) (v.nth e 0 t) (v.nth e 1 t)

theorem exec_stnorm_all (h : s.issuer c false [wr d, rd a, rd b, rdN e 3] = some v) (hd : runsOnce d = false) :
    exec (.stnorm c none d a b e) s = .next (v.laneDone false [wr d, rd a, rd b, rdN e 3] uStat 18 6 18 6
      (v.threads.flatMap fun t => writeTo d false t ((v.normalised a b e t).setWidth 64))) := by
  have hdoers : v.doers d = v.threads := by rw [View.doers, hd]; rfl
  show execStnorm c none d a b e s = _
  rw [execStnorm]
  refine issue_next h (a := v.perThread lnStat d false fun t => ((v.normalised a b e t).setWidth 64, 0)) rfl rfl rfl ?_
  rw [View.perThread, hd, lane_after, hdoers]
  simp only [flagW, if_true, List.append_nil]
  rfl

theorem exec_stnorm_shape (h : s.issuer c false [wr d, rd a, rd b, rdN e 3] = some v) {g : BitVec 3}
    (hg : (v.st.getG g.toNat).valid = true) :
    exec (.stnorm c (some g) d a b e) s = .next (v.laneDone false [wr d, rd a, rd b, rdN e 3] uStat 18 6 18 6
      ((v.threads.filter fun t => (v.st.getG g.toNat).o.toNat + t < (v.st.getG g.toNat).total.toNat).flatMap fun t =>
        writeTo d false t ((v.normalised a b e t).setWidth 64))) := by
  show execStnorm c (some g) d a b e s = _
  rw [execStnorm]
  refine issue_next h ?_ rfl rfl (lane_after v lnStat ..)
  simp only [hg, Bool.not_true, Bool.false_and, Bool.false_eq_true, if_false]
  rfl

end

/-! ## The empty triple -/

section
variable {q p : Tri}

theorem mergeTri_empty_left (hq : q.st.getLsbD 3 = true) : mergeTri q p = p := by rw [mergeTri, if_pos hq]

theorem mergeTri_empty_right (hq : q.st.getLsbD 3 = true) (hp : p.st.getLsbD 3 = false) : mergeTri p q = p := by
  rw [mergeTri, if_neg (Bool.eq_false_iff.mp hp), if_pos hq]

theorem read_of_empty (hq : q.st.getLsbD 3 = true) : q.read = Tri.empty := if_pos hq

theorem stacc_of_empty (hq : q.st.getLsbD 3 = true) (x : Word) : stacc q x = stacc Tri.empty x := by
  have hread : q.read = Tri.empty.read := read_of_empty hq
  simp only [stacc, hread]

theorem stfin_of_empty (hq : q.st.getLsbD 3 = true) (eps : Word) : stfin q eps = [cnan, cnan, cnan, cnan] := if_pos hq

/-- A sample of weight +0 or −0 leaves the triple alone (R182). -/
theorem staccw_zero (q : Tri) (x : Word) {w : Word} (hw : w = 0 ∨ w = 0x80000000) : staccw q x w = q := if_pos hw

/-- The status of an accumulation has no E bit (R184). -/
theorem statusAfter_nonempty (old : Word) (x : Option Word) (sum : Word × Flags) (mean m2 : Word) :
    (statusAfter old x sum mean m2).getLsbD 3 = false := by
  have bit3 (i j k : Bool) :
      ((if i then 1 else 0) ||| (if j then 2 else 0) ||| (if k then 4 else 0) : Word).getLsbD 3 = false := by
    revert i j k; decide
  exact bit3 _ _ _

theorem stacc_nonempty (q : Tri) (x : Word) : (stacc q x).st.getLsbD 3 = false := statusAfter_nonempty ..

end

/-- Settles O30: a lemma for each word, and the laws of the empty triple. -/
theorem statisticsWordsComplete : Obligations.StatisticsWordsComplete := by
  unfold Obligations.StatisticsWordsComplete
  refine ⟨fun s c d a b e v => ?_, fun q x => ?_⟩
  · exact ⟨exec_stinit, fun h => ⟨exec_stacc h, exec_stmrg h⟩, exec_staccw, exec_stfin,
      fun h => ⟨exec_stnorm_all h, fun g => exec_stnorm_shape h⟩⟩
  · exact ⟨fun hq p => ⟨mergeTri_empty_left hq, mergeTri_empty_right hq⟩, staccw_zero q x (.inl rfl), staccw_zero q x (.inr rfl),
      fun hq => ⟨stacc_of_empty hq x, stfin_of_empty hq⟩, stacc_nonempty q x⟩

end Sys2Proof.Machine
end

section
/-! PROOFS. The words of scratch: STLD, STST, TAGR and TAGW (R178 to R180, R196, R421, R424), GATH (R157, R387). -/

namespace Sys2Proof.Machine
open Sys2Proof

/-! ## Effects of a scratch access after the issue of its word -/

theorem scale_eq_slowdown (v : View) (once : Bool) : v.scale once = if once then 1 else v.slowdown := by
  cases once <;> rfl

/-- A write of some bytes is in flight after it. -/
theorem scratchWrite_bytes {bytes : List (Nat × Byte)} (hne : bytes ≠ []) (v : View) (g : Core → Core) (h : Blk → Blk) (f : Strand → Strand)
    (land row : Nat) (tags : List (Nat × Tag)) :
    v.scratchWrite land row bytes tags (v.after g h f)
      = v.after (fun k => { g k with swr := (g k).swr ++ [⟨v.seq, land, row, bytes, tags⟩] }) h f := by
  rw [View.scratchWrite, List.isEmpty_eq_false_iff.mpr hne]
  exact onCore_after v g h f _ fun _ _ => rfl

theorem scratchWrite_after (v : View) (g : Core → Core) (h : Blk → Blk) (f : Strand → Strand) (land row : Nat)
    (bytes : List (Nat × Byte)) (tags : List (Nat × Tag)) :
    v.scratchWrite land row bytes tags (v.after g h f) = v.after (fun k =>
      if bytes.isEmpty && tags.isEmpty then g k else { g k with swr := (g k).swr ++ [⟨v.seq, land, row, bytes, tags⟩] }) h f := by
  rw [View.scratchWrite]
  split
  · rfl
  · exact onCore_after v g h f _ fun _ _ => rfl

/-- A scratch access that writes registers: the port taken, its results and the access in flight (R139, R165). -/
theorem scratchRead_after (v : View) (once : Bool) (n : Nat) (us : List Use) (ws : List RegW) :
    v.access (v.now + v.structLat once n) (v.land (v.now + v.structLat once n) ws
      (v.occupy uScratch (v.structOcc once n) (v.after id id (v.moved (wordLen us))))) = v.scratchLoaded once n us ws id := by
  simp only [occupy_after, land_after, access_after, View.structLat, View.structOcc, scale_eq_slowdown]
  rfl

/-- A structured load of readable bytes. -/
theorem structLoad_after (v : View) (once : Bool) (n w : Nat) (us : List Use) (xs : List (Nat × Nat)) (ws : List RegW)
    (hbad : v.uncScratch w xs = []) :
    (v.structLoad once n w (wordLen us) xs ws).post (v.after id id (v.moved (wordLen us))) = v.scratchLoaded once n us ws id := by
  simp only [View.structLoad, hbad, List.isEmpty_nil, if_true]
  exact scratchRead_after v once n us ws

theorem structStore_after (v : View) (once : Bool) (n : Nat) (us : List Use) (bytes : List (Nat × Byte)) (tags : List (Nat × Tag)) :
    (v.structStore once n bytes tags).post (v.after id id (v.moved (wordLen us))) = v.scratchStored once n us bytes tags := by
  simp only [View.structStore, occupy_after, scratchWrite_after, access_after, View.structLat, View.structOcc, scale_eq_slowdown]
  rfl

theorem gather_after (v : View) (us : List Use) :
    v.command .gather (some (v.now + v.latency lnGather false)) none
        (v.occupy uGather (v.occupancy lnGather false) (v.after id id (v.moved (wordLen us))))
      = v.after (v.takes uGather (12 * v.slowdown)) id fun st =>
        v.commands .gather (some (v.now + 48 * v.slowdown)) none (v.moved (wordLen us) st) := by
  simp only [occupy_after, command_after, View.latency, View.occupancy, scale_eq_slowdown]
  rfl

/-! ## Checks -/

section
variable {v : View} {xs : List (Nat × Nat)}

theorem uncScratch_eq_nil {w : Nat} (h : ∀ p ∈ xs, v.core.badBytes p.2 w = false) : v.uncScratch w xs = [] := by
  rw [View.uncScratch, List.map_eq_nil_iff, List.filter_eq_nil_iff]
  intro p hp
  simp [h p hp]

theorem tagChecks_ok (h : ∀ p ∈ xs, p.2 < scratchSize ∧ v.b.heldByte p.2 = true) : v.tagChecks xs = .ok () := by
  have hnone : (xs.filterMap fun p => if p.2 < scratchSize && v.b.heldByte p.2 then none
      else some (p.1, Cause.apert, (BitVec.ofNat 64 (0xFE00000000000000 + p.2) : Addr))) = [] := by
    rw [List.filterMap_eq_nil_iff]
    intro p hp
    simp [h p hp]
  rw [View.tagChecks, hnone]
  rfl

end

/-! ## The words -/

/-- The threads of a list with the scratch offsets they name (R421, R424, R387). -/
def View.offsets (v : View) (a b : Opd) (ts : List Nat) : List (Nat × Nat) := ts.map fun t => (t, v.offBase a b t)

/-- The bytes a triple is stored in (R178, R180). -/
def storedTriple (q : Tri) : List Byte := if q.st.getLsbD 3 then bytesOf 16 (8 * 2 ^ 96) else triBytes q

/-- The bytes GATH.ST stores for threads with their offsets (R387). -/
def View.storedElems (v : View) (z : GSize) (e : Opd) (xs : List (Nat × Nat)) : List (Nat × Byte) :=
  xs.flatMap fun p => addressed p.2 (bytesOf (gsBytes z) (if z == .b64 then (v.quad false e p.1).toNat else (v.word e p.1).toNat))

section
variable {s : State} {c : Ctl} {d a b e : Opd} {n : Nat} {v : View}

theorem exec_stld (h : s.issuer c false [wr d, rd a, rd b] = some v) (hn : v.structured 16 (v.offsets a b v.threads) = .ok n)
    (hgood : ∀ p ∈ v.offsets a b v.threads, v.core.badBytes p.2 16 = false) :
    exec (.stld c d a b) s = .next (v.scratchLoaded false n [wr d, rd a, rd b]
      ((v.offsets a b v.threads).flatMap fun p => writeQ d p.1 (triOf (smNat v.core.scratch p.2 16))) id) := by
  show execStld c d a b s = _
  rw [execStld]
  refine issue_next h ?_ rfl rfl (structLoad_after v false n 16 _ _ _ (uncScratch_eq_nil hgood))
  exact congrArg (· >>= _) hn

theorem exec_stst (h : s.issuer c false [rd a, rd b, rd e] = some v) (hn : v.structured 16 (v.offsets a b v.threads) = .ok n) :
    exec (.stst c a b e) s = .next (v.scratchStored false n [rd a, rd b, rd e]
      ((v.offsets a b v.threads).flatMap fun p => addressed p.2 (storedTriple (v.triple e p.1))) []) := by
  show execStst c a b e s = _
  rw [execStst]
  refine issue_next h ?_ rfl rfl (structStore_after v false n ..)
  exact congrArg (· >>= _) hn

theorem exec_tagr (h : s.issuer c (runsOnce d) [wr d, rd a, rd b] = some v)
    (hok : ∀ p ∈ v.offsets a b (v.doers d), (p.2 < scratchSize ∧ v.b.heldByte p.2 = true) ∧ v.core.badTags.contains (p.2 / 64) = false) :
    exec (.tagr c d a b) s = .next (v.scratchLoaded (runsOnce d) 1 [wr d, rd a, rd b]
      ((v.offsets a b (v.doers d)).flatMap fun p => writeTo d false p.1 ((smGet v.core.stags (p.2 / 64)).setWidth 64)) id) := by
  have hchecks : v.tagChecks (v.offsets a b (v.doers d)) = .ok () := tagChecks_ok fun p hp => (hok p hp).1
  have hgood : (v.offsets a b (v.doers d)).filter (fun p => v.core.badTags.contains (p.2 / 64)) = [] := by
    rw [List.filter_eq_nil_iff]
    intro p hp
    rw [(hok p hp).2]
    exact Bool.false_ne_true
  show execTagr c d a b s = _
  rw [execTagr]
  refine issue_next h (congrArg (· >>= _) hchecks) rfl rfl ?_
  refine (if_pos ?_).trans (scratchRead_after v (runsOnce d) 1 ..)
  exact List.isEmpty_iff.mpr (List.map_eq_nil_iff.mpr hgood)

theorem exec_tagw (h : s.issuer c false [rd a, rd b, rd e] = some v)
    (hok : ∀ p ∈ v.offsets a b v.threads, p.2 < scratchSize ∧ v.b.heldByte p.2 = true) :
    exec (.tagw c a b e) s = .next (v.scratchStored false 1 [rd a, rd b, rd e] []
      ((v.offsets a b v.threads).map fun p => (p.2 / 64, tagWith (v.word e p.1)))) := by
  show execTagw c a b e s = _
  rw [execTagw]
  refine issue_next h ?_ rfl rfl (structStore_after v false 1 ..)
  exact congrArg (· >>= _) (tagChecks_ok hok)

theorem exec_gathLd (sx : Bool) {z : GSize} (h : s.issuer c false [wrT (z == .b64) d, rd a, rd b] = some v)
    (hchecks : v.gathChecks (gsBytes z) (v.offsets a b v.threads) = .ok ())
    (hgood : ∀ p ∈ v.offsets a b v.threads, v.core.badBytes p.2 (gsBytes z) = false) :
    exec (.gathLd c sx z d a b) s = .next (v.after (v.takes uGather (12 * v.slowdown)) id fun st =>
      v.owes (v.now + 48 * v.slowdown) ((v.offsets a b v.threads).flatMap fun p =>
          writeTo d (z == .b64) p.1 (BitVec.ofInt 64 (intOf sx (8 * gsBytes z) (smNat v.core.scratch p.2 (gsBytes z)))))
        (v.commands .gather (some (v.now + 48 * v.slowdown)) none (v.moved (wordLen [wrT (z == .b64) d, rd a, rd b]) st))) := by
  show execGathLd c sx z d a b s = _
  rw [execGathLd]
  refine issue_next h (congrArg (· >>= _) hchecks) rfl rfl ?_
  refine (if_pos (List.isEmpty_iff.mpr (uncScratch_eq_nil hgood))).trans ?_
  exact (congrArg (v.land _ _) (gather_after v _)).trans (land_after ..)

theorem exec_gathSt {z : GSize} (h : s.issuer c false [rd a, rd b, rdT (z == .b64) e] = some v)
    (hchecks : v.gathChecks (gsBytes z) (v.offsets a b v.threads) = .ok ()) (hne : v.storedElems z e (v.offsets a b v.threads) ≠ []) :
    exec (.gathSt c z a b e) s = .next (v.after (fun k =>
        { v.takes uGather (12 * v.slowdown) k with
          swr := (v.takes uGather (12 * v.slowdown) k).swr
            ++ [⟨v.seq, v.now + 48 * v.slowdown, 4, v.storedElems z e (v.offsets a b v.threads), []⟩] }) id fun st =>
      v.commands .gather (some (v.now + 48 * v.slowdown)) none (v.moved (wordLen [rd a, rd b, rdT (z == .b64) e]) st)) := by
  show execGathSt c z a b e s = _
  rw [execGathSt]
  refine issue_next h (congrArg (· >>= _) hchecks) rfl rfl ?_
  exact (congrArg (v.scratchWrite _ 4 _ []) (gather_after v _)).trans (scratchWrite_bytes hne ..)

end

/-- Settles O33: a lemma for each word. -/
theorem scratchWordsComplete : Obligations.ScratchWordsComplete := by
  unfold Obligations.ScratchWordsComplete
  exact ⟨fun s c d a b e n v => ⟨exec_stld, exec_stst, exec_tagr, exec_tagw⟩,
    fun s c sx z d a b e v => ⟨exec_gathLd sx, fun h hchecks hne => exec_gathSt h hchecks hne⟩⟩

end Sys2Proof.Machine
end

section
/-! PROOFS. Shape registers: where R209 places the packed rows of a checked shape (R205), and the words SHPUT, SHQ and SHSEG (R219 to R222). -/

namespace Sys2Proof.Machine
open Sys2Proof

/-! ## Packed rows (R209) -/

section
variable {g : ShapeReg} {r : Nat}

/-- A window entry that ends a sequence of a checked shape is at most T (R205). -/
theorem entry_succ_le_total (hg : g.consistent = true) {k : Nat} (hk : k < 63) (hj : g.w.toNat + k < g.seqs.toNat) :
    g.entry (k + 1) ≤ g.total.toNat := by
  simp only [ShapeReg.consistent, Bool.and_eq_true, List.all_eq_true, List.mem_range, decide_eq_true_eq] at hg
  obtain ⟨⟨⟨⟨-, hle⟩, -⟩, -⟩, -⟩ := hg
  refine hle (k + 1) ?_
  split <;> omega

theorem packed_eq_beyond_iff : g.packed r = .beyond ↔ g.total.toNat ≤ r := by
  unfold ShapeReg.packed
  split
  · simp [*]
  · dsimp only
    split <;> simp [*]

/-- A row found in a sequence lies between two neighbouring entries of the window, which bound sequence j of the shape. -/
theorem packed_inSeq {j f n x : Nat} (h : g.packed r = .inSeq j f n x) :
    ∃ k, k < 63 ∧ j = g.w.toNat + k ∧ j < g.seqs.toNat ∧ f = g.entry k ∧ n = g.entry (k + 1) ∧ f ≤ r ∧ r < n ∧ x = r := by
  unfold ShapeReg.packed at h
  split at h
  · cases h
  · dsimp only at h
    split at h
    · cases h
    · next k ks hks =>
      have hk := List.mem_filter.mp (hks ▸ List.mem_cons_self : k ∈ List.filter _ _)
      simp only [List.mem_range, Bool.and_eq_true, decide_eq_true_eq] at hk
      obtain ⟨hk63, ⟨hj, hf⟩, hn⟩ := hk
      cases h
      exact ⟨k, hk63, rfl, hj, rfl, rfl, hf, hn, rfl⟩

end

/-- Settles O32: a row is placed between neighbouring entries, and the check bounds the upper one by T. -/
theorem shapeRows : Obligations.ShapeRows := by
  unfold Obligations.ShapeRows
  intro g r hg _
  refine ⟨packed_eq_beyond_iff.symm, fun j f n x h => ?_⟩
  obtain ⟨k, hk, rfl, hj, rfl, rfl, hf, hn, hx⟩ := packed_inSeq h
  have hplace : g.w.toNat + k - g.w.toNat = k := Nat.add_sub_cancel_left ..
  rw [hplace]
  exact ⟨hx, hf, hn, entry_succ_le_total hg hk hj, Nat.le_add_right .., hj, rfl, rfl⟩

/-! ## SHPUT (R219) -/

section
variable {s : State} {c : Ctl} {n : BitVec 3} {d a b : Opd} {v : View}

/-- A word whose only effect is a result in flight. -/
theorem issue_owes {uni : Bool} {us : List Use} (h : s.issuer c uni us = some v) {body : View → Except Trap Act} {chk : List Use}
    {land : Nat} {ws : List RegW} (hb : body v = .ok { post := v.land land ws }) :
    issue s c uni us body (chk := chk) = .next (v.after id id fun st => v.owes land ws (v.moved (wordLen us) st)) :=
  issue_next h hb rfl rfl (land_after v id (v.moved (wordLen us)) land ws)

theorem exec_shputEnt (h : s.issuer c true [rd a, rd b] = some v) (hk : (v.word a v.leader).toNat ≤ 63)
    (hS : (v.st.getG n.toNat).w.toNat + (v.word a v.leader).toNat ≤ (v.st.getG n.toNat).seqs.toNat) :
    exec (.shputEnt c (.g n) a b) s = .next (v.after id id fun st =>
      v.owes (v.now + 4) [.shEnt n.toNat (v.word a v.leader).toNat (v.word b v.leader)] (v.moved (wordLen [rd a, rd b]) st)) := by
  show execShputEnt c (.g n) a b s = _
  rw [execShputEnt]
  refine issue_owes h ((if_neg (Nat.not_lt.mpr hk)).trans ?_)
  exact congrArg (fun p => Except.ok ({ post := p } : Act)) (if_neg (Nat.not_lt.mpr hS))

/-- An entry above S is dropped (R219), judged on w and S at issue: the model's choice (log entry 68). -/
theorem exec_shputEnt_dropped (h : s.issuer c true [rd a, rd b] = some v) (hk : (v.word a v.leader).toNat ≤ 63)
    (hS : (v.st.getG n.toNat).seqs.toNat < (v.st.getG n.toNat).w.toNat + (v.word a v.leader).toNat) :
    exec (.shputEnt c (.g n) a b) s = .next (v.after id id (v.moved (wordLen [rd a, rd b]))) := by
  show execShputEnt c (.g n) a b s = _
  rw [execShputEnt]
  exact issue_next h (if_neg (Nat.not_lt.mpr hk)) rfl rfl (congrFun (if_pos hS) _)

theorem exec_shputEnt_bound (h : s.issuer c true [rd a, rd b] = some v) (hk : 63 < (v.word a v.leader).toNat) :
    exec (.shputEnt c (.g n) a b) s = .next
      (({ s with seq := s.seq + 1 } : State).trap v.c v.i v.st.pc (wordLen [rd a, rd b]) { cause := .bound, threads := [v.leader] }) := by
  show execShputEnt c (.g n) a b s = _
  rw [execShputEnt, issue_spec h (chk := [rd a])]
  dsimp only
  rw [if_pos hk]
  rfl

theorem exec_shputOrg (h : s.issuer c true [rd b] = some v) :
    exec (.shputOrg c (.g n) b) s = .next (v.after id id fun st =>
      v.owes (v.now + 4) [.shOrg n.toNat (v.word b v.leader)] (v.moved (wordLen [rd b]) st)) := by
  show execShputOrg c (.g n) b s = _
  rw [execShputOrg]
  exact issue_owes h rfl

theorem exec_shputAdv (h : s.issuer c true [rd b] = some v) :
    exec (.shputAdv c (.g n) b) s = .next (v.after id id fun st =>
      v.owes (v.now + 4) [.shOrg n.toNat ((v.st.getG n.toNat).o + v.word b v.leader)] (v.moved (wordLen [rd b]) st)) := by
  show execShputAdv c (.g n) b s = _
  rw [execShputAdv]
  exact issue_owes h rfl

/-! ## SHQ and SHSEG (R220, R221) -/

theorem exec_shq {q : ShQuery} {f : Nat → Word} (h : s.issuer c (runsOnce d) [wr d, rd b] = some v)
    (hok : ∀ t ∈ v.doers d, (v.st.getG n.toNat).query q (v.word b t) = .ok (f t)) :
    exec (.shq c q d (.g n) b) s = .next (v.laneDone (runsOnce d) [wr d, rd b] uLane 6 3 4 0
      (v.results d false fun t => (f t).setWidth 64)) := by
  have hquery : (v.doers d).map (fun t => (t, (v.st.getG n.toNat).query q (v.word b t)))
      = (v.doers d).map fun t => (t, .ok (f t)) := List.map_congr_left fun t ht => by rw [hok t ht]
  have hnone : (v.doers d).filterMap (fun _ => (none : Option (Nat × Cause × Addr))) = [] :=
    List.filterMap_eq_nil_iff.mpr fun _ _ => rfl
  show execShq c q d (.g n) b s = _
  rw [execShq]
  refine issue_next h ?_ rfl rfl (lane_after v lnShq ..)
  dsimp only [gIx]
  rw [hquery, List.filterMap_map, List.flatMap_map]
  simp only [Function.comp_def, hnone]
  rfl

/-- What a form of SHSEG says of a row (R221). -/
def shsegHolds : ShForm → RowKind → Bool
  | .head, x => x.isFirst
  | .last, x => x.isLast
  | .inT, x => x != .beyond

theorem exec_shseg {form : ShForm} (h : s.issuer c false [wr d] = some v) (hvalid : (v.st.getG n.toNat).valid = true)
    (hplaced : ∀ t ∈ v.threads, (v.st.getG n.toNat).row t ≠ .lost) :
    exec (.shseg c form d (.g n)) s = .next (v.laneDone false [wr d] uCross 10 3 10 3 (v.threads.flatMap fun t =>
      writeTo d false t (if shsegHolds form ((v.st.getG n.toNat).row t) then 1 else 0))) := by
  have hlost : v.threads.filter (fun t => (v.st.getG n.toNat).row t == .lost) = [] := by
    simpa [List.filter_eq_nil_iff] using hplaced
  show execShseg c form d (.g n) s = _
  rw [execShseg]
  refine issue_next h ?_ rfl rfl (lane_after v lnCross ..)
  simp only [gIx, hvalid, hlost, Bool.not_true, Bool.false_and, List.isEmpty_nil, Bool.false_eq_true, if_false]
  cases form <;> rfl

end

/-- Settles O31: a lemma for each word and outcome. -/
theorem shapeWordsComplete : Obligations.ShapeWordsComplete := by
  unfold Obligations.ShapeWordsComplete
  exact fun s c q form n d a b v =>
    ⟨fun h => ⟨exec_shputEnt h, exec_shputEnt_dropped h, exec_shputEnt_bound h⟩, fun h => ⟨exec_shputOrg h, exec_shputAdv h⟩,
      fun f h hok => exec_shq h hok, fun h hvalid hplaced => by cases form <;> exact exec_shseg h hvalid hplaced⟩

end Sys2Proof.Machine
end

section
/-! PROOFS. The words of the matrix array (R224 to R247): MMA, MMAG and MMA.TRIO, MLDA, MZERO and MZERO.ALL, MDRN. -/

namespace Sys2Proof.Machine
open Sys2Proof

/-! ## Rising numbers -/

theorem mem_of_mem_insertBefore {α : Type} {key : α → Nat} {x y : α} {l : List α} (h : y ∈ sortBy.insertBefore key x l) : y = x ∨ y ∈ l := by
  induction l with
  | nil => simpa [sortBy.insertBefore] using h
  | cons z l ih =>
    rw [sortBy.insertBefore] at h
    split at h
    · simpa using h
    · rcases List.mem_cons.mp h with rfl | h
      · simp
      · rcases ih h with rfl | h <;> simp [*]

theorem mem_of_mem_sortBy {α : Type} {key : α → Nat} {y : α} {l : List α} (h : y ∈ sortBy key l) : y ∈ l := by
  induction l with
  | nil => exact h
  | cons x l ih =>
    rw [sortBy] at h
    split at h
    · simp_all
    · split at h
      · rcases List.mem_cons.mp h with rfl | h <;> simp_all
      · rcases mem_of_mem_insertBefore h with rfl | h <;> simp_all

theorem mem_of_mem_dedupSorted {x : Nat} {l : List Nat} (h : x ∈ dedupSorted l) : x ∈ l := by
  refine mem_of_mem_sortBy (key := fun n => n) ?_
  rw [dedupSorted] at h
  generalize sortBy (fun n => n) l = ys at h ⊢
  induction ys with
  | nil => exact h
  | cons y ys ih =>
    rw [List.foldr_cons] at h
    generalize hacc : List.foldr _ [] ys = acc at h ih
    cases acc with
    | nil => simp_all
    | cons z zs =>
      dsimp only at h
      split at h
      · exact List.mem_cons_of_mem _ (ih h)
      · exact (List.mem_cons.mp h).elim (fun h => h ▸ List.mem_cons_self) fun h => List.mem_cons_of_mem _ (ih h)

/-! ## Checks -/

section
variable {v : View} {b : Blk} {k : Core} {cls : MClass}

theorem whole_ok (h : v.entire) : v.whole = .ok () := by
  have hall : ∀ t ∈ List.range v.st.threads, v.on t = true := List.filter_eq_self.mp h
  have hnone : v.missing = [] := by
    rw [View.missing, List.filter_eq_nil_iff]
    intro t ht
    simp [hall t ht]
  rw [View.whole, hnone]
  rfl

theorem filterMap_eq_map_of_mem {α β : Type} {f : α → Option β} {g : α → β} {l : List α} (h : ∀ x ∈ l, f x = some (g x)) :
    l.filterMap f = l.map g := by
  induction l with
  | nil => rfl
  | cons x l ih =>
    obtain ⟨hx, hl⟩ := List.forall_mem_cons.mp h
    rw [List.filterMap_cons_some hx, List.map_cons, ih hl]

theorem causes_eq_nil_of_any {p : Nat → Bool} {rows : List Nat} {c : Cause} (h : ∀ i ∈ rows, p i = false) :
    (if rows.any p then [c] else []) = [] := if_neg (by simpa using h)

theorem ok_bind {ε α β : Type} (x : α) (f : α → Except ε β) : (Except.ok x >>= f) = f x := rfl

theorem worst1_nil (v : View) (addr : Addr) : v.worst1 [] addr = .ok () := rfl

theorem tagCauses_eq_nil {bad : Bool} {t : Tag} (h : goodTag bad (mAccepts cls) t) : tagCauses cls bad t = [] := by
  obtain ⟨hbad, hok, hformat⟩ := h
  simp [tagCauses, hbad, hok, hformat]

theorem aCauses_eq_nil {off : Nat} {rows : List Nat} (h : goodTile b k cls off rows) : aCauses b k cls off rows = [] := by
  obtain ⟨hheld, halign, htags⟩ := h
  simpa [aCauses, hheld, halign] using fun i hi => tagCauses_eq_nil (htags i hi)

theorem bCauses_eq_nil {slot : Nat} {own : Bool} (h : goodCrown b k cls slot own) : bCauses b k cls slot own = [] := by
  obtain ⟨hheld, hdata, htags⟩ := h
  have hgood : (own && k.badCrownData slot) = false := by cases own <;> simp_all
  simpa [bCauses, hheld, hgood] using fun j hj => tagCauses_eq_nil (htags j hj)

theorem slotCauses_eq_nil {slot : Nat} (h : slot ≤ 127) : slotCauses slot = [] := if_neg (Nat.not_lt.mpr h)

end

/-! ## Effects after the issue of a word -/

theorem matrixCommand_after (v : View) (us : List Use) (g : Core → Core) (lat : Nat) :
    v.matrixCommand lat (v.after g id (v.moved (wordLen us))) = v.after g id (v.matrixStrand us lat) := by
  rw [View.matrixCommand, command_after, onStrand_after]
  rfl

/-- A matrix word whose command is followed by a further effect. -/
theorem issue_matrix {s : State} {c : Ctl} {us : List Use} {v : View} (h : s.issuer c false us = some v) {body : View → Except Trap Act}
    {chk : List Use} {lat : Nat} {f : State → State} (hb : body v = .ok { post := andThen (v.matrixCommand lat) f }) :
    issue s c false us body (chk := chk) = .next (f (v.after id id (v.matrixStrand us lat))) :=
  issue_next h hb rfl rfl (congrArg f (matrixCommand_after ..))

/-- A matrix word that changes its core beside its block. -/
theorem issue_matrixCore {s : State} {c : Ctl} {us : List Use} {v : View} (h : s.issuer c false us = some v) {body : View → Except Trap Act}
    {chk : List Use} {lat : Nat} {g : Core → Core} (hg : ∀ (k : Core) b, g { k with blk := b } = { g k with blk := b })
    (hb : body v = .ok { post := andThen (v.matrixCommand lat) (v.onCore g) }) :
    issue s c false us body (chk := chk) = .next (v.after g id (v.matrixStrand us lat)) :=
  (issue_matrix h hb).trans (congrArg _ (onCore_after v id id _ g hg))

theorem zeroAccs_blk (v : View) (land : Nat) (marks : Bool) (as : List Nat) (k : Core) (b : Option Blk) :
    Core.zeroAccs { k with blk := b } v land marks as = { k.zeroAccs v land marks as with blk := b } := by
  induction as generalizing k with
  | nil => rfl
  | cons a as ih =>
    exact ih ((({ k with inc := if marks then k.inc &&& ~~~(1#4 <<< a) else k.inc }).setAcc a []).landAcc v.seq land a v.i marks)

/-! ## Products (R231 to R235) -/

section
variable {s : State} {c : Ctl} {cls : MClass} {d a b e : Opd} {v : View}

theorem exec_mma (h : s.issuer c false [rd a, rd b] = some v) (hentire : v.entire) (hmark : v.core.inc.getLsbD (accIx d) = false)
    (hslot : (v.word b v.leader).toNat ≤ 127) (htile : goodTile v.b v.core cls (v.word a v.leader).toNat (List.range 32))
    (hcrown : goodCrown v.b v.core cls (v.word b v.leader).toNat true) :
    exec (.mma c cls d a b) s = .next (v.after
      (fun k => k.startRun v cls (accIx d) (v.word a v.leader).toNat (allRows (v.word b v.leader).toNat) none none) id
      (v.matrixStrand [rd a, rd b] 72)) := by
  show execMma c cls d a b s = _
  rw [execMma]
  refine issue_matrixCore h (fun _ _ => rfl) ?_
  simp only [slotCauses_eq_nil hslot, aCauses_eq_nil htile, bCauses_eq_nil hcrown, hmark, whole_ok hentire, ite_self, List.append_nil,
    Bool.false_eq_true, if_false]
  rfl

/-- The rows of an access that lie below T (R215). -/
def ShapeReg.liveRows (g : ShapeReg) : List Nat := (List.range 32).filter fun i => g.row i != .beyond

theorem exec_mmag {entry : Nat → Nat} (h : s.issuer c false [rd a] = some v) (hentire : v.entire)
    (hmark : v.core.inc.getLsbD (accIx d) = false)
    (hplaced : ∀ i ∈ (v.st.getG (gIx b)).liveRows, ∃ j f m r, (v.st.getG (gIx b)).row i = .inSeq j f m r
      ∧ entry i = (v.st.getG (gIx b)).gtab.toNat % 2 ^ 56 + j)
    (hentry : ∀ i ∈ (v.st.getG (gIx b)).liveRows, entry i < scratchSize ∧ v.b.heldByte (entry i) = true ∧ v.core.badBytes (entry i) 1 = false
      ∧ goodCrown v.b v.core cls (smGet v.core.scratch (entry i)).toNat true)
    (hvalid : (v.st.getG (gIx b)).valid = true) (htable : (v.st.getG (gIx b)).flags.getLsbD 0 = true)
    (htile : goodTile v.b v.core cls (v.word a v.leader).toNat (v.st.getG (gIx b)).liveRows) :
    exec (.mmag c cls d a b) s = .next (v.after (fun k => k.startRun v cls (accIx d) (v.word a v.leader).toNat
        ((v.st.getG (gIx b)).liveRows.map fun i => (i, (smGet v.core.scratch (entry i)).toNat)) none none) id
      (v.matrixStrand [rd a] 72)) := by
  show execMmag c cls d a b s = _
  rw [execMmag]
  refine issue_matrixCore h (fun _ _ => rfl) ?_
  rw [whole_ok hentire, ok_bind]
  extract_lets off g rows found slots lost entryOut entryBad marked crowns checked
  rw [if_neg (by simp [g, hvalid, htable])]
  change ∀ i ∈ rows, ∃ j f m r, g.row i = .inSeq j f m r ∧ entry i = g.gtab.toNat % 2 ^ 56 + j at hplaced
  have hfound : ∀ i ∈ rows, found i = some (entry i) := by
    intro i hi
    obtain ⟨j, f, m, r, hrow, hat⟩ := hplaced i hi
    simp only [found, hrow, hat]
  have hlost : lost = [] := causes_eq_nil_of_any fun i hi => by
    obtain ⟨j, f, m, r, hrow, -⟩ := hplaced i hi
    simp [hrow]
  have hout : entryOut = [] := causes_eq_nil_of_any fun i hi => by simp [hfound i hi, hentry i hi]
  have hread : entryBad = [] := causes_eq_nil_of_any fun i hi => by simp [hfound i hi, hentry i hi]
  have hslots : slots = rows.map fun i => (i, (smGet v.core.scratch (entry i)).toNat) := by
    exact filterMap_eq_map_of_mem fun i hi => by simp only [hfound i hi, Option.map_some]
  have hcrowns : crowns = [] := by
    refine List.flatMap_eq_nil_iff.mpr fun x hx => ?_
    have hmem := mem_of_mem_dedupSorted hx
    rw [hslots, List.map_map] at hmem
    obtain ⟨i, hi, rfl⟩ := List.mem_map.mp hmem
    obtain ⟨-, -, -, hcrown⟩ := hentry i hi
    exact bCauses_eq_nil hcrown
  have hunmarked : marked = [] := if_neg (ne_true_of_eq_false hmark)
  have htiles : aCauses v.b v.core cls off rows = [] := aCauses_eq_nil htile
  simp only [checked, hlost, hout, hread, hunmarked, hcrowns, hslots, htiles, ite_self, List.append_nil]
  rfl

/-- A product of a trio started on one of its cores (R234, R237): uncorrectable data of another core's crown slot fails it there. -/
def View.startOn (v : View) (cls : MClass) (acc off slot n : Nat) (t : State) (x : Nat) : State :=
  t.modCore x fun k =>
    k.startRun v cls acc off (allRows slot) (some n) (if x ≠ v.c ∧ k.badCrownData slot = true then some v.now else none)

theorem exec_mmaTrio (h : s.issuer c false [rd a, rd b, rd e] = some v) (hentire : v.entire) (hslot : (v.word b v.leader).toNat ≤ 127)
    (hgood : ∀ x ∈ trioCores v.c, ∃ y, (s.core x).blk = some y ∧ (aGet y.clasps (v.word e v.leader).toNat).isSome = true
      ∧ (s.core x).inc.getLsbD (accIx d) = false ∧ goodTile y (s.core x) cls (v.word a v.leader).toNat (List.range 32)
      ∧ goodCrown y (s.core x) cls (v.word b v.leader).toNat (x == v.c)) :
    exec (.mmaTrio c cls d a b e) s = .next ((trioCores v.c).foldl
      (v.startOn cls (accIx d) (v.word a v.leader).toNat (v.word b v.leader).toNat (v.word e v.leader).toNat)
      (v.after id id (v.matrixStrand [rd a, rd b, rd e] 72))) := by
  obtain ⟨rfl, -⟩ := issuer_state h
  have hclasps : (trioCores v.c).flatMap (v.trioClasp (v.word e v.leader).toNat) = [] := by
    refine List.flatMap_eq_nil_iff.mpr fun x hx => ?_
    obtain ⟨y, hblk, hclasp, -⟩ := hgood x hx
    simp [View.trioClasp, hblk, Option.isNone_eq_false_iff.mpr hclasp]
  have hcauses (ka kb : Bool) : (trioCores v.c).flatMap
      (v.trioCauses cls (accIx d) (v.word a v.leader).toNat (v.word b v.leader).toNat ka kb) = [] := by
    refine List.flatMap_eq_nil_iff.mpr fun x hx => ?_
    obtain ⟨y, hblk, -, hmark, htile, hcrown⟩ := hgood x hx
    simp [View.trioCauses, hblk, hmark, aCauses_eq_nil htile, bCauses_eq_nil hcrown]
  show execMmaTrio c cls d a b e v.s = _
  rw [execMmaTrio]
  refine issue_matrix h (f := fun t => (trioCores v.c).foldl
    (v.startOn cls (accIx d) (v.word a v.leader).toNat (v.word b v.leader).toNat (v.word e v.leader).toNat) t) ?_
  simp only [slotCauses_eq_nil hslot, hclasps, hcauses, whole_ok hentire, ite_self, List.append_nil, bne_iff_ne, Bool.and_eq_true]
  rfl

end

/-! ## MLDA and MZERO (R229, R230) -/

section
variable {s : State} {c : Ctl} {d a b e : Opd} {v : View}

/-- The accumulator a tile of FP32 words in scratch gives (R228, R230). -/
def View.loaded (v : View) (off acc : Nat) : SMap 32 := (List.range 1024).filterMap fun i =>
  if BitVec.ofNat 32 (smNat v.core.scratch (off + 4 * i) 4) = 0 then none
  else some (1024 * acc + i, BitVec.ofNat 32 (smNat v.core.scratch (off + 4 * i) 4))

/-- The accumulator loaded on its core, its mark cleared, and its value in flight (R230). -/
def View.loadAcc (v : View) (off acc : Nat) (k : Core) : Core :=
  ({ k with inc := k.inc &&& ~~~(1#4 <<< acc) }.setAcc acc (v.loaded off acc)).landAcc v.seq (v.now + 46) acc v.i true

theorem exec_mlda (h : s.issuer c false [rd a] = some v) (hentire : v.entire) (halign : (v.word a v.leader).toNat % 64 = 0)
    (hsize : (v.word a v.leader).toNat + 4096 ≤ scratchSize) (hheld : v.b.heldRange (v.word a v.leader).toNat 4096 = true)
    (hgood : v.core.badBytes (v.word a v.leader).toNat 4096 = false)
    (htags : ∀ i, i < 64 → goodTag (v.core.badTags.contains ((v.word a v.leader).toNat / 64 + i)) (fun f => f == 0 || f == 1)
      (smGet v.core.stags ((v.word a v.leader).toNat / 64 + i))) :
    exec (.mlda c d a) s = .next (v.after
      (fun k => v.loadAcc (v.word a v.leader).toNat (accIx d) (k.occupy uMatrix (v.now + 32))) id (v.matrixStrand [rd a] 46)) := by
  have hrange : v.b.okScratch (v.word a v.leader).toNat 4096 = true := by simp [Blk.okScratch, hsize, hheld]
  show execMlda c d a s = _
  rw [execMlda]
  refine (issue_matrix h (lat := 46) (f := andThen (v.onCore fun k => k.occupy uMatrix (v.now + 32))
    (v.onCore (v.loadAcc (v.word a v.leader).toNat (accIx d)))) ?_).trans ?_
  · rw [whole_ok hentire, ok_bind, if_neg (by simp [issuer_knows h fun _ hu => hu])]
    extract_lets off causes take value load
    have hcauses : causes = [] := by
      refine (if_neg (ne_true_of_eq_false (congrArg not hrange))).trans ((if_neg (absurd halign)).trans ?_)
      refine List.flatMap_eq_nil_iff.mpr fun i hi => ?_
      obtain ⟨hbad, hok, hformat⟩ := htags i (List.mem_range.mp hi)
      exact (if_neg (by simp only [off, hbad, hok]; decide)).trans (if_pos hformat)
    rw [hcauses, worst1_nil, ok_bind]
    exact if_neg (ne_true_of_eq_false hgood)
  · rw [andThen, onCore_after _ _ _ _ _ fun _ _ => rfl, onCore_after _ _ _ _ _ fun _ _ => rfl]
    rfl

/-- MZERO and MZERO.ALL differ in the accumulators they clear (R229). -/
theorem issue_zero (h : s.issuer c false [] = some v) (hentire : v.entire) (as : List Nat) :
    issue s c false [] (fun v => do v.whole; .ok (v.zero as)) = .next (v.after
      (fun k => (k.occupy uMatrix (v.now + 3)).zeroAccs v (v.now + 6) true as) id (v.matrixStrand [] 6)) := by
  refine issue_matrixCore h (fun k b => zeroAccs_blk v _ _ _ (k.occupy _ _) b) ?_
  rw [whole_ok hentire]
  rfl

theorem exec_mzero (h : s.issuer c false [] = some v) (hentire : v.entire) :
    exec (.mzero c d) s = .next (v.after (fun k => (k.occupy uMatrix (v.now + 3)).zeroAccs v (v.now + 6) true [accIx d]) id
      (v.matrixStrand [] 6)) :=
  issue_zero h hentire [accIx d]

theorem exec_mzeroAll (h : s.issuer c false [] = some v) (hentire : v.entire) :
    exec (.mzeroAll c) s = .next (v.after (fun k => (k.occupy uMatrix (v.now + 3)).zeroAccs v (v.now + 6) true [0, 1, 2, 3]) id
      (v.matrixStrand [] 6)) :=
  issue_zero h hentire [0, 1, 2, 3]

end

/-! ## MDRN (R239 to R246) -/

/-- The triples a drain writes to its slots (R244). -/
def View.drainValues (v : View) (dr : Drain) : List (Nat × Tri) := if dr.stats then v.slotValues dr else []

/-- The drained elements (R243). -/
def View.drainElems (v : View) (dr : Drain) : Nat → Nat → Word :=
  v.drained dr (if dr.stats then v.drainValues dr else dr.slots.map fun u => (u, v.slotTriple dr u))

/-- What a drain leaves on its core beside its block: its copies and scratch slots in flight, its accumulators cleared. -/
def View.drainWrites (v : View) (dr : Drain) (k : Core) : Core :=
  let inSlots := if dr.inScratch then (v.drainValues dr).flatMap fun p => addressed (dr.slotBase + 16 * p.1) (triBytes p.2) else []
  let k := k.writesLater v.seq (v.now + 64) 3 ((dr.direct (v.drainElems dr)).1 ++ inSlots) (dr.direct (v.drainElems dr)).2
  let k := if dr.t then
      k.writesLater v.seq (v.now + 96) 3 (dr.transposed (v.drainElems dr)).1 (dr.transposed (v.drainElems dr)).2
    else k
  if dr.clr then k.zeroAccs v (v.now + 64) false (layoutAccs dr.layout dr.acc) else k

/-- What a drain leaves on its strand: its triples in registers, and its accumulators, in flight. -/
def View.drainResults (v : View) (dr : Drain) (st : Strand) : Strand :=
  let u := v.owes (v.now + 64) (if dr.inScratch then [] else (v.drainValues dr).map fun p => .q dr.q p.1 p.2) st
  if dr.clr then { u with pend := u.pend ++ [⟨v.seq, some (v.now + 64), true, []⟩] } else u

theorem writesLater_after (v : View) (g : Core → Core) (h : Blk → Blk) (f : Strand → Strand) (land row : Nat)
    (bytes : List (Nat × Byte)) (tags : List (Nat × Tag)) :
    v.scratchWrite land row bytes tags (v.after g h f) = v.after (fun k => (g k).writesLater v.seq land row bytes tags) h f :=
  scratchWrite_after ..

theorem drainEffect_after (v : View) (dr : Drain) (g : Core → Core) (f : Strand → Strand) :
    v.drainEffect dr (v.after g id f) = v.after (fun k => v.drainWrites dr (g k)) id fun st => v.drainResults dr (f st) := by
  have hclear (g : Core → Core) (f : Strand → Strand) :
      v.onCore (fun k => k.zeroAccs v (v.now + 64) false (layoutAccs dr.layout dr.acc)) (v.after g id f)
        = v.after (fun k => (g k).zeroAccs v (v.now + 64) false (layoutAccs dr.layout dr.acc)) id f :=
    onCore_after _ _ _ _ _ fun k b => zeroAccs_blk v _ _ _ k b
  unfold View.drainEffect View.drainWrites View.drainResults View.drainElems View.drainValues
  simp only [writesLater_after, land_after]
  cases dr.t <;> cases dr.clr <;>
    simp only [if_true, Bool.false_eq_true, if_false, onStrand_after, hclear, Strand.put]

section
variable {s : State} {c : Ctl} {sq clr t norm stats : Bool} {a b e : Opd} {v : View} {g : Option ShapeReg}

theorem exec_mdrn {dr : Drain} (h : s.issuer c false [rd b] = some v) (hentire : v.entire)
    (hg : (if e.isNone then none else some (v.st.getG (gIx e))) = g)
    (hdr : v.drain sq clr t norm stats (accIx a) (v.word b v.leader).toNat g = dr)
    (halign : (v.word b v.leader).toNat % 64 = 0) (hdesc : v.b.okScratch (v.word b v.leader).toNat 64 = true)
    (hread : v.core.badBytes (v.word b v.leader).toNat 64 = false)
    (hplaced : ∀ r, g = some r → r.valid = true ∧ ∀ i, i < dr.rows → r.row i ≠ .lost)
    (hlimits : dr.bad v.st.cur.nq v.st.threads = false) (hheld : dr.held v.b = true) (hinputs : v.drainUnc dr = false)
    (hmarks : ∀ x ∈ layoutAccs dr.layout dr.acc, v.core.inc.getLsbD x = false) :
    exec (.mdrn c sq clr t norm stats a b e) s = .next (v.after
      (fun k => v.drainWrites dr (k.occupy uMatrix (v.now + if t then 64 else 32))) id fun st =>
        v.drainResults dr (v.commands .matrix (some (v.now + if t then 96 else 64)) none (v.moved (wordLen [rd b]) st))) := by
  show execMdrn c sq clr t norm stats a b e s = _
  rw [execMdrn]
  refine issue_next h (a := { post := andThen (andThen (v.command .matrix (some (v.now + if t then 96 else 64)) none)
    (v.onCore fun k => k.occupy uMatrix (v.now + if t then 64 else 32))) (v.drainEffect dr) }) ?_ rfl rfl ?_
  · rw [whole_ok hentire, ok_bind]
    extract_lets desc lat busy issueIt unc r invalid drain lost marked checked
    have hr : r = g := hg
    have hdrain : drain = dr := (congrArg (v.drain sq clr t norm stats (accIx a) desc) hr).trans hdr
    have hknows : v.knows false [rd b] = true := issuer_knows h fun _ hu => hu
    have hvalid : invalid = false := by
      simp only [invalid, hr]
      cases g with
      | none => rfl
      | some x => exact congrArg not (hplaced x rfl).1
    have hfound : lost = false := by
      simp only [lost, hr, hdrain]
      cases g with
      | none => rfl
      | some x =>
        refine List.any_eq_false.mpr fun i hi => ?_
        simpa using (hplaced x rfl).2 i (List.mem_range.mp hi)
    have hunmarked : marked = false := by
      refine List.any_eq_false.mpr fun x hx => ?_
      rw [hdrain] at hx
      exact ne_true_of_eq_false (hmarks x hx)
    simp only [checked, desc, hvalid, hknows, hdesc, halign, hread, hdrain, hlimits, hheld, hfound, hunmarked, hinputs, worst1_nil, ok_bind,
      Bool.not_true, Bool.false_eq_true, if_true, if_false, List.append_nil]
    rfl
  · simp only [andThen]
    rw [command_after, onCore_after _ _ _ _ _ fun _ _ => rfl, drainEffect_after]
    rfl

end

/-- Settles O39: a lemma for each word. -/
theorem matrixWordsComplete : Obligations.MatrixWordsComplete := by
  unfold Obligations.MatrixWordsComplete
  refine ⟨fun s c cls d a b e v => ?_, fun s c sq clr t norm stats d a b e v hentire => ?_⟩
  · intro off slot n hentire hmark
    exact ⟨fun h => exec_mma h hentire hmark,
      fun h entry hplaced hentry hvalid htable htile => exec_mmag h hentire hmark hplaced hentry hvalid htable htile,
      fun h => exec_mmaTrio h hentire⟩
  · refine ⟨fun h => exec_mlda h hentire, fun h => ⟨exec_mzero h hentire, exec_mzeroAll h hentire⟩, fun h halign hdesc hread hplaced => ?_⟩
    exact exec_mdrn h hentire rfl rfl halign hdesc hread hplaced

end Sys2Proof.Machine
end
